-- ==== Sys2Proof/Word.lean ====
section
/-! DEFINITION. The words of the block: a cell of M, a byte of the sink, a 64-bit register, a descriptor.
Numbers are natural numbers (00_scope R9, R13); a bit vector stands where the spec fixes a width in bits. -/

namespace Sys2Proof

/-- One cell of work memory M, and one descriptor word (20_memory R60, 30_encoding R80). The width CELL_W = 32 is the
spec's own choice (00_scope R7, decision D5). -/
abbrev Word := BitVec 32

/-- One byte of the sink, and one entry of a move-to-front table (10_state R26, R30). -/
abbrev Byte := BitVec 8

/-- A 64-bit register (10_state R21, R24, R31, R35). -/
abbrev Word64 := BitVec 64

/-- One command descriptor, D[127:0] (30_encoding R80). The width DESC_W = 128 is the spec's own choice (00_scope R7,
decision D2). -/
abbrev Desc := BitVec 128

end Sys2Proof
end

