-- ==== Sys2Proof/Syntax.lean ====
section
/-! DEFINITION. The 28 commands as syntax, one constructor per row of spec/opcode_table.json (30_encoding R84),
with the operands each command uses and no others. -/

namespace Sys2Proof

/-- The four bit-buffer registers (10_state R21). Their number NBB = 4 is the spec's own choice (00_scope R7, decision
D4). -/
inductive BufReg where
  | b0 | b1 | b2 | b3
deriving DecidableEq, Repr, Inhabited

/-- The four code-table slots (10_state R31). Their number NCT = 4 is the spec's own choice (00_scope R7, decision D22). -/
inductive Slot where
  | ct0 | ct1 | ct2 | ct3
deriving DecidableEq, Repr, Inhabited

/-- The commands (30_encoding R84). `n` is the 7-bit count field as encoded (R82); `value` is VALUE = {W2, W1};
`a`, `b`, `c` are the operand words A, B, C (R83); `f` is the flag `all` or `final`. -/
inductive Instr where
  | sysNop
  | bbClr (bd : BufReg)
  | bbPushl (bd : BufReg) (n : BitVec 7) (value : Word64)
  | bbPushr (bd : BufReg) (n : BitVec 7) (value : Word64)
  | bbPulll (bd : BufReg) (n : BitVec 7)
  | bbPullr (bd : BufReg) (n : BitVec 7)
  | bbFlush (bd : BufReg) (f : Bool)
  | bbAppf (bd bs : BufReg)
  | saBuild (a b c : Word)
  | bwtFwd (a b c : Word)
  | bwtInv (a b c : Word)
  | mtfeRst
  | mtfeRun (a b c : Word)
  | mtfeDump (c : Word)
  | mtfdRst
  | mtfdRun (a b c : Word)
  | mtfdDump (c : Word)
  | htbBuild (t : Slot) (a b : Word)
  | htbPrior (t : Slot) (b : Word)
  | htbCanon (t : Slot) (a b : Word)
  | htbStore (t : Slot) (c : Word)
  | cheRst
  | cheSym (t : Slot) (a : Word)
  | cheBlock (f : Bool) (a b : Word)
  | chdRst
  | chdSetout (b c : Word)
  | chdPush (a : Word)
  | chdRun
deriving DecidableEq, Repr, Inhabited

/-- The operation selected by the op field, without operands (30_encoding R84). -/
inductive Opcode where
  | sysNop
  | bbClr | bbPushl | bbPushr | bbPulll | bbPullr | bbFlush | bbAppf
  | saBuild
  | bwtFwd | bwtInv
  | mtfeRst | mtfeRun | mtfeDump
  | mtfdRst | mtfdRun | mtfdDump
  | htbBuild | htbPrior | htbCanon | htbStore
  | cheRst | cheSym | cheBlock
  | chdRst | chdSetout | chdPush | chdRun
deriving DecidableEq, Repr, Inhabited

/-- The formats: names of sets of used fields (30_encoding R86). -/
inductive Format where
  | n | r | rv | rn | rf | rr | m3 | mc | tab | tb | tc | ta | fab | bc | a
deriving DecidableEq, Repr, Inhabited

end Sys2Proof
end

