-- ==== Sys2Proof/WellFormed.lean ====
section
/-! DEFINITION. When a command's operands are legal by themselves (30_encoding R85 (e) and (f)). -/

namespace Sys2Proof

/-- A count field is legal from 0 to 64 (30_encoding R82, R85 (e)). -/
def countOk (n : BitVec 7) : Bool := n.toNat ≤ 64

/-- The operand checks that make a descriptor illegal whatever the state is: n above 64, and BB.APPF with
bd = bs (30_encoding R85 (e), (f)). No other operand is restricted by its encoding; faults of the operand words
are RANGE and BOUNDS, raised by the commands. -/
def Instr.wf : Instr → Bool
  | .bbPushl _ n _ => countOk n
  | .bbPushr _ n _ => countOk n
  | .bbPulll _ n => countOk n
  | .bbPullr _ n => countOk n
  | .bbAppf bd bs => bd != bs
  | .sysNop | .bbClr _ | .bbFlush _ _ => true
  | .saBuild _ _ _ | .bwtFwd _ _ _ | .bwtInv _ _ _ => true
  | .mtfeRst | .mtfeRun _ _ _ | .mtfeDump _ => true
  | .mtfdRst | .mtfdRun _ _ _ | .mtfdDump _ => true
  | .htbBuild _ _ _ | .htbPrior _ _ | .htbCanon _ _ _ | .htbStore _ _ => true
  | .cheRst | .cheSym _ _ | .cheBlock _ _ _ => true
  | .chdRst | .chdSetout _ _ | .chdPush _ | .chdRun => true

end Sys2Proof
end

