-- ==== Sys2Proof/Decode.lean ====
section
/-! DEFINITION. From a 128-bit descriptor to a command and back (30_encoding R80 to R87), and the textual form of
a command (R89, R90). The decoder is total and rejects by name. -/

namespace Sys2Proof

/-! ### The layout -/

/-- The fields of a descriptor: those of W0 (30_encoding R82) and the operand words W1, W2, W3 (R80, R83). -/
structure Fields where
  op  : BitVec 8
  bd  : BitVec 2
  bs  : BitVec 2
  n   : BitVec 7
  f   : BitVec 1
  t   : BitVec 2
  rsv : BitVec 10
  w1  : Word
  w2  : Word
  w3  : Word
deriving DecidableEq, Repr, Inhabited

/-- Split a descriptor into its fields (30_encoding R80, R82). -/
def unpack (d : Desc) : Fields where
  op  := d.extractLsb' 0 8
  bd  := d.extractLsb' 8 2
  bs  := d.extractLsb' 10 2
  n   := d.extractLsb' 12 7
  f   := d.extractLsb' 19 1
  t   := d.extractLsb' 20 2
  rsv := d.extractLsb' 22 10
  w1  := d.extractLsb' 32 32
  w2  := d.extractLsb' 64 32
  w3  := d.extractLsb' 96 32

/-- Lay fields out as a descriptor, W3 first (30_encoding R80, R82). -/
def pack (x : Fields) : Desc :=
  x.w3 ++ x.w2 ++ x.w1 ++ x.rsv ++ x.t ++ x.f ++ x.n ++ x.bs ++ x.bd ++ x.op

/-! ### The opcode map (30_encoding R84) -/

def Opcode.code : Opcode → BitVec 8
  | .sysNop => 0x00
  | .bbClr => 0x10 | .bbPushl => 0x11 | .bbPushr => 0x12 | .bbPulll => 0x13
  | .bbPullr => 0x14 | .bbFlush => 0x15 | .bbAppf => 0x16
  | .saBuild => 0x20
  | .bwtFwd => 0x30 | .bwtInv => 0x31
  | .mtfeRst => 0x40 | .mtfeRun => 0x41 | .mtfeDump => 0x42
  | .mtfdRst => 0x50 | .mtfdRun => 0x51 | .mtfdDump => 0x52
  | .htbBuild => 0x60 | .htbPrior => 0x61 | .htbCanon => 0x62 | .htbStore => 0x63
  | .cheRst => 0x70 | .cheSym => 0x71 | .cheBlock => 0x72
  | .chdRst => 0x80 | .chdSetout => 0x81 | .chdPush => 0x82 | .chdRun => 0x83

/-- Every operation, in the order of the opcode map (30_encoding R84). -/
def Opcode.all : List Opcode :=
  [.sysNop, .bbClr, .bbPushl, .bbPushr, .bbPulll, .bbPullr, .bbFlush, .bbAppf, .saBuild, .bwtFwd, .bwtInv,
   .mtfeRst, .mtfeRun, .mtfeDump, .mtfdRst, .mtfdRun, .mtfdDump, .htbBuild, .htbPrior, .htbCanon, .htbStore,
   .cheRst, .cheSym, .cheBlock, .chdRst, .chdSetout, .chdPush, .chdRun]

/-- The operation an op field selects; none for an unassigned opcode (30_encoding R84, R85 (b)). -/
def Opcode.ofCode (c : BitVec 8) : Option Opcode := Opcode.all.find? (fun o => o.code == c)

/-- The format column of the opcode map (30_encoding R84). -/
def Opcode.format : Opcode → Format
  | .sysNop | .mtfeRst | .mtfdRst | .cheRst | .chdRst | .chdRun => .n
  | .bbClr => .r
  | .bbPushl | .bbPushr => .rv
  | .bbPulll | .bbPullr => .rn
  | .bbFlush => .rf
  | .bbAppf => .rr
  | .saBuild | .bwtFwd | .bwtInv | .mtfeRun | .mtfdRun => .m3
  | .mtfeDump | .mtfdDump => .mc
  | .htbBuild | .htbCanon => .tab
  | .htbPrior => .tb
  | .htbStore => .tc
  | .cheSym => .ta
  | .cheBlock => .fab
  | .chdSetout => .bc
  | .chdPush => .a

/-- Which fields and words a format uses (30_encoding R86). -/
structure Uses where
  bd : Bool := false
  bs : Bool := false
  n  : Bool := false
  f  : Bool := false
  t  : Bool := false
  w1 : Bool := false
  w2 : Bool := false
  w3 : Bool := false
deriving DecidableEq, Repr, Inhabited

/-- The used fields and words of each format (30_encoding R86). -/
def Format.uses : Format → Uses
  | .n   => {}
  | .r   => { bd := true }
  | .rv  => { bd := true, n := true, w1 := true, w2 := true }
  | .rn  => { bd := true, n := true }
  | .rf  => { bd := true, f := true }
  | .rr  => { bd := true, bs := true }
  | .m3  => { w1 := true, w2 := true, w3 := true }
  | .mc  => { w3 := true }
  | .tab => { t := true, w1 := true, w2 := true }
  | .tb  => { t := true, w2 := true }
  | .tc  => { t := true, w3 := true }
  | .ta  => { t := true, w1 := true }
  | .fab => { f := true, w1 := true, w2 := true }
  | .bc  => { w2 := true, w3 := true }
  | .a   => { w1 := true }

/-- The mask of W0 printed for each format (30_encoding R86). -/
def Format.maskW0 : Format → Word
  | .n   => 0xFFFFFFFF
  | .r   => 0xFFFFFCFF
  | .rv  => 0xFFF80CFF
  | .rn  => 0xFFF80CFF
  | .rf  => 0xFFF7FCFF
  | .rr  => 0xFFFFF0FF
  | .m3  => 0xFFFFFFFF
  | .mc  => 0xFFFFFFFF
  | .tab => 0xFFCFFFFF
  | .tb  => 0xFFCFFFFF
  | .tc  => 0xFFCFFFFF
  | .ta  => 0xFFCFFFFF
  | .fab => 0xFFF7FFFF
  | .bc  => 0xFFFFFFFF
  | .a   => 0xFFFFFFFF

/-- An unused word contributes all ones to the 128-bit mask, a used word zeros (30_encoding R86). -/
def maskOfWord (used : Bool) : Word := if used then 0 else 0xFFFFFFFF

/-- The 128-bit mask of an operation's row in the opcode table (30_encoding R86, spec/opcode_table.json). -/
def Opcode.mask (o : Opcode) : Desc :=
  maskOfWord o.format.uses.w3 ++ maskOfWord o.format.uses.w2 ++ maskOfWord o.format.uses.w1 ++ o.format.maskW0

/-- The 128-bit match of an operation's row: its opcode, every other bit 0 (30_encoding R86). -/
def Opcode.matchBits (o : Opcode) : Desc := o.code.setWidth 128

/-! ### Operand selectors -/

def BufReg.ofBits (x : BitVec 2) : BufReg :=
  if x = 0 then .b0 else if x = 1 then .b1 else if x = 2 then .b2 else .b3

def BufReg.bits : BufReg → BitVec 2
  | .b0 => 0 | .b1 => 1 | .b2 => 2 | .b3 => 3

def Slot.ofBits (x : BitVec 2) : Slot :=
  if x = 0 then .ct0 else if x = 1 then .ct1 else if x = 2 then .ct2 else .ct3

def Slot.bits : Slot → BitVec 2
  | .ct0 => 0 | .ct1 => 1 | .ct2 => 2 | .ct3 => 3

def flagOfBit (x : BitVec 1) : Bool := x == 1

def flagBit (b : Bool) : BitVec 1 := if b then 1 else 0

/-- VALUE = {W2, W1} (30_encoding R83). -/
def valueOf (w2 w1 : Word) : Word64 := w2 ++ w1

/-! ### Decoding -/

/-- Why a descriptor is illegal, the six cases of 30_encoding R85. All of them raise ILLEGAL; the name of the
case is the model's own. -/
inductive DecodeError where
  /-- R85 (a): W0[31:22] is not 0. -/
  | reservedBits
  /-- R85 (b): op is not one of the 28 opcodes. -/
  | unassignedOpcode
  /-- R85 (c): a field of W0 that the command does not use is not 0. -/
  | unusedField
  /-- R85 (d): a word that the command does not use is not 0. -/
  | unusedWord
  /-- R85 (e): the command uses n and n is above 64. -/
  | countAbove64
  /-- R85 (f): BB.APPF with bd = bs. -/
  | sameRegister
deriving DecidableEq, Repr, Inhabited

/-- Some field of W0 is not used and not 0 (30_encoding R85 (c)). -/
def Uses.strayField (u : Uses) (x : Fields) : Bool :=
  (!u.bd && x.bd != 0) || (!u.bs && x.bs != 0) || (!u.n && x.n != 0) || (!u.f && x.f != 0) || (!u.t && x.t != 0)

/-- Some operand word is not used and not 0 (30_encoding R85 (d)). -/
def Uses.strayWord (u : Uses) (x : Fields) : Bool :=
  (!u.w1 && x.w1 != 0) || (!u.w2 && x.w2 != 0) || (!u.w3 && x.w3 != 0)

/-- The command of an operation and its fields (30_encoding R83, R84). -/
def Opcode.build (o : Opcode) (x : Fields) : Instr :=
  match o with
  | .sysNop => .sysNop
  | .bbClr => .bbClr (.ofBits x.bd)
  | .bbPushl => .bbPushl (.ofBits x.bd) x.n (valueOf x.w2 x.w1)
  | .bbPushr => .bbPushr (.ofBits x.bd) x.n (valueOf x.w2 x.w1)
  | .bbPulll => .bbPulll (.ofBits x.bd) x.n
  | .bbPullr => .bbPullr (.ofBits x.bd) x.n
  | .bbFlush => .bbFlush (.ofBits x.bd) (flagOfBit x.f)
  | .bbAppf => .bbAppf (.ofBits x.bd) (.ofBits x.bs)
  | .saBuild => .saBuild x.w1 x.w2 x.w3
  | .bwtFwd => .bwtFwd x.w1 x.w2 x.w3
  | .bwtInv => .bwtInv x.w1 x.w2 x.w3
  | .mtfeRst => .mtfeRst
  | .mtfeRun => .mtfeRun x.w1 x.w2 x.w3
  | .mtfeDump => .mtfeDump x.w3
  | .mtfdRst => .mtfdRst
  | .mtfdRun => .mtfdRun x.w1 x.w2 x.w3
  | .mtfdDump => .mtfdDump x.w3
  | .htbBuild => .htbBuild (.ofBits x.t) x.w1 x.w2
  | .htbPrior => .htbPrior (.ofBits x.t) x.w2
  | .htbCanon => .htbCanon (.ofBits x.t) x.w1 x.w2
  | .htbStore => .htbStore (.ofBits x.t) x.w3
  | .cheRst => .cheRst
  | .cheSym => .cheSym (.ofBits x.t) x.w1
  | .cheBlock => .cheBlock (flagOfBit x.f) x.w1 x.w2
  | .chdRst => .chdRst
  | .chdSetout => .chdSetout x.w2 x.w3
  | .chdPush => .chdPush x.w1
  | .chdRun => .chdRun

/-- The two checks of an instruction's own operands, by name (30_encoding R85 (e), (f)). -/
def checkOperands (i : Instr) : Except DecodeError Instr :=
  if i.wf then .ok i
  else match i with
    | .bbAppf _ _ => .error .sameRegister
    | _ => .error .countAbove64

/-- Read fields as a command, or say which case of 30_encoding R85 makes them illegal. -/
def decodeFields (x : Fields) : Except DecodeError Instr :=
  if x.rsv ≠ 0 then .error .reservedBits
  else match Opcode.ofCode x.op with
    | none => .error .unassignedOpcode
    | some o =>
      if o.format.uses.strayField x then .error .unusedField
      else if o.format.uses.strayWord x then .error .unusedWord
      else checkOperands (o.build x)

/-- The command a descriptor is, or why it is illegal (30_encoding R84 to R87). -/
def decode (d : Desc) : Except DecodeError Instr := decodeFields (unpack d)

/-! ### Encoding -/

def Instr.opcode : Instr → Opcode
  | .sysNop => .sysNop
  | .bbClr _ => .bbClr
  | .bbPushl _ _ _ => .bbPushl
  | .bbPushr _ _ _ => .bbPushr
  | .bbPulll _ _ => .bbPulll
  | .bbPullr _ _ => .bbPullr
  | .bbFlush _ _ => .bbFlush
  | .bbAppf _ _ => .bbAppf
  | .saBuild _ _ _ => .saBuild
  | .bwtFwd _ _ _ => .bwtFwd
  | .bwtInv _ _ _ => .bwtInv
  | .mtfeRst => .mtfeRst
  | .mtfeRun _ _ _ => .mtfeRun
  | .mtfeDump _ => .mtfeDump
  | .mtfdRst => .mtfdRst
  | .mtfdRun _ _ _ => .mtfdRun
  | .mtfdDump _ => .mtfdDump
  | .htbBuild _ _ _ => .htbBuild
  | .htbPrior _ _ => .htbPrior
  | .htbCanon _ _ _ => .htbCanon
  | .htbStore _ _ => .htbStore
  | .cheRst => .cheRst
  | .cheSym _ _ => .cheSym
  | .cheBlock _ _ _ => .cheBlock
  | .chdRst => .chdRst
  | .chdSetout _ _ => .chdSetout
  | .chdPush _ => .chdPush
  | .chdRun => .chdRun

/-- Fields that are all 0 but for the op field. -/
def Fields.ofOp (o : Opcode) : Fields :=
  { op := o.code, bd := 0, bs := 0, n := 0, f := 0, t := 0, rsv := 0, w1 := 0, w2 := 0, w3 := 0 }

/-- The fields of a command; everything unused is 0 (30_encoding R84, R85). -/
def Instr.fields (i : Instr) : Fields :=
  let z := Fields.ofOp i.opcode
  match i with
  | .sysNop | .mtfeRst | .mtfdRst | .cheRst | .chdRst | .chdRun => z
  | .bbClr bd => { z with bd := bd.bits }
  | .bbPushl bd n v => { z with bd := bd.bits, n := n, w1 := v.extractLsb' 0 32, w2 := v.extractLsb' 32 32 }
  | .bbPushr bd n v => { z with bd := bd.bits, n := n, w1 := v.extractLsb' 0 32, w2 := v.extractLsb' 32 32 }
  | .bbPulll bd n => { z with bd := bd.bits, n := n }
  | .bbPullr bd n => { z with bd := bd.bits, n := n }
  | .bbFlush bd f => { z with bd := bd.bits, f := flagBit f }
  | .bbAppf bd bs => { z with bd := bd.bits, bs := bs.bits }
  | .saBuild a b c => { z with w1 := a, w2 := b, w3 := c }
  | .bwtFwd a b c => { z with w1 := a, w2 := b, w3 := c }
  | .bwtInv a b c => { z with w1 := a, w2 := b, w3 := c }
  | .mtfeRun a b c => { z with w1 := a, w2 := b, w3 := c }
  | .mtfdRun a b c => { z with w1 := a, w2 := b, w3 := c }
  | .mtfeDump c => { z with w3 := c }
  | .mtfdDump c => { z with w3 := c }
  | .htbBuild t a b => { z with t := t.bits, w1 := a, w2 := b }
  | .htbPrior t b => { z with t := t.bits, w2 := b }
  | .htbCanon t a b => { z with t := t.bits, w1 := a, w2 := b }
  | .htbStore t c => { z with t := t.bits, w3 := c }
  | .cheSym t a => { z with t := t.bits, w1 := a }
  | .cheBlock f a b => { z with f := flagBit f, w1 := a, w2 := b }
  | .chdSetout b c => { z with w2 := b, w3 := c }
  | .chdPush a => { z with w1 := a }

/-- The descriptor of a command (30_encoding R80 to R84). -/
def encode (i : Instr) : Desc := pack i.fields

/-! ### The host's reading of one word -/

/-- A descriptor given as a number of `nbits` bits; every bit above is 0 (30_encoding R80: delivered whole, so
there is no byte order to undo, 20_memory R63). -/
def descOfBits (nbits w : Nat) : Desc := BitVec.ofNat 128 (w % 2 ^ nbits)

/-- What the decoder reads from an instruction whose bits are w, numbered as the opcode table numbers them. -/
def decodeTableWord (nbits w : Nat) : Option Instr :=
  match decode (descOfBits nbits w) with
  | .ok i => some i
  | .error _ => none

/-! ### Textual form (30_encoding R89, R90) -/

def BufReg.text : BufReg → String
  | .b0 => "b0" | .b1 => "b1" | .b2 => "b2" | .b3 => "b3"

def Slot.text : Slot → String
  | .ct0 => "ct0" | .ct1 => "ct1" | .ct2 => "ct2" | .ct3 => "ct3"

def wordText (w : Word) : String := toString w.toNat

/-- Operands separated by a comma and a space, after the mnemonic and one space. -/
def asmLine (mnemonic : String) (operands : List String) : String :=
  if operands.isEmpty then mnemonic else mnemonic ++ " " ++ ", ".intercalate operands

/-- One line of assembler text for a command; numbers in decimal (30_encoding R89). -/
def Instr.asm : Instr → String
  | .sysNop => asmLine "SYS.NOP" []
  | .bbClr bd => asmLine "BB.CLR" [bd.text]
  | .bbPushl bd n v => asmLine "BB.PUSHL" [bd.text, toString n.toNat, toString v.toNat]
  | .bbPushr bd n v => asmLine "BB.PUSHR" [bd.text, toString n.toNat, toString v.toNat]
  | .bbPulll bd n => asmLine "BB.PULLL" [bd.text, toString n.toNat]
  | .bbPullr bd n => asmLine "BB.PULLR" [bd.text, toString n.toNat]
  | .bbFlush bd f => asmLine "BB.FLUSH" (bd.text :: if f then ["all"] else [])
  | .bbAppf bd bs => asmLine "BB.APPF" [bd.text, bs.text]
  | .saBuild a b c => asmLine "SA.BUILD" [wordText a, wordText b, wordText c]
  | .bwtFwd a b c => asmLine "BWT.FWD" [wordText a, wordText b, wordText c]
  | .bwtInv a b c => asmLine "BWT.INV" [wordText a, wordText b, wordText c]
  | .mtfeRst => asmLine "MTFE.RST" []
  | .mtfeRun a b c => asmLine "MTFE.RUN" [wordText a, wordText b, wordText c]
  | .mtfeDump c => asmLine "MTFE.DUMP" [wordText c]
  | .mtfdRst => asmLine "MTFD.RST" []
  | .mtfdRun a b c => asmLine "MTFD.RUN" [wordText a, wordText b, wordText c]
  | .mtfdDump c => asmLine "MTFD.DUMP" [wordText c]
  | .htbBuild t a b => asmLine "HTB.BUILD" [t.text, wordText a, wordText b]
  | .htbPrior t b => asmLine "HTB.PRIOR" [t.text, wordText b]
  | .htbCanon t a b => asmLine "HTB.CANON" [t.text, wordText a, wordText b]
  | .htbStore t c => asmLine "HTB.STORE" [t.text, wordText c]
  | .cheRst => asmLine "CHE.RST" []
  | .cheSym t a => asmLine "CHE.SYM" [t.text, wordText a]
  | .cheBlock f a b => asmLine "CHE.BLOCK" ([wordText a, wordText b] ++ if f then ["final"] else [])
  | .chdRst => asmLine "CHD.RST" []
  | .chdSetout b c => asmLine "CHD.SETOUT" [wordText b, wordText c]
  | .chdPush a => asmLine "CHD.PUSH" [wordText a]
  | .chdRun => asmLine "CHD.RUN" []

/-- The pseudo-instruction BB.PUSHB bd, v (30_encoding R90). -/
def Instr.bbPushb (bd : BufReg) (v : Word64) : Instr := .bbPushl bd 8 v

/-- The pseudo-instruction BB.FLUSHALL bd (30_encoding R90). -/
def Instr.bbFlushall (bd : BufReg) : Instr := .bbFlush bd true

end Sys2Proof
end

