-- ==== Sys2Proof/Machine/Types.lean ====
section
/-! DEFINITION. The shapes of the block's registers as plain data (10_state R20), each with the check that says which
values the spec lets it hold, and the actions of the host (60_exceptions R246). -/

namespace Sys2Proof.Machine

/-! ### Constants the document fixes (00_scope R6), and one the spec fixes by decision (R7)

The spec's own choices of R7 are NBB (`BufReg`), NCT (`Slot`), CELL_W (`Word`), DESC_W (`Desc`) and LMAX (`lmax`). -/

/-- BB_CAP: capacity of a bit buffer in bits (00_scope R6). -/
abbrev bbCap : Nat := 64
/-- NSYM: number of raw, BWT and MTF symbols (00_scope R6). -/
abbrev nsym : Nat := 256
/-- ALPHA: size of the Huffman data alphabet (00_scope R6). -/
abbrev alpha : Nat := 258
/-- EOB: the end-of-block symbol (00_scope R6). -/
abbrev eob : Nat := 256
/-- EOS: the end-of-stream symbol (00_scope R6). -/
abbrev eos : Nat := 257
/-- HDR_INFO_BITS: width of the table-size field (00_scope R6). -/
abbrev hdrInfoBits : Nat := 9
/-- LMAX: the largest code length of a table; the spec's own choice (00_scope R7, decision D20). -/
abbrev lmax : Nat := 64

/-! ### Registers -/

/-- A bit-buffer register (val, len); `len` bits are buffered in val[len-1:0] (10_state R21). -/
structure BitBuf where
  val : Word64
  len : Nat
deriving DecidableEq, Repr, Inhabited

/-- The empty buffer (0, 0). -/
abbrev BitBuf.empty : BitBuf := ⟨0, 0⟩

/-- The invariant of 10_state R21: at most 64 bits, and no bit of `val` at position `len` or above. -/
abbrev BitBuf.wf (b : BitBuf) : Prop := b.len ≤ bbCap ∧ b.val.toNat < 2 ^ b.len

/-- A code-table slot: LEN[s] and CODE[s] for s in 0..257 (10_state R31). -/
structure CodeTable where
  len  : List Nat
  code : List Word64
deriving DecidableEq, Repr, Inhabited

/-- All lengths 0 and all codes 0 (10_state R39). -/
def CodeTable.empty : CodeTable := ⟨List.replicate alpha 0, List.replicate alpha 0⟩

/-- The shape of a slot: 258 lengths of 0..64 and 258 codes (10_state R20). -/
abbrev CodeTable.shape (t : CodeTable) : Prop :=
  t.len.length = alpha ∧ t.code.length = alpha ∧ ∀ l ∈ t.len, l ≤ lmax

/-- The four states of the decoder (10_state R33). -/
inductive DecState where
  | readingHeaderInfo | decodingHeader | decodingBlock | streamEnd
deriving DecidableEq, Repr, Inhabited

/-- A move-to-front table is a list of 256 bytes (10_state R30). -/
abbrev MtfTable := List Byte

/-- The bytes 0, 1, ..., 255 in ascending order. -/
def allBytes : List Byte := (List.range nsym).map (BitVec.ofNat 8)

/-- A permutation of 0..255 (10_state R30, 00_scope R8). -/
abbrev MtfTable.wf (t : MtfTable) : Prop := t.Perm allBytes

/-- Every register a late fault leaves unspecified (60_exceptions R230): b0..b3, RES, the code-table slots, the
decoder registers, TE and TD. -/
structure Regs where
  b0 : BitBuf
  b1 : BitBuf
  b2 : BitBuf
  b3 : BitBuf
  /-- RES (10_state R24) -/
  res : Word64
  /-- TE and TD (10_state R30) -/
  te : MtfTable
  td : MtfTable
  /-- CT0..CT3 (10_state R31) -/
  ct0 : CodeTable
  ct1 : CodeTable
  ct2 : CodeTable
  ct3 : CodeTable
  /-- DEC_STATE (10_state R33) -/
  decState : DecState
  /-- TSIZE, HCNT, HLEN (10_state R34) -/
  tsize : Nat
  hcnt : Nat
  hlen : List Nat
  /-- WLEN, WVAL (10_state R35) -/
  wlen : Nat
  wval : Word64
  /-- OUT_BASE, OUT_CAP, OUT_CNT, DEC_BLOCKS (10_state R36) -/
  outBase : Word
  outCap : Word
  outCnt : Word
  decBlocks : Word
deriving DecidableEq, Repr, Inhabited

/-- The decoder registers within their shapes (10_state R20). -/
abbrev Regs.decShape (r : Regs) : Prop :=
  r.tsize ≤ 65 ∧ r.hcnt ≤ alpha ∧ r.hlen.length = alpha ∧ (∀ l ∈ r.hlen, l ≤ lmax) ∧
  r.wlen < 64 ∧ r.wval.toNat < 2 ^ r.wlen ∧ r.outCnt.toNat ≤ r.outCap.toNat

/-- Every register within the shape column of 10_state R20. -/
abbrev Regs.shape (r : Regs) : Prop :=
  (r.b0.wf ∧ r.b1.wf ∧ r.b2.wf ∧ r.b3.wf) ∧ (MtfTable.wf r.te ∧ MtfTable.wf r.td) ∧
  (r.ct0.shape ∧ r.ct1.shape ∧ r.ct2.shape ∧ r.ct3.shape) ∧ r.decShape

/-! ### The host's side -/

/-- The five interactions of the host (60_exceptions R246); a memory access names one cell (20_memory R70). -/
inductive HostAction where
  /-- Issue one descriptor at the command port (30_encoding R80). -/
  | issue (d : Desc)
  /-- Read CSR k (10_state R37). -/
  | csrRead (k : Word)
  /-- Read one cell of M. -/
  | memRead (addr : Word)
  /-- Write one cell of M. -/
  | memWrite (addr : Word) (v : Word)
  /-- Take up to k of the bytes of SINK not yet taken. -/
  | drain (k : Nat)
  /-- Assert the reset input (70_reset R255). -/
  | reset
deriving DecidableEq, Repr, Inhabited

/-- What the host gets back (60_exceptions R246). -/
inductive HostReply where
  | csr (v : Word)
  | cell (v : Word)
  | bytes (bs : List Byte)
deriving DecidableEq, Repr, Inhabited

/-- The fault causes (60_exceptions R226). These are the block's own faults, recorded in ERR; they are not the
model's stops (State.lean's `Fault`). -/
inductive FaultCode where
  | illegal | capacity | underflow | bounds | overlap | range | degenerate | kraft | tree | stream | outfull
deriving DecidableEq, Repr, Inhabited

end Sys2Proof.Machine
end

