-- ==== Sys2Proof/Config.lean ====
section
/-! DEFINITION. What an implementation fixes (00_scope R8) and the free values: results the spec leaves
unspecified, as opaque constants about which nothing can be proved. -/

namespace Sys2Proof

/-- The three OPEN parameters (00_scope R8). They are fixed for the life of a block (70_reset R256). -/
structure Config where
  /-- MEM_WORDS, the size of M in cells -/
  memWords : Nat
  /-- MTF_INIT, the initial move-to-front ordering -/
  mtfInit : List Byte
  /-- HDR_PRIOR, the weights of the smallest code lengths in the header tree -/
  hdrPrior : List Nat
deriving DecidableEq, Repr, Inhabited

/-- The constraints on the parameters (00_scope R8, 70_reset R269 (4)). -/
abbrev Config.wf (c : Config) : Prop :=
  1 ≤ c.memWords ∧ c.memWords ≤ 2 ^ 32 ∧ Machine.MtfTable.wf c.mtfInit ∧
  c.hdrPrior.length ≤ 65 ∧ ∀ w ∈ c.hdrPrior, 1 ≤ w

/-- T0, the illustrative instantiation of 00_scope R8: the identity ordering, no prior, 65536 cells.
DESIGN CHOICE (log 2), unsafe where a claim rests on it: no claim does, they quantify over every configuration. -/
def Config.t0 : Config := { memWords := 65536, mtfInit := Machine.allBytes, hdrPrior := [] }

/-- FREE VALUE: what cell `addr` of M, written by nothing since power-on, reads as during draw `k`
(20_memory R71, 93 U9; log 4). -/
opaque Config.freeCell (k addr : Nat) : Word

/-- FREE VALUE: what draw `k` leaves in cell `addr` where the spec fixes no value for a written cell
(93 U1, U2, U3 and U7; logs 5 and 6). -/
opaque Config.freeResult (k addr : Nat) : Word

/-- FREE VALUE: what draw `k` leaves in the registers after a late fault (60_exceptions R230, 93 U7; log 6). -/
opaque Config.freeRegs (k : Nat) : Machine.Regs

end Sys2Proof
end

