-- ==== Sys2Proof/Machine/State.lean ====
section
/-! DEFINITION. The state of the block (10_state R20), its configuration, the host's pending actions and the model's own
bookkeeping, all plain data; the reset state; the reasons the model can stop. -/

namespace Sys2Proof.Machine

/-- M: the cells that have been written, by address, addresses strictly rising (20_memory R60). A cell not listed
has been written by nothing since power-on and reads as a free value (20_memory R71; logs 4 and 7). -/
abbrev Memory := List (Nat × Word)

/-- The canonical form: addresses strictly rising. No listed cell equals what an unlisted one reads as, since that is no
fixed value: a written cell is always listed (log 7). -/
abbrev Memory.wf (m : Memory) : Prop := m.Pairwise (fun p q => p.1 < q.1)

/-- The state of the block, the configuration, and the model's own fields. -/
structure State extends Regs where
  /-- FAULTED (10_state R25) -/
  faulted : Bool
  /-- ERR (10_state R25) -/
  err : BitVec 4
  /-- SINK, oldest byte first (10_state R26) -/
  sink : List Byte
  /-- SINK_CNT (10_state R26) -/
  sinkCnt : Word
  /-- M (20_memory R60) -/
  mem : Memory
  /-- MEM_WORDS, MTF_INIT, HDR_PRIOR (00_scope R8): a parameter of every step, changed by none (log 2) -/
  cfg : Config
  /-- The model's own: the host's actions still to come, oldest first (log 1) -/
  pending : List HostAction
  /-- The model's own: what the host has got back, oldest first (log 11) -/
  replies : List HostReply
  /-- The model's own: how many bytes of SINK the host has taken (log 11) -/
  drained : Nat
  /-- The model's own: the draw the free values of the next command are taken from (log 3) -/
  draws : Nat
deriving DecidableEq, Repr, Inhabited

/-- Why the model itself stops. -/
inductive Fault where
  /-- Raised by `step` when the host reads or writes a cell at or above MEM_WORDS, and by CHD.PUSH and CHD.RUN when the
  cell OUT_BASE + OUT_CNT lies there (no reachable state: CHD.SETOUT checks its region). Such a cell does not exist
  (20_memory R60). Safe: the model stops where the spec gives no effect. -/
  | absentCell
deriving DecidableEq, Repr, Inhabited

/-- Why the model refuses an instruction. No instruction is refused: every arm of `exec` has its meaning. -/
inductive Refusal where
  /-- An instruction that has no meaning yet, by its mnemonic. Raised by no arm. Safe. -/
  | notModelled (mnemonic : String)
deriving DecidableEq, Repr, Inhabited

/-- The registers after reset (10_state R39, 70_reset R255): TE and TD hold MTF_INIT, all else is 0 or empty. -/
def Regs.reset (c : Config) : Regs where
  b0 := .empty
  b1 := .empty
  b2 := .empty
  b3 := .empty
  res := 0
  te := c.mtfInit
  td := c.mtfInit
  ct0 := .empty
  ct1 := .empty
  ct2 := .empty
  ct3 := .empty
  decState := .readingHeaderInfo
  tsize := 0
  hcnt := 0
  hlen := List.replicate alpha 0
  wlen := 0
  wval := 0
  outBase := 0
  outCap := 0
  outCnt := 0
  decBlocks := 0

/-- A block with configuration c right after power-on, which is a reset with nothing written to M (70_reset R256),
and a host with nothing to do. -/
def State.resetOf (c : Config) : State where
  toRegs := Regs.reset c
  faulted := false
  err := 0
  sink := []
  sinkCnt := 0
  mem := []
  cfg := c
  pending := []
  replies := []
  drained := 0
  draws := 0

/-- The machine right after reset, in the illustrative configuration T0 (00_scope R8; DESIGN CHOICE, log 2). -/
def State.reset : State := State.resetOf Config.t0

end Sys2Proof.Machine
end

