-- ==== Sys2Proof/Machine/Flags.lean ====
section
/-! DEFINITION. The fault fields and status words: the codes of ERR (60_exceptions R226), the numbers of DEC_STATE
(10_state R33) and the CSR map (10_state R37). The block has no condition codes (10_state R25). -/

namespace Sys2Proof.Machine

/-- The code of a fault (60_exceptions R226). Codes 12 to 15 are never written. -/
def FaultCode.code : FaultCode → BitVec 4
  | .illegal => 1
  | .capacity => 2
  | .underflow => 3
  | .bounds => 4
  | .overlap => 5
  | .range => 6
  | .degenerate => 7
  | .kraft => 8
  | .tree => 9
  | .stream => 10
  | .outfull => 11

/-- The number of a decoder state (10_state R33). -/
def DecState.num : DecState → Nat
  | .readingHeaderInfo => 0
  | .decodingHeader => 1
  | .decodingBlock => 2
  | .streamEnd => 3

/-- STATUS: [0] FAULTED, [2:1] DEC_STATE, [31:3] zero (10_state R37). -/
def State.status (s : State) : Word :=
  BitVec.ofNat 32 ((if s.faulted then 1 else 0) + 2 * s.decState.num)

/-- Bits 31..0 of a 64-bit register. -/
def lowHalf (v : Word64) : Word := v.extractLsb' 0 32

/-- Bits 63..32 of a 64-bit register. -/
def highHalf (v : Word64) : Word := v.extractLsb' 32 32

/-- A count shown in the low w bits of a CSR, zeros above (10_state R37). -/
def countField (w n : Nat) : Word := BitVec.ofNat 32 (n % 2 ^ w)

/-- CsrRead(k): the 32-bit value of CSR k; reserved indices read 0 (10_state R37). It changes nothing. -/
def State.csrRead (s : State) (k : Nat) : Word :=
  match k with
  | 0 => s.status
  | 1 => s.err.setWidth 32
  | 2 => lowHalf s.res
  | 3 => highHalf s.res
  | 4 => s.sinkCnt
  | 8 => lowHalf s.b0.val
  | 9 => highHalf s.b0.val
  | 10 => countField 7 s.b0.len
  | 11 => lowHalf s.b1.val
  | 12 => highHalf s.b1.val
  | 13 => countField 7 s.b1.len
  | 14 => lowHalf s.b2.val
  | 15 => highHalf s.b2.val
  | 16 => countField 7 s.b2.len
  | 17 => lowHalf s.b3.val
  | 18 => highHalf s.b3.val
  | 19 => countField 7 s.b3.len
  | 20 => countField 7 s.tsize
  | 21 => countField 9 s.hcnt
  | 22 => countField 6 s.wlen
  | 23 => lowHalf s.wval
  | 24 => highHalf s.wval
  | 25 => s.outBase
  | 26 => s.outCap
  | 27 => s.outCnt
  | 28 => s.decBlocks
  | _ => 0

end Sys2Proof.Machine
end

