-- ==== Sys2Proof/Machine/Ops.lean ====
section
/-! DEFINITION. The named operations over memory and registers that every command is written with: reading and writing
cells of M, the bit-buffer registers and the slots, putting bytes into SINK, taking a fault, and how a command ends. -/

namespace Sys2Proof.Machine

/-! ### Memory (20_memory R60, R64, R65) -/

/-- Consecutive cells as memory entries, the first at `base`. -/
def cellsAt (base : Nat) (vs : List Word) : Memory := (vs.zipIdx base).map (fun p => (p.2, p.1))

/-- M with the cells base, base + 1, ... replaced by `vs`; every other cell stays (20_memory R65, R69). -/
def Memory.writeRange (m : Memory) (base : Nat) (vs : List Word) : Memory :=
  m.filter (fun p => p.1 < base) ++ cellsAt base vs ++ m.filter (fun p => base + vs.length ≤ p.1)

/-- `MemRead(addr, 1)` (00_scope R10): the cell's value, or a free value where nothing has written it
(20_memory R71; log 4). -/
def State.readCell (s : State) (a : Nat) : Word := (s.mem.lookup a).getD (Config.freeCell s.draws a)

/-- The cells of region (base, k), element i at base + i (20_memory R65). -/
def State.readRegion (s : State) (base k : Nat) : List Word := (List.range k).map (fun i => s.readCell (base + i))

/-- Write consecutive cells from `base` (00_scope R10 `MemWrite`, 20_memory R65). -/
def State.writeRegion (s : State) (base : Nat) (vs : List Word) : State := { s with mem := s.mem.writeRange base vs }

/-- k values the spec leaves unspecified, for the cells from `base` (93 U1, U2, U3, U7; logs 5 and 6). -/
def State.freeCells (s : State) (base k : Nat) : List Word :=
  (List.range k).map (fun i => Config.freeResult s.draws (base + i))

/-! ### Registers -/

/-- `b[i]` (00_scope R10). -/
def State.getBuf (s : State) : BufReg → BitBuf
  | .b0 => s.b0
  | .b1 => s.b1
  | .b2 => s.b2
  | .b3 => s.b3

/-- `b[i] <- v` (00_scope R10). -/
def State.setBuf (s : State) (i : BufReg) (v : BitBuf) : State :=
  match i with
  | .b0 => { s with b0 := v }
  | .b1 => { s with b1 := v }
  | .b2 => { s with b2 := v }
  | .b3 => { s with b3 := v }

/-- CT[t] (10_state R31). -/
def State.getSlot (s : State) : Slot → CodeTable
  | .ct0 => s.ct0
  | .ct1 => s.ct1
  | .ct2 => s.ct2
  | .ct3 => s.ct3

/-- CT[t] <- v (10_state R31). -/
def State.setSlot (s : State) (t : Slot) (v : CodeTable) : State :=
  match t with
  | .ct0 => { s with ct0 := v }
  | .ct1 => { s with ct1 := v }
  | .ct2 => { s with ct2 := v }
  | .ct3 => { s with ct3 := v }

/-- `SinkPut` of each byte in turn (00_scope R10): SINK grows, SINK_CNT counts modulo 2^32. -/
def State.sinkPut (s : State) (bs : List Byte) : State :=
  { s with sink := s.sink ++ bs, sinkCnt := s.sinkCnt + BitVec.ofNat 32 bs.length }

/-! ### Taking a fault (60_exceptions R228) -/

/-- `raise c`: if FAULTED = 0 then ERR <- the code and FAULTED <- 1. Nothing is saved, no mode changes, control goes
nowhere (60_exceptions R228). There is no return from it; only the reset input clears FAULTED (R229). -/
def State.raise (s : State) (c : FaultCode) : State :=
  if s.faulted then s else { s with faulted := true, err := c.code }

/-- The registers of draw k, kept within the shapes the spec lets the registers hold (10_state R20; log 6). -/
def freeRegsOf (c : Config) (k : Nat) : Regs :=
  if (Config.freeRegs k).shape then Config.freeRegs k else Regs.reset c

/-- The state after a late fault: `s` is the state before the command and `t` the one its pseudocode had reached.
SINK, SINK_CNT and the cells outside the command's write region are as in `t`; the registers and the cells the command
had written are unspecified (60_exceptions R230, 20_memory R69; log 6). The only commands that fault late after writing
cells are CHD.PUSH and CHD.RUN, whose cells are those from OUT_BASE + OUT_CNT on. -/
def State.lateFault (s t : State) (c : FaultCode) : State :=
  let base := s.outBase.toNat + s.outCnt.toNat
  let k := t.outCnt.toNat - s.outCnt.toNat
  ({ t with toRegs := freeRegsOf s.cfg s.draws, mem := t.mem.writeRange base (s.freeCells base k) }).raise c

/-! ### How a command ends -/

/-- The end of a command's pseudocode. -/
inductive CmdEnd where
  /-- It ran to its end in state s. -/
  | done (s : State)
  /-- It raised a fault before anything changed (60_exceptions R231, early). -/
  | early (c : FaultCode)
  /-- It raised a fault after it had changed state; s is the state it had reached (R231, late). -/
  | late (c : FaultCode) (s : State)
  /-- It would have touched a cell that does not exist (log 10). -/
  | absent
deriving DecidableEq, Repr

/-- Do `f` after a part that has changed state: a fault of `f` is then late, even where `f` alone would raise it
early (60_exceptions R231). -/
def CmdEnd.andThen (e : CmdEnd) (f : State → CmdEnd) : CmdEnd :=
  match e with
  | .done s =>
    match f s with
    | .early c => .late c s
    | r => r
  | r => r

/-- The outcome of one command. -/
abbrev Out := Host.Outcome State Fault Refusal

/-- One command on state s whose pseudocode ends as `e`: refused without effect while FAULTED = 1
(60_exceptions R229), else its effect, or its fault (R228, R230). -/
def runCommand (s : State) (e : CmdEnd) : Out :=
  if s.faulted then .next s
  else match e with
    | .done t => .next t
    | .early c => .next (s.raise c)
    | .late c t => .next (s.lateFault t c)
    | .absent => .fault .absentCell

/-! ### Reset (70_reset R255 to R257) -/

/-- The reset input, asserted between commands (log 12): every register, FAULTED, ERR, SINK and SINK_CNT take their
reset values (70_reset R255); M and the configuration stay (R256). -/
def State.resetInput (s : State) : State :=
  { s with toRegs := Regs.reset s.cfg, faulted := false, err := 0, sink := [], sinkCnt := 0, drained := 0 }

end Sys2Proof.Machine
end

