-- ==== Sys2Proof/Machine/Operands.lean ====
section
/-! DEFINITION. The operand forms: counts, regions of M, symbol cells (20_memory R65 to R68, 30_encoding R83). -/

namespace Sys2Proof.Machine

/-- A region (X, k): the cells X + i for i < k (20_memory R65). -/
structure Region where
  base  : Nat
  count : Nat
deriving DecidableEq, Repr, Inhabited

/-- The region a base word and a count word name (30_encoding R83, 20_memory R65). -/
def regionOf (x k : Word) : Region := ⟨x.toNat, k.toNat⟩

/-- X + k <= MEM_WORDS, computed without wrap-around (20_memory R66). -/
def Region.inBounds (r : Region) (memWords : Nat) : Bool := r.base + r.count ≤ memWords

/-- Two regions overlap when both are non-empty and share a cell (20_memory R67). -/
def Region.overlaps (r q : Region) : Bool :=
  0 < r.count && 0 < q.count && r.base < q.base + q.count && q.base < r.base + r.count

/-- Some cell is above 255 (20_memory R62). -/
def someAboveByte (xs : List Word) : Bool := xs.any (fun x => 255 < x.toNat)

/-- Cells as natural numbers. -/
def toNats (xs : List Word) : List Nat := xs.map BitVec.toNat

/-- Natural numbers as cells; the rules guarantee each is below 2^32 (00_scope R13). -/
def toWords (xs : List Nat) : List Word := xs.map (BitVec.ofNat 32)

/-- The checks of a command with source (A, B) and destination (C, B): BOUNDS of A before C, then OVERLAP, where
the same region as source and destination is let through when `inPlace` (20_memory R66, R67, 60_exceptions R232). -/
def checkSrcDst (s : State) (inPlace : Bool) (a b c : Word) (body : CmdEnd) : CmdEnd :=
  if !(regionOf a b).inBounds s.cfg.memWords then .early .bounds
  else if !(regionOf c b).inBounds s.cfg.memWords then .early .bounds
  else if !(inPlace && a == c) && (regionOf a b).overlaps (regionOf c b) then .early .overlap
  else body

/-- The check of a command with one region (20_memory R66). -/
def checkRegion (s : State) (r : Region) (body : CmdEnd) : CmdEnd :=
  if r.inBounds s.cfg.memWords then body else .early .bounds

/-- The check that every cell read is a byte (60_exceptions R232 (6), 92 D15). -/
def checkBytes (xs : List Word) (body : CmdEnd) : CmdEnd :=
  if someAboveByte xs then .early .range else body

/-- The check of a bit count; n above 64 is ILLEGAL (30_encoding R85 (e)), a descriptor the decoder rejects. -/
def checkCount (n : BitVec 7) (body : CmdEnd) : CmdEnd :=
  if countOk n then body else .early .illegal

end Sys2Proof.Machine
end

