-- ==== Sys2Proof/Machine/BitBuffer.lean ====
section
/-! DEFINITION. bit_buffer_accumulator: the six primitives (40_bit_buffer R107) and the commands BB.* (R100 to R106).
L is the least significant end, R the most significant end (00_scope R11, 90 C6). -/

namespace Sys2Proof.Machine

/-! ### The primitives (40_bit_buffer R107); none stands for the fault it raises -/

/-- PushLS: append the n low-order bits of v at the least significant end; none is CAPACITY. -/
def BitBuf.pushLS (r : BitBuf) (v n : Nat) : Option BitBuf :=
  if r.len + n > bbCap then none
  else some ⟨BitVec.ofNat 64 ((r.val.toNat <<< n) ||| (v % 2 ^ n)), r.len + n⟩

/-- PushMS: append the n low-order bits of v at the most significant end; none is CAPACITY. -/
def BitBuf.pushMS (r : BitBuf) (v n : Nat) : Option BitBuf :=
  if r.len + n > bbCap then none
  else some ⟨BitVec.ofNat 64 (((v % 2 ^ n) <<< r.len) ||| r.val.toNat), r.len + n⟩

/-- PullLS: remove n bits from the least significant end; none is UNDERFLOW. -/
def BitBuf.pullLS (r : BitBuf) (n : Nat) : Option (Nat × BitBuf) :=
  if n > r.len then none
  else some (r.val.toNat % 2 ^ n, ⟨BitVec.ofNat 64 (r.val.toNat >>> n), r.len - n⟩)

/-- PullMS: remove n bits from the most significant end; none is UNDERFLOW. -/
def BitBuf.pullMS (r : BitBuf) (n : Nat) : Option (Nat × BitBuf) :=
  if n > r.len then none
  else some (r.val.toNat >>> (r.len - n), ⟨BitVec.ofNat 64 (r.val.toNat % 2 ^ (r.len - n)), r.len - n⟩)

/-- The whole bytes of Flush, `k` of them at most: while len >= 8, the byte at the most significant end. -/
def BitBuf.flushWhole : Nat → BitBuf → List Byte × BitBuf
  | 0, r => ([], r)
  | k + 1, r =>
    match r.pullMS 8 with
    | none => ([], r)
    | some (x, r') =>
      let rest := flushWhole k r'
      (BitVec.ofNat 8 x :: rest.1, rest.2)

/-- Flush(r, all): the bytes put and what is left; with `all` the last k bits go out above 8 - k zero bits
(40_bit_buffer R107, 90 C1). The loop runs len / 8 times (R108 law 7). -/
def BitBuf.flush (all : Bool) (r : BitBuf) : List Byte × BitBuf :=
  let whole := r.flushWhole (r.len / 8)
  if all && 0 < whole.2.len then
    match whole.2.pullMS whole.2.len with
    | none => whole
    | some (x, r') => (whole.1 ++ [BitVec.ofNat 8 (x <<< (8 - whole.2.len))], r')
  else whole

/-! ### The primitives on registers -/

/-- Flush(b[i], all) with its bytes put into SINK. -/
def State.flushBuf (s : State) (i : BufReg) (all : Bool) : State :=
  let r := (s.getBuf i).flush all
  (s.setBuf i r.2).sinkPut r.1

/-- AppendAndFlush(b[i], o): flush, merge o at the LS end, flush again; CAPACITY of the merge is a late fault, since
the first flush has come before it (40_bit_buffer R106, R107, 60_exceptions R231). -/
def State.appendAndFlush (s : State) (i : BufReg) (o : BitBuf) : CmdEnd :=
  let s1 := s.flushBuf i false
  match (s1.getBuf i).pushLS o.val.toNat o.len with
  | none => .late .capacity s1
  | some r => .done ((s1.setBuf i r).flushBuf i false)

/-! ### The commands -/

/-- BB.CLR (40_bit_buffer R100). -/
def execBbClr (bd : BufReg) (s : State) : Out := runCommand s (.done (s.setBuf bd .empty))

/-- A push that ends as the primitive says (40_bit_buffer R101, R102). -/
def pushEnd (s : State) (bd : BufReg) (r : Option BitBuf) : CmdEnd :=
  match r with
  | none => .early .capacity
  | some r => .done (s.setBuf bd r)

/-- BB.PUSHL (40_bit_buffer R101). -/
def execBbPushl (bd : BufReg) (n : BitVec 7) (value : Word64) (s : State) : Out :=
  runCommand s (checkCount n (pushEnd s bd ((s.getBuf bd).pushLS value.toNat n.toNat)))

/-- BB.PUSHR (40_bit_buffer R102). -/
def execBbPushr (bd : BufReg) (n : BitVec 7) (value : Word64) (s : State) : Out :=
  runCommand s (checkCount n (pushEnd s bd ((s.getBuf bd).pushMS value.toNat n.toNat)))

/-- A pull that ends as the primitive says: RES gets the value, zero-extended (40_bit_buffer R103, R104). -/
def pullEnd (s : State) (bd : BufReg) (r : Option (Nat × BitBuf)) : CmdEnd :=
  match r with
  | none => .early .underflow
  | some (x, r) => .done { s.setBuf bd r with res := BitVec.ofNat 64 x }

/-- BB.PULLL (40_bit_buffer R103). -/
def execBbPulll (bd : BufReg) (n : BitVec 7) (s : State) : Out :=
  runCommand s (checkCount n (pullEnd s bd ((s.getBuf bd).pullLS n.toNat)))

/-- BB.PULLR (40_bit_buffer R104). -/
def execBbPullr (bd : BufReg) (n : BitVec 7) (s : State) : Out :=
  runCommand s (checkCount n (pullEnd s bd ((s.getBuf bd).pullMS n.toNat)))

/-- BB.FLUSH (40_bit_buffer R105). -/
def execBbFlush (bd : BufReg) (f : Bool) (s : State) : Out := runCommand s (.done (s.flushBuf bd f))

/-- BB.APPF (40_bit_buffer R106); bd = bs is ILLEGAL (30_encoding R85 (f)), a descriptor the decoder rejects. -/
def execBbAppf (bd bs : BufReg) (s : State) : Out :=
  runCommand s (if bd = bs then .early .illegal else s.appendAndFlush bd (s.getBuf bs))

end Sys2Proof.Machine
end

