-- ==== Sys2Proof/Machine/SuffixArray.lean ====
section
/-! DEFINITION. suffix_array_builder: the result layer (41_suffix_array R121), which is the normative one (R130), the SA-IS
algorithm of the document step by step (R122 to R129), and the command SA.BUILD (R120). -/

namespace Sys2Proof.Machine

/-! ### The result layer (41_suffix_array R121) -/

/-- The sentinel precondition: the last symbol is 0 and no other is (41_suffix_array R121, 42_bwt R141). -/
def sentinelOk (xs : List Nat) : Bool := xs.getLast? == some 0 && xs.count 0 == 1

/-- Lexicographic order of suffixes, a proper prefix first (41_suffix_array R121: under the precondition no suffix is a
prefix of another, so only the first difference counts). -/
def lexLe : List Nat → List Nat → Bool
  | [], _ => true
  | _ :: _, [] => false
  | x :: xs, y :: ys => x < y || (x == y && lexLe xs ys)

/-- Suffix i comes no later than suffix j. -/
abbrev suffixLe (xs : List Nat) (i j : Nat) : Prop := lexLe (xs.drop i) (xs.drop j) = true

/-- The suffix array: the positions 0..n-1 sorted by suffix (41_suffix_array R121). -/
def suffixArray (xs : List Nat) : List Nat := (List.range xs.length).insertionSort (suffixLe xs)

/-! ### The algorithm layer, SA-IS (41_suffix_array R122 to R129) -/

/-- Step 1: the type of every position, true for S-type (41_suffix_array R122). -/
def sTypes : List Nat → List Bool
  | [] => []
  | [_] => [true]
  | x :: y :: r =>
    let t := sTypes (y :: r)
    (x < y || (x == y && t.headD true)) :: t

/-- Whether position i is S-type. -/
def isS (t : List Bool) (i : Nat) : Bool := t.getD i true

/-- Position i is LMS iff i is S-type and i-1 is L-type; position 0 never is (41_suffix_array R123). -/
def isLms (t : List Bool) (i : Nat) : Bool := 0 < i && isS t i && !isS t (i - 1)

/-- Step 2: the LMS positions in ascending order (41_suffix_array R123). -/
def lmsPositions (t : List Bool) : List Nat := (List.range t.length).filter (isLms t)

/-- Step 3: head(c), the number of symbols below c (41_suffix_array R124). -/
def bucketHead (xs : List Nat) (c : Nat) : Nat := xs.countP (fun d => d < c)

/-- Step 3: tail(c) = head(c) + cnt[c] - 1 (41_suffix_array R124). -/
def bucketTail (xs : List Nat) (c : Nat) : Nat := bucketHead xs c + xs.count c - 1

/-- The symbol at position p. -/
def symAt (xs : List Nat) (p : Nat) : Nat := xs.getD p 0

/-- A suffix array under construction, `none` for EMPTY, and the symbols of the entries placed since the pointers
were last set: a tail pointer stands at tail(c) less the number of c placed, a head pointer at head(c) plus it. -/
structure Induction where
  entries : List (Option Nat)
  placed  : List Nat
deriving DecidableEq, Repr, Inhabited

/-- Place p at the tail pointer of its symbol and move that pointer down (41_suffix_array R125, passes 0 and 2). -/
def Induction.placeTail (xs : List Nat) (st : Induction) (p : Nat) : Induction :=
  let c := symAt xs p
  { entries := st.entries.set (bucketTail xs c - st.placed.count c) (some p), placed := c :: st.placed }

/-- Place p at the head pointer of its symbol and move that pointer up (41_suffix_array R125, pass 1). -/
def Induction.placeHead (xs : List Nat) (st : Induction) (p : Nat) : Induction :=
  let c := symAt xs p
  { entries := st.entries.set (bucketHead xs c + st.placed.count c) (some p), placed := c :: st.placed }

/-- Visit index i of the array: if it holds p > 0 and p-1 has type `s`, place p-1 (41_suffix_array R125). -/
def Induction.visit (s : Bool) (t : List Bool) (place : Induction → Nat → Induction) (st : Induction) (i : Nat) :
    Induction :=
  match st.entries.getD i none with
  | none => st
  | some p => if 0 < p && isS t (p - 1) == s then place st (p - 1) else st

/-- Pass 0: the LMS positions into the ends of their buckets, from last to first (41_suffix_array R125). -/
def inducePass0 (xs : List Nat) (lms : List Nat) : Induction :=
  lms.reverse.foldl (Induction.placeTail xs) ⟨List.replicate xs.length none, []⟩

/-- Pass 1: left to right, L-type predecessors into bucket starts (41_suffix_array R125). -/
def inducePass1 (xs : List Nat) (t : List Bool) (a : List (Option Nat)) : Induction :=
  (List.range xs.length).foldl (Induction.visit false t (Induction.placeHead xs)) ⟨a, []⟩

/-- Pass 2: right to left, S-type predecessors into bucket ends (41_suffix_array R125). -/
def inducePass2 (xs : List Nat) (t : List Bool) (a : List (Option Nat)) : Induction :=
  (List.range xs.length).reverse.foldl (Induction.visit true t (Induction.placeTail xs)) ⟨a, []⟩

/-- Step 4: Induce(lms) (41_suffix_array R125). -/
def induce (xs : List Nat) (t : List Bool) (lms : List Nat) : List (Option Nat) :=
  (inducePass2 xs t (inducePass1 xs t (inducePass0 xs lms).entries).entries).entries

/-- The LMS substring of p with its types: up to and including the next LMS position; for the last position it is the
lone sentinel (41_suffix_array R126). -/
def lmsSubstring (xs : List Nat) (t : List Bool) (p : Nat) : List (Nat × Bool) :=
  let next := ((List.range xs.length).find? (fun i => p < i && isLms t i)).getD p
  ((xs.zip t).drop p).take (next - p + 1)

/-- Step 5: names for positions in the order given: 0 for the first, the same name while the substrings are equal, the
next name where they differ (41_suffix_array R126). -/
def nameSubstrings (sub : Nat → List (Nat × Bool)) : List (Nat × Bool) → Nat → List Nat → List (Nat × Nat)
  | _, _, [] => []
  | prev, k, p :: ps =>
    let k' := if sub p = prev then k else k + 1
    (p, k') :: nameSubstrings sub (sub p) k' ps

/-- The LMS positions of an induced array with their names (41_suffix_array R126). -/
def lmsNames (xs : List Nat) (t : List Bool) (a : List (Option Nat)) : List (Nat × Nat) :=
  match (a.filterMap id).filter (isLms t) with
  | [] => []
  | p :: ps => (p, 0) :: nameSubstrings (lmsSubstring xs t) (lmsSubstring xs t p) 0 ps

/-- Step 6, all names distinct: SA1[s1[j]] = j (41_suffix_array R127). -/
def invertNames (s1 : List Nat) : List Nat := (List.range s1.length).map (fun r => s1.idxOf r)

/-- The whole algorithm; each level's string is at most half as long, so the length bounds the recursion
(41_suffix_array R127, R129). -/
def saisFuel : Nat → List Nat → List Nat
  | 0, _ => []
  | fuel + 1, xs =>
    if xs.length = 1 then [0]
    else
      let t := sTypes xs
      let ps := lmsPositions t
      let names := lmsNames xs t (induce xs t ps)
      let s1 := ps.map (fun p => (names.lookup p).getD 0)
      let sa1 := if s1.foldl max 0 + 1 = ps.length then invertNames s1 else saisFuel fuel s1
      let order := sa1.map (fun j => ps.getD j 0)
      (induce xs t order).filterMap id

/-- SAIS(s) (41_suffix_array R129). -/
def sais (xs : List Nat) : List Nat := saisFuel xs.length xs

/-! ### The command -/

/-- SA.BUILD (41_suffix_array R120): the suffix array of M[A .. A+B) into M[C .. C+B). Outside the sentinel
precondition the B cells written are free values (R131, 93 U1; log 5). -/
def saBuildBody (a b c : Word) (s : State) : CmdEnd :=
  checkSrcDst s false a b c
    (let xs := toNats (s.readRegion a.toNat b.toNat)
     .done (s.writeRegion c.toNat
       (if sentinelOk xs then toWords (suffixArray xs) else s.freeCells c.toNat b.toNat)))

def execSaBuild (a b c : Word) (s : State) : Out := runCommand s (saBuildBody a b c s)

end Sys2Proof.Machine
end

