-- ==== Sys2Proof/Machine/Bwt.lean ====
section
/-! DEFINITION. burrows_wheeler_transform: BWT.FWD and BWT.INV (42_bwt R140 to R145). -/

namespace Sys2Proof.Machine

/-- The forward transform: out[i] = data[(SA[i] - 1 + n) mod n] (42_bwt R141). -/
def bwtForward (xs : List Nat) : List Nat :=
  (suffixArray xs).map (fun p => xs.getD ((p + xs.length - 1) % xs.length) 0)

/-- smaller[c]: how many elements of the block are below c (42_bwt R142). -/
def bwtSmaller (xs : List Nat) (c : Nat) : Nat := xs.countP (fun d => d < c)

/-- rank[i]: how many earlier elements equal element i (42_bwt R142). -/
def bwtRank (xs : List Nat) (i : Nat) : Nat := (xs.take i).count (xs.getD i 0)

/-- LF(i) = smaller[L[i]] + rank[i] (42_bwt R142). -/
def bwtLf (xs : List Nat) (i : Nat) : Nat := bwtSmaller xs (xs.getD i 0) + bwtRank xs i

/-- The loop of the inverse: k more elements from row `cur`, in front of those already found (42_bwt R143). -/
def bwtInverseLoop (xs : List Nat) : Nat → Nat → List Nat → List Nat
  | 0, _, acc => acc
  | k + 1, cur, acc => bwtInverseLoop xs k (bwtLf xs cur) (xs.getD cur 0 :: acc)

/-- The inverse transform, from the row that holds 0 (42_bwt R143). -/
def bwtInverse (xs : List Nat) : List Nat := bwtInverseLoop xs xs.length (xs.idxOf 0) []

/-- The inverse precondition: exactly one 0 (42_bwt R143). -/
def inverseOk (xs : List Nat) : Bool := xs.count 0 == 1

/-- BWT.FWD (42_bwt R140). Outside the forward precondition the B cells written are free values (R145, 93 U2; log 5). -/
def bwtFwdBody (a b c : Word) (s : State) : CmdEnd :=
  checkSrcDst s false a b c
    (let cells := s.readRegion a.toNat b.toNat
     checkBytes cells
       (.done (s.writeRegion c.toNat
         (if sentinelOk (toNats cells) then toWords (bwtForward (toNats cells))
          else s.freeCells c.toNat b.toNat))))

def execBwtFwd (a b c : Word) (s : State) : Out := runCommand s (bwtFwdBody a b c s)

/-- BWT.INV (42_bwt R143). Outside the inverse precondition the B cells written are free values (R145, 93 U3; log 5). -/
def bwtInvBody (a b c : Word) (s : State) : CmdEnd :=
  checkSrcDst s false a b c
    (let cells := s.readRegion a.toNat b.toNat
     checkBytes cells
       (.done (s.writeRegion c.toNat
         (if inverseOk (toNats cells) then toWords (bwtInverse (toNats cells))
          else s.freeCells c.toNat b.toNat))))

def execBwtInv (a b c : Word) (s : State) : Out := runCommand s (bwtInvBody a b c s)

end Sys2Proof.Machine
end

