-- ==== Sys2Proof/Machine/Huffman.lean ====
section
/-! DEFINITION. huffman_tree_builder: the greedy tree (44_huffman_tree R165 to R167), canonical codes (R171 to R173), the
tree of a slot (R175), the header weights (R181), and the commands HTB.* (R176 to R179). -/

namespace Sys2Proof.Machine

/-! ### Building the tree -/

/-- A Huffman tree: a leaf carries its symbol; a node has the first and the second node merged. -/
inductive HTree where
  | leaf (symbol : Nat)
  | node (first second : HTree)
deriving DecidableEq, Repr, Inhabited

/-- A node of the queue with its key (weight, order) (44_huffman_tree R166). -/
structure HNode where
  weight : Nat
  order  : Nat
  tree   : HTree
deriving DecidableEq, Repr, Inhabited

/-- Keys compare by weight, then by order (44_huffman_tree R166). -/
abbrev HNode.le (a b : HNode) : Prop := a.weight < b.weight ∨ a.weight = b.weight ∧ a.order ≤ b.order

/-- The leaves of the symbols with positive weight, order = symbol (44_huffman_tree R165, R166). -/
def huffLeaves (w : List Nat) : List HNode :=
  (w.zipIdx.filter (fun p => 0 < p.1)).map (fun p => ⟨p.1, p.2, .leaf p.2⟩)

/-- The queue, kept sorted by key so that its first element is the least (44_huffman_tree R166). -/
def huffQueue (w : List Nat) : List HNode := (huffLeaves w).insertionSort HNode.le

/-- k merges from the j-th on: take the two least nodes, put their parent back with order 258 + j
(44_huffman_tree R166). -/
def huffMerge : Nat → Nat → List HNode → List HNode
  | k + 1, j, a :: b :: q =>
    huffMerge k (j + 1) (q.orderedInsert HNode.le ⟨a.weight + b.weight, alpha + j, .node a.tree b.tree⟩)
  | _, _, q => q

/-- Every leaf with its depth, the root at depth d. -/
def HTree.depths : Nat → HTree → List (Nat × Nat)
  | d, .leaf s => [(s, d)]
  | d, .node x y => x.depths (d + 1) ++ y.depths (d + 1)

/-- L[s]: the depth of the leaf of s, 0 for every other s in 0..257 (44_huffman_tree R166). -/
def HTree.lengths (t : HTree) : List Nat :=
  (List.range alpha).map (fun s => ((t.depths 0).lookup s).getD 0)

/-- HuffBuild(w); none is DEGENERATE, fewer than two symbols (44_huffman_tree R166, R167). -/
def huffBuild (w : List Nat) : Option (List Nat) :=
  let q := huffQueue w
  if q.length < 2 then none
  else match huffMerge (q.length - 1) 0 q with
    | root :: _ => some root.tree.lengths
    | [] => none

/-! ### The canonical table -/

/-- Canonical order: by length, then by symbol (44_huffman_tree R171). A pair is (symbol, length). -/
abbrev canonLe (a b : Nat × Nat) : Prop := a.2 < b.2 ∨ a.2 = b.2 ∧ a.1 ≤ b.1

/-- The coded symbols with their lengths in canonical order (44_huffman_tree R171). -/
def codedSymbols (lens : List Nat) : List (Nat × Nat) :=
  ((lens.zipIdx.filter (fun p => 0 < p.1)).map (fun p => (p.2, p.1))).insertionSort canonLe

/-- The codes after a symbol of length `prev` with code `c`: one more, shifted left by the length's growth
(44_huffman_tree R172). -/
def assignFrom : Nat → Nat → List (Nat × Nat) → List (Nat × Nat)
  | _, _, [] => []
  | c, prev, (s, l) :: r =>
    let c' := (c + 1) <<< (l - prev)
    (s, c') :: assignFrom c' l r

/-- The codes of the symbols in canonical order, the first one 0 (44_huffman_tree R172). A pair is (symbol, code). -/
def assignCodes : List (Nat × Nat) → List (Nat × Nat)
  | [] => []
  | (s, l) :: r => (s, 0) :: assignFrom 0 l r

/-- CanonCodes(len): the code of every symbol, 0 for one that is not coded (44_huffman_tree R172). -/
def canonCodes (lens : List Nat) : List Nat :=
  let codes := assignCodes (codedSymbols lens)
  (List.range lens.length).map (fun s => (codes.lookup s).getD 0)

/-- sum over len[s] > 0 of 2^(64 - len[s]) (44_huffman_tree R173). -/
def kraftSum (lens : List Nat) : Nat := ((lens.filter (fun l => 0 < l)).map (fun l => 2 ^ (lmax - l))).sum

/-- MakeTable(len): CAPACITY is checked before KRAFT (44_huffman_tree R173). -/
def makeTable (lens : List Nat) : Except FaultCode CodeTable :=
  if lens.any (fun l => lmax < l) then .error .capacity
  else if kraftSum lens > 2 ^ lmax then .error .kraft
  else .ok ⟨lens, (canonCodes lens).map (BitVec.ofNat 64)⟩

/-- HuffBuild then MakeTable. -/
def buildTable (w : List Nat) : Except FaultCode CodeTable :=
  match huffBuild w with
  | none => .error .degenerate
  | some lens => makeTable lens

/-! ### The code and the tree of a slot -/

/-- LEN[s]. -/
def CodeTable.lenOf (t : CodeTable) (s : Nat) : Nat := t.len.getD s 0

/-- CODE[s]. -/
def CodeTable.codeOf (t : CodeTable) (s : Nat) : Word64 := t.code.getD s 0

/-- The symbol whose leaf is the node (l, v), l >= 1: LEN[s] = l and CODE[s] = v (44_huffman_tree R175,
46_huffman_decoder R206). -/
def CodeTable.leafAt (t : CodeTable) (l v : Nat) : Option Nat :=
  (t.len.zip t.code).findIdx? (fun p => p.1 == l && p.2.toNat == v)

/-- (l, v) is a node of the tree: some coded symbol's code begins with these l bits (44_huffman_tree R175). -/
def CodeTable.isNode (t : CodeTable) (l v : Nat) : Bool :=
  (t.len.zip t.code).any (fun p => 0 < p.1 && l ≤ p.1 && p.2.toNat >>> (p.1 - l) == v)

/-- HdrWeight(l) for l in 0..K (44_huffman_tree R181). -/
def hdrWeights (c : Config) (k : Nat) : List Nat := (List.range k).map (fun l => c.hdrPrior.getD l 1)

/-- The static header table for a table size (44_huffman_tree R181). -/
def headerTable (c : Config) (k : Nat) : Except FaultCode CodeTable := buildTable (hdrWeights c k)

/-! ### The commands -/

/-- CT[t] <- a table, or its fault, which comes before the slot changes. -/
def storeTable (s : State) (t : Slot) (r : Except FaultCode CodeTable) : CmdEnd :=
  match r with
  | .error c => .early c
  | .ok x => .done (s.setSlot t x)

/-- HTB.BUILD (44_huffman_tree R176). -/
def htbBuildBody (t : Slot) (a b : Word) (s : State) : CmdEnd :=
  if b.toNat < 1 || alpha < b.toNat then .early .range
  else checkRegion s (regionOf a b) (storeTable s t (buildTable (toNats (s.readRegion a.toNat b.toNat))))

def execHtbBuild (t : Slot) (a b : Word) (s : State) : Out := runCommand s (htbBuildBody t a b s)

/-- HTB.PRIOR (44_huffman_tree R177). -/
def htbPriorBody (t : Slot) (b : Word) (s : State) : CmdEnd :=
  if b.toNat < 2 || 65 < b.toNat then .early .range
  else storeTable s t (headerTable s.cfg b.toNat)

def execHtbPrior (t : Slot) (b : Word) (s : State) : Out := runCommand s (htbPriorBody t b s)

/-- The lengths of a table of K cells, padded with 0 to 258 (44_huffman_tree R179). -/
def padLengths (xs : List Nat) : List Nat := xs ++ List.replicate (alpha - xs.length) 0

/-- HTB.CANON (44_huffman_tree R179). -/
def htbCanonBody (t : Slot) (a b : Word) (s : State) : CmdEnd :=
  if b.toNat < 1 || alpha < b.toNat then .early .range
  else checkRegion s (regionOf a b)
    (storeTable s t (makeTable (padLengths (toNats (s.readRegion a.toNat b.toNat)))))

def execHtbCanon (t : Slot) (a b : Word) (s : State) : Out := runCommand s (htbCanonBody t a b s)

/-- The 774 cells of a slot: 258 lengths, then each code's low and high half (44_huffman_tree R178). -/
def slotCells (t : CodeTable) : List Word :=
  toWords t.len ++ t.code.flatMap (fun c => [lowHalf c, highHalf c])

/-- HTB.STORE (44_huffman_tree R178). -/
def htbStoreBody (t : Slot) (c : Word) (s : State) : CmdEnd :=
  checkRegion s ⟨c.toNat, 774⟩ (.done (s.writeRegion c.toNat (slotCells (s.getSlot t))))

def execHtbStore (t : Slot) (c : Word) (s : State) : Out := runCommand s (htbStoreBody t c s)

end Sys2Proof.Machine
end

