-- ==== Sys2Proof/Machine/Decoder.lean ====
section
/-! DEFINITION. canonical_huffman_decoder: DecodeSym, Output and Run (46_huffman_decoder R205 to R207) and the commands
CHD.* (R201 to R204). It uses b2 as input accumulator, CT2 and CT3 (10_state R22, R32). -/

namespace Sys2Proof.Machine

/-- What a walk down the tree of a slot ends in (46_huffman_decoder R206). -/
inductive Walk where
  /-- A symbol completed. -/
  | symbol (v : Nat) (s : State)
  /-- The bits ran out; the position is kept. -/
  | none (s : State)
  /-- A dead end: the fault TREE. -/
  | deadEnd (s : State)
deriving DecidableEq, Repr

/-- One bit from the most significant end of b2 into the walk position (46_huffman_decoder R206). -/
def stepWalk (s : State) : Option State :=
  match s.b2.pullMS 1 with
  | .none => .none
  | some (bit, r) =>
    some { s with b2 := r, wval := BitVec.ofNat 64 (2 * s.wval.toNat + bit), wlen := s.wlen + 1 }

/-- DecodeSym(t) with at most k bits to read (46_huffman_decoder R206). -/
def decodeSym (t : Slot) : Nat → State → Walk
  | 0, s => .none s
  | k + 1, s =>
    match stepWalk s with
    | .none => .none s
    | some s' =>
      match (s'.getSlot t).leafAt s'.wlen s'.wval.toNat with
      | some v => .symbol v { s' with wlen := 0, wval := 0 }
      | .none =>
        if (s'.getSlot t).isNode s'.wlen s'.wval.toNat then decodeSym t k s' else .deadEnd s'

/-- Output(v): OUTFULL when the region is full, else one cell and the count (46_huffman_decoder R207). Within Run the
fault is late. -/
def outputSym (v : Nat) (s : State) : CmdEnd :=
  if s.outCap.toNat ≤ s.outCnt.toNat then .late .outfull s
  else
    let addr := s.outBase.toNat + s.outCnt.toNat
    if s.cfg.memWords ≤ addr then .absent
    else .done ({ s with outCnt := s.outCnt + 1 }.writeRegion addr [BitVec.ofNat 32 v])

/-- READING_HEADER_INFO with the table size v pulled (46_huffman_decoder R205). -/
def startHeader (v : Nat) (s : State) : CmdEnd :=
  if v < 2 || 65 < v then .late .stream s
  else match headerTable s.cfg v with
    | .error c => .late c s
    | .ok h => .done { s with tsize := v, ct2 := h, hcnt := 0, decState := .decodingHeader }

/-- DECODING_HEADER with a length r decoded; after the 258th the data table is made (46_huffman_decoder R205). -/
def takeLength (r : Nat) (s : State) : CmdEnd :=
  let s := { s with hlen := s.hlen.set s.hcnt r, hcnt := s.hcnt + 1 }
  if s.hcnt = alpha then
    match makeTable s.hlen with
    | .error c => .late c s
    | .ok x => .done { s with ct3 := x, decState := .decodingBlock }
  else .done s

/-- The state after a delivered symbol: EOB counts a block and opens the next, EOS ends the stream
(46_huffman_decoder R205). -/
def afterSymbol (r : Nat) (s : State) : State :=
  if r = eob then { s with decBlocks := s.decBlocks + 1, decState := .readingHeaderInfo }
  else if r = eos then { s with decState := .streamEnd }
  else s

/-- DECODING_BLOCK with a symbol r decoded (46_huffman_decoder R205, R207). -/
def takeSymbol (r : Nat) (s : State) : CmdEnd := (outputSym r s).andThen (fun s => .done (afterSymbol r s))

/-- One turn of Run's loop: what to do next, or that it stops here (46_huffman_decoder R205). -/
inductive Turn where
  | stop (s : State)
  | go (e : CmdEnd)
deriving DecidableEq, Repr

/-- A walk's end within Run: a symbol is handled by `f`, a dead end is TREE. -/
def turnOfWalk (w : Walk) (f : Nat → State → CmdEnd) : Turn :=
  match w with
  | .none s => .stop s
  | .deadEnd s => .go (.late .tree s)
  | .symbol v s => .go (f v s)

/-- The case of DEC_STATE (46_huffman_decoder R205). -/
def runTurn (s : State) : Turn :=
  match s.decState with
  | .streamEnd => .stop s
  | .readingHeaderInfo =>
    match s.b2.pullMS hdrInfoBits with
    | .none => .stop s
    | some (v, r) => .go (startHeader v { s with b2 := r })
  | .decodingHeader => turnOfWalk (decodeSym .ct2 s.b2.len s) takeLength
  | .decodingBlock => turnOfWalk (decodeSym .ct3 s.b2.len s) takeSymbol

/-- Run() with at most k turns (46_huffman_decoder R205). Every turn that goes on takes at least one bit from b2, so
b2.len + 1 turns are enough. -/
def runFuel : Nat → State → CmdEnd
  | 0, s => .done s
  | k + 1, s =>
    match runTurn s with
    | .stop s' => .done s'
    | .go (.done s') => runFuel k s'
    | .go e => e

/-- Run() (46_huffman_decoder R205). -/
def decoderRun (s : State) : CmdEnd := runFuel (s.b2.len + 1) s

/-- CHD.RST (46_huffman_decoder R201). -/
def execChdRst (s : State) : Out :=
  runCommand s (.done { s with
    b2 := .empty, decState := .readingHeaderInfo, tsize := 0, hcnt := 0, hlen := List.replicate alpha 0,
    wlen := 0, wval := 0, outCnt := 0, decBlocks := 0 })

/-- CHD.SETOUT (46_huffman_decoder R202). -/
def execChdSetout (b c : Word) (s : State) : Out :=
  runCommand s (checkRegion s (regionOf c b) (.done { s with outBase := c, outCap := b, outCnt := 0 }))

/-- CHD.PUSH (46_huffman_decoder R203): RANGE and CAPACITY come before anything changes. -/
def chdPushBody (a : Word) (s : State) : CmdEnd :=
  if 255 < a.toNat then .early .range
  else if s.decState = .streamEnd then .done s
  else match s.b2.pushLS a.toNat 8 with
    | .none => .early .capacity
    | some r => decoderRun { s with b2 := r }

def execChdPush (a : Word) (s : State) : Out := runCommand s (chdPushBody a s)

/-- CHD.RUN (46_huffman_decoder R204). -/
def execChdRun (s : State) : Out := runCommand s (decoderRun s)

end Sys2Proof.Machine
end

