-- ==== Sys2Proof/Machine/Encoder.lean ====
section
/-! DEFINITION. canonical_huffman_encoder: Emit and EncodeSym (45_huffman_encoder R185, R189) and the commands CHE.*
(R186 to R188). It uses b0 as accumulator, b1 as staging buffer, CT0 and CT1 (10_state R22, R32). -/

namespace Sys2Proof.Machine

/-- Emit(v, L): stage the field in b1, then AppendAndFlush(b0, b1) (45_huffman_encoder R185). -/
def emit (v : Word64) (l : Nat) (s : State) : CmdEnd :=
  let field : BitBuf := ⟨v, l⟩
  { s with b1 := field }.appendAndFlush .b0 field

/-- EncodeSym(t, s): RANGE for a symbol that has no code, before anything changes (45_huffman_encoder R189). -/
def encodeSym (t : Slot) (sym : Nat) (s : State) : CmdEnd :=
  let table := s.getSlot t
  if table.lenOf sym = 0 then .early .range
  else emit (table.codeOf sym) (table.lenOf sym) s

/-- EncodeSym of each symbol in turn. -/
def encodeSyms (t : Slot) : List Nat → State → CmdEnd
  | [], s => .done s
  | x :: xs, s => (encodeSym t x s).andThen (encodeSyms t xs)

/-- CHE.RST (45_huffman_encoder R186). -/
def execCheRst (s : State) : Out := runCommand s (.done { s with b0 := .empty, b1 := .empty })

/-- CHE.SYM (45_huffman_encoder R187). -/
def cheSymBody (t : Slot) (a : Word) (s : State) : CmdEnd :=
  if 257 < a.toNat then .early .range else encodeSym t a.toNat s

def execCheSym (t : Slot) (a : Word) (s : State) : Out := runCommand s (cheSymBody t a s)

/-- The terminator: EOS for the final block, EOB for any other (45_huffman_encoder R188). -/
def terminator (f : Bool) : Nat := if f then eos else eob

/-- Step 1: the frequency of every symbol of the alphabet in the block and its terminator (45_huffman_encoder R188). -/
def blockFreqs (d : List Nat) (f : Bool) : List Nat :=
  (List.range alpha).map (fun x => (d ++ [terminator f]).count x)

/-- Step 3: the table size, 1 + the largest data code length (45_huffman_encoder R188, 90 C2). -/
def tableSize (t : CodeTable) : Nat := 1 + t.len.foldl max 0

/-- Steps 3 to 7 with the data table in CT0: the 9-bit table size, the header table into CT1, the 258 lengths through it,
the data symbols, the terminator, and for a final block the padding (45_huffman_encoder R188). -/
def encodeBody (d : List Nat) (f : Bool) (s : State) : CmdEnd :=
  (emit (BitVec.ofNat 64 (tableSize s.ct0)) hdrInfoBits s).andThen fun s =>
    match headerTable s.cfg (tableSize s.ct0) with
    | .error c => .early c
    | .ok h =>
      (encodeSyms .ct1 s.ct0.len { s with ct1 := h }).andThen fun s =>
        (encodeSyms .ct0 (d ++ [terminator f]) s).andThen fun s =>
          .done (if f then s.flushBuf .b0 true else s)

/-- CHE.BLOCK (45_huffman_encoder R188): the checks, steps 1 and 2, then the output. A fault after CT0 is written is
late. -/
def cheBlockBody (f : Bool) (a b : Word) (s : State) : CmdEnd :=
  checkRegion s (regionOf a b)
    (let cells := s.readRegion a.toNat b.toNat
     checkBytes cells
       (match buildTable (blockFreqs (toNats cells) f) with
        | .error c => .early c
        | .ok t => (CmdEnd.done { s with ct0 := t }).andThen (encodeBody (toNats cells) f)))

def execCheBlock (f : Bool) (a b : Word) (s : State) : Out := runCommand s (cheBlockBody f a b s)

end Sys2Proof.Machine
end

