-- ==== Sys2Proof/Machine/Mtf.lean ====
section
/-! DEFINITION. move_to_front_encoder and move_to_front_decoder (43_mtf R150 to R156). -/

namespace Sys2Proof.Machine

/-- FrontMove(T, j): entry j to the front, the entries before it one place on (43_mtf R154). -/
def frontMove (t : MtfTable) (j : Nat) : MtfTable :=
  match t[j]? with
  | none => t
  | some x => x :: (t.take j ++ t.drop (j + 1))

/-- The forward transform of a sequence and the table after it (43_mtf R152). -/
def mtfEncode : MtfTable → List Byte → List Nat × MtfTable
  | t, [] => ([], t)
  | t, x :: xs =>
    let j := t.idxOf x
    let rest := mtfEncode (frontMove t j) xs
    (j :: rest.1, rest.2)

/-- The inverse transform of a sequence and the table after it (43_mtf R153). -/
def mtfDecode : MtfTable → List Nat → List Byte × MtfTable
  | t, [] => ([], t)
  | t, j :: js =>
    let rest := mtfDecode (frontMove t j) js
    (t.getD j 0 :: rest.1, rest.2)

/-- Cells that hold bytes, as bytes. -/
def toBytes (xs : List Word) : List Byte := xs.map (BitVec.setWidth 8)

/-- MTFE.RST (43_mtf R150). -/
def execMtfeRst (s : State) : Out := runCommand s (.done { s with te := s.cfg.mtfInit })

/-- MTFD.RST (43_mtf R151). -/
def execMtfdRst (s : State) : Out := runCommand s (.done { s with td := s.cfg.mtfInit })

/-- MTFE.RUN (43_mtf R152). Reading the whole source before writing gives the pseudocode's result, in place too
(20_memory R67, R73; log 15). -/
def mtfeRunBody (a b c : Word) (s : State) : CmdEnd :=
  checkSrcDst s true a b c
    (let cells := s.readRegion a.toNat b.toNat
     checkBytes cells
       (let r := mtfEncode s.te (toBytes cells)
        .done ({ s with te := r.2 }.writeRegion c.toNat (toWords r.1))))

def execMtfeRun (a b c : Word) (s : State) : Out := runCommand s (mtfeRunBody a b c s)

/-- MTFD.RUN (43_mtf R153). -/
def mtfdRunBody (a b c : Word) (s : State) : CmdEnd :=
  checkSrcDst s true a b c
    (let cells := s.readRegion a.toNat b.toNat
     checkBytes cells
       (let r := mtfDecode s.td (toNats cells)
        .done ({ s with td := r.2 }.writeRegion c.toNat (r.1.map (BitVec.setWidth 32)))))

def execMtfdRun (a b c : Word) (s : State) : Out := runCommand s (mtfdRunBody a b c s)

/-- A table written to the 256 cells from C (43_mtf R155, R156). -/
def dumpTable (t : MtfTable) (c : Word) (s : State) : CmdEnd :=
  checkRegion s ⟨c.toNat, nsym⟩ (.done (s.writeRegion c.toNat (t.map (BitVec.setWidth 32))))

/-- MTFE.DUMP (43_mtf R155). -/
def execMtfeDump (c : Word) (s : State) : Out := runCommand s (dumpTable s.te c s)

/-- MTFD.DUMP (43_mtf R156). -/
def execMtfdDump (c : Word) (s : State) : Out := runCommand s (dumpTable s.td c s)

end Sys2Proof.Machine
end

