-- ==== Sys2Proof/Machine/System.lean ====
section
/-! DEFINITION. SYS.NOP (47_system R220). The block has no other system operation (R222). -/

namespace Sys2Proof.Machine

/-- SYS.NOP changes nothing (47_system R220). -/
def execSysNop (s : State) : Out := runCommand s (.done s)

end Sys2Proof.Machine
end

