-- ==== Sys2Proof/Machine/Dispatch.lean ====
section
/-! DEFINITION. One arm per command (30_encoding R84). -/

namespace Sys2Proof.Machine

def exec (i : Instr) (s : State) : Host.Outcome State Fault Refusal :=
  match i with
  | .sysNop => Sys2Proof.Machine.execSysNop s
  | .bbClr bd => Sys2Proof.Machine.execBbClr bd s
  | .bbPushl bd n v => Sys2Proof.Machine.execBbPushl bd n v s
  | .bbPushr bd n v => Sys2Proof.Machine.execBbPushr bd n v s
  | .bbPulll bd n => Sys2Proof.Machine.execBbPulll bd n s
  | .bbPullr bd n => Sys2Proof.Machine.execBbPullr bd n s
  | .bbFlush bd f => Sys2Proof.Machine.execBbFlush bd f s
  | .bbAppf bd bs => Sys2Proof.Machine.execBbAppf bd bs s
  | .saBuild a b c => Sys2Proof.Machine.execSaBuild a b c s
  | .bwtFwd a b c => Sys2Proof.Machine.execBwtFwd a b c s
  | .bwtInv a b c => Sys2Proof.Machine.execBwtInv a b c s
  | .mtfeRst => Sys2Proof.Machine.execMtfeRst s
  | .mtfeRun a b c => Sys2Proof.Machine.execMtfeRun a b c s
  | .mtfeDump c => Sys2Proof.Machine.execMtfeDump c s
  | .mtfdRst => Sys2Proof.Machine.execMtfdRst s
  | .mtfdRun a b c => Sys2Proof.Machine.execMtfdRun a b c s
  | .mtfdDump c => Sys2Proof.Machine.execMtfdDump c s
  | .htbBuild t a b => Sys2Proof.Machine.execHtbBuild t a b s
  | .htbPrior t b => Sys2Proof.Machine.execHtbPrior t b s
  | .htbCanon t a b => Sys2Proof.Machine.execHtbCanon t a b s
  | .htbStore t c => Sys2Proof.Machine.execHtbStore t c s
  | .cheRst => Sys2Proof.Machine.execCheRst s
  | .cheSym t a => Sys2Proof.Machine.execCheSym t a s
  | .cheBlock f a b => Sys2Proof.Machine.execCheBlock f a b s
  | .chdRst => Sys2Proof.Machine.execChdRst s
  | .chdSetout b c => Sys2Proof.Machine.execChdSetout b c s
  | .chdPush a => Sys2Proof.Machine.execChdPush a s
  | .chdRun => Sys2Proof.Machine.execChdRun s

end Sys2Proof.Machine
end

