-- ==== Sys2Proof/Machine/Port.lean ====
section
/-! DEFINITION. The block's ports: what each of the host's five interactions does (60_exceptions R246, 30_encoding R81). -/

namespace Sys2Proof.Machine

/-- The host's next action leaves `pending`, and the free values of what it does are a new draw (logs 1 and 3). -/
def State.accept (s : State) : State := { s with pending := s.pending.tail, draws := s.draws + 1 }

/-- A descriptor at the command port: an illegal one raises ILLEGAL, or is refused like every descriptor while
FAULTED = 1 (30_encoding R85, 60_exceptions R229); a legal one runs. -/
def issue (d : Desc) (s : State) : Out :=
  match decode d with
  | .ok i => exec i s
  | .error _ => .next (s.raise .illegal)

/-- The host gets a reply (log 11). -/
def State.reply (s : State) (r : HostReply) : State := { s with replies := s.replies ++ [r] }

/-- The host reads one cell; a cell at or above MEM_WORDS does not exist (20_memory R60, R70; log 10). -/
def hostRead (a : Word) (s : State) : Out :=
  if s.cfg.memWords ≤ a.toNat then .fault .absentCell else .next (s.reply (.cell (s.readCell a.toNat)))

/-- The host writes one cell and nothing else (20_memory R70). -/
def hostWrite (a v : Word) (s : State) : Out :=
  if s.cfg.memWords ≤ a.toNat then .fault .absentCell else .next (s.writeRegion a.toNat [v])

/-- The host takes up to k of the bytes of SINK it has not taken; SINK, the record of what was put, stays
(60_exceptions R246, 20_memory R74). -/
def hostDrain (k : Nat) (s : State) : State :=
  let bs := (s.sink.drop s.drained).take k
  { s.reply (.bytes bs) with drained := s.drained + bs.length }

/-- One action of the host (60_exceptions R246). -/
def hostAct (a : HostAction) (s : State) : Out :=
  match a with
  | .issue d => issue d s
  | .csrRead k => .next (s.reply (.csr (s.csrRead k.toNat)))
  | .memRead a => hostRead a s
  | .memWrite a v => hostWrite a v s
  | .drain k => .next (hostDrain k s)
  | .reset => .next s.resetInput

end Sys2Proof.Machine
end

