-- ==== Sys2Proof/Machine/Step.lean ====
section
/-! DEFINITION. One step: the host's next action. -/

namespace Sys2Proof.Machine

/-- One step takes the host's next action to its end; with none left the block waits and nothing changes
(30_encoding R81, 70_reset R258, R268; logs 1 and 9). -/
def step (s : State) : Host.Outcome State Fault Refusal :=
  match s.pending with
  | [] => .next s
  | a :: _ => hostAct a s.accept

/-- The state with one descriptor put in front of the host's actions, so that the next step issues it (log 1). -/
def State.withFetchWord (s : State) (nbits w : Nat) : State :=
  { s with pending := .issue (descOfBits nbits w) :: s.pending }

end Sys2Proof.Machine
end

