-- ==== Sys2Proof/Safety.lean ====
section
/-! DEFINITION. The terms claims are stated in: the invariant of the machine, safe runs and launch premises
(70_reset R268, R269), the order of suffixes (41_suffix_array R121) and the bits of the stream (00_scope R12). -/

namespace Sys2Proof.Machine

/-! ### The invariant every step keeps -/

/-- The invariant of a slot that a rule has written: at most 64 bits a length, the Kraft inequality, the canonical
assignment (10_state R31). -/
structure CodeTable.Canonical (t : CodeTable) : Prop where
  shape : t.shape
  kraft : kraftSum t.len ≤ 2 ^ lmax
  codes : t.code = (canonCodes t.len).map (BitVec.ofNat 64)

/-- What holds of every state a run reaches from a reset block with a legal configuration. -/
structure State.Inv (s : State) : Prop where
  /-- the configuration satisfies its constraints (00_scope R8) -/
  cfgOk : s.cfg.wf
  /-- M keeps its canonical form -/
  memSorted : s.mem.wf
  /-- M holds only cells that exist (20_memory R60) -/
  memInside : ∀ p ∈ s.mem, p.1 < s.cfg.memWords
  /-- every bit buffer meets 10_state R21 -/
  bufs : ∀ i, (s.getBuf i).wf
  /-- TE and TD are permutations of 0..255 (10_state R30) -/
  mtf : MtfTable.wf s.te ∧ MtfTable.wf s.td
  /-- the slots have 258 lengths of 0..64 and 258 codes (10_state R20) -/
  slotShape : ∀ t, (s.getSlot t).shape
  /-- without a fault every slot is canonical and obeys Kraft (10_state R31) -/
  slotCanonical : s.faulted = false → ∀ t, (s.getSlot t).Canonical
  /-- TSIZE and HCNT within their ranges, 258 header lengths (10_state R20); a length can exceed 64 when the host
  has replaced CT2 in mid-header (70_reset R262; log 16) -/
  header : s.tsize ≤ 65 ∧ s.hcnt ≤ alpha ∧ s.hlen.length = alpha ∧ ∀ l ∈ s.hlen, l ≤ 257
  /-- without a fault, fewer than 258 lengths have been read while they are being read (46_huffman_decoder R205) -/
  headerOpen : s.faulted = false → s.decState = .decodingHeader → s.hcnt < alpha
  /-- WLEN < 64 and WVAL < 2^WLEN (10_state R20, R35) -/
  walk : s.wlen < 64 ∧ s.wval.toNat < 2 ^ s.wlen
  /-- OUT_CNT <= OUT_CAP (10_state R20) -/
  outCount : s.outCnt.toNat ≤ s.outCap.toNat
  /-- without a fault the output region lies in M (46_huffman_decoder R202) -/
  outRegion : s.faulted = false → s.outBase.toNat + s.outCap.toNat ≤ s.cfg.memWords
  /-- SINK_CNT counts SINK modulo 2^32 (10_state R26) -/
  sinkCount : s.sinkCnt = BitVec.ofNat 32 s.sink.length
  /-- ERR is 0 without a fault and one of the eleven codes with one (60_exceptions R226) -/
  errCode : (s.faulted = false → s.err = 0) ∧ (s.faulted = true → ∃ c : FaultCode, s.err = c.code)
  /-- the host has taken no byte that was not put -/
  drainedOk : s.drained ≤ s.sink.length

/-! ### Safe runs (70_reset R268, R269) -/

/-- The cells of a region have been written (20_memory R71, 70_reset R269 (3)). -/
def State.written (s : State) (base k : Nat) : Bool :=
  (List.range k).all (fun i => (s.mem.lookup (base + i)).isSome)

/-- The launch premises 1, 2 and 4 of 70_reset R269, for a state given explicitly: no fault, a legal configuration and
the invariant; premise 3 is `State.written` of the regions a command reads. -/
def State.Launch (s : State) : Prop := s.faulted = false ∧ s.Inv

/-- The result of a run of k steps from s: its final state, when the model did not stop and FAULTED was 0 in every state of
the run, the first and the last among them. A run in which FAULTED became 1 has none, also when a reset input cleared it
again (70_reset R268, 60_exceptions R230). -/
def runResult : Nat → State → Option State
  | 0, s => if s.faulted then none else some s
  | k + 1, s =>
    if s.faulted then none
    else match step s with
      | .next t => runResult k t
      | _ => none

/-- A run of k steps that has a result (70_reset R268). -/
def SafeRun (k : Nat) (s : State) : Prop := ∃ t, runResult k s = some t

/-! ### Suffix order (41_suffix_array R121) -/

/-- Suffix i is smaller than suffix j: at the first index where they differ, i's symbol is smaller. -/
def SuffixLt (xs : List Nat) (i j : Nat) : Prop :=
  ∃ k, i + k < xs.length ∧ j + k < xs.length ∧ (∀ m < k, symAt xs (i + m) = symAt xs (j + m)) ∧
    symAt xs (i + k) < symAt xs (j + k)

/-- sa is the suffix array of xs: a permutation of the positions with the suffixes ascending. -/
def IsSuffixArray (xs sa : List Nat) : Prop := sa.Perm (List.range xs.length) ∧ sa.Pairwise (SuffixLt xs)

/-! ### Bits (00_scope R12) -/

/-- The n low-order bits of v, the most significant first. -/
def bitsMS (v n : Nat) : List Bool := (List.range n).map (fun i => v.testBit (n - 1 - i))

/-- The bits of a buffer in the order they leave at the most significant end. -/
def BitBuf.bits (b : BitBuf) : List Bool := bitsMS b.val.toNat b.len

/-- The bits of bytes in stream order: the most significant bit of the first byte first. -/
def byteBits (bs : List Byte) : List Bool := bs.flatMap (fun b => bitsMS b.toNat 8)

/-- The stream so far: the bytes in SINK, then the bits still in the accumulator b0 (45_huffman_encoder R191). -/
def State.streamBits (s : State) : List Bool := byteBits s.sink ++ s.b0.bits

/-- The code of a symbol in a slot, most significant bit first (44_huffman_tree R172). -/
def CodeTable.codeBits (t : CodeTable) (sym : Nat) : List Bool := bitsMS (t.codeOf sym).toNat (t.lenOf sym)

/-- One block on the wire: the table size ts in 9 bits, the 258 lengths through the header table, the body, the
terminator (45_huffman_encoder R193). -/
def blockBits (data header : CodeTable) (ts : Nat) (d : List Nat) (term : Nat) : List Bool :=
  bitsMS ts 9 ++ data.len.flatMap header.codeBits ++ (d ++ [term]).flatMap data.codeBits

/-- The zero bits that fill n bits up to a byte boundary (45_huffman_encoder R193). -/
def padBits (n : Nat) : List Bool := List.replicate ((8 - n % 8) % 8) false

/-! ### What a command may write (10_state R23, R24, R30, R32 to R36, 20_memory R69) -/

/-- The bit-buffer registers a command writes (10_state R23). -/
def Instr.writesBuf (i : Instr) (r : BufReg) : Bool :=
  match i with
  | .bbClr bd | .bbPushl bd _ _ | .bbPushr bd _ _ | .bbPulll bd _ | .bbPullr bd _ | .bbFlush bd _ | .bbAppf bd _ => r == bd
  | .cheRst | .cheSym _ _ | .cheBlock _ _ _ => r == .b0 || r == .b1
  | .chdRst | .chdPush _ | .chdRun => r == .b2
  | _ => false

/-- The code-table slots a command writes (10_state R32, 44_huffman_tree R176, R177, R179). -/
def Instr.writesSlot (i : Instr) (u : Slot) : Bool :=
  match i with
  | .htbBuild t _ _ | .htbPrior t _ | .htbCanon t _ _ => u == t
  | .cheBlock _ _ _ => u == .ct0 || u == .ct1
  | .chdPush _ | .chdRun => u == .ct2 || u == .ct3
  | _ => false

/-- The commands that write RES (10_state R24). -/
def Instr.writesRes : Instr → Bool
  | .bbPulll _ _ | .bbPullr _ _ => true
  | _ => false

/-- The commands that put bytes into SINK (10_state R26). -/
def Instr.writesSink : Instr → Bool
  | .bbFlush _ _ | .bbAppf _ _ | .cheSym _ _ | .cheBlock _ _ _ => true
  | _ => false

/-- The commands that write TE (10_state R30). -/
def Instr.writesTe : Instr → Bool
  | .mtfeRst | .mtfeRun _ _ _ => true
  | _ => false

/-- The commands that write TD (10_state R30). -/
def Instr.writesTd : Instr → Bool
  | .mtfdRst | .mtfdRun _ _ _ => true
  | _ => false

/-- The commands that write DEC_STATE and the other decoder registers (10_state R33, 46_huffman_decoder R201 to R204). -/
def Instr.writesDecoder : Instr → Bool
  | .chdRst | .chdPush _ | .chdRun => true
  | _ => false

/-- The command that names the output region (46_huffman_decoder R202). -/
def Instr.namesOutput : Instr → Bool
  | .chdSetout _ _ => true
  | _ => false

/-- The region a command that went from s to t without a fault has written (20_memory R69). -/
def Instr.writeRegionOf (i : Instr) (s t : State) : Region :=
  match i with
  | .saBuild _ b c | .bwtFwd _ b c | .bwtInv _ b c | .mtfeRun _ b c | .mtfdRun _ b c => regionOf c b
  | .mtfeDump c | .mtfdDump c => ⟨c.toNat, 256⟩
  | .htbStore _ c => ⟨c.toNat, 774⟩
  | .chdPush _ | .chdRun => ⟨s.outBase.toNat + s.outCnt.toNat, t.outCnt.toNat - s.outCnt.toNat⟩
  | _ => ⟨0, 0⟩

/-- The commands all of whose faults are early (60_exceptions R231). -/
def Instr.faultsEarly : Instr → Bool
  | .bbAppf _ _ | .cheSym _ _ | .cheBlock _ _ _ | .chdPush _ | .chdRun => false
  | _ => true

/-- The faults a command can record: the column `raised by` of 60_exceptions R226, with ILLEGAL for any descriptor;
CAPACITY of CHD.RUN and of the table step of CHD.PUSH is the case of log 16. -/
def Instr.faultCodes (i : Instr) : List FaultCode :=
  .illegal :: match i with
  | .bbPushl _ _ _ | .bbPushr _ _ _ | .bbAppf _ _ => [.capacity]
  | .bbPulll _ _ | .bbPullr _ _ => [.underflow]
  | .saBuild _ _ _ => [.bounds, .overlap]
  | .bwtFwd _ _ _ | .bwtInv _ _ _ | .mtfeRun _ _ _ | .mtfdRun _ _ _ => [.bounds, .overlap, .range]
  | .mtfeDump _ | .mtfdDump _ | .htbStore _ _ | .chdSetout _ _ => [.bounds]
  | .htbBuild _ _ _ => [.range, .bounds, .degenerate, .capacity]
  | .htbPrior _ _ => [.range]
  | .htbCanon _ _ _ => [.range, .bounds, .capacity, .kraft]
  | .cheSym _ _ => [.range, .capacity]
  | .cheBlock _ _ _ => [.bounds, .range, .degenerate, .capacity]
  | .chdPush _ => [.range, .capacity, .stream, .tree, .kraft, .outfull]
  | .chdRun => [.capacity, .stream, .tree, .kraft, .outfull]
  | .sysNop | .bbClr _ | .bbFlush _ _ | .mtfeRst | .mtfdRst | .cheRst | .chdRst => []

/-- The five commands with a source and a destination region (20_memory R67). -/
def Instr.srcDst : Instr → Option (Word × Word × Word)
  | .saBuild a b c | .bwtFwd a b c | .bwtInv a b c | .mtfeRun a b c | .mtfdRun a b c => some (a, b, c)
  | _ => none

/-- The commands that run in place when A = C (20_memory R67). -/
def Instr.runsInPlace : Instr → Bool
  | .mtfeRun _ _ _ | .mtfdRun _ _ _ => true
  | _ => false

/-- A descriptor whose fields set a bit its command does not use: a reserved bit, a field or a word
(30_encoding R85 (a), (c), (d)). -/
def StrayBits (o : Opcode) (x : Fields) : Prop :=
  x.rsv ≠ 0 ∨
  (o.format.uses.bd = false ∧ x.bd ≠ 0) ∨ (o.format.uses.bs = false ∧ x.bs ≠ 0) ∨
  (o.format.uses.n = false ∧ x.n ≠ 0) ∨ (o.format.uses.f = false ∧ x.f ≠ 0) ∨ (o.format.uses.t = false ∧ x.t ≠ 0) ∨
  (o.format.uses.w1 = false ∧ x.w1 ≠ 0) ∨ (o.format.uses.w2 = false ∧ x.w2 ≠ 0) ∨
  (o.format.uses.w3 = false ∧ x.w3 ≠ 0)

/-- The six cases that make a descriptor illegal, on its fields (30_encoding R85 (a) to (f)). -/
def IllegalForm (x : Fields) : Prop :=
  x.rsv ≠ 0 ∨ (∀ o : Opcode, o.code ≠ x.op) ∨
  ∃ o : Opcode, o.code = x.op ∧
    (StrayBits o x ∨ (o.format.uses.n = true ∧ 64 < x.n.toNat) ∨ (o = .bbAppf ∧ x.bd = x.bs))

/-! ### Early faults (60_exceptions R228, R230) -/

/-- The state after an early fault: FAULTED = 1 and ERR holds the code; nothing else changes. -/
def State.faultedBy (s : State) (c : FaultCode) : State := { s with faulted := true, err := c.code }

/-- Every descriptor of operation o with a stray bit raises ILLEGAL in state s, before anything changes
(30_encoding R85 (a), (c), (d)). -/
def StrayRaisesIllegal (o : Opcode) (s : State) : Prop :=
  ∀ d : Desc, (unpack d).op = o.code → StrayBits o (unpack d) → issue d s = .next (s.faultedBy .illegal)

/-- The faults a command raises after it has changed state (60_exceptions R231); CAPACITY of CHD.PUSH and CHD.RUN is the
table case of log 16. -/
def Instr.lateCodes : Instr → List FaultCode
  | .bbAppf _ _ | .cheSym _ _ | .cheBlock _ _ _ => [.capacity]
  | .chdPush _ | .chdRun => [.capacity, .stream, .tree, .kraft, .outfull]
  | _ => []

/-! ### Regions and strings -/

/-- Two regions overlap (20_memory R67). -/
def Overlap (x k y j : Nat) : Prop := 0 < k ∧ 0 < j ∧ x < y + j ∧ y < x + k

/-- The sentinel precondition: n >= 1 symbols, the last one 0 and no other 0 (41_suffix_array R121). -/
def SentinelString (xs : List Nat) : Prop :=
  xs.getLast? = some 0 ∧ ∀ i, i + 1 < xs.length → symAt xs i ≠ 0

/-- The elements of region (base, k) as natural numbers (20_memory R65). -/
def State.data (s : State) (base k : Nat) : List Nat := toNats (s.readRegion base k)

/-- Every cell at an address outside region (base, k) reads in t as it read in s, and was written in t as in s
(20_memory R69). -/
def CellsOutsideKept (s t : State) (base k : Nat) : Prop :=
  ∀ a, a < base ∨ base + k ≤ a → t.readCell a = s.readCell a ∧ t.mem.lookup a = s.mem.lookup a

/-- The front move of a table at index j, entry by entry (43_mtf R154). -/
def FrontMoved (t : MtfTable) (j : Nat) (u : MtfTable) : Prop :=
  u.length = t.length ∧ u[0]? = t[j]? ∧ (∀ k, 0 < k → k ≤ j → u[k]? = t[k - 1]?) ∧ ∀ k, j < k → u[k]? = t[k]?

/-! ### The greedy tree (44_huffman_tree R166) -/

/-- Key order: by weight, then by order (44_huffman_tree R166). -/
def KeyBefore (a b : HNode) : Prop := a.weight < b.weight ∨ a.weight = b.weight ∧ a.order < b.order

/-- HuffBuild's loop from its j-th turn on: with the nodes `q` in the queue, in whatever list order, it ends in the tree t.
Each turn removes the node with the least key and then the one with the least key of the rest, and adds their parent with
order 258 + j (44_huffman_tree R166). -/
inductive HuffMerges : Nat → List HNode → HTree → Prop where
  | root (j : Nat) (n : HNode) : HuffMerges j [n] n.tree
  | merge (j : Nat) (q rest : List HNode) (a b : HNode) (t : HTree) :
      q.Perm (a :: b :: rest) → KeyBefore a b → (∀ c ∈ rest, KeyBefore b c) →
      HuffMerges (j + 1) (⟨a.weight + b.weight, 258 + j, .node a.tree b.tree⟩ :: rest) t → HuffMerges j q t

/-- The leaves HuffBuild starts with: one for each symbol of positive weight, its order the symbol
(44_huffman_tree R165, R166). -/
def weightLeaves (w : List Nat) : List HNode :=
  ((List.range w.length).filter (fun s => 0 < w.getD s 0)).map (fun s => ⟨w.getD s 0, s, .leaf s⟩)

/-- The leaf of symbol x lies at depth d below the root (44_huffman_tree R166). -/
def HTree.LeafAtDepth : HTree → Nat → Nat → Prop
  | .leaf s, x, d => x = s ∧ d = 0
  | .node p q, x, d => ∃ e, d = e + 1 ∧ (p.LeafAtDepth x e ∨ q.LeafAtDepth x e)

/-! ### Code tables -/

/-- Symbol x comes before y in canonical order (44_huffman_tree R171). -/
def CanonBefore (lens : List Nat) (x y : Nat) : Prop :=
  lens.getD x 0 < lens.getD y 0 ∨ (lens.getD x 0 = lens.getD y 0 ∧ x < y)

/-- x and y are coded, x before y, and no coded symbol stands between them (44_huffman_tree R171). -/
def CanonNext (lens : List Nat) (x y : Nat) : Prop :=
  0 < lens.getD x 0 ∧ 0 < lens.getD y 0 ∧ CanonBefore lens x y ∧
  ∀ z, 0 < lens.getD z 0 → ¬ (CanonBefore lens x z ∧ CanonBefore lens z y)

/-- The sum of 2^(n - L) over the lengths L > 0: 2^n times the Kraft sum, when no length exceeds n
(44_huffman_tree R168, R173). -/
def kraftAt (n : Nat) (lens : List Nat) : Nat := ((lens.filter (fun l => 0 < l)).map (fun l => 2 ^ (n - l))).sum

/-- (l, v) is a node of the code tree of a slot (44_huffman_tree R175). -/
def CodeTable.TreeNode (t : CodeTable) (l v : Nat) : Prop :=
  ∃ x, 0 < t.lenOf x ∧ l ≤ t.lenOf x ∧ (t.codeOf x).toNat >>> (t.lenOf x - l) = v

/-- (l, v) is the leaf of symbol x (44_huffman_tree R175). -/
def CodeTable.TreeLeaf (t : CodeTable) (x l v : Nat) : Prop :=
  0 < t.lenOf x ∧ t.lenOf x = l ∧ (t.codeOf x).toNat = v

/-! ### Streams (46_huffman_decoder R208, R210, R212) -/

/-- Bytes pushed into the decoder one CHD.PUSH each, while no fault is recorded (46_huffman_decoder R212). -/
def feedBytes : List Byte → State → Option State
  | [], s => some s
  | x :: xs, s =>
    match exec (.chdPush (x.setWidth 32)) s with
    | .next t => if t.faulted then none else feedBytes xs t
    | _ => none

/-- Fields of n bits of v loaded into b2 with BB.PUSHL, a CHD.RUN after each, while no fault is recorded
(46_huffman_decoder R208). -/
def feedPieces : List (BitVec 7 × Word64) → State → Option State
  | [], s => some s
  | (n, v) :: ps, s =>
    match exec (.bbPushl .b2 n v) s with
    | .next t =>
      if t.faulted then none
      else match exec .chdRun t with
        | .next u => if u.faulted then none else feedPieces ps u
        | _ => none
    | _ => none

/-- The bits of such fields, in the order they are loaded. -/
def pieceBits (ps : List (BitVec 7 × Word64)) : List Bool := ps.flatMap (fun p => bitsMS p.2.toNat p.1.toNat)

/-- The blocks of one stream through CHE.BLOCK in order, the last with `final`, while no fault is recorded; a block is
given by its base and its count (45_huffman_encoder R195). -/
def encodeBlocks : List (Word × Word) → State → Option State
  | [], s => some s
  | (a, b) :: rest, s =>
    match exec (.cheBlock rest.isEmpty a b) s with
    | .next t => if t.faulted then none else encodeBlocks rest t
    | _ => none

/-- The symbols the decoder delivers for such blocks: every block and its terminator, 257 for the last block and 256 for
every other (46_huffman_decoder R210). -/
def deliveredSymbols (s : State) : List (Word × Word) → List Nat
  | [] => []
  | (a, b) :: rest => s.data a.toNat b.toNat ++ (if rest.isEmpty then 257 else 256) :: deliveredSymbols s rest

end Sys2Proof.Machine
end

