-- ==== Sys2Proof/Certificates/Slice0/Obligations.lean ====
section
/-! DEFINITION. The statements for the provers, from the numbered rules of the spec. Where a statement says that a
command answers a next state, its hypotheses are about the state and the operands alone. -/

open Sys2Proof Sys2Proof.Machine

/-! ### Encoding -/

/-- 30_encoding R84, R89: words written out from the encoding decode to the commands they stand for; one per unit. -/
def Obligations.KnownWordsDecode : Prop :=
  decode 0x00000000000000000000000000000000 = .ok .sysNop ∧
  decode 0x00000000000000000000001300005011 = .ok (.bbPushl .b0 5 0x13) ∧
  decode 0x00000000000000000000000000000416 = .ok (.bbAppf .b0 .b1) ∧
  decode 0x00000100000000070000000000000020 = .ok (.saBuild 0 7 0x100) ∧
  decode 0x00000010000000040000000000000030 = .ok (.bwtFwd 0 4 16) ∧
  decode 0x00000010000000040000000000000041 = .ok (.mtfeRun 0 4 16) ∧
  decode 0x00000010000000040000000000000051 = .ok (.mtfdRun 0 4 16) ∧
  decode 0x00000000000000060000000000300060 = .ok (.htbBuild .ct3 0 6) ∧
  decode 0x00000000000000040000002000080072 = .ok (.cheBlock true 32 4) ∧
  decode 0x00000000000000000000009500000082 = .ok (.chdPush 0x95)

/-- No bit of an encoding is dropped: decoding the descriptor of a legal command gives the command back. -/
def Obligations.DecodeOfEncodedCommand : Prop := ∀ i : Instr, i.wf = true → decode (encode i) = .ok i

/-- 30_encoding R86: a descriptor selects a command when its bits under the command's mask equal the command's match;
R85 (e) and (f) then ask n <= 64 where n is used and bd /= bs for BB.APPF. Every legal descriptor has one meaning and one
spelling: its command is well-formed and encodes to it again. -/
def Obligations.DecodeAgreesWithMasks : Prop :=
  (∀ (d : Desc) (o : Opcode),
    (∃ i, decode d = .ok i ∧ i.opcode = o) ↔
      (d &&& o.mask = o.matchBits ∧ (o.format.uses.n = true → (unpack d).n.toNat ≤ 64) ∧
        (o = .bbAppf → (unpack d).bd ≠ (unpack d).bs))) ∧
  ∀ (d : Desc) (i : Instr), decode d = .ok i → encode i = d ∧ i.wf = true

/-- 30_encoding R85: a descriptor in one of the six cases raises ILLEGAL before any state changes; every other
descriptor is a command and runs. -/
def Obligations.IllegalDescriptorRaisesIllegal : Prop :=
  ∀ (d : Desc) (s : State), s.faulted = false →
    (IllegalForm (unpack d) → issue d s = .next (s.faultedBy .illegal) ∧ (s.faultedBy .illegal).err = 1) ∧
    (¬ IllegalForm (unpack d) → ∃ i, decode d = .ok i ∧ issue d s = exec i s)

/-! ### Steps, refusal, reset -/

/-- A step takes the host's next action, in the state in which that action has left `pending` and the draw has advanced
(logs 1 and 3). With a descriptor there, step is exec of the command it decodes to; an illegal one raises ILLEGAL;
withFetchWord places one descriptor there. The last clause is the model's choice and no rule of the spec: with no action
left a step changes nothing (log 9, DESIGN CHOICE). -/
def Obligations.StepRunsDecodedCommand : Prop :=
  (∀ (s : State) (a : HostAction) (rest : List HostAction), s.pending = a :: rest →
    step s = hostAct a { s with pending := rest, draws := s.draws + 1 }) ∧
  (∀ (s : State) (d : Desc) (rest : List HostAction) (i : Instr),
    s.pending = .issue d :: rest → decode d = .ok i →
      step s = exec i { s with pending := rest, draws := s.draws + 1 }) ∧
  (∀ (s : State) (d : Desc) (rest : List HostAction) (e : DecodeError),
    s.pending = .issue d :: rest → decode d = .error e →
      step s = .next (({ s with pending := rest, draws := s.draws + 1 } : State).raise .illegal)) ∧
  (∀ (s : State) (i : Instr), i.wf = true →
    step (s.withFetchWord 128 (encode i).toNat) = exec i { s with draws := s.draws + 1 }) ∧
  (∀ s : State, s.pending = [] → step s = .next s)

/-- 60_exceptions R229: while FAULTED = 1 every descriptor, legal or not, is accepted and changes nothing, not even ERR;
CSR reads still work and change no register; no action of the host but the reset input clears FAULTED or changes ERR. -/
def Obligations.FaultedBlockRefusesDescriptors : Prop :=
  ∀ s : State, s.faulted = true →
    (∀ d, issue d s = .next s) ∧
    (∀ k, hostAct (.csrRead k) s = .next { s with replies := s.replies ++ [.csr (s.csrRead k.toNat)] }) ∧
    (∀ a t, a ≠ .reset → hostAct a s = .next t → t.faulted = true ∧ t.err = s.err) ∧
    (∃ t, hostAct .reset s = .next t ∧ t.faulted = false ∧ t.err = 0)

/-- 70_reset R255, R256: asserting the reset input puts every register into its reset value; M and the configuration
keep their contents; nothing else clears FAULTED or ERR. -/
def Obligations.ResetInputRestoresResetValues : Prop :=
  ∀ s : State, ∃ t, hostAct .reset s = .next t ∧
    (∀ i, t.getBuf i = ⟨0, 0⟩) ∧ t.res = 0 ∧ t.faulted = false ∧ t.err = 0 ∧ t.sink = [] ∧ t.sinkCnt = 0 ∧
    t.te = s.cfg.mtfInit ∧ t.td = s.cfg.mtfInit ∧
    (∀ u, t.getSlot u = ⟨List.replicate 258 0, List.replicate 258 0⟩) ∧
    t.decState = .readingHeaderInfo ∧ t.decState.num = 0 ∧ t.tsize = 0 ∧ t.hcnt = 0 ∧
    t.hlen = List.replicate 258 0 ∧ t.wlen = 0 ∧ t.wval = 0 ∧
    t.outBase = 0 ∧ t.outCap = 0 ∧ t.outCnt = 0 ∧ t.decBlocks = 0 ∧ t.mem = s.mem ∧ t.cfg = s.cfg ∧
    ∀ a u, a ≠ .reset → s.faulted = true → hostAct a s = .next u → u.faulted = true ∧ u.err = s.err

/-- The reset state of every legal configuration meets the invariant, T0's among them (00_scope R8, 10_state R39). -/
def Obligations.ResetStateMeetsInvariant : Prop :=
  (∀ c : Config, c.wf → (State.resetOf c).Inv) ∧ State.reset.Inv

/-- Every step keeps the invariant: the buffers' val < 2^len, TE and TD permutations, the slots canonical and within
Kraft, the decoder's ranges, M's canonical form within MEM_WORDS, SINK_CNT agreeing with SINK, ERR one of the codes
(10_state R20, R21, R25, R26, R30, R31, R35). From every state that meets it, whatever the host does. Two parts are the
model's choice and no rule of the spec: after a late fault R230 leaves the registers unspecified, and that they keep their
shapes is log 6 (DESIGN CHOICE); that an entry of HLEN is at most 257, not 64, is log 16. -/
def Obligations.StepKeepsInvariant : Prop := ∀ s t : State, s.Inv → step s = .next t → t.Inv

/-- 20_memory R74, 10_state R26: a byte once put into SINK is never changed or withdrawn, including by a later fault,
and SINK_CNT counts the bytes modulo 2^32; only the reset input starts the record again. -/
def Obligations.SinkOnlyGrows : Prop :=
  ∀ (a : HostAction) (s t : State), a ≠ .reset → hostAct a s = .next t →
    ∃ bs, t.sink = s.sink ++ bs ∧ t.sinkCnt = s.sinkCnt + BitVec.ofNat 32 bs.length

/-- 70_reset R268, 60_exceptions R229, R230: a run has a result exactly when FAULTED is 0 in every state of it, and the
result is its final state; one in which FAULTED became 1 has none, also when a reset came after. Without a reset among the
host's actions the last state tells: from a faulted state on, FAULTED, ERR, SINK and every register of the block stay. A run
is over when the last action has ended; that steps after it change nothing is the model's choice (log 9). -/
def Obligations.FaultEndsTheRun : Prop :=
  (∀ (k : Nat) (s t : State), runResult k s = some t ↔
    core.run k s = .next t ∧ ∀ j u, j ≤ k → core.run j s = .next u → u.faulted = false) ∧
  (∀ (k j : Nat) (s u : State), j ≤ k → core.run j s = .next u → u.faulted = true → ¬ SafeRun k s) ∧
  (∀ (k : Nat) (s t : State), .reset ∉ s.pending → core.run k s = .next t → t.faulted = false →
    runResult k s = some t) ∧
  (∀ (k : Nat) (s t : State), s.faulted = true → .reset ∉ s.pending → core.run k s = .next t →
    t.faulted = true ∧ t.err = s.err ∧ t.toRegs = s.toRegs ∧ t.sink = s.sink ∧ t.sinkCnt = s.sinkCnt) ∧
  ∀ (k : Nat) (s : State), s.pending.length ≤ k → runResult k s = runResult s.pending.length s

/-- 20_memory R70, R60: a host write changes one cell and nothing else; a host read gives the cell and changes no state
of the block; a cell at or above MEM_WORDS does not exist (log 10). -/
def Obligations.HostTouchesOneCell : Prop :=
  ∀ (s : State) (a v : Word), s.mem.wf →
    (a.toNat < s.cfg.memWords → ∃ t, hostAct (.memWrite a v) s = .next t ∧ t.readCell a.toNat = v ∧
      CellsOutsideKept s t a.toNat 1 ∧ t = { s with mem := t.mem }) ∧
    (a.toNat < s.cfg.memWords →
      hostAct (.memRead a) s = .next { s with replies := s.replies ++ [.cell (s.readCell a.toNat)] }) ∧
    (s.cfg.memWords ≤ a.toNat →
      hostAct (.memWrite a v) s = .fault .absentCell ∧ hostAct (.memRead a) s = .fault .absentCell)

/-- 60_exceptions R246: the host gets the bytes of SINK in order: what it has taken before and what it takes now are
together a prefix of SINK, which itself stays. The record of what is taken is the model's own (log 11). -/
def Obligations.HostDrainsInOrder : Prop :=
  ∀ (s : State) (k : Nat), s.drained ≤ s.sink.length → ∃ t bs, hostAct (.drain k) s = .next t ∧
    t.replies = s.replies ++ [.bytes bs] ∧ bs.length = min k (s.sink.length - s.drained) ∧
    s.sink.take s.drained ++ bs = s.sink.take t.drained ∧ t.sink = s.sink ∧
    t = { s with replies := t.replies, drained := t.drained }

/-- 10_state R37: the CSR map. In every state, faulted or not, a CSR read of the host answers with the CSR's value and has
no side effect; the record of answers is the model's own (log 11). Field by field: STATUS, ERR, the halves of RES, b0..b3
and WVAL, the lengths and counts with zeros above, the output registers, and 0 at every reserved index; these under the
invariant, so that counts fit. -/
def Obligations.CsrMap : Prop :=
  (∀ (s : State) (k : Word),
    hostAct (.csrRead k) s = .next { s with replies := s.replies ++ [.csr (s.csrRead k.toNat)] }) ∧
  ∀ s : State, s.Inv →
    ((s.csrRead 0).getLsbD 0 = s.faulted ∧ ((s.csrRead 0).extractLsb' 1 2).toNat = s.decState.num ∧
      (s.csrRead 0).extractLsb' 3 29 = 0) ∧
    ((s.csrRead 1).extractLsb' 0 4 = s.err ∧ (s.csrRead 1).extractLsb' 4 28 = 0) ∧
    (s.csrRead 3 ++ s.csrRead 2 : BitVec 64) = s.res ∧ s.csrRead 4 = s.sinkCnt ∧
    (∀ (k : Nat) (i : BufReg), i.bits.toNat = k →
      (s.csrRead (9 + 3 * k) ++ s.csrRead (8 + 3 * k) : BitVec 64) = (s.getBuf i).val ∧
      (s.csrRead (10 + 3 * k)).toNat = (s.getBuf i).len) ∧
    (s.csrRead 20).toNat = s.tsize ∧ (s.csrRead 21).toNat = s.hcnt ∧ (s.csrRead 22).toNat = s.wlen ∧
    (s.csrRead 24 ++ s.csrRead 23 : BitVec 64) = s.wval ∧
    s.csrRead 25 = s.outBase ∧ s.csrRead 26 = s.outCap ∧ s.csrRead 27 = s.outCnt ∧ s.csrRead 28 = s.decBlocks ∧
    (∀ k, (k = 5 ∨ k = 6 ∨ k = 7 ∨ 29 ≤ k) → s.csrRead k = 0)

/-! ### Frames and faults -/

/-- The frame of every command that ends without a fault (10_state R23, R24, R26, R30, R32 to R36, 47_system R221): a
register that the command does not name as written is unchanged. A push, a pull, a flush and BB.APPF write b[bd], a pull
also RES, a flush and BB.APPF also SINK and SINK_CNT; CHE.* write b0, b1 and (but for CHE.RST) SINK and SINK_CNT, CHE.BLOCK
also CT0 and CT1; MTFE.* write TE, MTFD.* TD; HTB.* (but for HTB.STORE) write CT[t]; CHD.RST, CHD.PUSH and CHD.RUN write
b2, the decoder registers and OUT_CNT, the latter two also CT2 and CT3; CHD.SETOUT writes the output registers. No command
changes FAULTED or ERR when it ends without a fault, the configuration, or the model's own fields. -/
def Obligations.CommandsWriteOnlyTheirRegisters : Prop :=
  ∀ (i : Instr) (s t : State), exec i s = .next t → s.faulted = false → t.faulted = false →
    (∀ r, Instr.writesBuf i r = false → t.getBuf r = s.getBuf r) ∧
    (∀ u, Instr.writesSlot i u = false → t.getSlot u = s.getSlot u) ∧
    (Instr.writesRes i = false → t.res = s.res) ∧
    (Instr.writesSink i = false → t.sink = s.sink ∧ t.sinkCnt = s.sinkCnt) ∧
    (Instr.writesTe i = false → t.te = s.te) ∧ (Instr.writesTd i = false → t.td = s.td) ∧
    (Instr.writesDecoder i = false → t.decState = s.decState ∧ t.tsize = s.tsize ∧ t.hcnt = s.hcnt ∧
      t.hlen = s.hlen ∧ t.wlen = s.wlen ∧ t.wval = s.wval ∧ t.decBlocks = s.decBlocks) ∧
    (Instr.namesOutput i = false → t.outBase = s.outBase ∧ t.outCap = s.outCap) ∧
    (Instr.namesOutput i = false → Instr.writesDecoder i = false → t.outCnt = s.outCnt) ∧
    t.err = s.err ∧ t.cfg = s.cfg ∧ t.pending = s.pending ∧ t.replies = s.replies ∧ t.drained = s.drained ∧
    t.draws = s.draws

/-- The frame of memory (20_memory R69): a command that ends without a fault leaves every cell outside its write region
alone, has written every cell of that region, and the region lies in M. The region is computed from the operands, or for
CHD.PUSH and CHD.RUN from OUT_BASE and OUT_CNT. -/
def Obligations.CommandsWriteOnlyTheirCells : Prop :=
  ∀ (i : Instr) (s t : State), s.Inv → exec i s = .next t → s.faulted = false → t.faulted = false →
    CellsOutsideKept s t (Instr.writeRegionOf i s t).base (Instr.writeRegionOf i s t).count ∧
    (∀ k, k < (Instr.writeRegionOf i s t).count →
      (t.mem.lookup ((Instr.writeRegionOf i s t).base + k)).isSome = true) ∧
    ((Instr.writeRegionOf i s t).count = 0 ∨
      (Instr.writeRegionOf i s t).base + (Instr.writeRegionOf i s t).count ≤ s.cfg.memWords)

/-- What a command that faults leaves of memory (60_exceptions R230, 20_memory R69): CHD.PUSH and CHD.RUN may have written
the cells of the output region from OUT_BASE + OUT_CNT on; every other command has written no cell at all. The
configuration and the host's side stay too. -/
def Obligations.FaultedCommandsKeepOtherCells : Prop :=
  ∀ (i : Instr) (s t : State), s.Inv → exec i s = .next t → t.faulted = true →
    CellsOutsideKept s t (s.outBase.toNat + s.outCnt.toNat) (s.outCap.toNat - s.outCnt.toNat) ∧
    (Instr.writesDecoder i = false → t.mem = s.mem) ∧
    t.cfg = s.cfg ∧ t.pending = s.pending ∧ t.replies = s.replies ∧ t.drained = s.drained ∧ t.draws = s.draws

/-- 60_exceptions R226, R230, R231 (with CAPACITY from the decoder's table, log 16): a fault records one code, from the
command's row; it is early, and then nothing but FAULTED and ERR changes, or it is one of the command's late faults, and
then SINK keeps the bytes already put. Under the invariant. -/
def Obligations.FaultsAreEarlyOrLate : Prop :=
  ∀ (i : Instr) (s t : State), s.Inv → s.faulted = false → exec i s = .next t → t.faulted = true →
    ∃ c ∈ Instr.faultCodes i, t.err = c.code ∧
      (t = s.faultedBy c ∨ (c ∈ Instr.lateCodes i ∧ s.sink <+: t.sink))

/-- 70_reset R266: every command ends, for every input; in a state that meets the invariant none touches a cell that does
not exist, so exec always answers a next state. That a command which puts bytes into SINK ends rests on a sink that accepts
every byte, which is the model's choice (log 13, DESIGN CHOICE, unsafe): R266 names a sink that never accepts as the one
thing a command can wait for. -/
def Obligations.EveryCommandEnds : Prop := ∀ (i : Instr) (s : State), s.Inv → ∃ t, exec i s = .next t

/-- 20_memory R66, R67: the five commands with a source (A, B) and a destination (C, B): BOUNDS when either reaches past
MEM_WORDS; OVERLAP when they share a cell, except that MTFE.RUN and MTFD.RUN run in place when A = C. CHE.BLOCK, which has
only a source, raises BOUNDS likewise. Nothing else has changed. -/
def Obligations.RegionFaults : Prop :=
  (∀ (i : Instr) (a b c : Word) (s : State), Instr.srcDst i = some (a, b, c) → s.faulted = false →
    ((s.cfg.memWords < a.toNat + b.toNat ∨ s.cfg.memWords < c.toNat + b.toNat) →
      exec i s = .next (s.faultedBy .bounds)) ∧
    (a.toNat + b.toNat ≤ s.cfg.memWords → c.toNat + b.toNat ≤ s.cfg.memWords →
      Overlap a.toNat b.toNat c.toNat b.toNat → ¬ (Instr.runsInPlace i = true ∧ a = c) →
      exec i s = .next (s.faultedBy .overlap))) ∧
  ∀ (f : Bool) (a b : Word) (s : State), s.faulted = false → s.cfg.memWords < a.toNat + b.toNat →
    exec (.cheBlock f a b) s = .next (s.faultedBy .bounds)

/-- 20_memory R62, 60_exceptions R232: a cell above 255 raises RANGE in BWT.FWD, BWT.INV, MTFE.RUN, MTFD.RUN and
CHE.BLOCK, once the regions have passed their checks, before anything changes. -/
def Obligations.CellAboveByteRaisesRange : Prop :=
  ∀ (a b c : Word) (f : Bool) (s : State), s.faulted = false →
    a.toNat + b.toNat ≤ s.cfg.memWords → (∃ x ∈ s.data a.toNat b.toNat, 255 < x) →
    (c.toNat + b.toNat ≤ s.cfg.memWords → ¬ Overlap a.toNat b.toNat c.toNat b.toNat →
      exec (.bwtFwd a b c) s = .next (s.faultedBy .range) ∧ exec (.bwtInv a b c) s = .next (s.faultedBy .range)) ∧
    (c.toNat + b.toNat ≤ s.cfg.memWords → (a = c ∨ ¬ Overlap a.toNat b.toNat c.toNat b.toNat) →
      exec (.mtfeRun a b c) s = .next (s.faultedBy .range) ∧ exec (.mtfdRun a b c) s = .next (s.faultedBy .range)) ∧
    exec (.cheBlock f a b) s = .next (s.faultedBy .range)

/-- 20_memory R68: a memory command whose count B is 0, its bases in bounds, changes no state; HTB.BUILD, HTB.CANON and
HTB.PRIOR fault RANGE and CHE.BLOCK faults DEGENERATE. -/
def Obligations.ZeroLengthCommands : Prop :=
  ∀ (i : Instr) (a c : Word) (t : Slot) (f : Bool) (s : State), s.faulted = false → s.mem.wf →
    (Instr.srcDst i = some (a, 0, c) → a.toNat ≤ s.cfg.memWords → c.toNat ≤ s.cfg.memWords → exec i s = .next s) ∧
    exec (.htbBuild t a 0) s = .next (s.faultedBy .range) ∧
    exec (.htbCanon t a 0) s = .next (s.faultedBy .range) ∧
    exec (.htbPrior t 0) s = .next (s.faultedBy .range) ∧
    (a.toNat ≤ s.cfg.memWords → exec (.cheBlock f a 0) s = .next (s.faultedBy .degenerate))

/-! ### System and sessions -/

/-- 47_system R220, R221, 43_mtf R150, R151, 45_huffman_encoder R186, 46_huffman_decoder R201: SYS.NOP is
the all-zero descriptor and changes nothing; each session command re-initialises its unit's session state and nothing else;
none of them clears a fault, each being refused while FAULTED = 1. A stray bit in one of their descriptors is ILLEGAL. -/
def Obligations.SessionCommands : Prop :=
  (∀ d : Desc, decode d = .ok .sysNop ↔ d = 0) ∧
  (∀ (s : State) (i : Instr), s.faulted = true → exec i s = .next s) ∧
  ∀ s : State, s.faulted = false →
    (∀ o ∈ [Opcode.sysNop, .mtfeRst, .mtfdRst, .cheRst, .chdRst], StrayRaisesIllegal o s) ∧
    exec .sysNop s = .next s ∧
    exec .mtfeRst s = .next { s with te := s.cfg.mtfInit } ∧
    exec .mtfdRst s = .next { s with td := s.cfg.mtfInit } ∧
    exec .cheRst s = .next { s with b0 := ⟨0, 0⟩, b1 := ⟨0, 0⟩ } ∧
    exec .chdRst s = .next { s with
      b2 := ⟨0, 0⟩, decState := .readingHeaderInfo, tsize := 0, hcnt := 0, hlen := List.replicate 258 0,
      wlen := 0, wval := 0, outCnt := 0, decBlocks := 0 }

/-! ### bit_buffer_accumulator -/

/-- 40_bit_buffer R100: BB.CLR empties the register it names; a stray bit is ILLEGAL. -/
def Obligations.ClearEmptiesOneRegister : Prop :=
  ∀ (bd : BufReg) (s : State), s.faulted = false →
    ∃ t, exec (.bbClr bd) s = .next t ∧ (∀ r, t.getBuf r = if r = bd then ⟨0, 0⟩ else s.getBuf r) ∧
      t = s.setBuf bd (t.getBuf bd) ∧ StrayRaisesIllegal .bbClr s ∧ (encode (.bbClr bd)).extractLsb' 0 8 = 0x10

/-- 40_bit_buffer R101, R102: BB.PUSHL appends the n low-order bits of VALUE at the least significant end, BB.PUSHR at
the most significant end; n above 64 or a stray bit is ILLEGAL, a result longer than 64 bits is CAPACITY, both before the
register changes. Opcodes 0x11 and 0x12. -/
def Obligations.PushCommands : Prop :=
  ∀ (bd : BufReg) (n : BitVec 7) (v : Word64) (s : State), s.faulted = false → (s.getBuf bd).wf →
    (64 < n.toNat → exec (.bbPushl bd n v) s = .next (s.faultedBy .illegal) ∧
      exec (.bbPushr bd n v) s = .next (s.faultedBy .illegal)) ∧
    (n.toNat ≤ 64 → 64 < (s.getBuf bd).len + n.toNat → exec (.bbPushl bd n v) s = .next (s.faultedBy .capacity) ∧
      exec (.bbPushr bd n v) s = .next (s.faultedBy .capacity)) ∧
    (n.toNat ≤ 64 → (s.getBuf bd).len + n.toNat ≤ 64 →
      (∃ b, exec (.bbPushl bd n v) s = .next (s.setBuf bd b) ∧ b.len = (s.getBuf bd).len + n.toNat ∧
        b.val.toNat = ((s.getBuf bd).val.toNat <<< n.toNat) ||| (v.toNat % 2 ^ n.toNat)) ∧
      (∃ b, exec (.bbPushr bd n v) s = .next (s.setBuf bd b) ∧ b.len = (s.getBuf bd).len + n.toNat ∧
        b.val.toNat = ((v.toNat % 2 ^ n.toNat) <<< (s.getBuf bd).len) ||| (s.getBuf bd).val.toNat)) ∧
    (∀ (o : Opcode) (d : Desc), (o = .bbPushl ∨ o = .bbPushr) → (unpack d).op = o.code → StrayBits o (unpack d) →
      issue d s = .next (s.faultedBy .illegal)) ∧
    (encode (.bbPushl bd n v)).extractLsb' 0 8 = 0x11 ∧ (encode (.bbPushr bd n v)).extractLsb' 0 8 = 0x12

/-- 40_bit_buffer R103, R104: BB.PULLL removes n bits from the least significant end into RES, BB.PULLR from the most
significant end; n above 64 or a stray bit is ILLEGAL, n above len is UNDERFLOW, both before anything changes. Opcodes
0x13 and 0x14. -/
def Obligations.PullCommands : Prop :=
  ∀ (bd : BufReg) (n : BitVec 7) (s : State), s.faulted = false → (s.getBuf bd).wf →
    (64 < n.toNat → exec (.bbPulll bd n) s = .next (s.faultedBy .illegal) ∧
      exec (.bbPullr bd n) s = .next (s.faultedBy .illegal)) ∧
    (n.toNat ≤ 64 → (s.getBuf bd).len < n.toNat → exec (.bbPulll bd n) s = .next (s.faultedBy .underflow) ∧
      exec (.bbPullr bd n) s = .next (s.faultedBy .underflow)) ∧
    (n.toNat ≤ (s.getBuf bd).len →
      (∃ b x, exec (.bbPulll bd n) s = .next { s.setBuf bd b with res := x } ∧
        b.len = (s.getBuf bd).len - n.toNat ∧ b.val.toNat = (s.getBuf bd).val.toNat >>> n.toNat ∧
        x.toNat = (s.getBuf bd).val.toNat % 2 ^ n.toNat) ∧
      (∃ b x, exec (.bbPullr bd n) s = .next { s.setBuf bd b with res := x } ∧
        b.len = (s.getBuf bd).len - n.toNat ∧
        b.val.toNat = (s.getBuf bd).val.toNat % 2 ^ ((s.getBuf bd).len - n.toNat) ∧
        x.toNat = (s.getBuf bd).val.toNat >>> ((s.getBuf bd).len - n.toNat))) ∧
    (∀ (o : Opcode) (d : Desc), (o = .bbPulll ∨ o = .bbPullr) → (unpack d).op = o.code → StrayBits o (unpack d) →
      issue d s = .next (s.faultedBy .illegal)) ∧
    (encode (.bbPulll bd n)).extractLsb' 0 8 = 0x13 ∧ (encode (.bbPullr bd n)).extractLsb' 0 8 = 0x14

/-- 40_bit_buffer R105, R108 laws 5 and 7: BB.FLUSH puts the whole bytes of b[bd] into SINK, most significant first; with
`all` the remaining bits go out in one more byte with zeros below them and the register is empty; without it the bits
below a byte stay. A stray bit is ILLEGAL. -/
def Obligations.FlushCommand : Prop :=
  ∀ (bd : BufReg) (all : Bool) (s : State), s.faulted = false → (s.getBuf bd).wf →
    ∃ b bs, exec (.bbFlush bd all) s = .next
        { s.setBuf bd b with sink := s.sink ++ bs, sinkCnt := s.sinkCnt + BitVec.ofNat 32 bs.length } ∧
      bs.length = (s.getBuf bd).len / 8 + (if all = true ∧ (s.getBuf bd).len % 8 ≠ 0 then 1 else 0) ∧
      b.wf ∧ b.len = (if all then 0 else (s.getBuf bd).len % 8) ∧
      byteBits bs ++ b.bits = (s.getBuf bd).bits ++ (if all then padBits (s.getBuf bd).len else []) ∧
      StrayRaisesIllegal .bbFlush s ∧ (encode (.bbFlush bd all)).extractLsb' 0 8 = 0x15

/-- 40_bit_buffer R106, R107, R108 law 6: BB.APPF flushes b[bd], merges all of b[bs] at the least significant end and
flushes again; b[bs] is not changed. It raises CAPACITY exactly when (len mod 8) + b[bs].len > 64, and then the whole
bytes of the first flush are in SINK; bd = bs is ILLEGAL. -/
def Obligations.AppendAndFlushCommand : Prop :=
  ∀ (bd bs : BufReg) (s : State), s.faulted = false → (∀ r, (s.getBuf r).wf) →
    (bd = bs → exec (.bbAppf bd bs) s = .next (s.faultedBy .illegal)) ∧
    (bd ≠ bs → (s.getBuf bd).len % 8 + (s.getBuf bs).len ≤ 64 →
      ∃ b ys, exec (.bbAppf bd bs) s = .next
          { s.setBuf bd b with sink := s.sink ++ ys, sinkCnt := s.sinkCnt + BitVec.ofNat 32 ys.length } ∧
        b.wf ∧ b.len = ((s.getBuf bd).len + (s.getBuf bs).len) % 8 ∧
        byteBits ys ++ b.bits = (s.getBuf bd).bits ++ (s.getBuf bs).bits) ∧
    (bd ≠ bs → 64 < (s.getBuf bd).len % 8 + (s.getBuf bs).len →
      ∃ t ys, exec (.bbAppf bd bs) s = .next t ∧ t.faulted = true ∧ t.err = 2 ∧ t.sink = s.sink ++ ys ∧
        ys.length = (s.getBuf bd).len / 8 ∧ byteBits ys = (s.getBuf bd).bits.take (8 * ys.length)) ∧
    (∀ d : Desc, (unpack d).op = 0x16 → StrayBits .bbAppf (unpack d) → issue d s = .next (s.faultedBy .illegal)) ∧
    (encode (.bbAppf bd bs)).extractLsb' 0 8 = 0x16

/-- 40_bit_buffer R108 laws 2 and 3, at the commands: a field pushed at one end and pulled from the same end comes back and
the register is as it was; pushed into an empty register at the least significant end it comes out whole at the most
significant end. -/
def Obligations.PushThenPullReturnsField : Prop :=
  ∀ (bd : BufReg) (n : BitVec 7) (v : Word64) (s : State), s.faulted = false → (s.getBuf bd).wf →
    (s.getBuf bd).len + n.toNat ≤ 64 →
    (∀ t, exec (.bbPushl bd n v) s = .next t →
      ∃ x, exec (.bbPulll bd n) t = .next { s with res := x } ∧ x.toNat = v.toNat % 2 ^ n.toNat) ∧
    (∀ t, exec (.bbPushr bd n v) s = .next t →
      ∃ x, exec (.bbPullr bd n) t = .next { s with res := x } ∧ x.toNat = v.toNat % 2 ^ n.toNat) ∧
    ((s.getBuf bd).len = 0 → ∀ t, exec (.bbPushl bd n v) s = .next t →
      ∃ x, exec (.bbPullr bd n) t = .next { s with res := x } ∧ x.toNat = v.toNat % 2 ^ n.toNat)

/-! ### suffix_array_builder -/

/-- 41_suffix_array R120, R121: for a string that meets the sentinel precondition SA.BUILD writes its suffix array, which
is unique and begins with n - 1, to M[C .. C+B), and changes nothing else. -/
def Obligations.SaBuildWritesSuffixArray : Prop :=
  ∀ (a b c : Word) (s : State), s.faulted = false → s.mem.wf →
    a.toNat + b.toNat ≤ s.cfg.memWords → c.toNat + b.toNat ≤ s.cfg.memWords →
    ¬ Overlap a.toNat b.toNat c.toNat b.toNat → SentinelString (s.data a.toNat b.toNat) →
    ∃ t sa, exec (.saBuild a b c) s = .next t ∧ IsSuffixArray (s.data a.toNat b.toNat) sa ∧
      t.data c.toNat b.toNat = sa ∧ sa.head? = some (b.toNat - 1) ∧
      (∀ sa', IsSuffixArray (s.data a.toNat b.toNat) sa' → sa' = sa) ∧
      CellsOutsideKept s t c.toNat b.toNat ∧ t = { s with mem := t.mem }

/-- 41_suffix_array R131, 42_bwt R145: when the precondition is violated SA.BUILD, BWT.FWD and BWT.INV write the B cells of
the destination, change no other state and raise no fault. What the cells hold is a free value (log 5): nothing is said of
it here. -/
def Obligations.BrokenPreconditionWritesOnlyItsCells : Prop :=
  ∀ (a b c : Word) (s : State), s.faulted = false → s.mem.wf →
    a.toNat + b.toNat ≤ s.cfg.memWords → c.toNat + b.toNat ≤ s.cfg.memWords →
    ¬ Overlap a.toNat b.toNat c.toNat b.toNat →
    ∀ i : Instr,
      (i = .saBuild a b c ∧ ¬ SentinelString (s.data a.toNat b.toNat)) ∨
      (i = .bwtFwd a b c ∧ (∀ x ∈ s.data a.toNat b.toNat, x ≤ 255) ∧ ¬ SentinelString (s.data a.toNat b.toNat)) ∨
      (i = .bwtInv a b c ∧ (∀ x ∈ s.data a.toNat b.toNat, x ≤ 255) ∧ (s.data a.toNat b.toNat).count 0 ≠ 1) →
      ∃ t, exec i s = .next t ∧ t = { s with mem := t.mem } ∧ CellsOutsideKept s t c.toNat b.toNat ∧
        ∀ k, k < b.toNat → (t.mem.lookup (c.toNat + k)).isSome = true

/-- 41_suffix_array R122, R123: the types computed from the right are the order of neighbouring suffixes, position n-2 is
L-type, no two LMS positions are adjacent, so there are at most n/2 of them, position 0 is none and n-1 is one. -/
def Obligations.SuffixTypesMatchOrder : Prop :=
  ∀ xs : List Nat, SentinelString xs →
    (sTypes xs).length = xs.length ∧ isS (sTypes xs) (xs.length - 1) = true ∧
    (∀ i, i + 1 < xs.length → (isS (sTypes xs) i = true ↔
      symAt xs i < symAt xs (i + 1) ∨ symAt xs i = symAt xs (i + 1) ∧ isS (sTypes xs) (i + 1) = true)) ∧
    (∀ i, i + 1 < xs.length → (isS (sTypes xs) i = true ↔ SuffixLt xs i (i + 1))) ∧
    (∀ i, 0 < i → (isLms (sTypes xs) i = true ↔ isS (sTypes xs) i = true ∧ isS (sTypes xs) (i - 1) = false)) ∧
    (lmsPositions (sTypes xs) = (List.range xs.length).filter (isLms (sTypes xs))) ∧
    (2 ≤ xs.length → isS (sTypes xs) (xs.length - 2) = false ∧ isLms (sTypes xs) (xs.length - 1) = true) ∧
    isLms (sTypes xs) 0 = false ∧ (∀ i, ¬ (isLms (sTypes xs) i = true ∧ isLms (sTypes xs) (i + 1) = true)) ∧
    2 * (lmsPositions (sTypes xs)).length ≤ xs.length

/-- 41_suffix_array R130: for every string that meets the sentinel precondition the SA-IS algorithm of R129 gives its
suffix array, and so agrees with the result layer that SA.BUILD uses. -/
def Obligations.SaisAgreesWithResultLayer : Prop :=
  ∀ xs : List Nat, SentinelString xs → IsSuffixArray xs (sais xs) ∧ sais xs = suffixArray xs

/-! ### burrows_wheeler_transform -/

/-- 42_bwt R140, R141: under the forward precondition BWT.FWD writes, for each suffix-array entry, the symbol before it. -/
def Obligations.BwtForwardOutput : Prop :=
  ∀ (a b c : Word) (s : State), s.faulted = false → s.mem.wf →
    a.toNat + b.toNat ≤ s.cfg.memWords → c.toNat + b.toNat ≤ s.cfg.memWords →
    ¬ Overlap a.toNat b.toNat c.toNat b.toNat →
    (∀ x ∈ s.data a.toNat b.toNat, x ≤ 255) → SentinelString (s.data a.toNat b.toNat) →
    ∃ t sa, exec (.bwtFwd a b c) s = .next t ∧ IsSuffixArray (s.data a.toNat b.toNat) sa ∧
      (∀ i, i < b.toNat → symAt (t.data c.toNat b.toNat) i =
        symAt (s.data a.toNat b.toNat) ((symAt sa i + b.toNat - 1) % b.toNat)) ∧
      (t.data c.toNat b.toNat).Perm (s.data a.toNat b.toNat) ∧
      CellsOutsideKept s t c.toNat b.toNat ∧ t = { s with mem := t.mem }

/-- 42_bwt R142, R143: on input with exactly one 0 BWT.INV rebuilds the string backwards from the row that holds 0, each
next row being the count of strictly smaller symbols plus the rank among the same symbol; the last element written is 0. -/
def Obligations.BwtInverseOutput : Prop :=
  ∀ (a b c : Word) (s : State), s.faulted = false → s.mem.wf →
    a.toNat + b.toNat ≤ s.cfg.memWords → c.toNat + b.toNat ≤ s.cfg.memWords →
    ¬ Overlap a.toNat b.toNat c.toNat b.toNat →
    (∀ x ∈ s.data a.toNat b.toNat, x ≤ 255) → (s.data a.toNat b.toNat).count 0 = 1 →
    ∃ (t : State) (row : Nat → Nat), exec (.bwtInv a b c) s = .next t ∧
      row 0 < b.toNat ∧ symAt (s.data a.toNat b.toNat) (row 0) = 0 ∧
      (∀ k, k < b.toNat → row k < b.toNat ∧
        symAt (t.data c.toNat b.toNat) (b.toNat - 1 - k) = symAt (s.data a.toNat b.toNat) (row k) ∧
        row (k + 1) =
          (s.data a.toNat b.toNat).countP (fun x => x < symAt (s.data a.toNat b.toNat) (row k)) +
          ((s.data a.toNat b.toNat).take (row k)).count (symAt (s.data a.toNat b.toNat) (row k))) ∧
      symAt (t.data c.toNat b.toNat) (b.toNat - 1) = 0 ∧
      CellsOutsideKept s t c.toNat b.toNat ∧ t = { s with mem := t.mem }

/-- 42_bwt R144: for every data that meets the forward precondition, BWT.INV applied to the output of BWT.FWD returns
data. -/
def Obligations.BwtInverseUndoesForward : Prop :=
  ∀ (a b c e : Word) (s : State), s.faulted = false → s.mem.wf →
    a.toNat + b.toNat ≤ s.cfg.memWords → c.toNat + b.toNat ≤ s.cfg.memWords → e.toNat + b.toNat ≤ s.cfg.memWords →
    ¬ Overlap a.toNat b.toNat c.toNat b.toNat → ¬ Overlap c.toNat b.toNat e.toNat b.toNat →
    (∀ x ∈ s.data a.toNat b.toNat, x ≤ 255) → SentinelString (s.data a.toNat b.toNat) →
    ∃ t u, exec (.bwtFwd a b c) s = .next t ∧ exec (.bwtInv c b e) t = .next u ∧
      u.data e.toNat b.toNat = s.data a.toNat b.toNat

/-! ### move_to_front_encoder and move_to_front_decoder -/

/-- 43_mtf R152, R154: MTFE.RUN writes the index of each symbol in a table that starts as TE and is front-moved at that
index after each symbol, and leaves the last table in TE; in place too (A = C). -/
def Obligations.MtfEncodeRun : Prop :=
  ∀ (a b c : Word) (s : State), s.faulted = false → s.mem.wf → MtfTable.wf s.te →
    a.toNat + b.toNat ≤ s.cfg.memWords → c.toNat + b.toNat ≤ s.cfg.memWords →
    (a = c ∨ ¬ Overlap a.toNat b.toNat c.toNat b.toNat) → (∀ x ∈ s.data a.toNat b.toNat, x ≤ 255) →
    ∃ (t : State) (table : Nat → MtfTable), exec (.mtfeRun a b c) s = .next t ∧ table 0 = s.te ∧
      (∀ i, i < b.toNat → ∃ j x, j < 256 ∧ (table i)[j]? = some x ∧ x.toNat = symAt (s.data a.toNat b.toNat) i ∧
        symAt (t.data c.toNat b.toNat) i = j ∧ FrontMoved (table i) j (table (i + 1))) ∧
      t.te = table b.toNat ∧ CellsOutsideKept s t c.toNat b.toNat ∧ t = { s with te := t.te, mem := t.mem }

/-- 43_mtf R153, R154: MTFD.RUN writes the entry at each index of a table that starts as TD and is front-moved at that
index after each one, and leaves the last table in TD; in place too (A = C). -/
def Obligations.MtfDecodeRun : Prop :=
  ∀ (a b c : Word) (s : State), s.faulted = false → s.mem.wf → MtfTable.wf s.td →
    a.toNat + b.toNat ≤ s.cfg.memWords → c.toNat + b.toNat ≤ s.cfg.memWords →
    (a = c ∨ ¬ Overlap a.toNat b.toNat c.toNat b.toNat) → (∀ x ∈ s.data a.toNat b.toNat, x ≤ 255) →
    ∃ (t : State) (table : Nat → MtfTable), exec (.mtfdRun a b c) s = .next t ∧ table 0 = s.td ∧
      (∀ i, i < b.toNat → ∃ j x, symAt (s.data a.toNat b.toNat) i = j ∧ (table i)[j]? = some x ∧
        symAt (t.data c.toNat b.toNat) i = x.toNat ∧ FrontMoved (table i) j (table (i + 1))) ∧
      t.td = table b.toNat ∧ CellsOutsideKept s t c.toNat b.toNat ∧ t = { s with td := t.td, mem := t.mem }

/-- 43_mtf R157: if TE = TD before, MTFD.RUN on what MTFE.RUN wrote gives the sequence back and leaves TD equal to TE. -/
def Obligations.MtfDecodeUndoesEncode : Prop :=
  ∀ (a b c e : Word) (s : State), s.faulted = false → s.mem.wf → MtfTable.wf s.te → s.td = s.te →
    a.toNat + b.toNat ≤ s.cfg.memWords → c.toNat + b.toNat ≤ s.cfg.memWords → e.toNat + b.toNat ≤ s.cfg.memWords →
    (a = c ∨ ¬ Overlap a.toNat b.toNat c.toNat b.toNat) → (c = e ∨ ¬ Overlap c.toNat b.toNat e.toNat b.toNat) →
    (∀ x ∈ s.data a.toNat b.toNat, x ≤ 255) →
    ∃ t u, exec (.mtfeRun a b c) s = .next t ∧ exec (.mtfdRun c b e) t = .next u ∧
      u.data e.toNat b.toNat = s.data a.toNat b.toNat ∧ u.td = u.te ∧ u.te = t.te

/-- 43_mtf R155, R156: MTFE.DUMP writes TE to the 256 cells from C, MTFD.DUMP writes TD; the table is
not changed; BOUNDS when the cells reach past MEM_WORDS, ILLEGAL for a stray bit. -/
def Obligations.MtfDumpWritesTable : Prop :=
  ∀ (c : Word) (s : State), s.faulted = false → s.mem.wf → MtfTable.wf s.te → MtfTable.wf s.td →
    (s.cfg.memWords < c.toNat + 256 →
      exec (.mtfeDump c) s = .next (s.faultedBy .bounds) ∧ exec (.mtfdDump c) s = .next (s.faultedBy .bounds)) ∧
    (c.toNat + 256 ≤ s.cfg.memWords →
      (∃ t, exec (.mtfeDump c) s = .next t ∧ t.data c.toNat 256 = s.te.map BitVec.toNat ∧
        CellsOutsideKept s t c.toNat 256 ∧ t = { s with mem := t.mem }) ∧
      (∃ t, exec (.mtfdDump c) s = .next t ∧ t.data c.toNat 256 = s.td.map BitVec.toNat ∧
        CellsOutsideKept s t c.toNat 256 ∧ t = { s with mem := t.mem })) ∧
    StrayRaisesIllegal .mtfeDump s ∧ StrayRaisesIllegal .mtfdDump s ∧
    (encode (.mtfeDump c)).extractLsb' 0 8 = 0x42 ∧ (encode (.mtfdDump c)).extractLsb' 0 8 = 0x52

/-! ### huffman_tree_builder -/

/-- 44_huffman_tree R166, R167, R168 (1), (2), (4): HuffBuild fails exactly when fewer than two weights are positive;
otherwise it gives 258 lengths, positive exactly where the weight is, with Kraft sum exactly 1 and none above the number of
coded symbols less one. They are the depths of the leaves of the tree that R166's merges build, each taking the two nodes
with the least keys (weight, order), so a tie goes to a leaf before a merged node, to the smaller symbol and to the older
node. -/
def Obligations.HuffmanLengths : Prop :=
  ∀ w : List Nat, w.length ≤ 258 →
    (huffBuild w = none ↔ w.countP (fun x => 0 < x) < 2) ∧
    ∀ lens, huffBuild w = some lens →
      lens.length = 258 ∧ (∀ x, 1 ≤ lens.getD x 0 ↔ 0 < w.getD x 0) ∧ kraftAt 257 lens = 2 ^ 257 ∧
      (∀ l ∈ lens, l + 1 ≤ w.countP (fun x => 0 < x)) ∧
      ∃ t, HuffMerges 0 (weightLeaves w) t ∧
        ∀ x d, t.LeafAtDepth x d ↔ (0 < w.getD x 0 ∧ lens.getD x 0 = d)

/-- 44_huffman_tree R168 (3): the lengths minimise the weighted sum over all lengths a prefix code can have. -/
def Obligations.HuffmanLengthsAreOptimal : Prop :=
  ∀ (w lens other : List Nat) (n : Nat), w.length ≤ 258 → huffBuild w = some lens → other.length = 258 →
    (∀ x, 0 < w.getD x 0 → 1 ≤ other.getD x 0) → (∀ l ∈ other, l ≤ n) → kraftAt n other ≤ 2 ^ n →
    ((List.range 258).map (fun x => w.getD x 0 * lens.getD x 0)).sum ≤
      ((List.range 258).map (fun x => w.getD x 0 * other.getD x 0)).sum

/-- 44_huffman_tree R171, R172: the canonical assignment. The first symbol in the order (length, symbol) has code 0, each
next one the code plus 1 shifted left by the growth of the length, an absent symbol 0; with a Kraft sum of at most 1 every
code fits its length and no code is a prefix of another. -/
def Obligations.CanonicalAssignment : Prop :=
  ∀ lens : List Nat,
    (∀ x y, CanonNext lens x y → (canonCodes lens).getD y 0 =
      ((canonCodes lens).getD x 0 + 1) <<< (lens.getD y 0 - lens.getD x 0)) ∧
    (∀ x, 0 < lens.getD x 0 → (∀ z, 0 < lens.getD z 0 → ¬ CanonBefore lens z x) → (canonCodes lens).getD x 0 = 0) ∧
    (∀ x, lens.getD x 0 = 0 → (canonCodes lens).getD x 0 = 0) ∧
    ∀ n, (∀ l ∈ lens, l ≤ n) → kraftAt n lens ≤ 2 ^ n →
      (∀ x, 0 < lens.getD x 0 → (canonCodes lens).getD x 0 < 2 ^ lens.getD x 0) ∧
      ∀ x y, x ≠ y → 0 < lens.getD x 0 → lens.getD x 0 ≤ lens.getD y 0 →
        (canonCodes lens).getD y 0 >>> (lens.getD y 0 - lens.getD x 0) ≠ (canonCodes lens).getD x 0

/-- 44_huffman_tree R175: in the tree of a canonical slot whose Kraft sum is 1 every node that is no leaf has both
children, so a walk meets no dead end. -/
def Obligations.FullTreeHasNoDeadEnd : Prop :=
  ∀ t : CodeTable, t.Canonical → kraftAt 64 t.len = 2 ^ 64 →
    ∀ l v, t.TreeNode l v → (∀ x, ¬ t.TreeLeaf x l v) →
      t.TreeNode (l + 1) (2 * v) ∧ t.TreeNode (l + 1) (2 * v + 1)

/-- 44_huffman_tree R173, R176: HTB.BUILD: RANGE for K outside 1..258, then BOUNDS, then DEGENERATE for fewer than two
positive weights, all with the slot unchanged; otherwise CT[t] gets the lengths of HuffBuild and their canonical codes, with
Kraft sum 1, and nothing else changes. CAPACITY needs a length above 64, which cells of 32 bits do not give: the last clause
says it of weights of any size. -/
def Obligations.HtbBuildOutcome : Prop :=
  (∀ (t : Slot) (a b : Word) (s : State), s.faulted = false →
    ((b.toNat < 1 ∨ 258 < b.toNat) → exec (.htbBuild t a b) s = .next (s.faultedBy .range)) ∧
    (1 ≤ b.toNat → b.toNat ≤ 258 → s.cfg.memWords < a.toNat + b.toNat →
      exec (.htbBuild t a b) s = .next (s.faultedBy .bounds)) ∧
    (1 ≤ b.toNat → b.toNat ≤ 258 → a.toNat + b.toNat ≤ s.cfg.memWords →
      ((s.data a.toNat b.toNat).countP (fun x => 0 < x) < 2 →
        exec (.htbBuild t a b) s = .next (s.faultedBy .degenerate)) ∧
      ∀ lens, huffBuild (s.data a.toNat b.toNat) = some lens → (∀ l ∈ lens, l ≤ 64) →
        ∃ u : CodeTable, exec (.htbBuild t a b) s = .next (s.setSlot t u) ∧
          u.len = lens ∧ u.Canonical ∧ kraftAt 64 u.len = 2 ^ 64)) ∧
  ∀ w lens : List Nat, w.length ≤ 258 → huffBuild w = some lens → (∃ l ∈ lens, 64 < l) →
    buildTable w = .error .capacity

/-- 44_huffman_tree R177, R181: HTB.PRIOR: RANGE for K outside 2..65; otherwise CT[t] gets the header table, HuffBuild of K
weights, HDR_PRIOR where it has an entry and 1 elsewhere: DEGENERATE and CAPACITY cannot arise and all K lengths are
coded. A stray bit is ILLEGAL. -/
def Obligations.HtbPriorOutcome : Prop :=
  ∀ (t : Slot) (b : Word) (s : State), s.faulted = false → s.cfg.wf →
    ((b.toNat < 2 ∨ 65 < b.toNat) → exec (.htbPrior t b) s = .next (s.faultedBy .range)) ∧
    (2 ≤ b.toNat → b.toNat ≤ 65 → ∃ u : CodeTable, exec (.htbPrior t b) s = .next (s.setSlot t u) ∧
      u.Canonical ∧ kraftAt 64 u.len = 2 ^ 64 ∧
      huffBuild ((List.range b.toNat).map
        (fun l => if l < s.cfg.hdrPrior.length then s.cfg.hdrPrior.getD l 0 else 1)) = some u.len ∧
      ∀ l, 1 ≤ u.lenOf l ↔ l < b.toNat) ∧
    StrayRaisesIllegal .htbPrior s ∧ (encode (.htbPrior t b)).extractLsb' 0 8 = 0x61

/-- 44_huffman_tree R173, R179: HTB.CANON: ILLEGAL for a stray bit, RANGE for K outside 1..258, then BOUNDS, CAPACITY for a cell above 64, then KRAFT for lengths
no prefix code can have; otherwise CT[t] gets the lengths, 0 from K on, and their canonical codes, and nothing else
changes. -/
def Obligations.HtbCanonOutcome : Prop :=
  ∀ (t : Slot) (a b : Word) (s : State), s.faulted = false →
    ((b.toNat < 1 ∨ 258 < b.toNat) → exec (.htbCanon t a b) s = .next (s.faultedBy .range)) ∧
    (1 ≤ b.toNat → b.toNat ≤ 258 → s.cfg.memWords < a.toNat + b.toNat →
      exec (.htbCanon t a b) s = .next (s.faultedBy .bounds)) ∧
    (1 ≤ b.toNat → b.toNat ≤ 258 → a.toNat + b.toNat ≤ s.cfg.memWords →
      ((∃ l ∈ s.data a.toNat b.toNat, 64 < l) → exec (.htbCanon t a b) s = .next (s.faultedBy .capacity)) ∧
      ((∀ l ∈ s.data a.toNat b.toNat, l ≤ 64) → 2 ^ 64 < kraftAt 64 (s.data a.toNat b.toNat) →
        exec (.htbCanon t a b) s = .next (s.faultedBy .kraft)) ∧
      ((∀ l ∈ s.data a.toNat b.toNat, l ≤ 64) → kraftAt 64 (s.data a.toNat b.toNat) ≤ 2 ^ 64 →
        ∃ u : CodeTable, exec (.htbCanon t a b) s = .next (s.setSlot t u) ∧ u.Canonical ∧
          u.len = s.data a.toNat b.toNat ++ List.replicate (258 - b.toNat) 0)) ∧
    StrayRaisesIllegal .htbCanon s ∧ (encode (.htbCanon t a b)).extractLsb' 0 8 = 0x62

/-- 44_huffman_tree R178: HTB.STORE writes the 258 lengths of CT[t] to the cells from C, then each code's low and high half
from C + 258; CT[t] and everything else stay; ILLEGAL for a stray bit, BOUNDS when the 774 cells reach past MEM_WORDS. -/
def Obligations.HtbStoreWritesSlot : Prop :=
  ∀ (t : Slot) (c : Word) (s : State), s.faulted = false → s.mem.wf → (s.getSlot t).shape →
    (s.cfg.memWords < c.toNat + 774 → exec (.htbStore t c) s = .next (s.faultedBy .bounds)) ∧
    (c.toNat + 774 ≤ s.cfg.memWords →
      ∃ u, exec (.htbStore t c) s = .next u ∧
        (∀ x, x < 258 → (u.readCell (c.toNat + x)).toNat = (s.getSlot t).lenOf x ∧
          (u.readCell (c.toNat + 258 + 2 * x + 1) ++ u.readCell (c.toNat + 258 + 2 * x) : BitVec 64) =
            (s.getSlot t).codeOf x) ∧
        CellsOutsideKept s u c.toNat 774 ∧ u = { s with mem := u.mem }) ∧
    StrayRaisesIllegal .htbStore s ∧ (encode (.htbStore t c)).extractLsb' 0 8 = 0x63

/-- 44_huffman_tree R180: for every weight table, HTB.BUILD, then HTB.STORE, then HTB.CANON on the stored lengths gives a
slot equal to the first one; its Kraft sum is 1 and the leaves of its tree are the pairs (symbol, length) with a positive
length. -/
def Obligations.CanonicalTableRebuilds : Prop :=
  ∀ (t u : Slot) (a b c : Word) (s s1 s2 s3 : State), s.Inv → s.faulted = false →
    exec (.htbBuild t a b) s = .next s1 → s1.faulted = false →
    exec (.htbStore t c) s1 = .next s2 → s2.faulted = false →
    exec (.htbCanon u c 258) s2 = .next s3 →
      s3.faulted = false ∧ s3.getSlot u = s1.getSlot t ∧ kraftAt 64 (s1.getSlot t).len = 2 ^ 64 ∧
      ∀ x l, (∃ v, (s3.getSlot u).TreeLeaf x l v) ↔ (0 < l ∧ (s1.getSlot t).lenOf x = l)

/-! ### canonical_huffman_encoder -/

/-- 45_huffman_encoder R185, R187, R189: CHE.SYM: RANGE for a symbol above 257 or absent from the slot; otherwise the code
follows the stream's bits, b1 holds it and b0 keeps what does not fill a byte; CAPACITY exactly when (b0.len mod 8) plus the
code's length exceeds 64, after the first flush. -/
def Obligations.CheSymOutcome : Prop :=
  ∀ (t : Slot) (a : Word) (s : State), s.Inv → s.faulted = false →
    ((257 < a.toNat ∨ (s.getSlot t).lenOf a.toNat = 0) → exec (.cheSym t a) s = .next (s.faultedBy .range)) ∧
    (a.toNat ≤ 257 → 0 < (s.getSlot t).lenOf a.toNat →
      (s.b0.len % 8 + (s.getSlot t).lenOf a.toNat ≤ 64 →
        ∃ b bs, exec (.cheSym t a) s = .next { s with
            b0 := b, b1 := ⟨(s.getSlot t).codeOf a.toNat, (s.getSlot t).lenOf a.toNat⟩
            sink := s.sink ++ bs, sinkCnt := s.sinkCnt + BitVec.ofNat 32 bs.length } ∧
          b.wf ∧ b.len = (s.b0.len + (s.getSlot t).lenOf a.toNat) % 8 ∧
          byteBits bs ++ b.bits = s.b0.bits ++ (s.getSlot t).codeBits a.toNat) ∧
      (64 < s.b0.len % 8 + (s.getSlot t).lenOf a.toNat →
        ∃ u bs, exec (.cheSym t a) s = .next u ∧ u.faulted = true ∧ u.err = 2 ∧ u.sink = s.sink ++ bs ∧
          bs.length = s.b0.len / 8 ∧ byteBits bs = s.b0.bits.take (8 * bs.length)))

/-- 45_huffman_encoder R188, R193: CHE.BLOCK on a non-empty block of bytes whose codes are at most 57 bits writes the block
in the wire format after the stream's bits: the 9-bit table size, the 258 lengths through the header table, the data, EOB or
EOS; a final block is padded with zeros to a byte and leaves b0 empty. CT0 holds the block's data table, CT1 the header
table, b1 the terminator's code. The terminator is 257 in a final block and 256 in any other; entry x of the frequencies is
the count of x in the block and its terminator; the table size ts is 1 + the largest data length. Both tables are canonical
tables of HuffBuild's lengths, the header's from ts weights, HDR_PRIOR where it has an entry and 1 elsewhere. -/
def Obligations.CheBlockWritesWireFormat : Prop :=
  ∀ (f : Bool) (a b : Word) (s : State) (term ts : Nat) (freqs : List Nat) (data header : CodeTable),
    s.Inv → s.faulted = false →
    a.toNat + b.toNat ≤ s.cfg.memWords → 0 < b.toNat → (∀ x ∈ s.data a.toNat b.toNat, x ≤ 255) →
    term = (if f = true then 257 else 256) →
    freqs.length = 258 → (∀ x, x < 258 → freqs.getD x 0 = (s.data a.toNat b.toNat ++ [term]).count x) →
    huffBuild freqs = some data.len → data.Canonical → (∀ l ∈ data.len, l ≤ 57) →
    (∃ l ∈ data.len, ts = 1 + l) → (∀ l ∈ data.len, 1 + l ≤ ts) →
    huffBuild ((List.range ts).map
      (fun l => if l < s.cfg.hdrPrior.length then s.cfg.hdrPrior.getD l 0 else 1)) = some header.len →
    header.Canonical → (∀ l ∈ header.len, l ≤ 57) →
    ∃ bs b0, exec (.cheBlock f a b) s = .next { s with
        b0 := b0, b1 := ⟨data.codeOf term, data.lenOf term⟩, ct0 := data, ct1 := header
        sink := s.sink ++ bs, sinkCnt := s.sinkCnt + BitVec.ofNat 32 bs.length } ∧
      b0.wf ∧ b0.len ≤ 7 ∧ (f = true → b0.len = 0) ∧
      byteBits bs ++ b0.bits = s.b0.bits ++ blockBits data header ts (s.data a.toNat b.toNat) term ++
        (if f then padBits (s.b0.len + (blockBits data header ts (s.data a.toNat b.toNat) term).length) else [])

/-! ### canonical_huffman_decoder -/

/-- 46_huffman_decoder R202: CHD.SETOUT raises BOUNDS when C + B > MEM_WORDS; otherwise it names the output region and sets
OUT_CNT to 0, and nothing else changes. Opcode 0x81. -/
def Obligations.SetoutNamesRegion : Prop :=
  ∀ (b c : Word) (s : State), s.faulted = false →
    (s.cfg.memWords < c.toNat + b.toNat → exec (.chdSetout b c) s = .next (s.faultedBy .bounds)) ∧
    (c.toNat + b.toNat ≤ s.cfg.memWords →
      exec (.chdSetout b c) s = .next { s with outBase := c, outCap := b, outCnt := 0 }) ∧
    (encode (.chdSetout b c)).extractLsb' 0 8 = 0x81

/-- 46_huffman_decoder R203: CHD.PUSH: ILLEGAL for a stray bit; RANGE above 255; in STREAM_END the byte is dropped; CAPACITY when b2 holds more than
56 bits; otherwise the byte goes to the least significant end of b2 and the machine runs as CHD.RUN does. -/
def Obligations.ChdPushIsAppendThenRun : Prop :=
  ∀ (a : Word) (s : State), s.Inv → s.faulted = false →
    (255 < a.toNat → exec (.chdPush a) s = .next (s.faultedBy .range)) ∧
    (a.toNat ≤ 255 → s.decState = .streamEnd → exec (.chdPush a) s = .next s) ∧
    (a.toNat ≤ 255 → s.decState ≠ .streamEnd → 56 < s.b2.len →
      exec (.chdPush a) s = .next (s.faultedBy .capacity)) ∧
    (a.toNat ≤ 255 → s.decState ≠ .streamEnd → s.b2.len ≤ 56 →
      ∃ b, b.wf ∧ b.len = s.b2.len + 8 ∧ b.bits = s.b2.bits ++ bitsMS a.toNat 8 ∧
        exec (.chdPush a) s = exec .chdRun { s with b2 := b }) ∧
    (a.toNat ≤ 255 → s.decState = .readingHeaderInfo → s.b2.len = 0 →
      ∃ b, exec (.chdPush a) s = .next { s with b2 := b } ∧ b.len = 8 ∧ b.val.toNat = a.toNat) ∧
    StrayRaisesIllegal .chdPush s ∧ (encode (.chdPush a)).extractLsb' 0 8 = 0x82

/-- 46_huffman_decoder R204, R205, R206, R209, 10_state R35: without a fault Run stops in STREAM_END, or in
READING_HEADER_INFO with at most 8 bits, or with b2 empty; running it again changes nothing. After a CHD.PUSH that found b2 as
a run leaves it, at most 7 bits follow EOS. In mid-walk the position is kept: when the walk's bits so far and the bits of b2
are together l bits v that are a node of the slot's tree and no leaf, CHD.RUN ends with b2 empty, WLEN = l, WVAL = v, and
nothing else changed; DecoderReadsLength and DecoderDeliversSymbol say how a walk goes on from such a position. -/
def Obligations.DecoderStops : Prop :=
  (∀ (s : State) (u : Slot) (l v : Nat), s.Inv → s.faulted = false →
    (s.decState = .decodingHeader ∧ u = .ct2 ∨ s.decState = .decodingBlock ∧ u = .ct3) → v < 2 ^ l →
    bitsMS s.wval.toNat s.wlen ++ s.b2.bits = bitsMS v l →
    (s.getSlot u).TreeNode l v → (∀ x, ¬ (s.getSlot u).TreeLeaf x l v) →
      exec .chdRun s = .next { s with b2 := ⟨0, 0⟩, wlen := l, wval := BitVec.ofNat 64 v } ∧ l < 64) ∧
  ∀ (s t : State), s.Inv → s.faulted = false → t.faulted = false →
    (exec .chdRun s = .next t →
      (t.decState = .streamEnd ∨ (t.decState = .readingHeaderInfo ∧ t.b2.len ≤ 8) ∨
        ((t.decState = .decodingHeader ∨ t.decState = .decodingBlock) ∧ t.b2.len = 0)) ∧
      exec .chdRun t = .next t) ∧
    (∀ a, exec .chdRun s = .next s → s.decState ≠ .streamEnd → exec (.chdPush a) s = .next t →
      exec .chdRun t = .next t ∧ t.b2.len ≤ 8 ∧ (t.decState = .streamEnd → t.b2.len ≤ 7))

/-- 46_huffman_decoder R205: in READING_HEADER_INFO, when at least 9 bits are buffered the first 9 are the table size v; for
v in 2..65 the run goes on from TSIZE = v, HCNT = 0, the header table for v in CT2 and DEC_STATE = DECODING_HEADER, which is
where it ends when no bit is left. -/
def Obligations.DecoderReadsTableSize : Prop :=
  ∀ (s : State) (v : Nat) (b : BitBuf), s.Inv → s.faulted = false → s.decState = .readingHeaderInfo → b.wf →
    2 ≤ v → v ≤ 65 → s.b2.bits = bitsMS v 9 ++ b.bits →
    ∃ h : CodeTable, headerTable s.cfg v = .ok h ∧
      (∀ t : State, t.faulted = false →
        (exec .chdRun s = .next t ↔
          exec .chdRun { s with b2 := b, tsize := v, ct2 := h, hcnt := 0, decState := .decodingHeader } = .next t)) ∧
      (b.len = 0 → exec .chdRun s =
        .next { s with b2 := b, tsize := v, ct2 := h, hcnt := 0, decState := .decodingHeader })

/-- 46_huffman_decoder R205, R206: in DECODING_HEADER, when the walk's bits so far (none at the root) and the next bits p of
b2 are together the code of a length r in CT2, r is recorded and counted and the walk is back at the root; the 258th makes
the data table from all of them, with DEC_STATE = DECODING_BLOCK. That r may lie in 65..257, when the host has replaced CT2
in mid-header, is the model's reading (log 16): R205 notes r < TSIZE <= 65. -/
def Obligations.DecoderReadsLength : Prop :=
  ∀ (s : State) (r : Nat) (p : List Bool) (b : BitBuf), s.Inv → s.faulted = false → s.decState = .decodingHeader →
    b.wf → p ≠ [] → bitsMS s.wval.toNat s.wlen ++ p = s.ct2.codeBits r → s.b2.bits = p ++ b.bits →
    (s.hcnt < 257 → ∀ t : State, t.faulted = false →
      (exec .chdRun s = .next t ↔
        exec .chdRun { s with
          b2 := b, wlen := 0, wval := 0, hlen := s.hlen.set s.hcnt r, hcnt := s.hcnt + 1 } = .next t)) ∧
    (s.hcnt < 257 → b.len = 0 →
      exec .chdRun s = .next { s with
        b2 := b, wlen := 0, wval := 0, hlen := s.hlen.set s.hcnt r, hcnt := s.hcnt + 1 }) ∧
    (s.hcnt = 257 → (∀ l ∈ s.hlen.set 257 r, l ≤ 64) → kraftAt 64 (s.hlen.set 257 r) ≤ 2 ^ 64 →
      ∃ x : CodeTable, x.Canonical ∧ x.len = s.hlen.set 257 r ∧
        (∀ t : State, t.faulted = false →
          (exec .chdRun s = .next t ↔
            exec .chdRun { s with
              b2 := b, wlen := 0, wval := 0, hlen := s.hlen.set 257 r, hcnt := 258, ct3 := x
              decState := .decodingBlock } = .next t)) ∧
        (b.len = 0 → exec .chdRun s = .next { s with
          b2 := b, wlen := 0, wval := 0, hlen := s.hlen.set 257 r, hcnt := 258, ct3 := x, decState := .decodingBlock }))

/-- 46_huffman_decoder R205, R206, R207: in DECODING_BLOCK, with room in the output region, when the walk's bits so far (none
at the root) and the next bits p of b2 are together the code of a symbol v in CT3, v is delivered to M[OUT_BASE + OUT_CNT]
and counted and the walk is back at the root; EOB counts a block and goes back to READING_HEADER_INFO, EOS ends the stream.
With no bit after it the run ends there. -/
def Obligations.DecoderDeliversSymbol : Prop :=
  ∀ (s : State) (v : Nat) (p : List Bool) (b : BitBuf), s.Inv → s.faulted = false → s.decState = .decodingBlock →
    b.wf → p ≠ [] → bitsMS s.wval.toNat s.wlen ++ p = s.ct3.codeBits v → s.b2.bits = p ++ b.bits →
    s.outCnt.toNat < s.outCap.toNat →
    ∃ u : State,
      (u.readCell (s.outBase.toNat + s.outCnt.toNat)).toNat = v ∧
      CellsOutsideKept s u (s.outBase.toNat + s.outCnt.toNat) 1 ∧
      u.outCnt.toNat = s.outCnt.toNat + 1 ∧
      u.decBlocks = (if v = 256 then s.decBlocks + 1 else s.decBlocks) ∧
      u.decState = (if v = 256 then .readingHeaderInfo else if v = 257 then .streamEnd else .decodingBlock) ∧
      u = { s with
        b2 := b, wlen := 0, wval := 0, outCnt := u.outCnt, decBlocks := u.decBlocks, decState := u.decState
        mem := u.mem } ∧
      (∀ t : State, t.faulted = false → (exec .chdRun s = .next t ↔ exec .chdRun u = .next t)) ∧
      (b.len = 0 → exec .chdRun s = .next u)

/-- 46_huffman_decoder R205, R206, R207: what raises each fault of Run: STREAM for a table size outside 2..65, OUTFULL for a
symbol with no room, KRAFT for 258 lengths no prefix code can have, TREE for bits that no code of the slot begins with. A walk
may have begun before: p are the bits of b2 that go on from its position. -/
def Obligations.DecoderFaultsNameTheirCause : Prop :=
  ∀ (s : State) (p : List Bool) (b : BitBuf), s.Inv → s.faulted = false → b.wf →
    (∀ v, s.decState = .readingHeaderInfo → v < 512 → (v < 2 ∨ 65 < v) → s.b2.bits = bitsMS v 9 ++ b.bits →
      ∃ t, exec .chdRun s = .next t ∧ t.faulted = true ∧ t.err = 10) ∧
    (∀ v, s.decState = .decodingBlock → p ≠ [] → bitsMS s.wval.toNat s.wlen ++ p = s.ct3.codeBits v →
      s.b2.bits = p ++ b.bits →
      s.outCap.toNat ≤ s.outCnt.toNat → ∃ t, exec .chdRun s = .next t ∧ t.faulted = true ∧ t.err = 11) ∧
    (∀ r, s.decState = .decodingHeader → p ≠ [] → bitsMS s.wval.toNat s.wlen ++ p = s.ct2.codeBits r →
      s.b2.bits = p ++ b.bits →
      s.hcnt = 257 → (∀ l ∈ s.hlen.set 257 r, l ≤ 64) → 2 ^ 64 < kraftAt 64 (s.hlen.set 257 r) →
      ∃ t, exec .chdRun s = .next t ∧ t.faulted = true ∧ t.err = 8) ∧
    (∀ l v u, (s.decState = .decodingBlock ∧ u = .ct3 ∨ s.decState = .decodingHeader ∧ u = .ct2) →
      p ≠ [] → v < 2 ^ l → bitsMS s.wval.toNat s.wlen ++ p = bitsMS v l → s.b2.bits = p ++ b.bits →
      ¬ (s.getSlot u).TreeNode l v → (∀ j x, s.wlen < j → j ≤ l → ¬ (s.getSlot u).TreeLeaf x j (v >>> (l - j))) →
      ∃ t, exec .chdRun s = .next t ∧ t.faulted = true ∧ t.err = 9)

/-- 46_huffman_decoder R208: chunking does not matter: from a state in which the decoder has stopped, bytes pushed one by
one leave what the same bits leave when they are loaded into b2 in any pieces that fit, with a CHD.RUN after each, and a CHD.RUN
between the bytes changes nothing; only the bits that b2 keeps after STREAM_END depend on it. -/
def Obligations.ChunkingDoesNotMatter : Prop :=
  ∀ (s t : State) (bytes : List Byte) (pieces : List (BitVec 7 × Word64)), s.Inv → s.faulted = false →
    exec .chdRun s = .next s → byteBits bytes = pieceBits pieces → feedPieces pieces s = some t →
    ∃ u, feedBytes bytes s = some u ∧ exec .chdRun u = .next u ∧ t = { u with b2 := t.b2 } ∧
      (u.decState ≠ .streamEnd → t = u)

/-- 46_huffman_decoder R210: round trip. The stream that CHE.BLOCK commands put into SINK from an empty accumulator, the
last with `final`, pushed byte by byte into a decoder after CHD.RST with enough output capacity, ends in STREAM_END without
a fault, with every block and its terminator delivered and DEC_BLOCKS one less than the number of blocks. -/
def Obligations.StreamRoundTrip : Prop :=
  ∀ (blocks : List (Word × Word)) (s t u0 u : State), blocks ≠ [] → s.Inv → s.faulted = false → s.b0 = ⟨0, 0⟩ →
    encodeBlocks blocks s = some t →
    u0.Inv → u0.faulted = false → exec .chdRst u0 = .next u → u.cfg.hdrPrior = s.cfg.hdrPrior →
    (deliveredSymbols s blocks).length ≤ u.outCap.toNat →
    ∃ v, feedBytes (t.sink.drop s.sink.length) u = some v ∧ v.faulted = false ∧ v.decState = .streamEnd ∧
      v.decBlocks = BitVec.ofNat 32 (blocks.length - 1) ∧
      v.outCnt.toNat = (deliveredSymbols s blocks).length ∧
      v.data u.outBase.toNat (deliveredSymbols s blocks).length = deliveredSymbols s blocks
end

