-- ==== Sys2Proof/Laws/State.lean ====
section
/-! SUPPORT. One lemma per field per update of State, so that no later proof unfolds a record update. -/

namespace Sys2Proof.Machine

/-! ### setBuf -/

@[simp] theorem State.setBuf_res (s : State) (i : BufReg) (v : BitBuf) : (s.setBuf i v).res = s.res := by cases i <;> rfl
@[simp] theorem State.setBuf_te (s : State) (i : BufReg) (v : BitBuf) : (s.setBuf i v).te = s.te := by cases i <;> rfl
@[simp] theorem State.setBuf_td (s : State) (i : BufReg) (v : BitBuf) : (s.setBuf i v).td = s.td := by cases i <;> rfl
@[simp] theorem State.setBuf_ct0 (s : State) (i : BufReg) (v : BitBuf) : (s.setBuf i v).ct0 = s.ct0 := by cases i <;> rfl
@[simp] theorem State.setBuf_ct1 (s : State) (i : BufReg) (v : BitBuf) : (s.setBuf i v).ct1 = s.ct1 := by cases i <;> rfl
@[simp] theorem State.setBuf_ct2 (s : State) (i : BufReg) (v : BitBuf) : (s.setBuf i v).ct2 = s.ct2 := by cases i <;> rfl
@[simp] theorem State.setBuf_ct3 (s : State) (i : BufReg) (v : BitBuf) : (s.setBuf i v).ct3 = s.ct3 := by cases i <;> rfl
@[simp] theorem State.setBuf_decState (s : State) (i : BufReg) (v : BitBuf) : (s.setBuf i v).decState = s.decState := by cases i <;> rfl
@[simp] theorem State.setBuf_tsize (s : State) (i : BufReg) (v : BitBuf) : (s.setBuf i v).tsize = s.tsize := by cases i <;> rfl
@[simp] theorem State.setBuf_hcnt (s : State) (i : BufReg) (v : BitBuf) : (s.setBuf i v).hcnt = s.hcnt := by cases i <;> rfl
@[simp] theorem State.setBuf_hlen (s : State) (i : BufReg) (v : BitBuf) : (s.setBuf i v).hlen = s.hlen := by cases i <;> rfl
@[simp] theorem State.setBuf_wlen (s : State) (i : BufReg) (v : BitBuf) : (s.setBuf i v).wlen = s.wlen := by cases i <;> rfl
@[simp] theorem State.setBuf_wval (s : State) (i : BufReg) (v : BitBuf) : (s.setBuf i v).wval = s.wval := by cases i <;> rfl
@[simp] theorem State.setBuf_outBase (s : State) (i : BufReg) (v : BitBuf) : (s.setBuf i v).outBase = s.outBase := by cases i <;> rfl
@[simp] theorem State.setBuf_outCap (s : State) (i : BufReg) (v : BitBuf) : (s.setBuf i v).outCap = s.outCap := by cases i <;> rfl
@[simp] theorem State.setBuf_outCnt (s : State) (i : BufReg) (v : BitBuf) : (s.setBuf i v).outCnt = s.outCnt := by cases i <;> rfl
@[simp] theorem State.setBuf_decBlocks (s : State) (i : BufReg) (v : BitBuf) : (s.setBuf i v).decBlocks = s.decBlocks := by cases i <;> rfl
@[simp] theorem State.setBuf_faulted (s : State) (i : BufReg) (v : BitBuf) : (s.setBuf i v).faulted = s.faulted := by cases i <;> rfl
@[simp] theorem State.setBuf_err (s : State) (i : BufReg) (v : BitBuf) : (s.setBuf i v).err = s.err := by cases i <;> rfl
@[simp] theorem State.setBuf_sink (s : State) (i : BufReg) (v : BitBuf) : (s.setBuf i v).sink = s.sink := by cases i <;> rfl
@[simp] theorem State.setBuf_sinkCnt (s : State) (i : BufReg) (v : BitBuf) : (s.setBuf i v).sinkCnt = s.sinkCnt := by cases i <;> rfl
@[simp] theorem State.setBuf_mem (s : State) (i : BufReg) (v : BitBuf) : (s.setBuf i v).mem = s.mem := by cases i <;> rfl
@[simp] theorem State.setBuf_cfg (s : State) (i : BufReg) (v : BitBuf) : (s.setBuf i v).cfg = s.cfg := by cases i <;> rfl
@[simp] theorem State.setBuf_pending (s : State) (i : BufReg) (v : BitBuf) : (s.setBuf i v).pending = s.pending := by cases i <;> rfl
@[simp] theorem State.setBuf_replies (s : State) (i : BufReg) (v : BitBuf) : (s.setBuf i v).replies = s.replies := by cases i <;> rfl
@[simp] theorem State.setBuf_drained (s : State) (i : BufReg) (v : BitBuf) : (s.setBuf i v).drained = s.drained := by cases i <;> rfl
@[simp] theorem State.setBuf_draws (s : State) (i : BufReg) (v : BitBuf) : (s.setBuf i v).draws = s.draws := by cases i <;> rfl

@[simp] theorem State.getBuf_setBuf_self (s : State) (i : BufReg) (v : BitBuf) : (s.setBuf i v).getBuf i = v := by
  cases i <;> rfl
theorem State.getBuf_setBuf_ne (s : State) {i j : BufReg} (v : BitBuf) (h : j ≠ i) :
    (s.setBuf i v).getBuf j = s.getBuf j := by cases i <;> cases j <;> first | rfl | exact absurd rfl h
theorem State.getBuf_setBuf (s : State) (i j : BufReg) (v : BitBuf) :
    (s.setBuf i v).getBuf j = if j = i then v else s.getBuf j := by cases i <;> cases j <;> rfl
@[simp] theorem State.getSlot_setBuf (s : State) (i : BufReg) (v : BitBuf) (t : Slot) :
    (s.setBuf i v).getSlot t = s.getSlot t := by cases i <;> cases t <;> rfl
@[simp] theorem State.setBuf_setBuf (s : State) (i : BufReg) (v w : BitBuf) :
    (s.setBuf i v).setBuf i w = s.setBuf i w := by cases i <;> rfl
@[simp] theorem State.setBuf_getBuf (s : State) (i : BufReg) : s.setBuf i (s.getBuf i) = s := by cases i <;> rfl

/-! ### setSlot -/

@[simp] theorem State.setSlot_b0 (s : State) (t : Slot) (v : CodeTable) : (s.setSlot t v).b0 = s.b0 := by cases t <;> rfl
@[simp] theorem State.setSlot_b1 (s : State) (t : Slot) (v : CodeTable) : (s.setSlot t v).b1 = s.b1 := by cases t <;> rfl
@[simp] theorem State.setSlot_b2 (s : State) (t : Slot) (v : CodeTable) : (s.setSlot t v).b2 = s.b2 := by cases t <;> rfl
@[simp] theorem State.setSlot_b3 (s : State) (t : Slot) (v : CodeTable) : (s.setSlot t v).b3 = s.b3 := by cases t <;> rfl
@[simp] theorem State.setSlot_res (s : State) (t : Slot) (v : CodeTable) : (s.setSlot t v).res = s.res := by cases t <;> rfl
@[simp] theorem State.setSlot_te (s : State) (t : Slot) (v : CodeTable) : (s.setSlot t v).te = s.te := by cases t <;> rfl
@[simp] theorem State.setSlot_td (s : State) (t : Slot) (v : CodeTable) : (s.setSlot t v).td = s.td := by cases t <;> rfl
@[simp] theorem State.setSlot_decState (s : State) (t : Slot) (v : CodeTable) : (s.setSlot t v).decState = s.decState := by cases t <;> rfl
@[simp] theorem State.setSlot_tsize (s : State) (t : Slot) (v : CodeTable) : (s.setSlot t v).tsize = s.tsize := by cases t <;> rfl
@[simp] theorem State.setSlot_hcnt (s : State) (t : Slot) (v : CodeTable) : (s.setSlot t v).hcnt = s.hcnt := by cases t <;> rfl
@[simp] theorem State.setSlot_hlen (s : State) (t : Slot) (v : CodeTable) : (s.setSlot t v).hlen = s.hlen := by cases t <;> rfl
@[simp] theorem State.setSlot_wlen (s : State) (t : Slot) (v : CodeTable) : (s.setSlot t v).wlen = s.wlen := by cases t <;> rfl
@[simp] theorem State.setSlot_wval (s : State) (t : Slot) (v : CodeTable) : (s.setSlot t v).wval = s.wval := by cases t <;> rfl
@[simp] theorem State.setSlot_outBase (s : State) (t : Slot) (v : CodeTable) : (s.setSlot t v).outBase = s.outBase := by cases t <;> rfl
@[simp] theorem State.setSlot_outCap (s : State) (t : Slot) (v : CodeTable) : (s.setSlot t v).outCap = s.outCap := by cases t <;> rfl
@[simp] theorem State.setSlot_outCnt (s : State) (t : Slot) (v : CodeTable) : (s.setSlot t v).outCnt = s.outCnt := by cases t <;> rfl
@[simp] theorem State.setSlot_decBlocks (s : State) (t : Slot) (v : CodeTable) : (s.setSlot t v).decBlocks = s.decBlocks := by cases t <;> rfl
@[simp] theorem State.setSlot_faulted (s : State) (t : Slot) (v : CodeTable) : (s.setSlot t v).faulted = s.faulted := by cases t <;> rfl
@[simp] theorem State.setSlot_err (s : State) (t : Slot) (v : CodeTable) : (s.setSlot t v).err = s.err := by cases t <;> rfl
@[simp] theorem State.setSlot_sink (s : State) (t : Slot) (v : CodeTable) : (s.setSlot t v).sink = s.sink := by cases t <;> rfl
@[simp] theorem State.setSlot_sinkCnt (s : State) (t : Slot) (v : CodeTable) : (s.setSlot t v).sinkCnt = s.sinkCnt := by cases t <;> rfl
@[simp] theorem State.setSlot_mem (s : State) (t : Slot) (v : CodeTable) : (s.setSlot t v).mem = s.mem := by cases t <;> rfl
@[simp] theorem State.setSlot_cfg (s : State) (t : Slot) (v : CodeTable) : (s.setSlot t v).cfg = s.cfg := by cases t <;> rfl
@[simp] theorem State.setSlot_pending (s : State) (t : Slot) (v : CodeTable) : (s.setSlot t v).pending = s.pending := by cases t <;> rfl
@[simp] theorem State.setSlot_replies (s : State) (t : Slot) (v : CodeTable) : (s.setSlot t v).replies = s.replies := by cases t <;> rfl
@[simp] theorem State.setSlot_drained (s : State) (t : Slot) (v : CodeTable) : (s.setSlot t v).drained = s.drained := by cases t <;> rfl
@[simp] theorem State.setSlot_draws (s : State) (t : Slot) (v : CodeTable) : (s.setSlot t v).draws = s.draws := by cases t <;> rfl

@[simp] theorem State.getSlot_setSlot_self (s : State) (t : Slot) (v : CodeTable) : (s.setSlot t v).getSlot t = v := by
  cases t <;> rfl
theorem State.getSlot_setSlot (s : State) (t u : Slot) (v : CodeTable) :
    (s.setSlot t v).getSlot u = if u = t then v else s.getSlot u := by cases t <;> cases u <;> rfl
@[simp] theorem State.getBuf_setSlot (s : State) (t : Slot) (v : CodeTable) (i : BufReg) :
    (s.setSlot t v).getBuf i = s.getBuf i := by cases t <;> cases i <;> rfl

/-! ### sinkPut -/

@[simp] theorem State.sinkPut_b0 (s : State) (bs : List Byte) : (s.sinkPut bs).b0 = s.b0 := rfl
@[simp] theorem State.sinkPut_b1 (s : State) (bs : List Byte) : (s.sinkPut bs).b1 = s.b1 := rfl
@[simp] theorem State.sinkPut_b2 (s : State) (bs : List Byte) : (s.sinkPut bs).b2 = s.b2 := rfl
@[simp] theorem State.sinkPut_b3 (s : State) (bs : List Byte) : (s.sinkPut bs).b3 = s.b3 := rfl
@[simp] theorem State.sinkPut_res (s : State) (bs : List Byte) : (s.sinkPut bs).res = s.res := rfl
@[simp] theorem State.sinkPut_te (s : State) (bs : List Byte) : (s.sinkPut bs).te = s.te := rfl
@[simp] theorem State.sinkPut_td (s : State) (bs : List Byte) : (s.sinkPut bs).td = s.td := rfl
@[simp] theorem State.sinkPut_ct0 (s : State) (bs : List Byte) : (s.sinkPut bs).ct0 = s.ct0 := rfl
@[simp] theorem State.sinkPut_ct1 (s : State) (bs : List Byte) : (s.sinkPut bs).ct1 = s.ct1 := rfl
@[simp] theorem State.sinkPut_ct2 (s : State) (bs : List Byte) : (s.sinkPut bs).ct2 = s.ct2 := rfl
@[simp] theorem State.sinkPut_ct3 (s : State) (bs : List Byte) : (s.sinkPut bs).ct3 = s.ct3 := rfl
@[simp] theorem State.sinkPut_decState (s : State) (bs : List Byte) : (s.sinkPut bs).decState = s.decState := rfl
@[simp] theorem State.sinkPut_tsize (s : State) (bs : List Byte) : (s.sinkPut bs).tsize = s.tsize := rfl
@[simp] theorem State.sinkPut_hcnt (s : State) (bs : List Byte) : (s.sinkPut bs).hcnt = s.hcnt := rfl
@[simp] theorem State.sinkPut_hlen (s : State) (bs : List Byte) : (s.sinkPut bs).hlen = s.hlen := rfl
@[simp] theorem State.sinkPut_wlen (s : State) (bs : List Byte) : (s.sinkPut bs).wlen = s.wlen := rfl
@[simp] theorem State.sinkPut_wval (s : State) (bs : List Byte) : (s.sinkPut bs).wval = s.wval := rfl
@[simp] theorem State.sinkPut_outBase (s : State) (bs : List Byte) : (s.sinkPut bs).outBase = s.outBase := rfl
@[simp] theorem State.sinkPut_outCap (s : State) (bs : List Byte) : (s.sinkPut bs).outCap = s.outCap := rfl
@[simp] theorem State.sinkPut_outCnt (s : State) (bs : List Byte) : (s.sinkPut bs).outCnt = s.outCnt := rfl
@[simp] theorem State.sinkPut_decBlocks (s : State) (bs : List Byte) : (s.sinkPut bs).decBlocks = s.decBlocks := rfl
@[simp] theorem State.sinkPut_faulted (s : State) (bs : List Byte) : (s.sinkPut bs).faulted = s.faulted := rfl
@[simp] theorem State.sinkPut_err (s : State) (bs : List Byte) : (s.sinkPut bs).err = s.err := rfl
@[simp] theorem State.sinkPut_sink (s : State) (bs : List Byte) : (s.sinkPut bs).sink = s.sink ++ bs := rfl
@[simp] theorem State.sinkPut_sinkCnt (s : State) (bs : List Byte) : (s.sinkPut bs).sinkCnt = s.sinkCnt + BitVec.ofNat 32 bs.length := rfl
@[simp] theorem State.sinkPut_mem (s : State) (bs : List Byte) : (s.sinkPut bs).mem = s.mem := rfl
@[simp] theorem State.sinkPut_cfg (s : State) (bs : List Byte) : (s.sinkPut bs).cfg = s.cfg := rfl
@[simp] theorem State.sinkPut_pending (s : State) (bs : List Byte) : (s.sinkPut bs).pending = s.pending := rfl
@[simp] theorem State.sinkPut_replies (s : State) (bs : List Byte) : (s.sinkPut bs).replies = s.replies := rfl
@[simp] theorem State.sinkPut_drained (s : State) (bs : List Byte) : (s.sinkPut bs).drained = s.drained := rfl
@[simp] theorem State.sinkPut_draws (s : State) (bs : List Byte) : (s.sinkPut bs).draws = s.draws := rfl

@[simp] theorem State.getBuf_sinkPut (s : State) (bs : List Byte) (i : BufReg) : (s.sinkPut bs).getBuf i = s.getBuf i := by
  cases i <;> rfl
@[simp] theorem State.getSlot_sinkPut (s : State) (bs : List Byte) (i : Slot) : (s.sinkPut bs).getSlot i = s.getSlot i := by
  cases i <;> rfl

/-! ### writeRegion -/

@[simp] theorem State.writeRegion_b0 (s : State) (base : Nat) (vs : List Word) : (s.writeRegion base vs).b0 = s.b0 := rfl
@[simp] theorem State.writeRegion_b1 (s : State) (base : Nat) (vs : List Word) : (s.writeRegion base vs).b1 = s.b1 := rfl
@[simp] theorem State.writeRegion_b2 (s : State) (base : Nat) (vs : List Word) : (s.writeRegion base vs).b2 = s.b2 := rfl
@[simp] theorem State.writeRegion_b3 (s : State) (base : Nat) (vs : List Word) : (s.writeRegion base vs).b3 = s.b3 := rfl
@[simp] theorem State.writeRegion_res (s : State) (base : Nat) (vs : List Word) : (s.writeRegion base vs).res = s.res := rfl
@[simp] theorem State.writeRegion_te (s : State) (base : Nat) (vs : List Word) : (s.writeRegion base vs).te = s.te := rfl
@[simp] theorem State.writeRegion_td (s : State) (base : Nat) (vs : List Word) : (s.writeRegion base vs).td = s.td := rfl
@[simp] theorem State.writeRegion_ct0 (s : State) (base : Nat) (vs : List Word) : (s.writeRegion base vs).ct0 = s.ct0 := rfl
@[simp] theorem State.writeRegion_ct1 (s : State) (base : Nat) (vs : List Word) : (s.writeRegion base vs).ct1 = s.ct1 := rfl
@[simp] theorem State.writeRegion_ct2 (s : State) (base : Nat) (vs : List Word) : (s.writeRegion base vs).ct2 = s.ct2 := rfl
@[simp] theorem State.writeRegion_ct3 (s : State) (base : Nat) (vs : List Word) : (s.writeRegion base vs).ct3 = s.ct3 := rfl
@[simp] theorem State.writeRegion_decState (s : State) (base : Nat) (vs : List Word) : (s.writeRegion base vs).decState = s.decState := rfl
@[simp] theorem State.writeRegion_tsize (s : State) (base : Nat) (vs : List Word) : (s.writeRegion base vs).tsize = s.tsize := rfl
@[simp] theorem State.writeRegion_hcnt (s : State) (base : Nat) (vs : List Word) : (s.writeRegion base vs).hcnt = s.hcnt := rfl
@[simp] theorem State.writeRegion_hlen (s : State) (base : Nat) (vs : List Word) : (s.writeRegion base vs).hlen = s.hlen := rfl
@[simp] theorem State.writeRegion_wlen (s : State) (base : Nat) (vs : List Word) : (s.writeRegion base vs).wlen = s.wlen := rfl
@[simp] theorem State.writeRegion_wval (s : State) (base : Nat) (vs : List Word) : (s.writeRegion base vs).wval = s.wval := rfl
@[simp] theorem State.writeRegion_outBase (s : State) (base : Nat) (vs : List Word) : (s.writeRegion base vs).outBase = s.outBase := rfl
@[simp] theorem State.writeRegion_outCap (s : State) (base : Nat) (vs : List Word) : (s.writeRegion base vs).outCap = s.outCap := rfl
@[simp] theorem State.writeRegion_outCnt (s : State) (base : Nat) (vs : List Word) : (s.writeRegion base vs).outCnt = s.outCnt := rfl
@[simp] theorem State.writeRegion_decBlocks (s : State) (base : Nat) (vs : List Word) : (s.writeRegion base vs).decBlocks = s.decBlocks := rfl
@[simp] theorem State.writeRegion_faulted (s : State) (base : Nat) (vs : List Word) : (s.writeRegion base vs).faulted = s.faulted := rfl
@[simp] theorem State.writeRegion_err (s : State) (base : Nat) (vs : List Word) : (s.writeRegion base vs).err = s.err := rfl
@[simp] theorem State.writeRegion_sink (s : State) (base : Nat) (vs : List Word) : (s.writeRegion base vs).sink = s.sink := rfl
@[simp] theorem State.writeRegion_sinkCnt (s : State) (base : Nat) (vs : List Word) : (s.writeRegion base vs).sinkCnt = s.sinkCnt := rfl
@[simp] theorem State.writeRegion_mem (s : State) (base : Nat) (vs : List Word) : (s.writeRegion base vs).mem = s.mem.writeRange base vs := rfl
@[simp] theorem State.writeRegion_cfg (s : State) (base : Nat) (vs : List Word) : (s.writeRegion base vs).cfg = s.cfg := rfl
@[simp] theorem State.writeRegion_pending (s : State) (base : Nat) (vs : List Word) : (s.writeRegion base vs).pending = s.pending := rfl
@[simp] theorem State.writeRegion_replies (s : State) (base : Nat) (vs : List Word) : (s.writeRegion base vs).replies = s.replies := rfl
@[simp] theorem State.writeRegion_drained (s : State) (base : Nat) (vs : List Word) : (s.writeRegion base vs).drained = s.drained := rfl
@[simp] theorem State.writeRegion_draws (s : State) (base : Nat) (vs : List Word) : (s.writeRegion base vs).draws = s.draws := rfl

@[simp] theorem State.getBuf_writeRegion (s : State) (base : Nat) (vs : List Word) (i : BufReg) : (s.writeRegion base vs).getBuf i = s.getBuf i := by
  cases i <;> rfl
@[simp] theorem State.getSlot_writeRegion (s : State) (base : Nat) (vs : List Word) (i : Slot) : (s.writeRegion base vs).getSlot i = s.getSlot i := by
  cases i <;> rfl

/-! ### accept -/

@[simp] theorem State.accept_b0 (s : State)  : (s.accept).b0 = s.b0 := rfl
@[simp] theorem State.accept_b1 (s : State)  : (s.accept).b1 = s.b1 := rfl
@[simp] theorem State.accept_b2 (s : State)  : (s.accept).b2 = s.b2 := rfl
@[simp] theorem State.accept_b3 (s : State)  : (s.accept).b3 = s.b3 := rfl
@[simp] theorem State.accept_res (s : State)  : (s.accept).res = s.res := rfl
@[simp] theorem State.accept_te (s : State)  : (s.accept).te = s.te := rfl
@[simp] theorem State.accept_td (s : State)  : (s.accept).td = s.td := rfl
@[simp] theorem State.accept_ct0 (s : State)  : (s.accept).ct0 = s.ct0 := rfl
@[simp] theorem State.accept_ct1 (s : State)  : (s.accept).ct1 = s.ct1 := rfl
@[simp] theorem State.accept_ct2 (s : State)  : (s.accept).ct2 = s.ct2 := rfl
@[simp] theorem State.accept_ct3 (s : State)  : (s.accept).ct3 = s.ct3 := rfl
@[simp] theorem State.accept_decState (s : State)  : (s.accept).decState = s.decState := rfl
@[simp] theorem State.accept_tsize (s : State)  : (s.accept).tsize = s.tsize := rfl
@[simp] theorem State.accept_hcnt (s : State)  : (s.accept).hcnt = s.hcnt := rfl
@[simp] theorem State.accept_hlen (s : State)  : (s.accept).hlen = s.hlen := rfl
@[simp] theorem State.accept_wlen (s : State)  : (s.accept).wlen = s.wlen := rfl
@[simp] theorem State.accept_wval (s : State)  : (s.accept).wval = s.wval := rfl
@[simp] theorem State.accept_outBase (s : State)  : (s.accept).outBase = s.outBase := rfl
@[simp] theorem State.accept_outCap (s : State)  : (s.accept).outCap = s.outCap := rfl
@[simp] theorem State.accept_outCnt (s : State)  : (s.accept).outCnt = s.outCnt := rfl
@[simp] theorem State.accept_decBlocks (s : State)  : (s.accept).decBlocks = s.decBlocks := rfl
@[simp] theorem State.accept_faulted (s : State)  : (s.accept).faulted = s.faulted := rfl
@[simp] theorem State.accept_err (s : State)  : (s.accept).err = s.err := rfl
@[simp] theorem State.accept_sink (s : State)  : (s.accept).sink = s.sink := rfl
@[simp] theorem State.accept_sinkCnt (s : State)  : (s.accept).sinkCnt = s.sinkCnt := rfl
@[simp] theorem State.accept_mem (s : State)  : (s.accept).mem = s.mem := rfl
@[simp] theorem State.accept_cfg (s : State)  : (s.accept).cfg = s.cfg := rfl
@[simp] theorem State.accept_pending (s : State)  : (s.accept).pending = s.pending.tail := rfl
@[simp] theorem State.accept_replies (s : State)  : (s.accept).replies = s.replies := rfl
@[simp] theorem State.accept_drained (s : State)  : (s.accept).drained = s.drained := rfl
@[simp] theorem State.accept_draws (s : State)  : (s.accept).draws = s.draws + 1 := rfl

@[simp] theorem State.getBuf_accept (s : State)  (i : BufReg) : (s.accept).getBuf i = s.getBuf i := by
  cases i <;> rfl
@[simp] theorem State.getSlot_accept (s : State)  (i : Slot) : (s.accept).getSlot i = s.getSlot i := by
  cases i <;> rfl

/-! ### reply -/

@[simp] theorem State.reply_b0 (s : State) (r : HostReply) : (s.reply r).b0 = s.b0 := rfl
@[simp] theorem State.reply_b1 (s : State) (r : HostReply) : (s.reply r).b1 = s.b1 := rfl
@[simp] theorem State.reply_b2 (s : State) (r : HostReply) : (s.reply r).b2 = s.b2 := rfl
@[simp] theorem State.reply_b3 (s : State) (r : HostReply) : (s.reply r).b3 = s.b3 := rfl
@[simp] theorem State.reply_res (s : State) (r : HostReply) : (s.reply r).res = s.res := rfl
@[simp] theorem State.reply_te (s : State) (r : HostReply) : (s.reply r).te = s.te := rfl
@[simp] theorem State.reply_td (s : State) (r : HostReply) : (s.reply r).td = s.td := rfl
@[simp] theorem State.reply_ct0 (s : State) (r : HostReply) : (s.reply r).ct0 = s.ct0 := rfl
@[simp] theorem State.reply_ct1 (s : State) (r : HostReply) : (s.reply r).ct1 = s.ct1 := rfl
@[simp] theorem State.reply_ct2 (s : State) (r : HostReply) : (s.reply r).ct2 = s.ct2 := rfl
@[simp] theorem State.reply_ct3 (s : State) (r : HostReply) : (s.reply r).ct3 = s.ct3 := rfl
@[simp] theorem State.reply_decState (s : State) (r : HostReply) : (s.reply r).decState = s.decState := rfl
@[simp] theorem State.reply_tsize (s : State) (r : HostReply) : (s.reply r).tsize = s.tsize := rfl
@[simp] theorem State.reply_hcnt (s : State) (r : HostReply) : (s.reply r).hcnt = s.hcnt := rfl
@[simp] theorem State.reply_hlen (s : State) (r : HostReply) : (s.reply r).hlen = s.hlen := rfl
@[simp] theorem State.reply_wlen (s : State) (r : HostReply) : (s.reply r).wlen = s.wlen := rfl
@[simp] theorem State.reply_wval (s : State) (r : HostReply) : (s.reply r).wval = s.wval := rfl
@[simp] theorem State.reply_outBase (s : State) (r : HostReply) : (s.reply r).outBase = s.outBase := rfl
@[simp] theorem State.reply_outCap (s : State) (r : HostReply) : (s.reply r).outCap = s.outCap := rfl
@[simp] theorem State.reply_outCnt (s : State) (r : HostReply) : (s.reply r).outCnt = s.outCnt := rfl
@[simp] theorem State.reply_decBlocks (s : State) (r : HostReply) : (s.reply r).decBlocks = s.decBlocks := rfl
@[simp] theorem State.reply_faulted (s : State) (r : HostReply) : (s.reply r).faulted = s.faulted := rfl
@[simp] theorem State.reply_err (s : State) (r : HostReply) : (s.reply r).err = s.err := rfl
@[simp] theorem State.reply_sink (s : State) (r : HostReply) : (s.reply r).sink = s.sink := rfl
@[simp] theorem State.reply_sinkCnt (s : State) (r : HostReply) : (s.reply r).sinkCnt = s.sinkCnt := rfl
@[simp] theorem State.reply_mem (s : State) (r : HostReply) : (s.reply r).mem = s.mem := rfl
@[simp] theorem State.reply_cfg (s : State) (r : HostReply) : (s.reply r).cfg = s.cfg := rfl
@[simp] theorem State.reply_pending (s : State) (r : HostReply) : (s.reply r).pending = s.pending := rfl
@[simp] theorem State.reply_replies (s : State) (r : HostReply) : (s.reply r).replies = s.replies ++ [r] := rfl
@[simp] theorem State.reply_drained (s : State) (r : HostReply) : (s.reply r).drained = s.drained := rfl
@[simp] theorem State.reply_draws (s : State) (r : HostReply) : (s.reply r).draws = s.draws := rfl

@[simp] theorem State.getBuf_reply (s : State) (r : HostReply) (i : BufReg) : (s.reply r).getBuf i = s.getBuf i := by
  cases i <;> rfl
@[simp] theorem State.getSlot_reply (s : State) (r : HostReply) (i : Slot) : (s.reply r).getSlot i = s.getSlot i := by
  cases i <;> rfl

/-! ### raise -/

@[simp] theorem State.raise_b0 (s : State) (c : FaultCode) : (s.raise c).b0 = s.b0 := by
  unfold State.raise; split <;> rfl
@[simp] theorem State.raise_b1 (s : State) (c : FaultCode) : (s.raise c).b1 = s.b1 := by
  unfold State.raise; split <;> rfl
@[simp] theorem State.raise_b2 (s : State) (c : FaultCode) : (s.raise c).b2 = s.b2 := by
  unfold State.raise; split <;> rfl
@[simp] theorem State.raise_b3 (s : State) (c : FaultCode) : (s.raise c).b3 = s.b3 := by
  unfold State.raise; split <;> rfl
@[simp] theorem State.raise_res (s : State) (c : FaultCode) : (s.raise c).res = s.res := by
  unfold State.raise; split <;> rfl
@[simp] theorem State.raise_te (s : State) (c : FaultCode) : (s.raise c).te = s.te := by
  unfold State.raise; split <;> rfl
@[simp] theorem State.raise_td (s : State) (c : FaultCode) : (s.raise c).td = s.td := by
  unfold State.raise; split <;> rfl
@[simp] theorem State.raise_ct0 (s : State) (c : FaultCode) : (s.raise c).ct0 = s.ct0 := by
  unfold State.raise; split <;> rfl
@[simp] theorem State.raise_ct1 (s : State) (c : FaultCode) : (s.raise c).ct1 = s.ct1 := by
  unfold State.raise; split <;> rfl
@[simp] theorem State.raise_ct2 (s : State) (c : FaultCode) : (s.raise c).ct2 = s.ct2 := by
  unfold State.raise; split <;> rfl
@[simp] theorem State.raise_ct3 (s : State) (c : FaultCode) : (s.raise c).ct3 = s.ct3 := by
  unfold State.raise; split <;> rfl
@[simp] theorem State.raise_decState (s : State) (c : FaultCode) : (s.raise c).decState = s.decState := by
  unfold State.raise; split <;> rfl
@[simp] theorem State.raise_tsize (s : State) (c : FaultCode) : (s.raise c).tsize = s.tsize := by
  unfold State.raise; split <;> rfl
@[simp] theorem State.raise_hcnt (s : State) (c : FaultCode) : (s.raise c).hcnt = s.hcnt := by
  unfold State.raise; split <;> rfl
@[simp] theorem State.raise_hlen (s : State) (c : FaultCode) : (s.raise c).hlen = s.hlen := by
  unfold State.raise; split <;> rfl
@[simp] theorem State.raise_wlen (s : State) (c : FaultCode) : (s.raise c).wlen = s.wlen := by
  unfold State.raise; split <;> rfl
@[simp] theorem State.raise_wval (s : State) (c : FaultCode) : (s.raise c).wval = s.wval := by
  unfold State.raise; split <;> rfl
@[simp] theorem State.raise_outBase (s : State) (c : FaultCode) : (s.raise c).outBase = s.outBase := by
  unfold State.raise; split <;> rfl
@[simp] theorem State.raise_outCap (s : State) (c : FaultCode) : (s.raise c).outCap = s.outCap := by
  unfold State.raise; split <;> rfl
@[simp] theorem State.raise_outCnt (s : State) (c : FaultCode) : (s.raise c).outCnt = s.outCnt := by
  unfold State.raise; split <;> rfl
@[simp] theorem State.raise_decBlocks (s : State) (c : FaultCode) : (s.raise c).decBlocks = s.decBlocks := by
  unfold State.raise; split <;> rfl
@[simp] theorem State.raise_sink (s : State) (c : FaultCode) : (s.raise c).sink = s.sink := by
  unfold State.raise; split <;> rfl
@[simp] theorem State.raise_sinkCnt (s : State) (c : FaultCode) : (s.raise c).sinkCnt = s.sinkCnt := by
  unfold State.raise; split <;> rfl
@[simp] theorem State.raise_mem (s : State) (c : FaultCode) : (s.raise c).mem = s.mem := by
  unfold State.raise; split <;> rfl
@[simp] theorem State.raise_cfg (s : State) (c : FaultCode) : (s.raise c).cfg = s.cfg := by
  unfold State.raise; split <;> rfl
@[simp] theorem State.raise_pending (s : State) (c : FaultCode) : (s.raise c).pending = s.pending := by
  unfold State.raise; split <;> rfl
@[simp] theorem State.raise_replies (s : State) (c : FaultCode) : (s.raise c).replies = s.replies := by
  unfold State.raise; split <;> rfl
@[simp] theorem State.raise_drained (s : State) (c : FaultCode) : (s.raise c).drained = s.drained := by
  unfold State.raise; split <;> rfl
@[simp] theorem State.raise_draws (s : State) (c : FaultCode) : (s.raise c).draws = s.draws := by
  unfold State.raise; split <;> rfl
@[simp] theorem State.raise_faulted (s : State) (c : FaultCode) : (s.raise c).faulted = true := by
  unfold State.raise; split <;> simp_all
theorem State.raise_of_clear (s : State) (c : FaultCode) (h : s.faulted = false) :
    s.raise c = { s with faulted := true, err := c.code } := by simp [State.raise, h]
theorem State.raise_of_faulted (s : State) (c : FaultCode) (h : s.faulted = true) : s.raise c = s := by
  simp [State.raise, h]
@[simp] theorem State.raise_toRegs (s : State) (c : FaultCode) : (s.raise c).toRegs = s.toRegs := by
  unfold State.raise; split <;> rfl
@[simp] theorem State.getBuf_raise (s : State) (c : FaultCode) (i : BufReg) : (s.raise c).getBuf i = s.getBuf i := by
  unfold State.raise; split <;> cases i <;> rfl
@[simp] theorem State.getSlot_raise (s : State) (c : FaultCode) (i : Slot) : (s.raise c).getSlot i = s.getSlot i := by
  unfold State.raise; split <;> cases i <;> rfl

/-! ### flushBuf: only the buffer, SINK and SINK_CNT change (40_bit_buffer R105) -/

@[simp] theorem State.flushBuf_res (s : State) (i : BufReg) (all : Bool) : (s.flushBuf i all).res = s.res := by simp [State.flushBuf]
@[simp] theorem State.flushBuf_te (s : State) (i : BufReg) (all : Bool) : (s.flushBuf i all).te = s.te := by simp [State.flushBuf]
@[simp] theorem State.flushBuf_td (s : State) (i : BufReg) (all : Bool) : (s.flushBuf i all).td = s.td := by simp [State.flushBuf]
@[simp] theorem State.flushBuf_ct0 (s : State) (i : BufReg) (all : Bool) : (s.flushBuf i all).ct0 = s.ct0 := by simp [State.flushBuf]
@[simp] theorem State.flushBuf_ct1 (s : State) (i : BufReg) (all : Bool) : (s.flushBuf i all).ct1 = s.ct1 := by simp [State.flushBuf]
@[simp] theorem State.flushBuf_ct2 (s : State) (i : BufReg) (all : Bool) : (s.flushBuf i all).ct2 = s.ct2 := by simp [State.flushBuf]
@[simp] theorem State.flushBuf_ct3 (s : State) (i : BufReg) (all : Bool) : (s.flushBuf i all).ct3 = s.ct3 := by simp [State.flushBuf]
@[simp] theorem State.flushBuf_decState (s : State) (i : BufReg) (all : Bool) : (s.flushBuf i all).decState = s.decState := by simp [State.flushBuf]
@[simp] theorem State.flushBuf_tsize (s : State) (i : BufReg) (all : Bool) : (s.flushBuf i all).tsize = s.tsize := by simp [State.flushBuf]
@[simp] theorem State.flushBuf_hcnt (s : State) (i : BufReg) (all : Bool) : (s.flushBuf i all).hcnt = s.hcnt := by simp [State.flushBuf]
@[simp] theorem State.flushBuf_hlen (s : State) (i : BufReg) (all : Bool) : (s.flushBuf i all).hlen = s.hlen := by simp [State.flushBuf]
@[simp] theorem State.flushBuf_wlen (s : State) (i : BufReg) (all : Bool) : (s.flushBuf i all).wlen = s.wlen := by simp [State.flushBuf]
@[simp] theorem State.flushBuf_wval (s : State) (i : BufReg) (all : Bool) : (s.flushBuf i all).wval = s.wval := by simp [State.flushBuf]
@[simp] theorem State.flushBuf_outBase (s : State) (i : BufReg) (all : Bool) : (s.flushBuf i all).outBase = s.outBase := by simp [State.flushBuf]
@[simp] theorem State.flushBuf_outCap (s : State) (i : BufReg) (all : Bool) : (s.flushBuf i all).outCap = s.outCap := by simp [State.flushBuf]
@[simp] theorem State.flushBuf_outCnt (s : State) (i : BufReg) (all : Bool) : (s.flushBuf i all).outCnt = s.outCnt := by simp [State.flushBuf]
@[simp] theorem State.flushBuf_decBlocks (s : State) (i : BufReg) (all : Bool) : (s.flushBuf i all).decBlocks = s.decBlocks := by simp [State.flushBuf]
@[simp] theorem State.flushBuf_faulted (s : State) (i : BufReg) (all : Bool) : (s.flushBuf i all).faulted = s.faulted := by simp [State.flushBuf]
@[simp] theorem State.flushBuf_err (s : State) (i : BufReg) (all : Bool) : (s.flushBuf i all).err = s.err := by simp [State.flushBuf]
@[simp] theorem State.flushBuf_mem (s : State) (i : BufReg) (all : Bool) : (s.flushBuf i all).mem = s.mem := by simp [State.flushBuf]
@[simp] theorem State.flushBuf_cfg (s : State) (i : BufReg) (all : Bool) : (s.flushBuf i all).cfg = s.cfg := by simp [State.flushBuf]
@[simp] theorem State.flushBuf_pending (s : State) (i : BufReg) (all : Bool) : (s.flushBuf i all).pending = s.pending := by simp [State.flushBuf]
@[simp] theorem State.flushBuf_replies (s : State) (i : BufReg) (all : Bool) : (s.flushBuf i all).replies = s.replies := by simp [State.flushBuf]
@[simp] theorem State.flushBuf_drained (s : State) (i : BufReg) (all : Bool) : (s.flushBuf i all).drained = s.drained := by simp [State.flushBuf]
@[simp] theorem State.flushBuf_draws (s : State) (i : BufReg) (all : Bool) : (s.flushBuf i all).draws = s.draws := by simp [State.flushBuf]
@[simp] theorem State.flushBuf_sink (s : State) (i : BufReg) (all : Bool) :
    (s.flushBuf i all).sink = s.sink ++ ((s.getBuf i).flush all).1 := by simp [State.flushBuf]
@[simp] theorem State.flushBuf_sinkCnt (s : State) (i : BufReg) (all : Bool) :
    (s.flushBuf i all).sinkCnt = s.sinkCnt + BitVec.ofNat 32 ((s.getBuf i).flush all).1.length := by
  simp [State.flushBuf]
@[simp] theorem State.getBuf_flushBuf_self (s : State) (i : BufReg) (all : Bool) :
    (s.flushBuf i all).getBuf i = ((s.getBuf i).flush all).2 := by simp [State.flushBuf]
theorem State.getBuf_flushBuf_ne (s : State) {i j : BufReg} (all : Bool) (h : j ≠ i) :
    (s.flushBuf i all).getBuf j = s.getBuf j := by simp [State.flushBuf, State.getBuf_setBuf_ne _ _ h]
@[simp] theorem State.getSlot_flushBuf (s : State) (i : BufReg) (all : Bool) (t : Slot) :
    (s.flushBuf i all).getSlot t = s.getSlot t := by simp [State.flushBuf]

end Sys2Proof.Machine
end

