-- ==== Sys2Proof/Laws/Memory.lean ====
section
/-! SUPPORT. Memory: every write keeps the canonical form, a read after a write gives the value written, a write leaves
every other cell alone (20_memory R65, R69, R73). -/

namespace Sys2Proof.Machine

theorem mem_cellsAt {base : Nat} {vs : List Word} {p : Nat × Word} :
    p ∈ cellsAt base vs ↔ base ≤ p.1 ∧ vs[p.1 - base]? = some p.2 := by
  obtain ⟨a, v⟩ := p
  constructor
  · intro h
    obtain ⟨⟨w, i⟩, hm, he⟩ := List.mem_map.1 h
    simp only [Prod.mk.injEq] at he
    obtain ⟨rfl, rfl⟩ := he
    exact List.mk_mem_zipIdx_iff_le_and_getElem?_sub.1 hm
  · intro h
    exact List.mem_map.2 ⟨(v, a), List.mk_mem_zipIdx_iff_le_and_getElem?_sub.2 h, rfl⟩

theorem cellsAt_bounds {base : Nat} {vs : List Word} {p : Nat × Word} (h : p ∈ cellsAt base vs) :
    base ≤ p.1 ∧ p.1 < base + vs.length := by
  have h := mem_cellsAt.1 h
  have := (List.getElem?_eq_some_iff.1 h.2).1
  omega

theorem cellsAt_cons (base : Nat) (v : Word) (vs : List Word) :
    cellsAt base (v :: vs) = (base, v) :: cellsAt (base + 1) vs := by simp [cellsAt]

@[simp] theorem cellsAt_nil (base : Nat) : cellsAt base [] = [] := rfl

theorem cellsAt_wf (base : Nat) (vs : List Word) : (cellsAt base vs : Memory).wf := by
  induction vs generalizing base with
  | nil => exact List.Pairwise.nil
  | cons v vs ih =>
    rw [cellsAt_cons]
    exact List.Pairwise.cons (fun p hp => by have := cellsAt_bounds hp; simp only; omega) (ih _)

theorem mem_writeRange {m : Memory} {base : Nat} {vs : List Word} {p : Nat × Word} :
    p ∈ m.writeRange base vs ↔
      (p ∈ m ∧ (p.1 < base ∨ base + vs.length ≤ p.1)) ∨ p ∈ cellsAt base vs := by
  simp only [Memory.writeRange, List.mem_append, List.mem_filter, decide_eq_true_eq]
  tauto

/-- Every write keeps the canonical form. -/
theorem Memory.writeRange_wf {m : Memory} (h : m.wf) (base : Nat) (vs : List Word) : (m.writeRange base vs).wf := by
  unfold Memory.writeRange
  refine List.pairwise_append.2 ⟨List.pairwise_append.2 ⟨h.filter _, cellsAt_wf _ _, ?_⟩, h.filter _, ?_⟩
  · intro p hp q hq
    have := cellsAt_bounds hq
    simp only [List.mem_filter, decide_eq_true_eq] at hp
    omega
  · intro p hp q hq
    simp only [List.mem_append, List.mem_filter, decide_eq_true_eq] at hp hq
    rcases hp with hp | hp
    · omega
    · have := cellsAt_bounds hp; omega

theorem lookup_eq_of_mem {m : Memory} (h : m.wf) {a : Nat} {v : Word} (hm : (a, v) ∈ m) : m.lookup a = some v := by
  induction m with
  | nil => simp at hm
  | cons p m ih =>
    obtain ⟨b, w⟩ := p
    rw [List.lookup_cons]
    rcases List.mem_cons.1 hm with he | he
    · simp only [Prod.mk.injEq] at he
      obtain ⟨rfl, rfl⟩ := he
      simp
    · have hlt := (List.pairwise_cons.1 h).1 _ he
      simp only at hlt
      have : (a == b) = false := by simp; omega
      rw [this]
      exact ih (List.pairwise_cons.1 h).2 he

theorem mem_of_lookup {m : Memory} {a : Nat} {v : Word} (h : m.lookup a = some v) : (a, v) ∈ m := by
  induction m with
  | nil => simp at h
  | cons p m ih =>
    obtain ⟨b, w⟩ := p
    rw [List.lookup_cons] at h
    split at h
    · rename_i hb
      have hb : a = b := by simpa using hb
      subst hb
      simp_all
    · exact List.mem_cons_of_mem _ (ih h)

theorem lookup_iff_mem {m : Memory} (h : m.wf) {a : Nat} {v : Word} : m.lookup a = some v ↔ (a, v) ∈ m :=
  ⟨mem_of_lookup, lookup_eq_of_mem h⟩

/-- A read after a write gives the value written. -/
theorem Memory.lookup_writeRange_inside {m : Memory} (h : m.wf) (base : Nat) (vs : List Word) {i : Nat} {v : Word}
    (hv : vs[i]? = some v) : (m.writeRange base vs).lookup (base + i) = some v := by
  refine lookup_eq_of_mem (Memory.writeRange_wf h base vs) (mem_writeRange.2 (.inr (mem_cellsAt.2 ⟨?_, ?_⟩)))
  · simp
  · simpa using hv

theorem lookup_none_of_forall {m : Memory} {a : Nat} (h : ∀ p ∈ m, p.1 ≠ a) : m.lookup a = none := by
  by_contra hc
  obtain ⟨v, hv⟩ := Option.ne_none_iff_exists'.1 hc
  exact h _ (mem_of_lookup hv) rfl

/-- A write leaves every other cell alone. -/
theorem Memory.lookup_writeRange_outside {m : Memory} (h : m.wf) (base : Nat) (vs : List Word) {a : Nat}
    (ha : a < base ∨ base + vs.length ≤ a) : (m.writeRange base vs).lookup a = m.lookup a := by
  cases hl : m.lookup a with
  | some v =>
    exact lookup_eq_of_mem (Memory.writeRange_wf h base vs) (mem_writeRange.2 (.inl ⟨mem_of_lookup hl, ha⟩))
  | none =>
    refine lookup_none_of_forall fun p hp he => ?_
    rcases mem_writeRange.1 hp with ⟨hm, _⟩ | hc
    · have := lookup_eq_of_mem h (a := p.1) (v := p.2) hm
      rw [he, hl] at this
      cases this
    · have := cellsAt_bounds hc
      omega

theorem Memory.writeRange_inside {m : Memory} {n base : Nat} {vs : List Word} (h : ∀ p ∈ m, p.1 < n)
    (hb : base + vs.length ≤ n) : ∀ p ∈ m.writeRange base vs, p.1 < n := by
  intro p hp
  rcases mem_writeRange.1 hp with ⟨hm, _⟩ | hc
  · exact h p hm
  · have := cellsAt_bounds hc; omega

/-- Writing no cell changes nothing (20_memory R68). -/
theorem Memory.writeRange_nil (m : Memory) (base : Nat) (h : m.wf) : m.writeRange base [] = m := by
  have hf : ∀ m : Memory, m.wf →
      m.filter (fun p => decide (p.1 < base)) ++ m.filter (fun p => decide (base ≤ p.1)) = m := by
    intro m hm
    induction m with
    | nil => rfl
    | cons p m ih =>
      have hw := List.pairwise_cons.1 hm
      by_cases hp : p.1 < base
      · have hn : ¬ base ≤ p.1 := by omega
        simp only [List.filter_cons, hp, hn, decide_true, decide_false, if_true, List.cons_append]
        simpa using ih hw.2
      · have hge : base ≤ p.1 := by omega
        have h1 : m.filter (fun p => decide (p.1 < base)) = [] :=
          List.filter_eq_nil_iff.2 fun q hq => by have := hw.1 q hq; simp; omega
        have h2 : m.filter (fun p => decide (base ≤ p.1)) = m :=
          List.filter_eq_self.2 fun q hq => by have := hw.1 q hq; simp; omega
        simp [hp, hge, h1, h2]
  simpa [Memory.writeRange] using hf m h

/-! ### Cells of a state -/

theorem State.readCell_congr {s t : State} (hm : s.mem = t.mem) (hd : s.draws = t.draws) (a : Nat) :
    s.readCell a = t.readCell a := by simp [State.readCell, hm, hd]

theorem State.readRegion_congr {s t : State} (hm : s.mem = t.mem) (hd : s.draws = t.draws) (a k : Nat) :
    s.readRegion a k = t.readRegion a k := by simp [State.readRegion, State.readCell, hm, hd]

theorem State.readCell_writeRegion_inside {s : State} (h : s.mem.wf) (base : Nat) (vs : List Word) {i : Nat} {v : Word}
    (hv : vs[i]? = some v) : (s.writeRegion base vs).readCell (base + i) = v := by
  simp [State.readCell, State.writeRegion, Memory.lookup_writeRange_inside h base vs hv]

theorem State.readCell_writeRegion_outside {s : State} (h : s.mem.wf) (base : Nat) (vs : List Word) {a : Nat}
    (ha : a < base ∨ base + vs.length ≤ a) : (s.writeRegion base vs).readCell a = s.readCell a := by
  simp [State.readCell, State.writeRegion, Memory.lookup_writeRange_outside h base vs ha]

@[simp] theorem State.length_readRegion (s : State) (a k : Nat) : (s.readRegion a k).length = k := by
  simp [State.readRegion]

@[simp] theorem State.length_freeCells (s : State) (a k : Nat) : (s.freeCells a k).length = k := by
  simp [State.freeCells]

theorem State.getElem?_readRegion (s : State) (a k i : Nat) (h : i < k) :
    (s.readRegion a k)[i]? = some (s.readCell (a + i)) := by simp [State.readRegion, h]

/-- The region just written reads as what was written. -/
theorem State.readRegion_writeRegion {s : State} (h : s.mem.wf) (base : Nat) (vs : List Word) :
    (s.writeRegion base vs).readRegion base vs.length = vs := by
  refine List.ext_getElem? fun i => ?_
  by_cases hi : i < vs.length
  · rw [State.getElem?_readRegion _ _ _ _ hi, List.getElem?_eq_getElem hi,
      State.readCell_writeRegion_inside h base vs (List.getElem?_eq_getElem hi)]
  · rw [List.getElem?_eq_none (by simpa using hi), List.getElem?_eq_none (by simpa using hi)]

/-- A region disjoint from the one written reads as before. -/
theorem State.readRegion_writeRegion_disjoint {s : State} (h : s.mem.wf) (base : Nat) (vs : List Word) {a k : Nat}
    (ha : a + k ≤ base ∨ base + vs.length ≤ a) : (s.writeRegion base vs).readRegion a k = s.readRegion a k := by
  simp only [State.readRegion]
  refine List.map_congr_left fun i hi => ?_
  have := List.mem_range.1 hi
  exact State.readCell_writeRegion_outside h base vs (by omega)

theorem State.writeRegion_nil {s : State} (h : s.mem.wf) (base : Nat) : s.writeRegion base [] = s := by
  simp [State.writeRegion, Memory.writeRange_nil _ _ h]

end Sys2Proof.Machine
end

