-- ==== Sys2Proof/Laws/Command.lean ====
section
/-! SUPPORT. What a command can do, said once: `exec i s` is `runCommand s` of the end of i's pseudocode, and runCommand
has five outcomes (60_exceptions R228 to R231). -/

namespace Sys2Proof.Machine

/-- The end of each command's pseudocode, as its meaning gives it to runCommand. -/
def bodyOf (i : Instr) (s : State) : CmdEnd :=
  match i with
  | .sysNop => .done s
  | .bbClr bd => .done (s.setBuf bd .empty)
  | .bbPushl bd n v => checkCount n (pushEnd s bd ((s.getBuf bd).pushLS v.toNat n.toNat))
  | .bbPushr bd n v => checkCount n (pushEnd s bd ((s.getBuf bd).pushMS v.toNat n.toNat))
  | .bbPulll bd n => checkCount n (pullEnd s bd ((s.getBuf bd).pullLS n.toNat))
  | .bbPullr bd n => checkCount n (pullEnd s bd ((s.getBuf bd).pullMS n.toNat))
  | .bbFlush bd f => .done (s.flushBuf bd f)
  | .bbAppf bd bs => if bd = bs then .early .illegal else s.appendAndFlush bd (s.getBuf bs)
  | .saBuild a b c => saBuildBody a b c s
  | .bwtFwd a b c => bwtFwdBody a b c s
  | .bwtInv a b c => bwtInvBody a b c s
  | .mtfeRst => .done { s with te := s.cfg.mtfInit }
  | .mtfeRun a b c => mtfeRunBody a b c s
  | .mtfeDump c => dumpTable s.te c s
  | .mtfdRst => .done { s with td := s.cfg.mtfInit }
  | .mtfdRun a b c => mtfdRunBody a b c s
  | .mtfdDump c => dumpTable s.td c s
  | .htbBuild t a b => htbBuildBody t a b s
  | .htbPrior t b => htbPriorBody t b s
  | .htbCanon t a b => htbCanonBody t a b s
  | .htbStore t c => htbStoreBody t c s
  | .cheRst => .done { s with b0 := .empty, b1 := .empty }
  | .cheSym t a => cheSymBody t a s
  | .cheBlock f a b => cheBlockBody f a b s
  | .chdRst => .done { s with
      b2 := .empty, decState := .readingHeaderInfo, tsize := 0, hcnt := 0, hlen := List.replicate alpha 0,
      wlen := 0, wval := 0, outCnt := 0, decBlocks := 0 }
  | .chdSetout b c => checkRegion s (regionOf c b) (.done { s with outBase := c, outCap := b, outCnt := 0 })
  | .chdPush a => chdPushBody a s
  | .chdRun => decoderRun s

theorem exec_eq_runCommand (i : Instr) (s : State) : exec i s = runCommand s (bodyOf i s) := by cases i <;> rfl

theorem runCommand_of_faulted {s : State} (h : s.faulted = true) (e : CmdEnd) : runCommand s e = .next s := by
  simp [runCommand, h]

@[simp] theorem runCommand_done {s : State} (h : s.faulted = false) (t : State) : runCommand s (.done t) = .next t := by
  simp [runCommand, h]

@[simp] theorem runCommand_early {s : State} (h : s.faulted = false) (c : FaultCode) :
    runCommand s (.early c) = .next { s with faulted := true, err := c.code } := by
  simp [runCommand, h, State.raise_of_clear]

@[simp] theorem runCommand_late {s : State} (h : s.faulted = false) (c : FaultCode) (t : State) :
    runCommand s (.late c t) = .next (s.lateFault t c) := by simp [runCommand, h]

@[simp] theorem runCommand_absent {s : State} (h : s.faulted = false) :
    runCommand s .absent = .fault .absentCell := by simp [runCommand, h]

/-- Everything a command can do: it is refused without effect, ends in the state of its pseudocode, or records an early
or a late fault. -/
theorem runCommand_cases {s t : State} {e : CmdEnd} (h : runCommand s e = .next t) :
    (s.faulted = true ∧ t = s) ∨
    (s.faulted = false ∧ e = .done t) ∨
    (s.faulted = false ∧ ∃ c, e = .early c ∧ t = { s with faulted := true, err := c.code }) ∨
    (s.faulted = false ∧ ∃ c u, e = .late c u ∧ t = s.lateFault u c) := by
  cases hf : s.faulted with
  | true => rw [runCommand_of_faulted hf] at h; cases h; exact .inl ⟨rfl, rfl⟩
  | false =>
    cases e with
    | done u => rw [runCommand_done hf] at h; cases h; exact .inr (.inl ⟨rfl, rfl⟩)
    | early c => rw [runCommand_early hf] at h; cases h; exact .inr (.inr (.inl ⟨rfl, c, rfl, rfl⟩))
    | late c u => rw [runCommand_late hf] at h; cases h; exact .inr (.inr (.inr ⟨rfl, c, u, rfl, rfl⟩))
    | absent => rw [runCommand_absent hf] at h; cases h

theorem exec_of_faulted {s : State} (h : s.faulted = true) (i : Instr) : exec i s = .next s := by
  rw [exec_eq_runCommand, runCommand_of_faulted h]

/-! ### What a late fault leaves -/

theorem lateFault_faulted (s u : State) (c : FaultCode) : (s.lateFault u c).faulted = true := by
  simp [State.lateFault]

theorem lateFault_err {s u : State} (h : u.faulted = false) (c : FaultCode) : (s.lateFault u c).err = c.code := by
  simp [State.lateFault, State.raise, h]

@[simp] theorem lateFault_sink (s u : State) (c : FaultCode) : (s.lateFault u c).sink = u.sink := by simp [State.lateFault]
@[simp] theorem lateFault_sinkCnt (s u : State) (c : FaultCode) : (s.lateFault u c).sinkCnt = u.sinkCnt := by
  simp [State.lateFault]
@[simp] theorem lateFault_cfg (s u : State) (c : FaultCode) : (s.lateFault u c).cfg = u.cfg := by simp [State.lateFault]
@[simp] theorem lateFault_pending (s u : State) (c : FaultCode) : (s.lateFault u c).pending = u.pending := by
  simp [State.lateFault]
@[simp] theorem lateFault_replies (s u : State) (c : FaultCode) : (s.lateFault u c).replies = u.replies := by
  simp [State.lateFault]
@[simp] theorem lateFault_drained (s u : State) (c : FaultCode) : (s.lateFault u c).drained = u.drained := by
  simp [State.lateFault]
@[simp] theorem lateFault_draws (s u : State) (c : FaultCode) : (s.lateFault u c).draws = u.draws := by
  simp [State.lateFault]
@[simp] theorem lateFault_toRegs (s u : State) (c : FaultCode) :
    (s.lateFault u c).toRegs = freeRegsOf s.cfg s.draws := by simp [State.lateFault]
@[simp] theorem lateFault_mem (s u : State) (c : FaultCode) :
    (s.lateFault u c).mem = u.mem.writeRange (s.outBase.toNat + s.outCnt.toNat)
      (s.freeCells (s.outBase.toNat + s.outCnt.toNat) (u.outCnt.toNat - s.outCnt.toNat)) := by simp [State.lateFault]

/-! ### The ends -/

@[simp] theorem CmdEnd.andThen_done (s : State) (f : State → CmdEnd) :
    (CmdEnd.done s).andThen f = (match f s with | .early c => .late c s | r => r) := rfl
@[simp] theorem CmdEnd.andThen_early (c : FaultCode) (f : State → CmdEnd) : (CmdEnd.early c).andThen f = .early c := rfl
@[simp] theorem CmdEnd.andThen_late (c : FaultCode) (s : State) (f : State → CmdEnd) :
    (CmdEnd.late c s).andThen f = .late c s := rfl
@[simp] theorem CmdEnd.andThen_absent (f : State → CmdEnd) : CmdEnd.absent.andThen f = .absent := rfl

/-- A sequence ends well exactly when both parts do. -/
theorem CmdEnd.andThen_eq_done {e : CmdEnd} {f : State → CmdEnd} {t : State} :
    e.andThen f = .done t ↔ ∃ u, e = .done u ∧ f u = .done t := by
  cases e with
  | done u => cases h : f u <;> simp [h]
  | _ => simp

end Sys2Proof.Machine
end

