-- ==== Sys2Proof/Laws/BitBuffer.lean ====
section
/-! SUPPORT. The bit-buffer primitives in terms of numbers and of the bits in stream order (40_bit_buffer R107, R108). -/

namespace Sys2Proof.Machine

/-! ### Bits of a number, most significant first -/

@[simp] theorem length_bitsMS (v n : Nat) : (bitsMS v n).length = n := by simp [bitsMS]

@[simp] theorem bitsMS_zero_width (v : Nat) : bitsMS v 0 = [] := rfl

theorem getElem?_bitsMS (v n i : Nat) (h : i < n) : (bitsMS v n)[i]? = some (v.testBit (n - 1 - i)) := by
  simp [bitsMS, h]

theorem bitsMS_mod (v n : Nat) : bitsMS (v % 2 ^ n) n = bitsMS v n := by
  simp only [bitsMS]
  refine List.map_congr_left fun i hi => ?_
  have := List.mem_range.1 hi
  rw [Nat.testBit_mod_two_pow]
  simp; omega

theorem bitsMS_succ (v n : Nat) : bitsMS v (n + 1) = v.testBit n :: bitsMS v n := by
  simp only [bitsMS, List.range_succ_eq_map, List.map_cons, List.map_map]
  congr 1
  refine List.map_congr_left fun i hi => ?_
  have := List.mem_range.1 hi
  simp only [Function.comp]
  congr 1
  omega

/-- The bits of a concatenation of fields. -/
theorem bitsMS_append (a b m n : Nat) (hb : b < 2 ^ n) : bitsMS (a * 2 ^ n + b) (m + n) = bitsMS a m ++ bitsMS b n := by
  refine List.ext_getElem? fun i => ?_
  by_cases hi : i < m + n
  · rw [getElem?_bitsMS _ _ _ hi]
    by_cases him : i < m
    · rw [List.getElem?_append_left (by simpa using him), getElem?_bitsMS _ _ _ him]
      congr 1
      rw [Nat.mul_comm, Nat.testBit_two_pow_mul_add a hb]
      rw [if_neg (by omega)]
      congr 1; omega
    · rw [List.getElem?_append_right (by simpa using him)]
      simp only [length_bitsMS]
      rw [getElem?_bitsMS _ _ _ (by omega)]
      congr 1
      rw [Nat.mul_comm, Nat.testBit_two_pow_mul_add a hb]
      rw [if_pos (by omega)]
      congr 1; omega
  · rw [List.getElem?_eq_none (by simpa using hi), List.getElem?_eq_none (by simp; omega)]

theorem bitsMS_injective {v w n : Nat} (hv : v < 2 ^ n) (hw : w < 2 ^ n) (h : bitsMS v n = bitsMS w n) : v = w := by
  refine Nat.eq_of_testBit_eq fun i => ?_
  by_cases hi : i < n
  · have h1 := congrArg (fun l : List Bool => l[n - 1 - i]?) h
    simp only [getElem?_bitsMS _ _ _ (show n - 1 - i < n by omega)] at h1
    have : n - 1 - (n - 1 - i) = i := by omega
    simpa [this] using h1
  · rw [Nat.testBit_lt_two_pow (Nat.lt_of_lt_of_le hv (Nat.pow_le_pow_right (by omega) (by omega))),
      Nat.testBit_lt_two_pow (Nat.lt_of_lt_of_le hw (Nat.pow_le_pow_right (by omega) (by omega)))]

theorem bitsMS_zero (n : Nat) : bitsMS 0 n = List.replicate n false := by
  simp [bitsMS]

/-- A field shifted up by n zero bits. -/
theorem bitsMS_shiftLeft (v m n : Nat) : bitsMS (v <<< n) (m + n) = bitsMS v m ++ List.replicate n false := by
  rw [Nat.shiftLeft_eq, ← Nat.add_zero (v * 2 ^ n), bitsMS_append _ _ _ _ (Nat.two_pow_pos n), bitsMS_zero]

/-- The bits split at any place: the high part is the quotient, the low part the remainder. -/
theorem bitsMS_split (v m n : Nat) : bitsMS v (m + n) = bitsMS (v / 2 ^ n) m ++ bitsMS (v % 2 ^ n) n := by
  rw [← bitsMS_append _ _ _ _ (Nat.mod_lt _ (Nat.two_pow_pos n))]
  congr 1
  rw [Nat.mul_comm]; exact (Nat.div_add_mod v (2 ^ n)).symm

@[simp] theorem length_byteBits (bs : List Byte) : (byteBits bs).length = 8 * bs.length := by
  induction bs with
  | nil => rfl
  | cons b bs ih => simp only [byteBits, List.flatMap_cons, List.length_append, length_bitsMS, List.length_cons] at ih ⊢; omega

@[simp] theorem byteBits_nil : byteBits [] = [] := rfl
theorem byteBits_cons (b : Byte) (bs : List Byte) : byteBits (b :: bs) = bitsMS b.toNat 8 ++ byteBits bs := rfl
@[simp] theorem byteBits_append (as bs : List Byte) : byteBits (as ++ bs) = byteBits as ++ byteBits bs := by
  simp [byteBits]

@[simp] theorem BitBuf.length_bits (b : BitBuf) : b.bits.length = b.len := by simp [BitBuf.bits]

theorem BitBuf.wf_empty : BitBuf.wf BitBuf.empty := by decide

/-- A well-formed buffer is determined by its bits. -/
theorem BitBuf.eq_of_bits {b c : BitBuf} (hb : b.wf) (hc : c.wf) (h : b.bits = c.bits) : b = c := by
  obtain ⟨bv, bl⟩ := b
  obtain ⟨cv, cl⟩ := c
  have hl : bl = cl := by simpa using congrArg List.length h
  subst hl
  have := bitsMS_injective hb.2 hc.2 h
  simp only [BitBuf.mk.injEq, and_true]
  exact BitVec.eq_of_toNat_eq this

theorem toNat_ofNat_64 {v n : Nat} (hv : v < 2 ^ n) (hn : n ≤ 64) : (BitVec.ofNat 64 v).toNat = v := by
  rw [BitVec.toNat_ofNat, Nat.mod_eq_of_lt]
  exact Nat.lt_of_lt_of_le hv (Nat.pow_le_pow_right (by omega) hn)

theorem mul_two_pow_add_lt {a b m n : Nat} (ha : a < 2 ^ m) (hb : b < 2 ^ n) : a * 2 ^ n + b < 2 ^ (m + n) := by
  have h : a + 1 ≤ 2 ^ m := ha
  calc a * 2 ^ n + b < a * 2 ^ n + 2 ^ n := by omega
    _ = (a + 1) * 2 ^ n := by ring
    _ ≤ 2 ^ m * 2 ^ n := Nat.mul_le_mul_right _ h
    _ = 2 ^ (m + n) := by rw [pow_add]

/-! ### The primitives -/

theorem BitBuf.pushLS_isSome (r : BitBuf) (v n : Nat) : (r.pushLS v n).isSome = true ↔ r.len + n ≤ bbCap := by
  unfold BitBuf.pushLS; split <;> simp <;> omega

/-- PushLS appends n bits after the ones buffered (40_bit_buffer R107, R108 law 4). -/
theorem BitBuf.pushLS_eq {r : BitBuf} (hr : r.wf) (v n : Nat) (h : r.len + n ≤ bbCap) :
    ∃ b, r.pushLS v n = some b ∧ b.wf ∧ b.len = r.len + n ∧ b.val.toNat = r.val.toNat * 2 ^ n + v % 2 ^ n ∧
      b.bits = r.bits ++ bitsMS v n := by
  have hlt := mul_two_pow_add_lt hr.2 (Nat.mod_lt v (Nat.two_pow_pos n))
  have hval : (r.val.toNat <<< n) ||| (v % 2 ^ n) = r.val.toNat * 2 ^ n + v % 2 ^ n := by
    rw [← Nat.shiftLeft_add_eq_or_of_lt (Nat.mod_lt v (Nat.two_pow_pos n)), Nat.shiftLeft_eq]
  refine ⟨_, if_neg (by omega), ?_⟩
  simp only [hval, BitBuf.bits, toNat_ofNat_64 hlt h]
  exact ⟨⟨h, by simpa [toNat_ofNat_64 hlt h] using hlt⟩, trivial, trivial, by
    rw [bitsMS_append _ _ _ _ (Nat.mod_lt v (Nat.two_pow_pos n)), bitsMS_mod]⟩

/-- PushMS puts n bits before the ones buffered (40_bit_buffer R107). -/
theorem BitBuf.pushMS_eq {r : BitBuf} (hr : r.wf) (v n : Nat) (h : r.len + n ≤ bbCap) :
    ∃ b, r.pushMS v n = some b ∧ b.wf ∧ b.len = r.len + n ∧
      b.val.toNat = (v % 2 ^ n) * 2 ^ r.len + r.val.toNat ∧ b.bits = bitsMS v n ++ r.bits := by
  have hlt := mul_two_pow_add_lt (Nat.mod_lt v (Nat.two_pow_pos n)) hr.2
  rw [Nat.add_comm n r.len] at hlt
  have hval : ((v % 2 ^ n) <<< r.len) ||| r.val.toNat = (v % 2 ^ n) * 2 ^ r.len + r.val.toNat := by
    rw [← Nat.shiftLeft_add_eq_or_of_lt hr.2, Nat.shiftLeft_eq]
  refine ⟨_, if_neg (by omega), ?_⟩
  simp only [hval, BitBuf.bits, toNat_ofNat_64 hlt h]
  exact ⟨⟨h, by simpa [toNat_ofNat_64 hlt h] using hlt⟩, trivial, trivial, by
    rw [Nat.add_comm r.len n, bitsMS_append _ _ _ _ hr.2, bitsMS_mod]⟩

theorem BitBuf.pushLS_none {r : BitBuf} {v n : Nat} (h : bbCap < r.len + n) : r.pushLS v n = none := if_pos h
theorem BitBuf.pushMS_none {r : BitBuf} {v n : Nat} (h : bbCap < r.len + n) : r.pushMS v n = none := if_pos h
theorem BitBuf.pullLS_none {r : BitBuf} {n : Nat} (h : r.len < n) : r.pullLS n = none := if_pos h
theorem BitBuf.pullMS_none {r : BitBuf} {n : Nat} (h : r.len < n) : r.pullMS n = none := if_pos h

theorem pow_split {v a b : Nat} (h : v < 2 ^ (a + b)) : v / 2 ^ b < 2 ^ a := by
  rw [pow_add, Nat.mul_comm] at h
  exact Nat.div_lt_of_lt_mul h

/-- PullMS takes the n bits that leave first (40_bit_buffer R107, R108 law 4). -/
theorem BitBuf.pullMS_eq {r : BitBuf} (hr : r.wf) {n : Nat} (h : n ≤ r.len) :
    ∃ b, r.pullMS n = some (r.val.toNat / 2 ^ (r.len - n), b) ∧ b.wf ∧ b.len = r.len - n ∧
      b.val.toNat = r.val.toNat % 2 ^ (r.len - n) ∧ r.val.toNat / 2 ^ (r.len - n) < 2 ^ n ∧
      r.bits = bitsMS (r.val.toNat / 2 ^ (r.len - n)) n ++ b.bits := by
  have hlt := Nat.mod_lt r.val.toNat (Nat.two_pow_pos (r.len - n))
  have hle : r.len - n ≤ 64 := Nat.le_trans (Nat.sub_le _ _) hr.1
  have hsum : n + (r.len - n) = r.len := by omega
  refine ⟨⟨BitVec.ofNat 64 (r.val.toNat % 2 ^ (r.len - n)), r.len - n⟩, ?_, ⟨hle, ?_⟩, rfl, ?_, ?_, ?_⟩
  · simp [BitBuf.pullMS, Nat.not_lt.2 h, Nat.shiftRight_eq_div_pow]
  · simpa [toNat_ofNat_64 hlt hle] using hlt
  · exact toNat_ofNat_64 hlt hle
  · exact pow_split (by rw [hsum]; exact hr.2)
  · simp only [BitBuf.bits, toNat_ofNat_64 hlt hle]
    rw [← bitsMS_split, hsum]

/-- PullLS takes the n bits pushed last at the LS end (40_bit_buffer R107). -/
theorem BitBuf.pullLS_eq {r : BitBuf} (hr : r.wf) {n : Nat} (h : n ≤ r.len) :
    ∃ b, r.pullLS n = some (r.val.toNat % 2 ^ n, b) ∧ b.wf ∧ b.len = r.len - n ∧ b.val.toNat = r.val.toNat / 2 ^ n ∧
      r.bits = b.bits ++ bitsMS (r.val.toNat % 2 ^ n) n := by
  have hsum : r.len - n + n = r.len := by omega
  have hlt : r.val.toNat / 2 ^ n < 2 ^ (r.len - n) := pow_split (by rw [hsum]; exact hr.2)
  have hle : r.len - n ≤ 64 := Nat.le_trans (Nat.sub_le _ _) hr.1
  refine ⟨⟨BitVec.ofNat 64 (r.val.toNat / 2 ^ n), r.len - n⟩, ?_, ⟨hle, ?_⟩, rfl, ?_, ?_⟩
  · simp [BitBuf.pullLS, Nat.not_lt.2 h, Nat.shiftRight_eq_div_pow]
  · simpa [toNat_ofNat_64 hlt hle] using hlt
  · exact toNat_ofNat_64 hlt hle
  · simp only [BitBuf.bits, toNat_ofNat_64 hlt hle]
    rw [← bitsMS_split, hsum]

/-- The whole bytes of a flush: the bits leave in order and the rest stays (40_bit_buffer R107). -/
theorem BitBuf.flushWhole_spec (k : Nat) {r : BitBuf} (hr : r.wf) (hk : 8 * k ≤ r.len) :
    (flushWhole k r).2.wf ∧ (flushWhole k r).2.len = r.len - 8 * k ∧ (flushWhole k r).1.length = k ∧
      r.bits = byteBits (flushWhole k r).1 ++ (flushWhole k r).2.bits := by
  induction k generalizing r with
  | zero => exact ⟨hr, by simp [flushWhole]⟩
  | succ k ih =>
    obtain ⟨b, hb, hbw, hbl, -, hx, hbits⟩ := BitBuf.pullMS_eq hr (n := 8) (by omega)
    obtain ⟨h1, h2, h3, h4⟩ := ih hbw (by omega)
    simp only [flushWhole, hb]
    refine ⟨h1, by omega, by simp [h3], ?_⟩
    rw [byteBits_cons, BitVec.toNat_ofNat, bitsMS_mod, List.append_assoc, ← h4]
    exact hbits

/-- Flush: floor(len / 8) bytes, plus one padded with zeros below when `all` and bits remain; the bits leave in order
(40_bit_buffer R107, R108 laws 5 and 7). -/
theorem BitBuf.flush_spec (all : Bool) {r : BitBuf} (hr : r.wf) :
    (r.flush all).2.wf ∧ (r.flush all).2.len = (if all then 0 else r.len % 8) ∧
      (r.flush all).1.length = r.len / 8 + (if all && r.len % 8 != 0 then 1 else 0) ∧
      byteBits (r.flush all).1 ++ (r.flush all).2.bits = r.bits ++ (if all then padBits r.len else []) := by
  obtain ⟨h1, h2, h3, h4⟩ := BitBuf.flushWhole_spec (r.len / 8) hr (by omega)
  have hlen : (flushWhole (r.len / 8) r).2.len = r.len % 8 := by omega
  generalize hg : flushWhole (r.len / 8) r = w at *
  unfold BitBuf.flush
  rw [hg]
  cases all with
  | false => exact ⟨by simpa using h1, by simp [hlen, h3, ← h4]⟩
  | true =>
    by_cases h0 : r.len % 8 = 0
    · have : w.2.bits = [] := List.eq_nil_of_length_eq_zero (by simp [hlen, h0])
      have hn : ¬ 0 < w.2.len := by omega
      refine ⟨by simpa [hn] using h1, by simp [hlen, h0, h3, padBits, h4, this]⟩
    · obtain ⟨b, hb, hbw, hbl, hbv, hx, hbits⟩ := BitBuf.pullMS_eq h1 (n := w.2.len) (Nat.le_refl _)
      have hpos : 0 < w.2.len := by omega
      simp only [Nat.sub_self, pow_zero, Nat.div_one] at hb hbits hx hbl
      have hbnil : b.bits = [] := List.eq_nil_of_length_eq_zero (by simp [hbl])
      simp only [hpos, decide_true, Bool.and_self, if_true, hb]
      refine ⟨hbw, by simp [hbl], by simp [h3, h0], ?_⟩
      have hm : w.2.len < 8 := by omega
      have hsum : w.2.len + (8 - w.2.len) = 8 := by omega
      have hbyte : bitsMS ((w.2.val.toNat <<< (8 - w.2.len)) % 2 ^ 8) 8 =
          bitsMS w.2.val.toNat w.2.len ++ List.replicate (8 - w.2.len) false := by
        rw [bitsMS_mod]
        have := bitsMS_shiftLeft w.2.val.toNat w.2.len (8 - w.2.len)
        rwa [hsum] at this
      have hpad : (8 - r.len % 8) % 8 = 8 - w.2.len := by omega
      rw [hbnil, List.append_nil, byteBits_append, byteBits_cons, byteBits_nil, List.append_nil, BitVec.toNat_ofNat,
        hbyte, h4, padBits, hpad, List.append_assoc]
      rfl

theorem BitBuf.flush_wf (all : Bool) {r : BitBuf} (hr : r.wf) : (r.flush all).2.wf := (BitBuf.flush_spec all hr).1

/-- A flush of fewer than 8 bits, without `all`, does nothing (40_bit_buffer R105). -/
theorem BitBuf.flush_small {r : BitBuf} (h : r.len < 8) : r.flush false = ([], r) := by
  have : r.len / 8 = 0 := by omega
  simp [BitBuf.flush, this, flushWhole]

/-! ### Registers -/

theorem State.flushBuf_eq (s : State) (i : BufReg) (all : Bool) :
    s.flushBuf i all =
      { s.setBuf i ((s.getBuf i).flush all).2 with
        sink := s.sink ++ ((s.getBuf i).flush all).1
        sinkCnt := s.sinkCnt + BitVec.ofNat 32 ((s.getBuf i).flush all).1.length } := by
  cases i <;> rfl

/-- AppendAndFlush ends well when the merge fits: SINK and the buffer together gain the bits of o, and at most 7 bits
stay (40_bit_buffer R106, R107, R108 law 6). -/
theorem State.appendAndFlush_fits {s : State} {i : BufReg} (hi : (s.getBuf i).wf) {o : BitBuf}
    (h : (s.getBuf i).len % 8 + o.len ≤ bbCap) :
    ∃ bs b, s.appendAndFlush i o = .done ((s.setBuf i b).sinkPut bs) ∧ b.wf ∧
      b.len = ((s.getBuf i).len + o.len) % 8 ∧ bs.length = ((s.getBuf i).len + o.len) / 8 ∧
      byteBits bs ++ b.bits = (s.getBuf i).bits ++ o.bits := by
  obtain ⟨f1, f2, f3, f4⟩ := BitBuf.flush_spec false hi
  generalize hr : (s.getBuf i).flush false = w at *
  simp only [Bool.false_eq_true, if_false, Bool.false_and, List.append_nil, Nat.add_zero] at f2 f3 f4
  obtain ⟨m, hm, mw, ml, -, mb⟩ := BitBuf.pushLS_eq f1 o.val.toNat o.len (by omega)
  obtain ⟨g1, g2, g3, g4⟩ := BitBuf.flush_spec false mw
  generalize hv : m.flush false = v at *
  simp only [Bool.false_eq_true, if_false, Bool.false_and, List.append_nil, Nat.add_zero] at g2 g3 g4
  refine ⟨w.1 ++ v.1, v.2, ?_, g1, by omega, by simp; omega, ?_⟩
  · simp only [State.appendAndFlush, State.getBuf_flushBuf_self, hr, hm]
    simp only [State.flushBuf, hr, State.getBuf_setBuf_self, hv]
    congr 1
    cases i <;> simp [State.setBuf, State.sinkPut, BitVec.add_assoc, BitVec.ofNat_add]
  · rw [byteBits_append, List.append_assoc, g4, mb, ← List.append_assoc, f4]
    rfl

/-- AppendAndFlush raises CAPACITY, late, exactly when the merge does not fit (40_bit_buffer R106, R108 law 6). -/
theorem State.appendAndFlush_overflows {s : State} {i : BufReg} (hi : (s.getBuf i).wf) {o : BitBuf}
    (h : bbCap < (s.getBuf i).len % 8 + o.len) : s.appendAndFlush i o = .late .capacity (s.flushBuf i false) := by
  obtain ⟨f1, f2, f3, f4⟩ := BitBuf.flush_spec false hi
  simp only [Bool.false_eq_true, if_false] at f2
  simp only [State.appendAndFlush, State.getBuf_flushBuf_self]
  rw [BitBuf.pushLS_none (by omega)]

end Sys2Proof.Machine
end

