-- ==== Sys2Proof/Laws/Decode.lean ====
section
/-! SUPPORT. The descriptor layout is a bijection between descriptors and fields (30_encoding R80, R82), the opcode map is
one to one (R84), and the operand selectors are. -/

namespace Sys2Proof

open Machine

/-- Splitting what was laid out gives the fields back. -/
@[simp] theorem unpack_pack (x : Fields) : unpack (pack x) = x := by
  cases x
  simp only [unpack, pack, Fields.mk.injEq]
  refine ⟨?_, ?_, ?_, ?_, ?_, ?_, ?_, ?_, ?_, ?_⟩ <;>
  · ext i hi
    simp only [BitVec.getElem_extractLsb', BitVec.getLsbD_append]
    repeat (first | rw [if_pos (by omega)] | rw [if_neg (by omega)])
    rw [← BitVec.getLsbD_eq_getElem]
    congr 1
    omega

/-- Laying out what was split gives the descriptor back. -/
@[simp] theorem pack_unpack (d : Desc) : pack (unpack d) = d := by
  apply BitVec.eq_of_getLsbD_eq
  intro i hi
  simp only [unpack, pack, BitVec.getLsbD_append, BitVec.getLsbD_extractLsb']
  repeat' split
  all_goals
    rw [decide_eq_true (by omega), Bool.true_and]
    congr 1
    omega

theorem pack_injective {x y : Fields} (h : pack x = pack y) : x = y := by rw [← unpack_pack x, h, unpack_pack]

@[simp] theorem Opcode.ofCode_code (o : Opcode) : Opcode.ofCode o.code = some o := by cases o <;> decide

theorem Opcode.mem_all (o : Opcode) : o ∈ Opcode.all := by cases o <;> decide

/-- An op field selects exactly the operation whose code it is. -/
theorem Opcode.ofCode_eq_some {c : BitVec 8} {o : Opcode} : Opcode.ofCode c = some o ↔ o.code = c :=
  ⟨fun h => by simpa using List.find?_some h, fun h => by rw [← h]; exact Opcode.ofCode_code o⟩

/-- An op field selects nothing exactly when it is no operation's code. -/
theorem Opcode.ofCode_eq_none {c : BitVec 8} : Opcode.ofCode c = none ↔ ∀ o : Opcode, o.code ≠ c := by
  constructor
  · intro h o ho
    rw [Opcode.ofCode_eq_some.2 ho] at h
    cases h
  · intro h
    cases hc : Opcode.ofCode c with
    | none => rfl
    | some o => exact absurd (Opcode.ofCode_eq_some.1 hc) (h o)

theorem Opcode.code_injective {o p : Opcode} (h : o.code = p.code) : o = p := by
  have := Opcode.ofCode_code o
  rw [h, Opcode.ofCode_code] at this
  exact (Option.some.inj this).symm

@[simp] theorem BufReg.ofBits_bits (r : BufReg) : BufReg.ofBits r.bits = r := by cases r <;> decide
@[simp] theorem BufReg.bits_ofBits (x : BitVec 2) : (BufReg.ofBits x).bits = x := by revert x; decide
@[simp] theorem Slot.ofBits_bits (t : Slot) : Slot.ofBits t.bits = t := by cases t <;> decide
@[simp] theorem Slot.bits_ofBits (x : BitVec 2) : (Slot.ofBits x).bits = x := by revert x; decide
@[simp] theorem flagOfBit_flagBit (b : Bool) : flagOfBit (flagBit b) = b := by cases b <;> decide
@[simp] theorem flagBit_flagOfBit (x : BitVec 1) : flagBit (flagOfBit x) = x := by revert x; decide

@[simp] theorem valueOf_halves (v : Word64) : valueOf (v.extractLsb' 32 32) (v.extractLsb' 0 32) = v := by
  apply BitVec.eq_of_getLsbD_eq
  intro i hi
  simp only [valueOf, BitVec.getLsbD_append, BitVec.getLsbD_extractLsb']
  split
  · simp only [*, decide_true, Bool.true_and, Nat.zero_add]
  · rw [show 32 + (i - 32) = i by omega]
    simp only [Bool.and_eq_right_iff_imp, decide_eq_true_eq]
    omega

@[simp] theorem valueOf_low (w2 w1 : Word) : (valueOf w2 w1).extractLsb' 0 32 = w1 := by
  ext i hi
  simp only [valueOf, BitVec.getElem_extractLsb', BitVec.getLsbD_append]
  rw [if_pos (by omega), Nat.zero_add, BitVec.getLsbD_eq_getElem]

@[simp] theorem valueOf_high (w2 w1 : Word) : (valueOf w2 w1).extractLsb' 32 32 = w2 := by
  ext i hi
  simp only [valueOf, BitVec.getElem_extractLsb', BitVec.getLsbD_append]
  rw [if_neg (by omega), ← BitVec.getLsbD_eq_getElem]
  congr 1
  omega

@[simp] theorem unpack_encode (i : Instr) : unpack (encode i) = i.fields := unpack_pack _

/-- The stray checks of the decoder are cases (c) and (d) of 30_encoding R85. -/
theorem strayBits_iff (o : Opcode) (x : Fields) :
    StrayBits o x ↔ x.rsv ≠ 0 ∨ o.format.uses.strayField x = true ∨ o.format.uses.strayWord x = true := by
  simp only [StrayBits, Uses.strayField, Uses.strayWord, Bool.or_eq_true, Bool.and_eq_true, Bool.not_eq_true',
    bne_iff_ne, ne_eq, or_assoc]

end Sys2Proof
end

