-- ==== Sys2Proof/Laws/Huffman.lean ====
section
/-! SUPPORT. Code tables: the entries of a slot, and what the tables are made of. -/

namespace Sys2Proof.Machine

theorem getD_eq_or_mem {α : Type} (xs : List α) (i : Nat) (d : α) : xs.getD i d = d ∨ xs.getD i d ∈ xs := by
  by_cases h : i < xs.length
  · exact .inr (by simp [List.getD_eq_getElem?_getD, h])
  · exact .inl (by simp [List.getD_eq_getElem?_getD, Nat.le_of_not_lt h])

/-- A length of a slot is one of its entries, or 0 past the alphabet. -/
theorem CodeTable.lenOf_cases {t : CodeTable} {p : Nat → Prop} (h0 : p 0) (h : ∀ l ∈ t.len, p l) (x : Nat) :
    p (t.lenOf x) := by
  rcases getD_eq_or_mem t.len x 0 with he | hm
  · exact (show t.lenOf x = 0 from he) ▸ h0
  · exact h _ hm

/-- A code of a slot is one of its entries, or 0 past the alphabet. -/
theorem CodeTable.codeOf_cases {t : CodeTable} {p : Word64 → Prop} (h0 : p 0) (h : ∀ c ∈ t.code, p c) (x : Nat) :
    p (t.codeOf x) := by
  rcases getD_eq_or_mem t.code x 0 with he | hm
  · exact (show t.codeOf x = 0 from he) ▸ h0
  · exact h _ hm

end Sys2Proof.Machine
end

