-- ==== Sys2Proof/Laws/Invariant.lean ====
section
/-! SUPPORT. The invariant as a check that can be evaluated on a concrete state, so that a test can show a state that meets
it. -/

namespace Sys2Proof.Machine

/-- The empty slot is canonical (10_state R39). -/
theorem CodeTable.empty_canonical : CodeTable.empty.Canonical := by
  refine ⟨?_, ?_, ?_⟩ <;> decide +kernel

/-- A slot as a rule leaves it, as a check. -/
def CodeTable.canonicalB (t : CodeTable) : Bool :=
  t == CodeTable.empty ||
    decide (t.shape ∧ kraftSum t.len ≤ 2 ^ lmax ∧ t.code = (canonCodes t.len).map (BitVec.ofNat 64))

theorem CodeTable.Canonical.of_check {t : CodeTable} (h : t.canonicalB = true) : t.Canonical := by
  rcases Bool.or_eq_true_iff.1 h with h | h
  · rw [beq_iff_eq.1 h]
    exact CodeTable.empty_canonical
  · have h := of_decide_eq_true h
    exact ⟨h.1, h.2.1, h.2.2⟩

/-- A permutation of 0..255, as a check. -/
def MtfTable.wfB (t : MtfTable) : Bool := t == allBytes || decide (MtfTable.wf t)

theorem MtfTable.wf_of_check {t : MtfTable} (h : MtfTable.wfB t = true) : MtfTable.wf t := by
  rcases Bool.or_eq_true_iff.1 h with h | h
  · rw [beq_iff_eq.1 h]
  · exact of_decide_eq_true h

/-- The constraints on the parameters, as a check. -/
def Config.wfB (c : Config) : Bool :=
  decide (1 ≤ c.memWords ∧ c.memWords ≤ 2 ^ 32) && MtfTable.wfB c.mtfInit &&
    decide (c.hdrPrior.length ≤ 65 ∧ ∀ w ∈ c.hdrPrior, 1 ≤ w)

theorem Config.wf_of_check {c : Config} (h : Config.wfB c = true) : c.wf := by
  simp only [Config.wfB, Bool.and_eq_true] at h
  obtain ⟨⟨h1, h2⟩, h3⟩ := h
  have h1 := of_decide_eq_true h1
  have h3 := of_decide_eq_true h3
  exact ⟨h1.1, h1.2, MtfTable.wf_of_check h2, h3.1, h3.2⟩

/-- The codes of ERR. -/
def faultCodeList : List (BitVec 4) := [1, 2, 3, 4, 5, 6, 7, 8, 9, 10, 11]

/-- The invariant as a check. -/
def State.invB (s : State) : Bool :=
  Config.wfB s.cfg && decide s.mem.wf && decide (∀ p ∈ s.mem, p.1 < s.cfg.memWords) &&
  decide (s.b0.wf ∧ s.b1.wf ∧ s.b2.wf ∧ s.b3.wf) && (MtfTable.wfB s.te && MtfTable.wfB s.td) &&
  (s.ct0.canonicalB && s.ct1.canonicalB && s.ct2.canonicalB && s.ct3.canonicalB) &&
  decide (s.tsize ≤ 65 ∧ s.hcnt ≤ alpha ∧ s.hlen.length = alpha ∧ ∀ l ∈ s.hlen, l ≤ 257) &&
  decide (s.decState = .decodingHeader → s.hcnt < alpha) &&
  decide (s.wlen < 64 ∧ s.wval.toNat < 2 ^ s.wlen) && decide (s.outCnt.toNat ≤ s.outCap.toNat) &&
  decide (s.outBase.toNat + s.outCap.toNat ≤ s.cfg.memWords) &&
  decide (s.sinkCnt = BitVec.ofNat 32 s.sink.length) &&
  decide ((s.faulted = false → s.err = 0) ∧ (s.faulted = true → s.err ∈ faultCodeList)) &&
  decide (s.drained ≤ s.sink.length)

theorem mem_faultCodeList {e : BitVec 4} (h : e ∈ faultCodeList) : ∃ c : FaultCode, e = c.code := by
  simp only [faultCodeList, List.mem_cons, List.not_mem_nil, or_false] at h
  rcases h with h | h | h | h | h | h | h | h | h | h | h
  · exact ⟨.illegal, h⟩
  · exact ⟨.capacity, h⟩
  · exact ⟨.underflow, h⟩
  · exact ⟨.bounds, h⟩
  · exact ⟨.overlap, h⟩
  · exact ⟨.range, h⟩
  · exact ⟨.degenerate, h⟩
  · exact ⟨.kraft, h⟩
  · exact ⟨.tree, h⟩
  · exact ⟨.stream, h⟩
  · exact ⟨.outfull, h⟩

/-- A state that passes the check meets the invariant. -/
theorem State.Inv.of_check {s : State} (h : s.invB = true) : s.Inv := by
  simp only [State.invB, Bool.and_eq_true] at h
  obtain ⟨⟨⟨⟨⟨⟨⟨⟨⟨⟨⟨⟨⟨h1, h2⟩, h3⟩, h4⟩, h5⟩, h6⟩, h7⟩, h8⟩, h9⟩, h10⟩, h11⟩, h12⟩, h13⟩, h14⟩ := h
  obtain ⟨⟨⟨c0, c1⟩, c2⟩, c3⟩ := h6
  have c0 := CodeTable.Canonical.of_check c0
  have c1 := CodeTable.Canonical.of_check c1
  have c2 := CodeTable.Canonical.of_check c2
  have c3 := CodeTable.Canonical.of_check c3
  have h4 := of_decide_eq_true h4
  have h13 := of_decide_eq_true h13
  have hc : ∀ t, (s.getSlot t).Canonical := fun t => by cases t <;> assumption
  exact {
    cfgOk := Config.wf_of_check h1
    memSorted := of_decide_eq_true h2
    memInside := of_decide_eq_true h3
    bufs := fun i => by
      cases i
      · exact h4.1
      · exact h4.2.1
      · exact h4.2.2.1
      · exact h4.2.2.2
    mtf := ⟨MtfTable.wf_of_check h5.1, MtfTable.wf_of_check h5.2⟩
    slotShape := fun t => (hc t).shape
    slotCanonical := fun _ => hc
    header := of_decide_eq_true h7
    headerOpen := fun _ => of_decide_eq_true h8
    walk := of_decide_eq_true h9
    outCount := of_decide_eq_true h10
    outRegion := fun _ => of_decide_eq_true h11
    sinkCount := of_decide_eq_true h12
    errCode := ⟨h13.1, fun hf => mem_faultCodeList (h13.2 hf)⟩
    drainedOk := of_decide_eq_true h14 }

end Sys2Proof.Machine
end

