-- ==== Sys2Proof/Laws/PerInstr.lean ====
section
/-! SUPPORT. What holds of every command as syntax, one lemma per constructor: the fields of a command carry its opcode and
set no bit that it does not use (30_encoding R84, R85). -/

namespace Sys2Proof.Laws.OnlyUsedFields

open Sys2Proof Sys2Proof.Machine

/-- The fields of a command carry its opcode and no stray bit. -/
def Statement (i : Instr) : Prop := i.fields.op = i.opcode.code ∧ ¬ StrayBits i.opcode i.fields

theorem sysNop : Statement (.sysNop) :=
  ⟨rfl, by simp [StrayBits, Instr.fields, Instr.opcode, Fields.ofOp, Opcode.format, Format.uses]⟩
theorem bbClr (bd : BufReg) : Statement (.bbClr bd) :=
  ⟨rfl, by simp [StrayBits, Instr.fields, Instr.opcode, Fields.ofOp, Opcode.format, Format.uses]⟩
theorem bbPushl (bd : BufReg) (n : BitVec 7) (v : Word64) : Statement (.bbPushl bd n v) :=
  ⟨rfl, by simp [StrayBits, Instr.fields, Instr.opcode, Fields.ofOp, Opcode.format, Format.uses]⟩
theorem bbPushr (bd : BufReg) (n : BitVec 7) (v : Word64) : Statement (.bbPushr bd n v) :=
  ⟨rfl, by simp [StrayBits, Instr.fields, Instr.opcode, Fields.ofOp, Opcode.format, Format.uses]⟩
theorem bbPulll (bd : BufReg) (n : BitVec 7) : Statement (.bbPulll bd n) :=
  ⟨rfl, by simp [StrayBits, Instr.fields, Instr.opcode, Fields.ofOp, Opcode.format, Format.uses]⟩
theorem bbPullr (bd : BufReg) (n : BitVec 7) : Statement (.bbPullr bd n) :=
  ⟨rfl, by simp [StrayBits, Instr.fields, Instr.opcode, Fields.ofOp, Opcode.format, Format.uses]⟩
theorem bbFlush (bd : BufReg) (f : Bool) : Statement (.bbFlush bd f) :=
  ⟨rfl, by simp [StrayBits, Instr.fields, Instr.opcode, Fields.ofOp, Opcode.format, Format.uses]⟩
theorem bbAppf (bd : BufReg) (bs : BufReg) : Statement (.bbAppf bd bs) :=
  ⟨rfl, by simp [StrayBits, Instr.fields, Instr.opcode, Fields.ofOp, Opcode.format, Format.uses]⟩
theorem saBuild (a : Word) (b : Word) (c : Word) : Statement (.saBuild a b c) :=
  ⟨rfl, by simp [StrayBits, Instr.fields, Instr.opcode, Fields.ofOp, Opcode.format, Format.uses]⟩
theorem bwtFwd (a : Word) (b : Word) (c : Word) : Statement (.bwtFwd a b c) :=
  ⟨rfl, by simp [StrayBits, Instr.fields, Instr.opcode, Fields.ofOp, Opcode.format, Format.uses]⟩
theorem bwtInv (a : Word) (b : Word) (c : Word) : Statement (.bwtInv a b c) :=
  ⟨rfl, by simp [StrayBits, Instr.fields, Instr.opcode, Fields.ofOp, Opcode.format, Format.uses]⟩
theorem mtfeRst : Statement (.mtfeRst) :=
  ⟨rfl, by simp [StrayBits, Instr.fields, Instr.opcode, Fields.ofOp, Opcode.format, Format.uses]⟩
theorem mtfeRun (a : Word) (b : Word) (c : Word) : Statement (.mtfeRun a b c) :=
  ⟨rfl, by simp [StrayBits, Instr.fields, Instr.opcode, Fields.ofOp, Opcode.format, Format.uses]⟩
theorem mtfeDump (c : Word) : Statement (.mtfeDump c) :=
  ⟨rfl, by simp [StrayBits, Instr.fields, Instr.opcode, Fields.ofOp, Opcode.format, Format.uses]⟩
theorem mtfdRst : Statement (.mtfdRst) :=
  ⟨rfl, by simp [StrayBits, Instr.fields, Instr.opcode, Fields.ofOp, Opcode.format, Format.uses]⟩
theorem mtfdRun (a : Word) (b : Word) (c : Word) : Statement (.mtfdRun a b c) :=
  ⟨rfl, by simp [StrayBits, Instr.fields, Instr.opcode, Fields.ofOp, Opcode.format, Format.uses]⟩
theorem mtfdDump (c : Word) : Statement (.mtfdDump c) :=
  ⟨rfl, by simp [StrayBits, Instr.fields, Instr.opcode, Fields.ofOp, Opcode.format, Format.uses]⟩
theorem htbBuild (t : Slot) (a : Word) (b : Word) : Statement (.htbBuild t a b) :=
  ⟨rfl, by simp [StrayBits, Instr.fields, Instr.opcode, Fields.ofOp, Opcode.format, Format.uses]⟩
theorem htbPrior (t : Slot) (b : Word) : Statement (.htbPrior t b) :=
  ⟨rfl, by simp [StrayBits, Instr.fields, Instr.opcode, Fields.ofOp, Opcode.format, Format.uses]⟩
theorem htbCanon (t : Slot) (a : Word) (b : Word) : Statement (.htbCanon t a b) :=
  ⟨rfl, by simp [StrayBits, Instr.fields, Instr.opcode, Fields.ofOp, Opcode.format, Format.uses]⟩
theorem htbStore (t : Slot) (c : Word) : Statement (.htbStore t c) :=
  ⟨rfl, by simp [StrayBits, Instr.fields, Instr.opcode, Fields.ofOp, Opcode.format, Format.uses]⟩
theorem cheRst : Statement (.cheRst) :=
  ⟨rfl, by simp [StrayBits, Instr.fields, Instr.opcode, Fields.ofOp, Opcode.format, Format.uses]⟩
theorem cheSym (t : Slot) (a : Word) : Statement (.cheSym t a) :=
  ⟨rfl, by simp [StrayBits, Instr.fields, Instr.opcode, Fields.ofOp, Opcode.format, Format.uses]⟩
theorem cheBlock (f : Bool) (a : Word) (b : Word) : Statement (.cheBlock f a b) :=
  ⟨rfl, by simp [StrayBits, Instr.fields, Instr.opcode, Fields.ofOp, Opcode.format, Format.uses]⟩
theorem chdRst : Statement (.chdRst) :=
  ⟨rfl, by simp [StrayBits, Instr.fields, Instr.opcode, Fields.ofOp, Opcode.format, Format.uses]⟩
theorem chdSetout (b : Word) (c : Word) : Statement (.chdSetout b c) :=
  ⟨rfl, by simp [StrayBits, Instr.fields, Instr.opcode, Fields.ofOp, Opcode.format, Format.uses]⟩
theorem chdPush (a : Word) : Statement (.chdPush a) :=
  ⟨rfl, by simp [StrayBits, Instr.fields, Instr.opcode, Fields.ofOp, Opcode.format, Format.uses]⟩
theorem chdRun : Statement (.chdRun) :=
  ⟨rfl, by simp [StrayBits, Instr.fields, Instr.opcode, Fields.ofOp, Opcode.format, Format.uses]⟩

end Sys2Proof.Laws.OnlyUsedFields
end

