-- ==== Sys2Proof/Laws/Step.lean ====
section
/-! SUPPORT. What a command and a step leave of the configuration and of the host's side, said once, and the small lemmas
of a run's result (10_state R20, 70_reset R268). -/

namespace Sys2Proof.Machine

/-- The configuration and the host's side are in t what they were in s. -/
structure HostKept (s t : State) : Prop where
  cfg : t.cfg = s.cfg
  pending : t.pending = s.pending
  replies : t.replies = s.replies
  drained : t.drained = s.drained
  draws : t.draws = s.draws

theorem HostKept.refl (s : State) : HostKept s s := ⟨rfl, rfl, rfl, rfl, rfl⟩

theorem HostKept.trans {s t u : State} (h : HostKept s t) (k : HostKept t u) : HostKept s u :=
  ⟨k.cfg.trans h.cfg, k.pending.trans h.pending, k.replies.trans h.replies, k.drained.trans h.drained,
    k.draws.trans h.draws⟩

/-- Every state that the end of a command's pseudocode names keeps the host's side. -/
def CmdEnd.HostKept (s : State) : CmdEnd → Prop
  | .done t | .late _ t => Machine.HostKept s t
  | .early _ | .absent => True

theorem CmdEnd.HostKept.after {s t : State} {e : CmdEnd} (k : e.HostKept t) (h : Machine.HostKept s t) : e.HostKept s := by
  cases e with
  | done u | late _ u => exact Machine.HostKept.trans h k
  | _ => trivial

theorem CmdEnd.HostKept.andThen {s : State} {e : CmdEnd} {f : State → CmdEnd} (h : e.HostKept s)
    (k : ∀ t, (f t).HostKept t) : (e.andThen f).HostKept s := by
  cases e with
  | done t =>
    have := (k t).after h
    rw [CmdEnd.andThen_done]
    cases hf : f t with
    | early c => exact h
    | _ => rw [hf] at this; exact this
  | _ => exact h

/-! ### The operations -/

theorem hostKept_setBuf (s : State) (i : BufReg) (v : BitBuf) : HostKept s (s.setBuf i v) := by constructor <;> simp
theorem hostKept_setSlot (s : State) (t : Slot) (v : CodeTable) : HostKept s (s.setSlot t v) := by constructor <;> simp
theorem hostKept_flushBuf (s : State) (i : BufReg) (all : Bool) : HostKept s (s.flushBuf i all) :=
  (hostKept_setBuf s i _).trans ⟨rfl, rfl, rfl, rfl, rfl⟩

theorem hostKept_appendAndFlush (s : State) (i : BufReg) (o : BitBuf) : (s.appendAndFlush i o).HostKept s := by
  refine CmdEnd.HostKept.after ?_ (hostKept_flushBuf s i false)
  unfold State.appendAndFlush
  dsimp only
  split
  · exact .refl _
  · exact (hostKept_setBuf _ i _).trans (hostKept_flushBuf _ i false)

theorem hostKept_checkSrcDst {s : State} {p : Bool} {a b c : Word} {e : CmdEnd} (h : e.HostKept s) :
    (checkSrcDst s p a b c e).HostKept s := by
  unfold checkSrcDst; repeat' split
  all_goals trivial
theorem hostKept_checkRegion {s : State} {r : Region} {e : CmdEnd} (h : e.HostKept s) :
    (checkRegion s r e).HostKept s := by unfold checkRegion; split <;> [exact h; trivial]
theorem hostKept_checkBytes {s : State} {xs : List Word} {e : CmdEnd} (h : e.HostKept s) :
    (checkBytes xs e).HostKept s := by unfold checkBytes; split <;> [trivial; exact h]
theorem hostKept_checkCount {s : State} {n : BitVec 7} {e : CmdEnd} (h : e.HostKept s) :
    (checkCount n e).HostKept s := by unfold checkCount; split <;> [exact h; trivial]
theorem hostKept_pushEnd (s : State) (i : BufReg) (r : Option BitBuf) : (pushEnd s i r).HostKept s := by
  cases r with
  | none => trivial
  | some b => exact hostKept_setBuf s i b
theorem hostKept_pullEnd (s : State) (i : BufReg) (r : Option (Nat × BitBuf)) : (pullEnd s i r).HostKept s := by
  cases r with
  | none => trivial
  | some b => exact (hostKept_setBuf s i b.2).trans ⟨rfl, rfl, rfl, rfl, rfl⟩
theorem hostKept_storeTable (s : State) (t : Slot) (r : Except FaultCode CodeTable) : (storeTable s t r).HostKept s := by
  cases r with
  | error _ => trivial
  | ok x => exact hostKept_setSlot s t x

/-! ### The encoder -/

theorem hostKept_emit (v : Word64) (l : Nat) (s : State) : (emit v l s).HostKept s :=
  (hostKept_appendAndFlush { s with b1 := ⟨v, l⟩ } .b0 ⟨v, l⟩).after ⟨rfl, rfl, rfl, rfl, rfl⟩
theorem hostKept_encodeSym (t : Slot) (x : Nat) (s : State) : (encodeSym t x s).HostKept s := by
  unfold encodeSym
  dsimp only
  split
  · trivial
  · exact hostKept_emit _ _ s
theorem hostKept_encodeSyms (t : Slot) (xs : List Nat) (s : State) : (encodeSyms t xs s).HostKept s := by
  induction xs generalizing s with
  | nil => exact .refl s
  | cons x xs ih => exact (hostKept_encodeSym t x s).andThen ih
theorem hostKept_encodeBody (d : List Nat) (f : Bool) (s : State) : (encodeBody d f s).HostKept s := by
  refine (hostKept_emit _ _ s).andThen fun t => ?_
  split
  · trivial
  · refine CmdEnd.HostKept.andThen ((hostKept_encodeSyms _ _ _).after ⟨rfl, rfl, rfl, rfl, rfl⟩) fun t => ?_
    refine (hostKept_encodeSyms _ _ t).andThen fun t => ?_
    split
    · exact hostKept_flushBuf t .b0 true
    · exact .refl t

/-! ### The decoder -/

/-- The state a walk ends in keeps the host's side. -/
def Walk.HostKept (s : State) : Walk → Prop
  | .symbol _ t | .none t | .deadEnd t => Machine.HostKept s t

theorem hostKept_stepWalk {s t : State} (h : stepWalk s = some t) : HostKept s t := by
  unfold stepWalk at h
  split at h
  · cases h
  · cases h; exact ⟨rfl, rfl, rfl, rfl, rfl⟩

theorem hostKept_decodeSym (t : Slot) (k : Nat) (s : State) : (decodeSym t k s).HostKept s := by
  induction k generalizing s with
  | zero => exact .refl s
  | succ k ih =>
    unfold decodeSym
    split
    · exact .refl s
    · rename_i s' h
      have h := hostKept_stepWalk h
      split
      · exact h.trans ⟨rfl, rfl, rfl, rfl, rfl⟩
      · split
        · have := ih s'
          cases hw : decodeSym t k s' <;> rw [hw] at this <;> exact h.trans this
        · exact h

theorem hostKept_startHeader (v : Nat) (s : State) : (startHeader v s).HostKept s := by
  unfold startHeader
  split
  · exact .refl s
  · split
    · exact .refl s
    · exact ⟨rfl, rfl, rfl, rfl, rfl⟩
theorem hostKept_takeLength (r : Nat) (s : State) : (takeLength r s).HostKept s := by
  unfold takeLength
  dsimp only
  split
  · split <;> exact ⟨rfl, rfl, rfl, rfl, rfl⟩
  · exact ⟨rfl, rfl, rfl, rfl, rfl⟩
theorem hostKept_outputSym (v : Nat) (s : State) : (outputSym v s).HostKept s := by
  unfold outputSym
  dsimp only
  split
  · exact .refl s
  · split
    · trivial
    · exact ⟨rfl, rfl, rfl, rfl, rfl⟩
theorem hostKept_takeSymbol (r : Nat) (s : State) : (takeSymbol r s).HostKept s := by
  refine (hostKept_outputSym r s).andThen fun t => ?_
  show HostKept t (afterSymbol r t)
  unfold afterSymbol
  split
  · exact ⟨rfl, rfl, rfl, rfl, rfl⟩
  · split
    · exact ⟨rfl, rfl, rfl, rfl, rfl⟩
    · exact .refl t

/-- What a turn leaves, whether Run stops there or goes on. -/
def Turn.HostKept (s : State) : Turn → Prop
  | .stop t => Machine.HostKept s t
  | .go e => e.HostKept s

theorem hostKept_turnOfWalk {s : State} {w : Walk} {f : Nat → State → CmdEnd} (h : w.HostKept s)
    (hf : ∀ v t, (f v t).HostKept t) : (turnOfWalk w f).HostKept s := by
  cases w with
  | symbol v t => exact (hf v t).after h
  | none t | deadEnd t => exact h

theorem hostKept_runTurn (s : State) : (runTurn s).HostKept s := by
  unfold runTurn
  split
  · exact .refl s
  · split
    · exact .refl s
    · exact (hostKept_startHeader _ _).after ⟨rfl, rfl, rfl, rfl, rfl⟩
  · exact hostKept_turnOfWalk (hostKept_decodeSym _ _ s) hostKept_takeLength
  · exact hostKept_turnOfWalk (hostKept_decodeSym _ _ s) hostKept_takeSymbol

theorem hostKept_runFuel (k : Nat) (s : State) : (runFuel k s).HostKept s := by
  induction k generalizing s with
  | zero => exact .refl s
  | succ k ih =>
    have h := hostKept_runTurn s
    unfold runFuel
    split <;> rename_i he <;> rw [he] at h
    · exact h
    · exact (ih _).after h
    · exact h

/-! ### A command and a step -/

theorem hostKept_bodyOf (i : Instr) (s : State) : (bodyOf i s).HostKept s := by
  cases i with
  | sysNop => exact .refl s
  | bbClr bd => exact hostKept_setBuf s bd _
  | bbPushl bd n v => exact hostKept_checkCount (hostKept_pushEnd s bd _)
  | bbPushr bd n v => exact hostKept_checkCount (hostKept_pushEnd s bd _)
  | bbPulll bd n => exact hostKept_checkCount (hostKept_pullEnd s bd _)
  | bbPullr bd n => exact hostKept_checkCount (hostKept_pullEnd s bd _)
  | bbFlush bd f => exact hostKept_flushBuf s bd f
  | bbAppf bd bs =>
    unfold bodyOf
    dsimp only
    split
    · trivial
    · exact hostKept_appendAndFlush s bd _
  | saBuild a b c => exact hostKept_checkSrcDst ⟨rfl, rfl, rfl, rfl, rfl⟩
  | bwtFwd a b c => exact hostKept_checkSrcDst (hostKept_checkBytes ⟨rfl, rfl, rfl, rfl, rfl⟩)
  | bwtInv a b c => exact hostKept_checkSrcDst (hostKept_checkBytes ⟨rfl, rfl, rfl, rfl, rfl⟩)
  | mtfeRun a b c => exact hostKept_checkSrcDst (hostKept_checkBytes ⟨rfl, rfl, rfl, rfl, rfl⟩)
  | mtfdRun a b c => exact hostKept_checkSrcDst (hostKept_checkBytes ⟨rfl, rfl, rfl, rfl, rfl⟩)
  | mtfeRst | mtfdRst | cheRst | chdRst => exact ⟨rfl, rfl, rfl, rfl, rfl⟩
  | mtfeDump c | mtfdDump c | htbStore t c | chdSetout b c => exact hostKept_checkRegion ⟨rfl, rfl, rfl, rfl, rfl⟩
  | htbBuild t a b =>
    unfold bodyOf htbBuildBody
    dsimp only
    split
    · trivial
    · exact hostKept_checkRegion (hostKept_storeTable s t _)
  | htbPrior t b =>
    unfold bodyOf htbPriorBody
    dsimp only
    split
    · trivial
    · exact hostKept_storeTable s t _
  | htbCanon t a b =>
    unfold bodyOf htbCanonBody
    dsimp only
    split
    · trivial
    · exact hostKept_checkRegion (hostKept_storeTable s t _)
  | cheSym t a =>
    unfold bodyOf cheSymBody
    dsimp only
    split
    · trivial
    · exact hostKept_encodeSym t _ s
  | cheBlock f a b =>
    refine hostKept_checkRegion (hostKept_checkBytes ?_)
    split
    · trivial
    · exact CmdEnd.HostKept.andThen ⟨rfl, rfl, rfl, rfl, rfl⟩ (hostKept_encodeBody _ f)
  | chdPush a =>
    unfold bodyOf chdPushBody
    dsimp only
    split
    · trivial
    · split
      · exact .refl s
      · split
        · trivial
        · exact (hostKept_runFuel _ _).after ⟨rfl, rfl, rfl, rfl, rfl⟩
  | chdRun => exact hostKept_runFuel _ s

/-- No command changes the configuration or the host's side, whether it ends well or faults. -/
theorem exec_hostKept {i : Instr} {s t : State} (h : exec i s = .next t) : HostKept s t := by
  rw [exec_eq_runCommand] at h
  have hb := hostKept_bodyOf i s
  rcases runCommand_cases h with ⟨-, rfl⟩ | ⟨-, he⟩ | ⟨-, c, -, rfl⟩ | ⟨-, c, u, he, rfl⟩
  · exact .refl t
  · rw [he] at hb; exact hb
  · exact ⟨rfl, rfl, rfl, rfl, rfl⟩
  · rw [he] at hb
    constructor <;> simp [hb.cfg, hb.pending, hb.replies, hb.drained, hb.draws]

theorem issue_hostKept {d : Desc} {s t : State} (h : issue d s = .next t) : HostKept s t := by
  unfold issue at h
  split at h
  · exact exec_hostKept h
  · cases h; constructor <;> (unfold State.raise; split <;> rfl)

/-- An action of the host changes neither the configuration nor what is still to come. -/
theorem hostAct_pending {a : HostAction} {s t : State} (h : hostAct a s = .next t) :
    t.cfg = s.cfg ∧ t.pending = s.pending := by
  cases a with
  | issue d => exact ⟨(issue_hostKept h).cfg, (issue_hostKept h).pending⟩
  | csrRead k | drain k | reset => cases h; exact ⟨rfl, rfl⟩
  | memRead a =>
    simp only [hostAct, hostRead] at h
    split at h <;> cases h
    exact ⟨rfl, rfl⟩
  | memWrite a v =>
    simp only [hostAct, hostWrite] at h
    split at h <;> cases h
    exact ⟨rfl, rfl⟩

theorem step_pending {s t : State} (h : step s = .next t) : t.cfg = s.cfg ∧ t.pending = s.pending.tail := by
  unfold step at h
  split at h
  · rename_i hp; cases h; simp [hp]
  · exact hostAct_pending h

/-! ### Runs and a run's result (70_reset R268) -/

theorem Core.run_succ (M : Host.Core) (k : Nat) {s u : M.State} (h : M.step s = .next u) :
    M.run (k + 1) s = M.run k u := by rw [Host.Core.run, h]

theorem Core.run_succ_eq_next (M : Host.Core) (k : Nat) (s t : M.State) :
    M.run (k + 1) s = .next t ↔ ∃ u, M.step s = .next u ∧ M.run k u = .next t := by
  rw [Host.Core.run]
  cases h : M.step s <;> simp

theorem run_zero (s : State) : core.run 0 s = .next s := rfl

theorem run_succ {s u : State} (h : step s = .next u) (k : Nat) : core.run (k + 1) s = core.run k u :=
  Core.run_succ core k h

/-- A run of one more step is a step and then a run. -/
theorem run_succ_eq_next {s t : State} {k : Nat} :
    core.run (k + 1) s = .next t ↔ ∃ u, step s = .next u ∧ core.run k u = .next t := Core.run_succ_eq_next core k s t

theorem runResult_of_faulted {s : State} (h : s.faulted = true) (k : Nat) : runResult k s = none := by
  cases k <;> simp [runResult, h]

theorem runResult_zero {s : State} (h : s.faulted = false) : runResult 0 s = some s := by simp [runResult, h]

theorem runResult_succ {s : State} (h : s.faulted = false) (k : Nat) :
    runResult (k + 1) s = (match step s with | .next t => runResult k t | _ => none) :=
  if_neg (c := s.faulted = true) (by simp [h])

/-- A run that has a result does not begin in a faulted state, and none ends in one. -/
theorem runResult_unfaulted {k : Nat} {s t : State} (h : runResult k s = some t) : s.faulted = false ∧ t.faulted = false := by
  induction k generalizing s with
  | zero =>
    simp only [runResult] at h
    split at h <;> cases h
    rename_i hf
    exact ⟨by simpa using hf, by simpa using hf⟩
  | succ k ih =>
    cases hf : s.faulted with
    | true => rw [runResult_of_faulted hf] at h; cases h
    | false =>
      rw [runResult_succ hf] at h
      split at h
      · exact ⟨rfl, (ih h).2⟩
      · cases h

end Sys2Proof.Machine
end

