-- ==== Sys2Proof/Laws/SuffixArray.lean ====
section
/-! SUPPORT. The sentinel precondition as SA.BUILD and BWT.FWD check it is the one of 41_suffix_array R121; the result layer
is a sort of the positions. -/

namespace Sys2Proof.Machine

theorem symAt_eq_getElem {xs : List Nat} {i : Nat} (h : i < xs.length) : symAt xs i = xs[i] := by
  simp [symAt, List.getD_eq_getElem?_getD, h]

/-- The check of the precondition says what 41_suffix_array R121 asks. -/
theorem sentinelOk_iff {xs : List Nat} : sentinelOk xs = true ↔ SentinelString xs := by
  simp only [sentinelOk, Bool.and_eq_true, beq_iff_eq, SentinelString]
  refine and_congr_right fun hl => ?_
  obtain ⟨ys, rfl⟩ : ∃ ys, xs = ys ++ [0] := by
    obtain ⟨h, he⟩ := List.getLast?_eq_some_iff.1 hl
    exact ⟨h, he⟩
  rw [List.count_append, List.count_singleton_self]
  constructor
  · intro hc i hi h0
    have hi : i < ys.length := by simpa using hi
    have : ys[i] = 0 := by
      rw [symAt_eq_getElem (by simp; omega), List.getElem_append_left hi] at h0
      exact h0
    have : 0 ∈ ys := this ▸ List.getElem_mem hi
    have := List.count_pos_iff.2 this
    omega
  · intro hn
    have : ys.count 0 = 0 := List.count_eq_zero.2 fun hm => by
      obtain ⟨i, hi, he⟩ := List.getElem_of_mem hm
      refine hn i (by simpa using hi) ?_
      rw [symAt_eq_getElem (by simp; omega), List.getElem_append_left hi, he]
    omega

/-- The result layer is a permutation of the positions (41_suffix_array R121). -/
theorem suffixArray_perm (xs : List Nat) : (suffixArray xs).Perm (List.range xs.length) :=
  List.perm_insertionSort _ _

@[simp] theorem length_suffixArray (xs : List Nat) : (suffixArray xs).length = xs.length := by
  simpa using (suffixArray_perm xs).length_eq

end Sys2Proof.Machine
end

