-- ==== Sys2Proof/Tests/Slice0.lean ====
section
/-! SUPPORT. Tests. Expected results are the spec's own: descriptors and illegal descriptors from 95_test_vectors section 9,
effects from its sections 2 to 8 (vector numbers in the names or comments), and worked examples of the command rules. The
witness theorems show, for every statement with hypotheses, a state and operands that meet them together. -/

namespace Sys2Proof.Tests

open Sys2Proof Sys2Proof.Machine

/- One theorem after the other: in parallel the kernel evaluations would ask for more threads than memory holds. -/
set_option Elab.async false

/-! ### Well-formedness: each check and a term it refuses (30_encoding R85 (e), (f)) -/

theorem test_wf_push_count : (Instr.bbPushl .b0 64 0).wf = true ∧ (Instr.bbPushl .b0 65 0).wf = false ∧
    (Instr.bbPushr .b0 64 0).wf = true ∧ (Instr.bbPushr .b0 127 0).wf = false := by decide
theorem test_wf_pull_count : (Instr.bbPulll .b0 64).wf = true ∧ (Instr.bbPulll .b0 65).wf = false ∧
    (Instr.bbPullr .b0 0).wf = true ∧ (Instr.bbPullr .b0 100).wf = false := by decide
theorem test_wf_appf_registers : (Instr.bbAppf .b0 .b1).wf = true ∧ (Instr.bbAppf .b1 .b1).wf = false := by decide

/-! ### Decoding: 95_test_vectors section 9, words written out from 30_encoding R80 to R86 -/

theorem test_decode_system :
    decode 0x00000000000000000000000000000000 = .ok (Instr.sysNop) := by decide

theorem test_decode_bit_buffer :
    decode 0x00000000000000000000000000000210 = .ok (.bbClr .b2) ∧
    decode 0x00000000000000000000001300005011 = .ok (.bbPushl .b0 5 0x13) ∧
    decode 0x00000000000000000000000500003312 = .ok (.bbPushr .b3 3 5) ∧
    decode 0x00000000000000000000000000004213 = .ok (.bbPulll .b2 4) ∧
    decode 0x00000000000000000000000000040214 = .ok (.bbPullr .b2 64) ∧
    decode 0x00000000000000000000000000080015 = .ok (.bbFlush .b0 true) ∧
    decode 0x00000000000000000000000000000B16 = .ok (.bbAppf .b3 .b2) := by decide

theorem test_decode_suffix_array :
    decode 0x00000010000000070000000000000020 = .ok (.saBuild 0 7 0x10) := by decide

theorem test_decode_bwt :
    decode 0x00000020000000040000000000000030 = .ok (.bwtFwd 0 4 0x20) ∧
    decode 0x00000140000000040000010000000031 = .ok (.bwtInv 0x100 4 0x140) := by decide

theorem test_decode_mtf_encoder :
    decode 0x00000000000000000000000000000040 = .ok (Instr.mtfeRst) ∧
    decode 0x00000020000000040000002000000041 = .ok (.mtfeRun 0x20 4 0x20) ∧
    decode 0x00000100000000000000000000000042 = .ok (.mtfeDump 0x100) := by decide

theorem test_decode_mtf_decoder :
    decode 0x00000000000000000000000000000050 = .ok (Instr.mtfdRst) ∧
    decode 0x00000100000000040000010000000051 = .ok (.mtfdRun 0x100 4 0x100) ∧
    decode 0x00000200000000000000000000000052 = .ok (.mtfdDump 0x200) := by decide

theorem test_decode_huffman_tree :
    decode 0x00000000000000060000010000200060 = .ok (.htbBuild .ct2 0x100 6) ∧
    decode 0x00000000000000030000000000100061 = .ok (.htbPrior .ct1 3) ∧
    decode 0x00000000000001020000040000300062 = .ok (.htbCanon .ct3 0x400 258) ∧
    decode 0x00000400000000000000000000200063 = .ok (.htbStore .ct2 0x400) := by decide

theorem test_decode_huffman_encoder :
    decode 0x00000000000000000000000000000070 = .ok (Instr.cheRst) ∧
    decode 0x00000000000000000000010100000071 = .ok (.cheSym .ct0 257) ∧
    decode 0x00000000000000040000002000080072 = .ok (.cheBlock true 0x20 4) := by decide

theorem test_decode_huffman_decoder :
    decode 0x00000000000000000000000000000080 = .ok (Instr.chdRst) ∧
    decode 0x00000100000000100000000000000081 = .ok (.chdSetout 16 0x100) ∧
    decode 0x00000000000000000000009500000082 = .ok (.chdPush 0x95) ∧
    decode 0x00000000000000000000000000000083 = .ok (Instr.chdRun) := by decide

theorem test_encode_table :
    [encode (Instr.sysNop),
     encode (.bbClr .b2),
     encode (.bbPushl .b0 5 0x13),
     encode (.bbPushr .b3 3 5),
     encode (.bbPulll .b2 4),
     encode (.bbPullr .b2 64),
     encode (.bbFlush .b0 true),
     encode (.bbAppf .b3 .b2),
     encode (.saBuild 0 7 0x10),
     encode (.bwtFwd 0 4 0x20),
     encode (.bwtInv 0x100 4 0x140),
     encode (Instr.mtfeRst),
     encode (.mtfeRun 0x20 4 0x20),
     encode (.mtfeDump 0x100)] =
    [0x00000000000000000000000000000000,
     0x00000000000000000000000000000210,
     0x00000000000000000000001300005011,
     0x00000000000000000000000500003312,
     0x00000000000000000000000000004213,
     0x00000000000000000000000000040214,
     0x00000000000000000000000000080015,
     0x00000000000000000000000000000B16,
     0x00000010000000070000000000000020,
     0x00000020000000040000000000000030,
     0x00000140000000040000010000000031,
     0x00000000000000000000000000000040,
     0x00000020000000040000002000000041,
     0x00000100000000000000000000000042] := by decide

theorem test_encode_table_2 :
    [encode (Instr.mtfdRst),
     encode (.mtfdRun 0x100 4 0x100),
     encode (.mtfdDump 0x200),
     encode (.htbBuild .ct2 0x100 6),
     encode (.htbPrior .ct1 3),
     encode (.htbCanon .ct3 0x400 258),
     encode (.htbStore .ct2 0x400),
     encode (Instr.cheRst),
     encode (.cheSym .ct0 257),
     encode (.cheBlock true 0x20 4),
     encode (Instr.chdRst),
     encode (.chdSetout 16 0x100),
     encode (.chdPush 0x95),
     encode (Instr.chdRun)] =
    [0x00000000000000000000000000000050,
     0x00000100000000040000010000000051,
     0x00000200000000000000000000000052,
     0x00000000000000060000010000200060,
     0x00000000000000030000000000100061,
     0x00000000000001020000040000300062,
     0x00000400000000000000000000200063,
     0x00000000000000000000000000000070,
     0x00000000000000000000010100000071,
     0x00000000000000040000002000080072,
     0x00000000000000000000000000000080,
     0x00000100000000100000000000000081,
     0x00000000000000000000009500000082,
     0x00000000000000000000000000000083] := by decide

theorem test_illegal_reserved_bits :
    decode 0x00000000000000000000000000400000 = .error .reservedBits := by decide

theorem test_illegal_unassigned_opcode :
    decode 0x00000000000000000000000000000001 = .error .unassignedOpcode ∧
    decode 0x00000000000000000000000000000017 = .error .unassignedOpcode ∧
    decode 0x000000000000000000000000000000FF = .error .unassignedOpcode := by decide

theorem test_illegal_unused_field :
    decode 0x00000000000000000000000000000100 = .error .unusedField ∧
    decode 0x00000000000000000000000000000410 = .error .unusedField ∧
    decode 0x00000000000000000000000000080013 = .error .unusedField ∧
    decode 0x00000000000000000000000000001015 = .error .unusedField ∧
    decode 0x00000000000000000000000000100020 = .error .unusedField ∧
    decode 0x00000000000000010000000000100072 = .error .unusedField ∧
    decode 0x00000000000000000000000000080083 = .error .unusedField := by decide

theorem test_illegal_unused_word :
    decode 0x00000000000000000000000100000000 = .error .unusedWord ∧
    decode 0x00000001000000000000000100001011 = .error .unusedWord ∧
    decode 0x00000000000000000000000100001013 = .error .unusedWord ∧
    decode 0x00000000000000000000000100000042 = .error .unusedWord ∧
    decode 0x00000001000000020000000000000060 = .error .unusedWord ∧
    decode 0x00000000000000020000000100000061 = .error .unusedWord ∧
    decode 0x00000000000000010000000000000071 = .error .unusedWord ∧
    decode 0x00000000000000000000000100000081 = .error .unusedWord ∧
    decode 0x00000000000000010000000000000082 = .error .unusedWord := by decide

theorem test_illegal_count_above64 :
    decode 0x00000000000000000000000000041011 = .error .countAbove64 ∧
    decode 0x0000000000000000000000000007F011 = .error .countAbove64 := by decide

theorem test_illegal_same_register :
    decode 0x00000000000000000000000000000516 = .error .sameRegister := by decide


theorem test_host_word : decodeTableWord 128 0x00000000000000000000001300005011 = some (.bbPushl .b0 5 0x13) ∧
    decodeTableWord 32 0x00040214 = some (.bbPullr .b2 64) ∧ decodeTableWord 32 0x00041011 = none := by decide

/-! ### Assembler text (30_encoding R89, R90) -/

theorem test_asm : (Instr.bbPushl .b0 5 0x13).asm = "BB.PUSHL b0, 5, 19" ∧ (Instr.bbFlushall .b1).asm = "BB.FLUSH b1, all" ∧
    (Instr.cheBlock true 32 4).asm = "CHE.BLOCK 32, 4, final" ∧ Instr.chdRun.asm = "CHD.RUN" ∧
    (Instr.htbBuild .ct3 1 2).asm = "HTB.BUILD ct3, 1, 2" ∧ Instr.bbPushb .b2 7 = .bbPushl .b2 8 7 := by decide +kernel

/-! ### Small states -/

/-- The reset state with some cells written. -/
def cells (a : Nat) (vs : List Nat) (s : State) : State := s.writeRegion a (toWords vs)

/-- An outcome is a next state that passes a check. -/
def ends (o : Out) (p : State → Bool) : Bool :=
  match o with
  | .next t => p t
  | _ => false

theorem exists_of_ends {o : Out} {p : State → Bool} (h : ends o p = true) : ∃ t, o = .next t ∧ p t = true := by
  cases o with
  | next t => exact ⟨t, rfl, h⟩
  | fault _ => cases h
  | refused _ => cases h

/-- An outcome is the early fault c on s. -/
def endsEarly (o : Out) (s : State) (c : FaultCode) : Bool := ends o (fun t => t == s.faultedBy c)

/-- A slot with the given lengths and their canonical codes. -/
def slotOf (lens : List Nat) : CodeTable :=
  ⟨padLengths lens, (canonCodes (padLengths lens)).map (BitVec.ofNat 64)⟩

/-- The coded symbols of a slot with their codes. -/
def coded (t : CodeTable) : List (Nat × Nat × Nat) :=
  ((t.len.zip t.code).zipIdx.filter (fun p => 0 < p.1.1)).map (fun p => (p.2, p.1.1, p.1.2.toNat))

def r : State := State.reset

/-- The reset state with b0 holding the given bits. -/
def withB0 (v : Word64) (n : Nat) : State := { r with b0 := ⟨v, n⟩ }

/-! ### Effects, one step each -/

theorem test_nop : ends (exec .sysNop r) (fun t => t == r) = true := by decide +kernel
-- B32
theorem test_clr : ends (exec (.bbClr .b2) { r with b2 := ⟨0x2D, 6⟩ }) (fun t => t == r) = true := by decide +kernel
-- B6, B4
theorem test_pushl : ends (exec (.bbPushl .b0 4 0xFF) (withB0 0x123456789ABCDEF 60))
    (fun t => t.b0 == ⟨0x123456789ABCDEFF, 64⟩ && t.b1 == r.b1 && !t.faulted) = true := by decide +kernel
theorem test_pushl_capacity : endsEarly (exec (.bbPushl .b0 1 0) (withB0 0x0123456789ABCDEF 64))
    (withB0 0x0123456789ABCDEF 64) .capacity = true := by decide +kernel
-- B7, B9
theorem test_pushr : ends (exec (.bbPushr .b0 4 0xFA) (withB0 0x123456789ABCDEF 60))
    (fun t => t.b0 == ⟨0xA123456789ABCDEF, 64⟩) = true := by decide +kernel
theorem test_pushr_zeros : ends (exec (.bbPushr .b3 3 5) { r with b3 := ⟨0, 2⟩ })
    (fun t => t.b3 == ⟨0x14, 5⟩) = true := by decide +kernel
-- B15, B12
theorem test_pulll : ends (exec (.bbPulll .b2 4) { r with b2 := ⟨0xFEDCBA9876543210, 64⟩ })
    (fun t => t.res == 0 && t.b2 == ⟨0x0FEDCBA987654321, 60⟩) = true := by decide +kernel
theorem test_pulll_underflow : endsEarly (exec (.bbPulll .b0 4) (withB0 5 3)) (withB0 5 3) .underflow = true := by
  decide +kernel
-- B14, B13
theorem test_pullr : ends (exec (.bbPullr .b2 4) { r with b2 := ⟨0xFEDCBA9876543210, 64⟩ })
    (fun t => t.res == 0xF && t.b2 == ⟨0x0EDCBA9876543210, 60⟩) = true := by decide +kernel
theorem test_pullr_all : ends (exec (.bbPullr .b2 64) { r with b2 := ⟨0xFEDCBA9876543210, 64⟩ })
    (fun t => t.res == 0xFEDCBA9876543210 && t.b2 == ⟨0, 0⟩) = true := by decide +kernel
-- B21, R105's first example
theorem test_flush_all : ends (exec (.bbFlush .b0 true) (withB0 0x1F0102030405060F 61))
    (fun t => t.sink == [0xF8, 0x08, 0x10, 0x18, 0x20, 0x28, 0x30, 0x78] && t.b0 == ⟨0, 0⟩ && t.sinkCnt == 8) = true := by
  decide +kernel
theorem test_flush : ends (exec (.bbFlush .b0 false) (withB0 0x2B5 10))
    (fun t => t.sink == [0xAD] && t.b0 == ⟨1, 2⟩) = true := by decide +kernel
-- B25, B27
theorem test_appf : ends (exec (.bbAppf .b0 .b1) { withB0 0x7F 7 with b1 := ⟨0x1FFFFFFFFFFFFFF, 57⟩ })
    (fun t => t.sink == List.replicate 8 0xFF && t.b0 == ⟨0, 0⟩ && t.b1 == ⟨0x1FFFFFFFFFFFFFF, 57⟩) = true := by
  decide +kernel
theorem test_appf_late : ends (exec (.bbAppf .b0 .b1) { withB0 0x7FFF 15 with b1 := ⟨0x3FFFFFFFFFFFFFF, 58⟩ })
    (fun t => t.sink == [0xFF] && t.sinkCnt == 1 && t.faulted && t.err == 2) = true := by decide +kernel
-- A13, A12
theorem test_sa : ends (exec (.saBuild 0 13 16) (cells 0 [3, 1, 2, 1, 2, 1, 2, 3, 1, 2, 1, 2, 0] r))
    (fun t => t.data 16 13 == [12, 10, 8, 1, 3, 5, 11, 9, 2, 4, 6, 7, 0]) = true := by decide +kernel
theorem test_sa_wide : ends (exec (.saBuild 0 5 16) (cells 0 [1000000, 7, 4294967295, 7, 0] r))
    (fun t => t.data 16 5 == [4, 3, 1, 0, 2]) = true := by decide +kernel
-- the algorithm layer on A14
theorem test_sais : sais [3, 1, 4, 4, 1, 4, 4, 1, 3, 3, 1, 0] = [11, 10, 7, 4, 1, 9, 0, 8, 6, 3, 5, 2] := by
  decide +kernel
-- W3, W7
theorem test_bwt_fwd : ends (exec (.bwtFwd 0 4 16) (cells 0 [65, 65, 66, 0] r))
    (fun t => t.data 16 4 == [66, 0, 65, 65]) = true := by decide +kernel
theorem test_bwt_fwd_range : endsEarly (exec (.bwtFwd 0 3 16) (cells 0 [65, 300, 0] r)) (cells 0 [65, 300, 0] r) .range =
    true := by decide +kernel
-- W3 backwards; L = 2, 1, 0
theorem test_bwt_inv : ends (exec (.bwtInv 0 4 16) (cells 0 [66, 0, 65, 65] r))
    (fun t => t.data 16 4 == [65, 65, 66, 0]) = true := by decide +kernel
theorem test_bwt_inv_other : ends (exec (.bwtInv 0 3 16) (cells 0 [2, 1, 0] r))
    (fun t => t.data 16 3 == [0, 2, 0]) = true := by decide +kernel
theorem test_mtfe_rst : ends (exec .mtfeRst { r with te := r.te.reverse, td := r.td.reverse })
    (fun t => t.te == r.te && t.td == r.td.reverse) = true := by decide +kernel
-- M3, M2
theorem test_mtfe : ends (exec (.mtfeRun 0 9 16) (cells 0 [5, 5, 5, 0, 0, 5, 255, 255, 0] r))
    (fun t => t.data 16 9 == [5, 0, 0, 1, 0, 1, 255, 0, 2] && t.te.take 8 == [0, 255, 5, 1, 2, 3, 4, 6] && t.td == r.td) =
    true := by decide +kernel
theorem test_mtfe_overlap : endsEarly (exec (.mtfeRun 0 4 1) (cells 0 [66, 0, 65, 65] r)) (cells 0 [66, 0, 65, 65] r)
    .overlap = true := by decide +kernel
-- M1, M6
theorem test_mtfe_dump : ends (exec (.mtfeDump 0xFF00) { r with te := frontMove r.te 66 })
    (fun t => t.data 0xFF00 4 == [66, 0, 1, 2] && t.data 0xFFFE 2 == [254, 255]) = true := by decide +kernel
theorem test_mtfe_dump_bounds : endsEarly (exec (.mtfeDump 0xFF01) r) r .bounds = true := by decide +kernel
theorem test_mtfd_rst : ends (exec .mtfdRst { r with te := r.te.reverse, td := r.td.reverse })
    (fun t => t.td == r.td && t.te == r.te.reverse) = true := by decide +kernel
-- M1, in place as M2
theorem test_mtfd : ends (exec (.mtfdRun 0 4 0) (cells 0 [66, 1, 66, 0] r))
    (fun t => t.data 0 4 == [66, 0, 65, 65] && t.td.take 6 == [65, 0, 66, 1, 2, 3] && t.te == r.te) = true := by
  decide +kernel
theorem test_mtfd_range : endsEarly (exec (.mtfdRun 0 1 16) (cells 0 [256] r)) (cells 0 [256] r) .range = true := by
  decide +kernel
theorem test_mtfd_dump : ends (exec (.mtfdDump 0x100) { r with td := frontMove r.td 65 })
    (fun t => t.data 0x100 3 == [65, 0, 1]) = true := by decide +kernel
-- H1i (R176's example), H1e
theorem test_htb_build : ends (exec (.htbBuild .ct2 0x100 6) (cells 0x100 [5, 9, 12, 13, 16, 45] r))
    (fun t => coded t.ct2 == [(0, 4, 14), (1, 4, 15), (2, 3, 4), (3, 3, 5), (4, 3, 6), (5, 1, 0)] && t.ct1 == r.ct1) =
    true := by decide +kernel
theorem test_htb_build_ties : ends (exec (.htbBuild .ct0 0 4) (cells 0 [1, 1, 1, 2] r))
    (fun t => coded t.ct0 == [(0, 2, 0), (1, 2, 1), (2, 2, 2), (3, 2, 3)]) = true := by decide +kernel
-- H2 for K = 5; H3 with HDR_PRIOR 8, 4, 2 for K = 6
theorem test_htb_prior : ends (exec (.htbPrior .ct1 5) r)
    (fun t => coded t.ct1 == [(0, 3, 6), (1, 3, 7), (2, 2, 0), (3, 2, 1), (4, 2, 2)]) = true := by decide +kernel
theorem test_htb_prior_weights : ends (exec (.htbPrior .ct1 6) { r with cfg := { r.cfg with hdrPrior := [8, 4, 2] } })
    (fun t => coded t.ct1 == [(0, 1, 0), (1, 2, 2), (2, 4, 12), (3, 4, 13), (4, 4, 14), (5, 4, 15)]) = true := by
  decide +kernel
-- H4c, H4l
theorem test_htb_canon : ends (exec (.htbCanon .ct3 0 6) (cells 0 [2, 2, 3, 3, 3, 3] r))
    (fun t => coded t.ct3 == [(0, 2, 0), (1, 2, 1), (2, 3, 4), (3, 3, 5), (4, 3, 6), (5, 3, 7)]) = true := by decide +kernel
theorem test_htb_canon_capacity : endsEarly (exec (.htbCanon .ct3 0 4) (cells 0 [65, 1, 1, 1] r))
    (cells 0 [65, 1, 1, 1] r) .capacity = true := by decide +kernel
-- H5 after H4g
theorem test_htb_store : ends (exec (.htbStore .ct1 0x1000) { r with ct1 := slotOf [64, 64] })
    (fun t => t.data 0x1000 3 == [64, 64, 0] && t.data 0x1102 4 == [0, 0, 1, 0] && t.data 0x1305 1 == [0]) = true := by
  decide +kernel
theorem test_htb_store_bounds : endsEarly (exec (.htbStore .ct1 0xFCFB) r) r .bounds = true := by decide +kernel
-- R186's example
theorem test_che_rst : ends (exec .cheRst { withB0 5 3 with b1 := ⟨1, 1⟩, b2 := ⟨1, 1⟩ })
    (fun t => t.b0 == ⟨0, 0⟩ && t.b1 == ⟨0, 0⟩ && t.b2 == ⟨1, 1⟩ && t.sink == []) = true := by decide +kernel
-- E1, third row; E2
theorem test_che_sym : ends (exec (.cheSym .ct0 5) { withB0 0x4E 7 with ct0 := slotOf [4, 4, 3, 3, 3, 1] })
    (fun t => t.sink == [0x9C] && t.b0 == ⟨0, 0⟩ && t.b1 == ⟨0, 1⟩) = true := by decide +kernel
theorem test_che_sym_late : ends (exec (.cheSym .ct3 1) { withB0 0x1FF 9 with ct3 := slotOf [64, 64] })
    (fun t => t.sink == [0xFF] && t.faulted && t.err == 2) = true := by decide +kernel
-- E3, E6
theorem test_che_block : ends (exec (.cheBlock true 0x200 4) (cells 0x200 [66, 1, 66, 0] r))
    (fun t => t.sink == [0x01, 0x95] ++ List.replicate 15 0x55 ++ [0x4A] ++ List.replicate 47 0xAA ++ [0x4C, 0x60] &&
      t.b0 == ⟨0, 0⟩ && t.b1 == ⟨3, 2⟩ && t.sinkCnt == 67) = true := by decide +kernel
theorem test_che_block_empty : endsEarly (exec (.cheBlock false 0 0) r) r .degenerate = true := by decide +kernel
-- R201's example
theorem test_chd_rst : ends (exec .chdRst { r with b2 := ⟨0, 5⟩, decState := .streamEnd, outCap := 7, ct2 := slotOf [1, 1] })
    (fun t => t.decState == .readingHeaderInfo && t.b2 == ⟨0, 0⟩ && t.outCap == 7 && t.ct2 == slotOf [1, 1]) = true := by
  decide +kernel
-- R202's example
theorem test_chd_setout : ends (exec (.chdSetout 1000 0x4000) { r with outCnt := 3 })
    (fun t => t.outBase == 0x4000 && t.outCap == 1000 && t.outCnt == 0) = true := by decide +kernel
-- D1, bytes 0 and 1
theorem test_chd_push : ends (exec (.chdPush 0x01) r)
    (fun t => t.decState == .readingHeaderInfo && t.b2 == ⟨1, 8⟩) = true := by decide +kernel
theorem test_chd_push_header : ends (exec (.chdPush 0x95) { r with b2 := ⟨1, 8⟩ })
    (fun t => t.decState == .decodingHeader && t.tsize == 3 && t.hcnt == 4 && t.wlen == 1 && t.wval == 1 &&
      t.b2 == ⟨0, 0⟩) = true := by decide +kernel
-- R204's example
theorem test_chd_run : ends (exec .chdRun { r with b2 := ⟨3, 9⟩ })
    (fun t => t.decState == .decodingHeader && t.tsize == 3 && t.b2 == ⟨0, 0⟩ &&
      coded t.ct2 == [(0, 2, 2), (1, 2, 3), (2, 1, 0)]) = true := by decide +kernel
-- EOB delivered, a block counted (R205, R207)
theorem test_chd_run_eob : ends (exec .chdRun { r with
      decState := .decodingBlock, ct3 := slotOf (1 :: List.replicate 255 0 ++ [1]), b2 := ⟨1, 2⟩, outCap := 2, outBase := 8 })
    (fun t => t.decState == .readingHeaderInfo && t.decBlocks == 1 && t.outCnt == 2 && t.data 8 2 == [0, 256]) = true := by
  decide +kernel

/-! ### The block's ports -/

-- P6's end: a fault, then a refused descriptor; STATUS and ERR read as R37 says
theorem test_refused : ends (exec (.bbPulll .b0 4) (withB0 5 3))
    (fun s => s.csrRead 0 == 1 && s.csrRead 1 == 3 && ends (issue 0xFF s) (fun t => t == s) &&
      ends (hostAct .reset s) (fun t => t.csrRead 0 == 0 && t.b0 == ⟨0, 0⟩)) = true := by decide +kernel
theorem test_host_write : ends (hostAct (.memWrite 0xFFFF 7) (cells 0xFFFE [5, 6] r))
    (fun t => t.data 0xFFFE 2 == [5, 7] && t.mem == [(0xFFFE, 5), (0xFFFF, 7)]) = true := by decide +kernel
theorem test_host_read : ends (hostAct (.memRead 0xFFFF) (cells 0xFFFE [5, 6] r))
    (fun t => t.replies == [.cell 6]) = true := by decide +kernel
theorem test_host_drain : ends (hostAct (.drain 2) { r with sink := [1, 2, 3, 4], sinkCnt := 4, drained := 1 })
    (fun t => t.replies == [.bytes [2, 3]] && t.drained == 3 && t.sink == [1, 2, 3, 4]) = true := by decide +kernel
theorem test_fetch_word : ends (step (r.withFetchWord 128 0x00000000000000000000001300005011))
    (fun t => t.b0 == ⟨0x13, 5⟩ && t.pending == []) = true := by decide +kernel
-- R268: FAULTED became 1, so the run has no result, although a reset comes after
theorem test_faulted_run_has_no_result : runResult 2 { r with pending := [.issue 0xFF, .reset] } = none ∧
    (runResult 2 { r with pending := [.reset, .issue 0] }).isSome = true := by decide +kernel
theorem test_step_idle : ends (step r) (fun t => t == r) = true := by decide +kernel

/-! ### Witnesses for the statements' hypotheses -/

theorem reset_unfaulted : r.faulted = false := rfl
theorem reset_meets_invariant : r.Inv := State.Inv.of_check (by decide +kernel)

theorem witness_DecodeOfEncodedCommand : (Instr.bbPushl .b1 64 5).wf = true ∧ (Instr.bbAppf .b3 .b2).wf = true := by decide
theorem witness_DecodeAgreesWithMasks : (0x00040214 : Desc) &&& Opcode.bbPullr.mask = Opcode.bbPullr.matchBits ∧
    (unpack 0x00040214).n.toNat ≤ 64 ∧ decode 0x00040214 = .ok (.bbPullr .b2 64) := by decide
/-- R85 (a) to (f), one each: an unassigned opcode is one below an assigned one, n = 65. -/
theorem witness_IllegalDescriptorRaisesIllegal :
    r.faulted = false ∧ IllegalForm (unpack 0x00400000) ∧ IllegalForm (unpack 0x17) ∧ IllegalForm (unpack 0x410) ∧
    IllegalForm (unpack 0x00000001000000020000000000000060) ∧ IllegalForm (unpack 0x41011) ∧ IllegalForm (unpack 0x516) :=
  ⟨rfl, .inl (by decide), .inr (.inl fun o => by cases o <;> decide),
    .inr (.inr ⟨.bbClr, by decide, .inl (.inr (.inr (.inl (by decide))))⟩),
    .inr (.inr ⟨.htbBuild, by decide, .inl (.inr (.inr (.inr (.inr (.inr (.inr (.inr (.inr (by decide)))))))))⟩),
    .inr (.inr ⟨.bbPushl, by decide, .inr (.inl (by decide))⟩),
    .inr (.inr ⟨.bbAppf, by decide, .inr (.inr (by decide))⟩)⟩
theorem witness_LegalDescriptor : ¬ IllegalForm (unpack 0x40011) := by
  rintro (h | h | ⟨o, ho, h⟩)
  · exact absurd h (by decide)
  · exact h .bbPushl (by decide)
  · have hp : o = .bbPushl := by revert ho; cases o <;> decide
    subst hp
    rcases h with h | h | h
    · exact absurd h (by unfold StrayBits; decide)
    · exact absurd h (by decide)
    · exact absurd h.1 (by decide)

/-- A stray bit for every operation: bit 22 is reserved. -/
theorem witness_StrayRaisesIllegal (o : Opcode) :
    ∃ d : Desc, (unpack d).op = o.code ∧ StrayBits o (unpack d) :=
  ⟨o.matchBits ||| 0x400000, by cases o <;> decide, .inl (by cases o <;> decide)⟩

theorem witness_StepRunsDecodedCommand :
    (r.withFetchWord 128 0x83).pending = .issue 0x83 :: [] ∧ decode 0x83 = .ok .chdRun ∧
    (r.withFetchWord 128 0x84).pending = .issue 0x84 :: [] ∧ decode 0x84 = .error .unassignedOpcode ∧
    (Instr.chdPush 7).wf = true ∧ r.pending = [] := by decide +kernel

/-- The reset state after a fault. -/
def f : State := r.faultedBy .underflow

theorem witness_FaultedBlockRefusesDescriptors :
    f.faulted = true ∧ HostAction.drain 1 ≠ .reset ∧ ∃ t, hostAct (.drain 1) f = .next t :=
  ⟨rfl, by decide, _, rfl⟩
theorem witness_ResetInputRestoresResetValues :
    HostAction.drain 1 ≠ .reset ∧ f.faulted = true ∧ ∃ t, hostAct (.drain 1) f = .next t := ⟨by decide, rfl, _, rfl⟩
theorem witness_ResetStateMeetsInvariant : Config.t0.wf := by decide +kernel
theorem witness_StepKeepsInvariant : (r.withFetchWord 128 0x5011).Inv ∧ ∃ t, step (r.withFetchWord 128 0x5011) = .next t :=
  ⟨State.Inv.of_check (by decide +kernel), (exists_of_ends (p := fun _ => true) (by decide +kernel)).imp fun _ h => h.1⟩
theorem witness_SinkOnlyGrows : HostAction.issue 0x15 ≠ .reset ∧
    ∃ t, hostAct (.issue 0x15) (withB0 0xABCD 16) = .next t ∧ (t.sink == [0xAB, 0xCD]) = true :=
  ⟨by decide, exists_of_ends (by decide +kernel)⟩
theorem witness_FaultEndsTheRun : HostAction.reset ∉ (r.withFetchWord 128 0x5011).pending ∧
    SafeRun 2 (r.withFetchWord 128 0x5011) ∧ f.faulted = true ∧ HostAction.reset ∉ f.pending ∧
    (∃ t, core.run 2 (r.withFetchWord 128 0x5011) = .next t ∧ (!t.faulted) = true) ∧
    (∃ t, core.run 3 f = .next t) ∧ (∃ t, core.run 1 (r.withFetchWord 128 0xFF) = .next t ∧ t.faulted = true) :=
  ⟨by decide +kernel, Option.isSome_iff_exists.1 (by decide +kernel), rfl, by decide,
    exists_of_ends (o := core.run 2 (r.withFetchWord 128 0x5011)) (by decide +kernel), ⟨f, rfl⟩,
    exists_of_ends (o := core.run 1 (r.withFetchWord 128 0xFF)) (by decide +kernel)⟩
theorem witness_HostTouchesOneCell : r.mem.wf ∧ (0xFFFF : Word).toNat < r.cfg.memWords ∧
    r.cfg.memWords ≤ (0x10000 : Word).toNat := by decide +kernel
theorem witness_HostDrainsInOrder : ({ r with sink := [1, 2] : State }).drained ≤
    ({ r with sink := [1, 2] : State }).sink.length := by decide +kernel
theorem witness_CsrMap : r.Inv ∧ BufReg.b3.bits.toNat = 3 := ⟨reset_meets_invariant, by decide⟩

/-- A state the frames speak about: cells, a slot, bits in b0 and b2, an output region. -/
def g : State := { cells 0 [66, 1, 66, 0, 5, 9] (withB0 5 3) with
  ct0 := slotOf [1, 0, 2, 2], ct3 := slotOf [1, 0, 2, 2], decState := .decodingBlock, b2 := ⟨2, 2⟩, outBase := 0xFFFE, outCap := 2 }

theorem g_meets_invariant : g.Inv := State.Inv.of_check (by decide +kernel)

theorem witness_CommandsWriteOnlyTheirRegisters : g.faulted = false ∧
    ∃ t, exec .chdRun g = .next t ∧ (!t.faulted && t.outCnt == 1) = true :=
  ⟨rfl, exists_of_ends (by decide +kernel)⟩
theorem witness_CommandsWriteOnlyTheirCells : g.Inv ∧ g.faulted = false ∧
    ∃ t, exec (.mtfeDump 0xFF00) g = .next t ∧ (!t.faulted) = true :=
  ⟨g_meets_invariant, rfl, exists_of_ends (by decide +kernel)⟩
theorem witness_FaultedCommandsKeepOtherCells : g.Inv ∧
    ∃ t, exec .chdRun { g with outCnt := 2 } = .next t ∧ t.faulted = true :=
  ⟨g_meets_invariant, exists_of_ends (by decide +kernel)⟩
theorem witness_FaultsAreEarlyOrLate : ({ g with outCnt := 2 : State }).Inv ∧ g.faulted = false ∧
    ∃ t, exec .chdRun { g with outCnt := 2 } = .next t ∧ t.faulted = true :=
  ⟨State.Inv.of_check (by decide +kernel), rfl, exists_of_ends (by decide +kernel)⟩
theorem witness_EveryCommandEnds : g.Inv := g_meets_invariant

theorem witness_RegionFaults :
    Instr.srcDst (.mtfeRun 0xFFFE 4 0) = some (0xFFFE, 4, 0) ∧ g.faulted = false ∧
    g.cfg.memWords < (0xFFFE : Word).toNat + (4 : Word).toNat ∧
    Instr.srcDst (.bwtFwd 0 4 3) = some (0, 4, 3) ∧ Overlap (0 : Word).toNat (4 : Word).toNat (3 : Word).toNat (4 : Word).toNat ∧
    (3 : Word).toNat + (4 : Word).toNat ≤ g.cfg.memWords ∧
    ¬ (Instr.runsInPlace (.bwtFwd 0 4 0) = true ∧ (0 : Word) = 0) := by
  unfold Overlap; decide +kernel
theorem witness_CellAboveByteRaisesRange : (cells 0 [65, 256] r).faulted = false ∧
    (0 : Word).toNat + (2 : Word).toNat ≤ (cells 0 [65, 256] r).cfg.memWords ∧
    (∃ x ∈ (cells 0 [65, 256] r).data (0 : Word).toNat (2 : Word).toNat, 255 < x) ∧
    ¬ Overlap (0 : Word).toNat (2 : Word).toNat (2 : Word).toNat (2 : Word).toNat := by
  unfold Overlap; decide +kernel
theorem witness_ZeroLengthCommands : r.faulted = false ∧ r.mem.wf ∧
    Instr.srcDst (.saBuild 0x10000 0 0x10000) = some (0x10000, 0, 0x10000) ∧
    (0x10000 : Word).toNat ≤ r.cfg.memWords := by decide +kernel
theorem witness_SessionCommands : r.faulted = false ∧ f.faulted = true := ⟨rfl, rfl⟩
theorem witness_ClearEmptiesOneRegister : (withB0 5 3).faulted = false := rfl

/-- len + n = 64 and 65, n = 64 and 65, and a stray bit. -/
theorem witness_PushCommands : (withB0 0x123456789ABCDEF 60).faulted = false ∧
    ((withB0 0x123456789ABCDEF 60).getBuf .b0).wf ∧
    ((withB0 0x123456789ABCDEF 60).getBuf .b0).len + (4 : BitVec 7).toNat ≤ 64 ∧ (4 : BitVec 7).toNat ≤ 64 ∧
    64 < ((withB0 0x123456789ABCDEF 60).getBuf .b0).len + (5 : BitVec 7).toNat ∧ 64 < (65 : BitVec 7).toNat ∧
    (r.getBuf .b0).len + (64 : BitVec 7).toNat ≤ 64 ∧
    (unpack 0x411).op = Opcode.bbPushl.code ∧ StrayBits .bbPushl (unpack 0x411) := by
  unfold StrayBits; decide +kernel
theorem witness_PullCommands : (withB0 5 3).faulted = false ∧ ((withB0 5 3).getBuf .b0).wf ∧
    (3 : BitVec 7).toNat ≤ ((withB0 5 3).getBuf .b0).len ∧ ((withB0 5 3).getBuf .b0).len < (4 : BitVec 7).toNat ∧
    64 < (65 : BitVec 7).toNat ∧ (unpack 0x80013).op = Opcode.bbPulll.code ∧ StrayBits .bbPulll (unpack 0x80013) := by
  unfold StrayBits; decide +kernel
theorem witness_FlushCommand : (withB0 0x2B5 10).faulted = false ∧ ((withB0 0x2B5 10).getBuf .b0).wf := by decide +kernel
/-- len mod 8 + other = 64 and 65. -/
theorem witness_AppendAndFlushCommand :
    ({ withB0 0x7F 7 with b1 := ⟨1, 57⟩ : State }).faulted = false ∧
    (∀ i, (({ withB0 0x7F 7 with b1 := ⟨1, 57⟩ : State }).getBuf i).wf) ∧
    7 % 8 + (({ withB0 0x7F 7 with b1 := ⟨1, 57⟩ : State }).getBuf .b1).len ≤ 64 ∧
    (∀ i, (({ withB0 0x7FFF 15 with b1 := ⟨1, 58⟩ : State }).getBuf i).wf) ∧
    64 < 15 % 8 + (({ withB0 0x7FFF 15 with b1 := ⟨1, 58⟩ : State }).getBuf .b1).len ∧
    (unpack 0x1516).op = 0x16 ∧ StrayBits .bbAppf (unpack 0x1516) :=
  ⟨rfl, fun i => by cases i <;> decide +kernel, by decide, fun i => by cases i <;> decide +kernel, by decide, by decide,
    by unfold StrayBits; decide⟩
theorem witness_PushThenPullReturnsField : (withB0 5 3).faulted = false ∧ ((withB0 5 3).getBuf .b0).wf ∧
    ((withB0 5 3).getBuf .b0).len + (61 : BitVec 7).toNat ≤ 64 ∧ (r.getBuf .b0).len = 0 ∧
    (∃ t, exec (.bbPushl .b0 61 7) (withB0 5 3) = .next t) := ⟨rfl, by decide +kernel, by decide, rfl, _, rfl⟩

/-- The spec's example string of 41_suffix_array R132, in memory. -/
def w : State := cells 0 [2, 1, 3, 1, 3, 1, 0] r

theorem w_sentinel : SentinelString (w.data (0 : Word).toNat (7 : Word).toNat) := sentinelOk_iff.1 (by decide +kernel)
theorem w_regions : w.faulted = false ∧ w.mem.wf ∧ (0 : Word).toNat + (7 : Word).toNat ≤ w.cfg.memWords ∧
    (7 : Word).toNat + (7 : Word).toNat ≤ w.cfg.memWords ∧ (14 : Word).toNat + (7 : Word).toNat ≤ w.cfg.memWords ∧
    ¬ Overlap (0 : Word).toNat (7 : Word).toNat (7 : Word).toNat (7 : Word).toNat ∧
    ¬ Overlap (7 : Word).toNat (7 : Word).toNat (14 : Word).toNat (7 : Word).toNat ∧
    (∀ x ∈ w.data (0 : Word).toNat (7 : Word).toNat, x ≤ 255) := by unfold Overlap; decide +kernel
theorem witness_SaBuildWritesSuffixArray : w.faulted = false ∧ w.mem.wf ∧
    SentinelString (w.data (0 : Word).toNat (7 : Word).toNat) := ⟨rfl, by decide +kernel, w_sentinel⟩
/-- No 0, a 0 before the end, and for the inverse no 0. -/
theorem witness_BrokenPreconditionWritesOnlyItsCells :
    ¬ SentinelString ((cells 0 [1, 2, 3] r).data (0 : Word).toNat (3 : Word).toNat) ∧
    ¬ SentinelString ((cells 0 [0, 1, 0] r).data (0 : Word).toNat (3 : Word).toNat) ∧
    ((cells 0 [1, 2, 3] r).data (0 : Word).toNat (3 : Word).toNat).count 0 ≠ 1 ∧
    (∀ x ∈ (cells 0 [1, 2, 3] r).data (0 : Word).toNat (3 : Word).toNat, x ≤ 255) ∧
    (cells 0 [1, 2, 3] r).faulted = false ∧ (cells 0 [1, 2, 3] r).mem.wf ∧
    ¬ Overlap (0 : Word).toNat (3 : Word).toNat (3 : Word).toNat (3 : Word).toNat :=
  ⟨fun h => absurd (sentinelOk_iff.2 h) (by decide +kernel), fun h => absurd (sentinelOk_iff.2 h) (by decide +kernel),
    by decide +kernel, by decide +kernel, rfl, by decide +kernel, by unfold Overlap; decide⟩
theorem witness_SuffixTypesMatchOrder : SentinelString [2, 1, 3, 1, 3, 1, 0] ∧ SentinelString [0] :=
  ⟨sentinelOk_iff.1 (by decide), sentinelOk_iff.1 (by decide)⟩
theorem witness_SaisAgreesWithResultLayer : SentinelString [2, 2, 1, 0] := sentinelOk_iff.1 (by decide)
theorem witness_BwtForwardOutput : w.faulted = false ∧ (∀ x ∈ w.data (0 : Word).toNat (7 : Word).toNat, x ≤ 255) ∧
    SentinelString (w.data (0 : Word).toNat (7 : Word).toNat) ∧
    ¬ Overlap (0 : Word).toNat (7 : Word).toNat (7 : Word).toNat (7 : Word).toNat :=
  ⟨rfl, w_regions.2.2.2.2.2.2.2, w_sentinel, w_regions.2.2.2.2.2.1⟩
theorem witness_BwtInverseOutput : (w.data (0 : Word).toNat (7 : Word).toNat).count 0 = 1 ∧
    (∀ x ∈ w.data (0 : Word).toNat (7 : Word).toNat, x ≤ 255) ∧ w.faulted = false ∧ w.mem.wf ∧
    ¬ Overlap (0 : Word).toNat (7 : Word).toNat (7 : Word).toNat (7 : Word).toNat :=
  ⟨by decide +kernel, w_regions.2.2.2.2.2.2.2, rfl, by decide +kernel, w_regions.2.2.2.2.2.1⟩
theorem witness_BwtInverseUndoesForward : w.faulted = false ∧ w.mem.wf ∧
    SentinelString (w.data (0 : Word).toNat (7 : Word).toNat) ∧
    ¬ Overlap (0 : Word).toNat (7 : Word).toNat (7 : Word).toNat (7 : Word).toNat ∧
    ¬ Overlap (7 : Word).toNat (7 : Word).toNat (14 : Word).toNat (7 : Word).toNat :=
  ⟨rfl, by decide +kernel, w_sentinel, w_regions.2.2.2.2.2.1, w_regions.2.2.2.2.2.2.1⟩
theorem witness_MtfRuns : w.faulted = false ∧ w.mem.wf ∧ MtfTable.wf w.te ∧ MtfTable.wf w.td ∧ w.td = w.te ∧
    (0 : Word) = 0 ∧ (∀ x ∈ w.data (0 : Word).toNat (7 : Word).toNat, x ≤ 255) ∧
    (0 : Word).toNat + (7 : Word).toNat ≤ w.cfg.memWords := by decide +kernel
theorem witness_MtfDumpWritesTable : r.faulted = false ∧ r.mem.wf ∧ MtfTable.wf r.te ∧ MtfTable.wf r.td ∧
    (0xFF00 : Word).toNat + 256 ≤ r.cfg.memWords ∧ r.cfg.memWords < (0xFF01 : Word).toNat + 256 := by decide +kernel

theorem witness_HuffmanLengths : ([5, 9, 12, 13, 16, 45] : List Nat).length ≤ 258 ∧
    (∃ lens, huffBuild [5, 9, 12, 13, 16, 45] = some lens) ∧ huffBuild [0, 5] = none :=
  ⟨by decide, Option.isSome_iff_exists.1 (by decide +kernel), by decide +kernel⟩
theorem witness_HuffmanLengthsAreOptimal : (∃ lens, huffBuild [1, 1] = some lens ∧
    (decide (lens.length = 258 ∧ (∀ l ∈ lens, l ≤ 1) ∧ kraftAt 1 lens ≤ 2 ^ 1)) = true) := by
  obtain ⟨l, hl⟩ := Option.isSome_iff_exists.1 (show (huffBuild [1, 1]).isSome = true by decide +kernel)
  refine ⟨l, hl, ?_⟩
  have : (huffBuild [1, 1]).all (fun l => decide (l.length = 258 ∧ (∀ x ∈ l, x ≤ 1) ∧ kraftAt 1 l ≤ 2 ^ 1)) = true := by
    decide +kernel
  rw [hl] at this
  exact this
theorem witness_CanonicalAssignment : CanonNext [1, 0, 2, 2] 2 3 ∧ (∀ l ∈ [1, 0, 2, 2], l ≤ 2) ∧
    kraftAt 2 [1, 0, 2, 2] ≤ 2 ^ 2 ∧ ∀ z, 0 < [1, 0, 2, 2].getD z 0 → ¬ CanonBefore [1, 0, 2, 2] z 0 := by
  refine ⟨⟨by decide, by decide, .inr ⟨by decide, by decide⟩, fun z _ h => ?_⟩, by decide, by decide, fun z hz h => ?_⟩
  · rcases h.1 with h1 | h1 <;> rcases h.2 with h2 | h2 <;> simp only [show [1, 0, 2, 2].getD 2 0 = 2 from rfl,
      show [1, 0, 2, 2].getD 3 0 = 2 from rfl] at h1 h2 <;> omega
  · rcases h with h | h <;> simp only [show [1, 0, 2, 2].getD 0 0 = 1 from rfl] at h <;> omega
theorem slot_canonical : (slotOf [1, 0, 2, 2]).Canonical := CodeTable.Canonical.of_check (by decide +kernel)
theorem slot_codes (x : Nat) : ((slotOf [1, 0, 2, 2]).codeOf x).toNat ≠ 1 := by
  have hc : ∀ c ∈ (slotOf [1, 0, 2, 2]).code, c.toNat ≠ 1 := by
    have : ((slotOf [1, 0, 2, 2]).code.all (fun c => c.toNat != 1)) = true := by decide +kernel
    simpa using this
  generalize slotOf [1, 0, 2, 2] = t at hc
  exact t.codeOf_cases (p := fun c => c.toNat ≠ 1) (by decide) hc x
theorem witness_FullTreeHasNoDeadEnd : (slotOf [1, 0, 2, 2]).Canonical ∧ kraftAt 64 (slotOf [1, 0, 2, 2]).len = 2 ^ 64 ∧
    (slotOf [1, 0, 2, 2]).TreeNode 1 1 ∧ ∀ x, ¬ (slotOf [1, 0, 2, 2]).TreeLeaf x 1 1 :=
  ⟨slot_canonical, by decide +kernel, ⟨2, by decide +kernel⟩, fun x h => slot_codes x h.2.2⟩
theorem exists_of_option {o : Option (List Nat)} {p : List Nat → Bool}
    (h : (match o with | some l => p l | none => false) = true) : ∃ l, o = some l ∧ p l = true := by
  cases o with
  | some l => exact ⟨l, rfl, h⟩
  | none => cases h
/-- K = 258 and 259. The last clause: 66 weights, the first two equal and each later one twice the one before, give a length
of 65. -/
theorem witness_HtbBuildOutcome : (cells 0 [5, 9, 12] r).faulted = false ∧ 1 ≤ (3 : Word).toNat ∧
    (258 : Word).toNat ≤ 258 ∧ 258 < (259 : Word).toNat ∧ r.cfg.memWords < (0xFF00 : Word).toNat + (258 : Word).toNat ∧
    ((cells 0 [0, 9] r).data (0 : Word).toNat (2 : Word).toNat).countP (fun x => 0 < x) < 2 ∧
    (∃ lens, huffBuild ((cells 0 [5, 9, 12] r).data (0 : Word).toNat (3 : Word).toNat) = some lens ∧
      (lens.all (fun l => l ≤ 64)) = true) ∧
    (1 :: (List.range 65).map (fun i => 2 ^ i)).length ≤ 258 ∧
    (∃ lens, huffBuild (1 :: (List.range 65).map (fun i => 2 ^ i)) = some lens ∧ (lens.any (fun l => 64 < l)) = true) :=
  ⟨rfl, by decide, by decide, by decide, by decide +kernel, by decide +kernel, exists_of_option (by decide +kernel),
    by decide, exists_of_option (by decide +kernel)⟩
theorem witness_HtbPriorOutcome : r.faulted = false ∧ r.cfg.wf ∧ 2 ≤ (2 : Word).toNat ∧ (65 : Word).toNat ≤ 65 ∧
    (1 : Word).toNat < 2 ∧ 65 < (66 : Word).toNat := by decide +kernel
theorem witness_HtbCanonOutcome :
    (∃ l ∈ (cells 0 [65] r).data (0 : Word).toNat (1 : Word).toNat, 64 < l) ∧
    (∀ l ∈ (cells 0 [1, 1, 64] r).data (0 : Word).toNat (3 : Word).toNat, l ≤ 64) ∧
    2 ^ 64 < kraftAt 64 ((cells 0 [1, 1, 64] r).data (0 : Word).toNat (3 : Word).toNat) ∧
    (∀ l ∈ (cells 0 [1, 2, 2] r).data (0 : Word).toNat (3 : Word).toNat, l ≤ 64) ∧
    kraftAt 64 ((cells 0 [1, 2, 2] r).data (0 : Word).toNat (3 : Word).toNat) ≤ 2 ^ 64 := by decide +kernel
theorem witness_HtbStoreWritesSlot : g.faulted = false ∧ g.mem.wf ∧ (g.getSlot .ct0).shape ∧
    (0xFCFA : Word).toNat + 774 ≤ g.cfg.memWords ∧ g.cfg.memWords < (0xFCFB : Word).toNat + 774 := by decide +kernel
theorem witness_CanonicalTableRebuilds : (cells 0 [5, 9, 12] r).Inv ∧
    ∃ s1, exec (.htbBuild .ct2 0 3) (cells 0 [5, 9, 12] r) = .next s1 ∧ (!s1.faulted &&
      ends (exec (.htbStore .ct2 0x400) s1) (fun s2 => !s2.faulted &&
        ends (exec (.htbCanon .ct3 0x400 258) s2) (fun _ => true))) = true :=
  ⟨State.Inv.of_check (by decide +kernel), exists_of_ends (by decide +kernel)⟩

/-- Code lengths that leave (b0.len mod 8) + L at 64 and at 65, and an absent symbol. -/
def e : State := { withB0 0x7F 7 with ct1 := slotOf [57, 58] }

theorem witness_CheSymOutcome : e.Inv ∧ e.faulted = false ∧ e.b0.len % 8 + (e.getSlot .ct1).lenOf (0 : Word).toNat = 64 ∧
    e.b0.len % 8 + (e.getSlot .ct1).lenOf (1 : Word).toNat = 65 ∧ (e.getSlot .ct1).lenOf (2 : Word).toNat = 0 ∧
    257 < (258 : Word).toNat := ⟨State.Inv.of_check (by decide +kernel), by decide +kernel⟩
/-- The final block 66, 1, 66, 0 (E3): its frequencies with EOS, and its data table, lengths 2 for 0, 1, 66 and 257. -/
def blockW : List Nat := [1, 1] ++ List.replicate 64 0 ++ [2] ++ List.replicate 190 0 ++ [1]
def blockData : CodeTable := slotOf ([2, 2] ++ List.replicate 64 0 ++ [2] ++ List.replicate 190 0 ++ [2])

theorem witness_CheBlockWritesWireFormat : g.Inv ∧ g.faulted = false ∧
    (0 : Word).toNat + (4 : Word).toNat ≤ g.cfg.memWords ∧ 0 < (4 : Word).toNat ∧
    (∀ x ∈ g.data (0 : Word).toNat (4 : Word).toNat, x ≤ 255) ∧
    blockW.length = 258 ∧
    (∀ x, x < 258 → blockW.getD x 0 = (g.data (0 : Word).toNat (4 : Word).toNat ++ [257]).count x) ∧
    huffBuild blockW = some blockData.len ∧ blockData.Canonical ∧ (∀ l ∈ blockData.len, l ≤ 57) ∧
    (∃ l ∈ blockData.len, 3 = 1 + l) ∧ (∀ l ∈ blockData.len, 1 + l ≤ 3) ∧
    huffBuild ((List.range 3).map (fun l => if l < g.cfg.hdrPrior.length then g.cfg.hdrPrior.getD l 0 else 1)) =
      some (slotOf [2, 2, 1]).len ∧ (slotOf [2, 2, 1]).Canonical ∧ (∀ l ∈ (slotOf [2, 2, 1]).len, l ≤ 57) :=
  ⟨g_meets_invariant, rfl, by decide +kernel, by decide, by decide +kernel, by decide +kernel, by decide +kernel,
    by decide +kernel, CodeTable.Canonical.of_check (by decide +kernel), by decide +kernel, by decide +kernel,
    by decide +kernel, by decide +kernel, CodeTable.Canonical.of_check (by decide +kernel), by decide +kernel⟩

theorem witness_SetoutNamesRegion : r.faulted = false ∧ (0xFFFF : Word).toNat + (1 : Word).toNat ≤ r.cfg.memWords ∧
    r.cfg.memWords < (0xFFFF : Word).toNat + (2 : Word).toNat := by decide +kernel
/-- 255 and 256; 56 and 57 bits in b2; STREAM_END. -/
theorem witness_ChdPushIsAppendThenRun : ({ g with b2 := ⟨0, 56⟩ : State }).Inv ∧ ({ g with b2 := ⟨0, 57⟩ : State }).Inv ∧
    ({ g with decState := .streamEnd : State }).Inv ∧ r.Inv ∧ (255 : Word).toNat ≤ 255 ∧ 255 < (256 : Word).toNat ∧
    g.faulted = false ∧ g.decState ≠ .streamEnd ∧ r.decState = .readingHeaderInfo ∧ r.b2.len = 0 :=
  ⟨State.Inv.of_check (by decide +kernel), State.Inv.of_check (by decide +kernel), State.Inv.of_check (by decide +kernel),
    reset_meets_invariant, by decide +kernel⟩
/-- In mid-walk: CT3 codes 0 as 0, 256 as 10 and 257 as 11, and the bit 1 has been taken or is in b2. -/
def walkTable : CodeTable := slotOf (1 :: List.replicate 255 0 ++ [2, 2])
def inWalk (bits : BitBuf) : State := { g with ct3 := walkTable, wlen := 1, wval := 1, b2 := bits }

/-- R206: the bit 1 is a node and no leaf, so the walk stops there; the next bit goes on from it. -/
theorem test_walk_is_kept : ends (exec .chdRun { inWalk ⟨1, 1⟩ with wlen := 0, wval := 0 })
    (fun t => t == inWalk ⟨0, 0⟩) = true ∧
    ends (exec .chdRun (inWalk ⟨1, 1⟩)) (fun t => t.data 0xFFFE 1 == [257] && t.wlen == 0 && t.wval == 0 &&
      t.decState == .streamEnd) = true := by decide +kernel

theorem walkTable_codes (x : Nat) : walkTable.lenOf x = 1 → (walkTable.codeOf x).toNat = 0 := by
  by_cases hx : x < 258
  · exact (show ∀ x, x < 258 → walkTable.lenOf x = 1 → (walkTable.codeOf x).toNat = 0 by decide +kernel) x hx
  · have : walkTable.len.length = 258 := by decide +kernel
    simp [CodeTable.lenOf, List.getD_eq_getElem?_getD, this, Nat.le_of_not_lt hx]

theorem witness_DecoderStops_walk : (∀ b ∈ [(⟨1, 1⟩ : BitBuf), ⟨0, 0⟩], (inWalk b).Inv) ∧
    ({ inWalk ⟨1, 1⟩ with wlen := 0, wval := 0 } : State).Inv ∧ (inWalk ⟨0, 0⟩).decState = .decodingBlock ∧
    bitsMS 0 0 ++ (⟨1, 1⟩ : BitBuf).bits = bitsMS 1 1 ∧ bitsMS 1 1 ++ (⟨0, 0⟩ : BitBuf).bits = bitsMS 1 1 ∧
    walkTable.TreeNode 1 1 ∧ ∀ x, ¬ walkTable.TreeLeaf x 1 1 :=
  ⟨by intro b hb; simp only [List.mem_cons, List.not_mem_nil, or_false] at hb
      rcases hb with rfl | rfl <;> exact State.Inv.of_check (by decide +kernel),
    State.Inv.of_check (by decide +kernel), rfl, by decide +kernel, by decide +kernel, ⟨256, by decide +kernel⟩,
    fun x hx => by have := walkTable_codes x hx.2.1; have := hx.2.2; omega⟩
theorem witness_DecoderStops : g.Inv ∧ g.faulted = false ∧
    (∃ t, exec .chdRun g = .next t ∧ (!t.faulted) = true) ∧
    r.Inv ∧ exec .chdRun r = .next r ∧ r.decState ≠ .streamEnd ∧
    ∃ t, exec (.chdPush 0xFF) r = .next t ∧ (!t.faulted) = true :=
  ⟨g_meets_invariant, rfl, exists_of_ends (by decide +kernel), reset_meets_invariant, rfl, by decide +kernel,
    exists_of_ends (by decide +kernel)⟩
/-- The smallest and the largest table size, with bits after it and without. -/
theorem witness_DecoderReadsTableSize : ({ r with b2 := ⟨3, 9⟩ : State }).Inv ∧
    ({ r with b2 := ⟨3, 9⟩ : State }).decState = .readingHeaderInfo ∧
    ({ r with b2 := ⟨3, 9⟩ : State }).b2.bits = bitsMS 3 9 ++ (⟨0, 0⟩ : BitBuf).bits ∧
    ({ r with b2 := ⟨0x83, 10⟩ : State }).Inv ∧ (⟨1, 1⟩ : BitBuf).wf ∧
    ({ r with b2 := ⟨0x83, 10⟩ : State }).b2.bits = bitsMS 65 9 ++ (⟨1, 1⟩ : BitBuf).bits :=
  ⟨State.Inv.of_check (by decide +kernel), by decide +kernel, by decide +kernel, State.Inv.of_check (by decide +kernel),
    by decide +kernel, by decide +kernel⟩

/-- A decoder in its header, with one code in b2. -/
def h (n : Nat) : State := { r with
  decState := .decodingHeader, ct2 := slotOf [2, 2, 1], b2 := ⟨0, 1⟩, hcnt := n, hlen := List.replicate 257 0 ++ [5] }

theorem witness_DecoderReadsLength : (h 0).Inv ∧ (h 257).Inv ∧ (h 0).faulted = false ∧ (h 0).wlen = 0 ∧
    [false] ≠ [] ∧ bitsMS (h 0).wval.toNat (h 0).wlen ++ [false] = (h 0).ct2.codeBits 2 ∧
    (h 0).b2.bits = [false] ++ (⟨0, 0⟩ : BitBuf).bits ∧
    (∀ l ∈ (h 257).hlen.set 257 2, l ≤ 64) ∧ kraftAt 64 ((h 257).hlen.set 257 2) ≤ 2 ^ 64 :=
  ⟨State.Inv.of_check (by decide +kernel), State.Inv.of_check (by decide +kernel), by decide +kernel⟩
/-- A symbol from the root; EOB and EOS from a walk that has taken one bit. -/
theorem witness_DecoderDeliversSymbol : g.Inv ∧ g.faulted = false ∧ g.decState = .decodingBlock ∧
    bitsMS g.wval.toNat g.wlen ++ [true, false] = g.ct3.codeBits 2 ∧
    g.b2.bits = [true, false] ++ (⟨0, 0⟩ : BitBuf).bits ∧ g.outCnt.toNat < g.outCap.toNat :=
  ⟨g_meets_invariant, by decide +kernel⟩
theorem witness_DecoderDeliversSymbol_eob : (inWalk ⟨0, 1⟩).Inv ∧
    bitsMS (inWalk ⟨0, 1⟩).wval.toNat (inWalk ⟨0, 1⟩).wlen ++ [false] = (inWalk ⟨0, 1⟩).ct3.codeBits 256 ∧
    (inWalk ⟨0, 1⟩).b2.bits = [false] ++ (⟨0, 0⟩ : BitBuf).bits ∧
    (inWalk ⟨0, 1⟩).outCnt.toNat < (inWalk ⟨0, 1⟩).outCap.toNat :=
  ⟨State.Inv.of_check (by decide +kernel), by decide +kernel⟩
theorem witness_DecoderDeliversSymbol_eos : (inWalk ⟨1, 1⟩).Inv ∧
    bitsMS (inWalk ⟨1, 1⟩).wval.toNat (inWalk ⟨1, 1⟩).wlen ++ [true] = (inWalk ⟨1, 1⟩).ct3.codeBits 257 ∧
    (inWalk ⟨1, 1⟩).b2.bits = [true] ++ (⟨0, 0⟩ : BitBuf).bits :=
  ⟨State.Inv.of_check (by decide +kernel), by decide +kernel⟩
theorem witness_StreamFault : ({ r with b2 := ⟨66, 9⟩ : State }).Inv ∧
    ({ r with b2 := ⟨66, 9⟩ : State }).b2.bits = bitsMS 66 9 ++ (⟨0, 0⟩ : BitBuf).bits ∧
    ({ r with b2 := ⟨1, 9⟩ : State }).Inv ∧
    ({ r with b2 := ⟨1, 9⟩ : State }).b2.bits = bitsMS 1 9 ++ (⟨0, 0⟩ : BitBuf).bits :=
  ⟨State.Inv.of_check (by decide +kernel), by decide +kernel, State.Inv.of_check (by decide +kernel), by decide +kernel⟩
theorem witness_OutfullFault : ({ g with outCnt := 2 : State }).Inv ∧
    ({ g with outCnt := 2 : State }).outCap.toNat ≤ ({ g with outCnt := 2 : State }).outCnt.toNat ∧
    bitsMS ({ g with outCnt := 2 : State }).wval.toNat ({ g with outCnt := 2 : State }).wlen ++ [true, false] =
      ({ g with outCnt := 2 : State }).ct3.codeBits 2 ∧
    ({ g with outCnt := 2 : State }).b2.bits = [true, false] ++ (⟨0, 0⟩ : BitBuf).bits :=
  ⟨State.Inv.of_check (by decide +kernel), by decide +kernel, by decide +kernel⟩
/-- Three lengths of 1: the code space is over-subscribed. -/
def k : State := { h 257 with hlen := [1, 1] ++ List.replicate 256 0, ct2 := slotOf [2, 1, 2], b2 := ⟨0, 1⟩ }

theorem witness_KraftFault : k.Inv ∧ k.hcnt = 257 ∧ bitsMS k.wval.toNat k.wlen ++ [false] = k.ct2.codeBits 1 ∧
    k.b2.bits = [false] ++ (⟨0, 0⟩ : BitBuf).bits ∧ (∀ l ∈ k.hlen.set 257 1, l ≤ 64) ∧
    2 ^ 64 < kraftAt 64 (k.hlen.set 257 1) := ⟨State.Inv.of_check (by decide +kernel), by decide +kernel⟩
/-- A slot with dead ends (H4d, lengths 3, 3) and the bit 1, with which no code begins. -/
def d : State := { g with ct3 := ⟨[3, 3] ++ List.replicate 256 0, [0, 1] ++ List.replicate 256 0⟩, b2 := ⟨1, 1⟩ }

theorem d_codes (x : Nat) : (d.ct3.lenOf x = 0 ∨ d.ct3.lenOf x = 3) ∧ (d.ct3.codeOf x).toNat ≤ 1 := by
  have hl : ∀ l ∈ d.ct3.len, l = 0 ∨ l = 3 := by decide +kernel
  have hc : ∀ c ∈ d.ct3.code, c.toNat ≤ 1 := by
    have : (d.ct3.code.all (fun c => c.toNat ≤ 1)) = true := by decide +kernel
    simpa using this
  generalize d.ct3 = t at hl hc
  exact ⟨t.lenOf_cases (p := fun l => l = 0 ∨ l = 3) (.inl rfl) hl x,
    t.codeOf_cases (p := fun c => c.toNat ≤ 1) (by decide) hc x⟩

theorem witness_TreeFault : d.Inv ∧ d.decState = .decodingBlock ∧ bitsMS d.wval.toNat d.wlen ++ [true] = bitsMS 1 1 ∧
    d.b2.bits = [true] ++ (⟨0, 0⟩ : BitBuf).bits ∧
    ¬ d.ct3.TreeNode 1 1 ∧ ∀ j x, d.wlen < j → j ≤ 1 → ¬ d.ct3.TreeLeaf x j (1 >>> (1 - j)) := by
  refine ⟨State.Inv.of_check (by decide +kernel), rfl, by decide +kernel, by decide +kernel, ?_, ?_⟩
  · rintro ⟨x, h0, -, h2⟩
    obtain ⟨h | h, hc⟩ := d_codes x
    · omega
    · rw [h, Nat.shiftRight_eq_div_pow] at h2
      omega
  · rintro j x hj hj1 ⟨h0, h1, -⟩
    obtain ⟨h | h, -⟩ := d_codes x <;> omega
theorem witness_ChunkingDoesNotMatter : r.Inv ∧ r.faulted = false ∧ exec .chdRun r = .next r ∧
    byteBits [0x01, 0x95] = pieceBits [(9, 3), (7, 0x15)] ∧ ∃ t, feedPieces [(9, 3), (7, 0x15)] r = some t :=
  ⟨reset_meets_invariant, rfl, rfl, by decide +kernel, Option.isSome_iff_exists.1 (by decide +kernel)⟩
theorem witness_StreamRoundTrip : [((0 : Word), (4 : Word)), (1, 2)] ≠ [] ∧ ({ g with b0 := ⟨0, 0⟩ : State }).Inv ∧
    (∃ t, encodeBlocks [(0, 4), (1, 2)] { g with b0 := ⟨0, 0⟩ } = some t) ∧
    ∃ u, exec .chdRst { g with outBase := 0x100, outCap := 8 } = .next u ∧
      (u.outCap == 8 && (deliveredSymbols g [(0, 4), (1, 2)]).length == 8) = true :=
  ⟨by decide, State.Inv.of_check (by decide +kernel), Option.isSome_iff_exists.1 (by decide +kernel),
    exists_of_ends (by decide +kernel)⟩

end Sys2Proof.Tests
end

