-- ==== Sys2Proof/Proofs/Ends.lean ====
section
/-! SUPPORT. A rule of reasoning for the ends of the pseudocode: `e.Ends P Q` says that P holds of the state e ran to, or Q of
the state it had reached when it raised a late fault. One lemma per operation the commands are written with. -/

namespace Sys2Proof.Machine

/-- P of the state the pseudocode ran to, Q of the state it had reached at a late fault. -/
def CmdEnd.Ends (P Q : State → Prop) : CmdEnd → Prop
  | .done t => P t
  | .late _ t => Q t
  | .early _ | .absent => True

theorem Region.inBounds_iff {r : Region} {n : Nat} : r.inBounds n = true ↔ r.base + r.count ≤ n := decide_eq_true_iff

section
variable {P P' Q : State → Prop} {s : State} {e : CmdEnd}

/-- A sequence: an early fault of the second part is late, so the state between the parts must satisfy Q. -/
theorem CmdEnd.Ends.andThen {f : State → CmdEnd} (h : e.Ends P Q) (hQ : ∀ t, P t → Q t)
    (hf : ∀ t, P t → (f t).Ends P' Q) : (e.andThen f).Ends P' Q := by
  cases e with
  | done t =>
    have := hf t h
    rw [CmdEnd.andThen_done]
    cases he : f t with
    | early c => exact hQ t h
    | _ => rw [he] at this; exact this
  | _ => exact h

/-- A check that raises an early fault. -/
theorem ends_guard {c : Prop} [Decidable c] {x : FaultCode} (h : ¬ c → e.Ends P Q) :
    (if c then .early x else e).Ends P Q := by
  split
  case isTrue => trivial
  case isFalse hc => exact h hc

theorem ends_checkRegion {r : Region} (h : r.base + r.count ≤ s.cfg.memWords → e.Ends P Q) :
    (checkRegion s r e).Ends P Q := by
  unfold checkRegion
  split
  case isTrue hr => exact h (Region.inBounds_iff.1 hr)
  case isFalse => trivial

theorem ends_checkSrcDst {p : Bool} {a b c : Word} (h : c.toNat + b.toNat ≤ s.cfg.memWords → e.Ends P Q) :
    (checkSrcDst s p a b c e).Ends P Q :=
  ends_guard fun _ => ends_guard fun hc => ends_guard fun _ => h (Region.inBounds_iff.1 (by simpa using hc))

theorem ends_checkBytes {xs : List Word} (h : e.Ends P Q) : (checkBytes xs e).Ends P Q := ends_guard fun _ => h

theorem ends_checkCount {n : BitVec 7} (h : n.toNat ≤ 64 → e.Ends P Q) : (checkCount n e).Ends P Q := by
  unfold checkCount
  split
  case isTrue hn => exact h (by simpa [countOk] using hn)
  case isFalse => trivial

theorem ends_pushEnd {i : BufReg} {r : Option BitBuf} (h : ∀ b, r = some b → P (s.setBuf i b)) :
    (pushEnd s i r).Ends P Q := by
  cases r with
  | none => trivial
  | some b => exact h b rfl

theorem ends_pullEnd {i : BufReg} {r : Option (Nat × BitBuf)}
    (h : ∀ x b, r = some (x, b) → P { s.setBuf i b with res := BitVec.ofNat 64 x }) : (pullEnd s i r).Ends P Q := by
  cases r with
  | none => trivial
  | some r => exact h r.1 r.2 rfl

theorem ends_storeTable {t : Slot} {r : Except FaultCode CodeTable} (h : ∀ x, r = .ok x → P (s.setSlot t x)) :
    (storeTable s t r).Ends P Q := by
  cases r with
  | error c => trivial
  | ok x => exact h x rfl

end

/-! ### What a part of a command leaves unchanged -/

/-- The end names no state in which `f` of the state has changed; with an `f` that erases some registers, the others are
then unchanged. -/
def CmdEnd.Keeps {α : Type} (f : State → α) (s : State) (e : CmdEnd) : Prop :=
  e.Ends (fun t => f t = f s) (fun t => f t = f s)

section
variable {α : Type} {f : State → α} {s : State} {e : CmdEnd}

theorem CmdEnd.Keeps.after {t : State} (h : e.Keeps f t) (ht : f t = f s) : e.Keeps f s := by
  unfold CmdEnd.Keeps at h ⊢
  rwa [← ht]

theorem CmdEnd.Keeps.andThen {g : State → CmdEnd} (h : e.Keeps f s) (hg : ∀ t, (g t).Keeps f t) :
    (e.andThen g).Keeps f s :=
  CmdEnd.Ends.andThen h (fun _ ht => ht) fun t ht => (hg t).after ht

/-- Flushing, merging and flushing again touch one buffer and SINK (40_bit_buffer R106). -/
theorem keeps_appendAndFlush {i : BufReg} (hb : ∀ s v, f (s.setBuf i v) = f s) (hs : ∀ s bs, f (s.sinkPut bs) = f s)
    (s : State) (o : BitBuf) : (s.appendAndFlush i o).Keeps f s := by
  have hflush (t : State) : f (t.flushBuf i false) = f t := (hs _ _).trans (hb _ _)
  unfold State.appendAndFlush
  dsimp only
  split
  · exact hflush s
  · exact ((hflush _).trans (hb _ _)).trans (hflush s)

end

end Sys2Proof.Machine
end

