-- ==== Sys2Proof/Proofs/RegisterFrame.lean ====
section
/-! PROOF. The register frame of every command (10_state R23, R24, R26, R30, R32 to R36). A state with the registers erased
that a command may write is the same before and after it; the encoder's and the decoder's loops keep it by induction. -/

namespace Sys2Proof.Machine

/-- The state with M and every register erased that command i writes. -/
def State.erase (s : State) (i : Instr) : State :=
  { s with
    b0 := if Instr.writesBuf i .b0 then .empty else s.b0
    b1 := if Instr.writesBuf i .b1 then .empty else s.b1
    b2 := if Instr.writesBuf i .b2 then .empty else s.b2
    b3 := if Instr.writesBuf i .b3 then .empty else s.b3
    res := if Instr.writesRes i then 0 else s.res
    te := if Instr.writesTe i then [] else s.te
    td := if Instr.writesTd i then [] else s.td
    ct0 := if Instr.writesSlot i .ct0 then .empty else s.ct0
    ct1 := if Instr.writesSlot i .ct1 then .empty else s.ct1
    ct2 := if Instr.writesSlot i .ct2 then .empty else s.ct2
    ct3 := if Instr.writesSlot i .ct3 then .empty else s.ct3
    decState := if Instr.writesDecoder i then .readingHeaderInfo else s.decState
    tsize := if Instr.writesDecoder i then 0 else s.tsize
    hcnt := if Instr.writesDecoder i then 0 else s.hcnt
    hlen := if Instr.writesDecoder i then [] else s.hlen
    wlen := if Instr.writesDecoder i then 0 else s.wlen
    wval := if Instr.writesDecoder i then 0 else s.wval
    decBlocks := if Instr.writesDecoder i then 0 else s.decBlocks
    outBase := if Instr.namesOutput i then 0 else s.outBase
    outCap := if Instr.namesOutput i then 0 else s.outCap
    outCnt := if Instr.namesOutput i || Instr.writesDecoder i then 0 else s.outCnt
    sink := if Instr.writesSink i then [] else s.sink
    sinkCnt := if Instr.writesSink i then 0 else s.sinkCnt
    mem := [] }

/-- The states a command's pseudocode names differ from s in registers the command writes. -/
abbrev CmdEnd.Framed (i : Instr) (s : State) (e : CmdEnd) : Prop := e.Keeps (·.erase i) s

section
variable {i : Instr} {s : State}

theorem erase_setBuf {r : BufReg} (h : Instr.writesBuf i r = true) (s : State) (v : BitBuf) :
    (s.setBuf r v).erase i = s.erase i := by
  cases r <;> simp [State.erase, State.setBuf, h]

theorem erase_setSlot {u : Slot} (h : Instr.writesSlot i u = true) (s : State) (v : CodeTable) :
    (s.setSlot u v).erase i = s.erase i := by
  cases u <;> simp [State.erase, State.setSlot, h]

theorem erase_sinkPut (h : Instr.writesSink i = true) (s : State) (bs : List Byte) :
    (s.sinkPut bs).erase i = s.erase i := by
  simp [State.erase, State.sinkPut, h]

theorem framed_appendAndFlush {r : BufReg} (hb : Instr.writesBuf i r = true) (hs : Instr.writesSink i = true)
    (s : State) (o : BitBuf) : (s.appendAndFlush r o).Framed i s :=
  keeps_appendAndFlush (erase_setBuf hb) (erase_sinkPut hs) s o

theorem framed_storeTable {u : Slot} (h : Instr.writesSlot i u = true) (r : Except FaultCode CodeTable) :
    (storeTable s u r).Framed i s := ends_storeTable fun x _ => erase_setSlot h s x

/-! ### The encoder -/

section
variable (h0 : Instr.writesBuf i .b0 = true) (h1 : Instr.writesBuf i .b1 = true) (hs : Instr.writesSink i = true)
include h0 h1 hs

theorem framed_emit (v : Word64) (l : Nat) (s : State) : (emit v l s).Framed i s :=
  (framed_appendAndFlush h0 hs _ _).after (erase_setBuf h1 s ⟨v, l⟩)

theorem framed_encodeSym (t : Slot) (x : Nat) (s : State) : (encodeSym t x s).Framed i s :=
  ends_guard fun _ => framed_emit h0 h1 hs _ _ s

theorem framed_encodeSyms (t : Slot) (xs : List Nat) (s : State) : (encodeSyms t xs s).Framed i s := by
  induction xs generalizing s with
  | nil => exact rfl
  | cons x xs ih => exact (framed_encodeSym h0 h1 hs t x s).andThen ih

theorem framed_encodeBody (hc : Instr.writesSlot i .ct1 = true) (d : List Nat) (f : Bool) (s : State) :
    (encodeBody d f s).Framed i s := by
  refine (framed_emit h0 h1 hs _ _ s).andThen fun t => ?_
  split
  · trivial
  case h_2 h _ =>
    refine CmdEnd.Keeps.andThen ((framed_encodeSyms h0 h1 hs _ _ _).after (erase_setSlot hc t h)) fun t => ?_
    refine (framed_encodeSyms h0 h1 hs _ _ t).andThen fun t => ?_
    split
    · exact (erase_sinkPut hs _ _).trans (erase_setBuf h0 t _)
    · exact rfl

end

/-! ### The decoder: CHD.PUSH and CHD.RUN write the same registers -/

/-- The state a walk ends in differs from s in registers the decoder writes. -/
def Walk.Framed (s : State) : Walk → Prop
  | .symbol _ t | .none t | .deadEnd t => t.erase .chdRun = s.erase .chdRun

theorem erase_stepWalk {s t : State} (h : stepWalk s = some t) : t.erase .chdRun = s.erase .chdRun := by
  unfold stepWalk at h
  split at h
  · cases h
  · cases h; rfl

theorem framed_decodeSym (t : Slot) (k : Nat) (s : State) : (decodeSym t k s).Framed s := by
  induction k generalizing s with
  | zero => exact rfl
  | succ k ih =>
    unfold decodeSym
    split
    · exact rfl
    case h_2 s' h =>
      have h := erase_stepWalk h
      split
      · exact h
      · split
        · have := ih s'
          cases hw : decodeSym t k s' <;> rw [hw] at this <;> exact this.trans h
        · exact h

theorem framed_startHeader (v : Nat) (s : State) : (startHeader v s).Framed .chdRun s := by
  unfold startHeader
  split
  · exact rfl
  · split <;> exact rfl

theorem framed_takeLength (r : Nat) (s : State) : (takeLength r s).Framed .chdRun s := by
  unfold takeLength
  dsimp only
  split
  · split <;> exact rfl
  · exact rfl

theorem framed_outputSym (v : Nat) (s : State) : (outputSym v s).Framed .chdRun s := by
  unfold outputSym
  dsimp only
  split
  · exact rfl
  · split
    · trivial
    · exact rfl

theorem erase_afterSymbol (r : Nat) (s : State) : (afterSymbol r s).erase .chdRun = s.erase .chdRun := by
  unfold afterSymbol
  split
  · rfl
  · split <;> rfl

theorem framed_takeSymbol (r : Nat) (s : State) : (takeSymbol r s).Framed .chdRun s :=
  (framed_outputSym r s).andThen (erase_afterSymbol r)

/-- What a turn leaves, whether Run stops there or goes on. -/
def Turn.Framed (s : State) : Turn → Prop
  | .stop t => t.erase .chdRun = s.erase .chdRun
  | .go e => e.Framed .chdRun s

theorem framed_turnOfWalk {w : Walk} {f : Nat → State → CmdEnd} (h : w.Framed s)
    (hf : ∀ v t, (f v t).Framed .chdRun t) : (turnOfWalk w f).Framed s := by
  cases w with
  | symbol v t => exact (hf v t).after h
  | none t | deadEnd t => exact h

theorem framed_runTurn (s : State) : (runTurn s).Framed s := by
  unfold runTurn
  split
  · exact rfl
  · split
    · exact rfl
    · exact (framed_startHeader _ _).after rfl
  · exact framed_turnOfWalk (framed_decodeSym _ _ s) framed_takeLength
  · exact framed_turnOfWalk (framed_decodeSym _ _ s) framed_takeSymbol

theorem framed_runFuel (k : Nat) (s : State) : (runFuel k s).Framed .chdRun s := by
  induction k generalizing s with
  | zero => exact rfl
  | succ k ih =>
    have h := framed_runTurn s
    unfold runFuel
    split <;> rename_i he <;> rw [he] at h
    · exact h
    · exact (ih _).after h
    · exact h

end

/-! ### A command -/

/-- Every command's pseudocode names only states that differ from s in registers the command writes. -/
theorem framed_bodyOf (i : Instr) (s : State) : (bodyOf i s).Framed i s := by
  cases i with
  | sysNop | mtfeRst | mtfdRst | cheRst | chdRst => exact rfl
  | bbClr bd => exact erase_setBuf (by exact beq_self_eq_true bd) s _
  | bbPushl bd n v | bbPushr bd n v =>
    exact ends_checkCount fun _ => ends_pushEnd fun _ _ => erase_setBuf (by exact beq_self_eq_true bd) s _
  | bbPulll bd n | bbPullr bd n =>
    exact ends_checkCount fun _ => ends_pullEnd fun _ b _ => erase_setBuf (by exact beq_self_eq_true bd) s b
  | bbFlush bd f => exact (erase_sinkPut rfl _ _).trans (erase_setBuf (by exact beq_self_eq_true bd) s _)
  | bbAppf bd bs => exact ends_guard fun _ => framed_appendAndFlush (by exact beq_self_eq_true bd) rfl s _
  | saBuild a b c => exact ends_checkSrcDst fun _ => rfl
  | bwtFwd a b c | bwtInv a b c | mtfeRun a b c | mtfdRun a b c => exact ends_checkSrcDst fun _ => ends_checkBytes rfl
  | mtfeDump c | mtfdDump c | htbStore t c | chdSetout b c => exact ends_checkRegion fun _ => rfl
  | htbBuild t a b | htbCanon t a b =>
    exact ends_guard fun _ => ends_checkRegion fun _ => framed_storeTable (by exact beq_self_eq_true t) _
  | htbPrior t b => exact ends_guard fun _ => framed_storeTable (by exact beq_self_eq_true t) _
  | cheSym t a => exact ends_guard fun _ => framed_encodeSym rfl rfl rfl t _ s
  | cheBlock f a b =>
    refine ends_checkRegion fun _ => ends_checkBytes ?_
    split
    · trivial
    case h_2 t _ =>
      exact CmdEnd.Keeps.andThen (erase_setSlot (i := .cheBlock f a b) (u := .ct0) rfl s t)
        (framed_encodeBody rfl rfl rfl rfl _ f)
  | chdPush a =>
    refine ends_guard fun _ => ?_
    split
    · exact rfl
    · split
      · trivial
      · exact (framed_runFuel _ _).after rfl
  | chdRun => exact framed_runFuel _ s

/-- A command that ends without a fault ran to the end of its pseudocode. -/
theorem bodyOf_eq_done {i : Instr} {s t : State} (h : exec i s = .next t) (hs : s.faulted = false)
    (ht : t.faulted = false) : bodyOf i s = .done t := by
  rw [exec_eq_runCommand] at h
  rcases runCommand_cases h with ⟨hf, -⟩ | ⟨-, he⟩ | ⟨-, c, -, rfl⟩ | ⟨-, c, u, -, rfl⟩
  · rw [hs] at hf; cases hf
  · exact he
  · cases ht
  · rw [lateFault_faulted] at ht; cases ht

theorem exec_erase {i : Instr} {s t : State} (h : exec i s = .next t) (hs : s.faulted = false)
    (ht : t.faulted = false) : t.erase i = s.erase i := by
  have := framed_bodyOf i s
  rw [bodyOf_eq_done h hs ht] at this
  exact this

/-- Settles O15: a register the command does not name as written is not erased, so it is the same in the two states, which
agree once erased. -/
theorem commandsWriteOnlyTheirRegisters : Obligations.CommandsWriteOnlyTheirRegisters := by
  unfold Obligations.CommandsWriteOnlyTheirRegisters
  intro i s t h hs ht
  have he := exec_erase h hs ht
  simp only [State.erase, State.mk.injEq, Regs.mk.injEq] at he
  obtain ⟨⟨b0, b1, b2, b3, res, te, td, c0, c1, c2, c3, ds, tsize, hcnt, hlen, wlen, wval, ob, oc, on, db⟩, -, err, sink,
    sinkCnt, -, cfg, pending, replies, drained, draws⟩ := he
  refine ⟨fun r hr => ?_, fun u hu => ?_, fun hw => by simpa [hw] using res, fun hw => ?_,
    fun hw => by simpa [hw] using te, fun hw => by simpa [hw] using td, fun hw => ?_, fun hn => ?_, fun hn hw => by simpa [hn, hw] using on,
    err, cfg, pending, replies, drained, draws⟩
  · cases r
    · simpa [State.getBuf, hr] using b0
    · simpa [State.getBuf, hr] using b1
    · simpa [State.getBuf, hr] using b2
    · simpa [State.getBuf, hr] using b3
  · cases u
    · simpa [State.getSlot, hu] using c0
    · simpa [State.getSlot, hu] using c1
    · simpa [State.getSlot, hu] using c2
    · simpa [State.getSlot, hu] using c3
  · simp only [hw, Bool.false_eq_true, if_false] at sink sinkCnt
    exact ⟨sink, sinkCnt⟩
  · simp only [hw, Bool.false_eq_true, if_false] at ds tsize hcnt hlen wlen wval db
    exact ⟨ds, tsize, hcnt, hlen, wlen, wval, db⟩
  · simp only [hn, Bool.false_eq_true, if_false] at ob oc
    exact ⟨ob, oc⟩

end Sys2Proof.Machine
end

