-- ==== Sys2Proof/Proofs/CsrMap.lean ====
section
/-! PROOF. The CSR map (10_state R37): the halves of a 64-bit register, a count in its field, and each index. -/

namespace Sys2Proof.Machine

theorem highHalf_append_lowHalf (v : Word64) : (highHalf v ++ lowHalf v : BitVec 64) = v := valueOf_halves v

theorem toNat_countField {w n : Nat} (hw : w ≤ 32) (h : n < 2 ^ w) : (countField w n).toNat = n := by
  have : n < 2 ^ 32 := Nat.lt_of_lt_of_le h (Nat.pow_le_pow_right (by omega) hw)
  rw [countField, BitVec.toNat_ofNat, Nat.mod_eq_of_lt h, Nat.mod_eq_of_lt this]

/-- STATUS: FAULTED, DEC_STATE, and zeros above. -/
theorem status_fields (s : State) :
    s.status.getLsbD 0 = s.faulted ∧ (s.status.extractLsb' 1 2).toNat = s.decState.num ∧
      s.status.extractLsb' 3 29 = 0 := by
  unfold State.status
  generalize s.faulted = f
  generalize s.decState = d
  cases f <;> cases d <;> decide

/-- ERR in the low bits, and zeros above. -/
theorem err_fields (e : BitVec 4) :
    (e.setWidth 32).extractLsb' 0 4 = e ∧ (e.setWidth 32).extractLsb' 4 28 = 0 := by
  revert e; decide

/-- The three CSRs of bit-buffer register i. -/
theorem csrRead_buf (s : State) (i : BufReg) :
    s.csrRead (8 + 3 * i.bits.toNat) = lowHalf (s.getBuf i).val ∧
    s.csrRead (9 + 3 * i.bits.toNat) = highHalf (s.getBuf i).val ∧
    s.csrRead (10 + 3 * i.bits.toNat) = countField 7 (s.getBuf i).len := by
  cases i <;> exact ⟨rfl, rfl, rfl⟩

/-- The reserved indices read 0. -/
theorem csrRead_reserved (s : State) {k : Nat} (h : k = 5 ∨ k = 6 ∨ k = 7 ∨ 29 ≤ k) : s.csrRead k = 0 := by
  rcases h with rfl | rfl | rfl | h
  · rfl
  · rfl
  · rfl
  · unfold State.csrRead
    split
    case h_27 => rfl
    all_goals omega

/-- Settles O14, index by index; the invariant bounds each count by its field's width. -/
theorem csrMap : Obligations.CsrMap := by
  unfold Obligations.CsrMap
  refine ⟨fun _ _ => rfl, fun s hs => ?_⟩
  obtain ⟨htsize, hhcnt, -, -⟩ := hs.header
  have hbuf (k : Nat) (i : BufReg) (hk : i.bits.toNat = k) :
      (s.csrRead (9 + 3 * k) ++ s.csrRead (8 + 3 * k) : BitVec 64) = (s.getBuf i).val ∧
        (s.csrRead (10 + 3 * k)).toNat = (s.getBuf i).len := by
    subst hk
    obtain ⟨hlow, hhigh, hlen⟩ := csrRead_buf s i
    rw [hlow, hhigh, hlen]
    exact ⟨highHalf_append_lowHalf _, toNat_countField (by omega) (Nat.lt_of_le_of_lt (hs.bufs i).1 (by decide))⟩
  exact ⟨status_fields s, err_fields s.err, highHalf_append_lowHalf s.res, rfl, hbuf,
    toNat_countField (w := 7) (by omega) (by omega),
    toNat_countField (w := 9) (by omega) (Nat.lt_of_le_of_lt hhcnt (by decide)),
    toNat_countField (w := 6) (by omega) hs.walk.1, highHalf_append_lowHalf s.wval, rfl, rfl, rfl, rfl,
    fun _ => csrRead_reserved s⟩

end Sys2Proof.Machine
end

