-- ==== Sys2Proof/Proofs/CanonicalTables.lean ====
section
/-! SUPPORT. Every table that a rule makes is canonical, and in a canonical table each code fits its length
(44_huffman_tree R172, R173). -/

namespace Sys2Proof.Machine

/-! ### The tables the rules make -/

theorem length_canonCodes (lens : List Nat) : (canonCodes lens).length = lens.length := by simp [canonCodes]

theorem makeTable_eq_ok {lens : List Nat} {t : CodeTable} (h : makeTable lens = .ok t) :
    (∀ l ∈ lens, l ≤ lmax) ∧ kraftSum lens ≤ 2 ^ lmax ∧ t = ⟨lens, (canonCodes lens).map (BitVec.ofNat 64)⟩ := by
  unfold makeTable at h
  split at h
  · cases h
  case isFalse hlen =>
    split at h
    · cases h
    case isFalse hkraft =>
      cases h
      exact ⟨by simpa using hlen, Nat.le_of_not_lt hkraft, rfl⟩

theorem makeTable_canonical {lens : List Nat} {t : CodeTable} (hl : lens.length = alpha) (h : makeTable lens = .ok t) :
    t.Canonical := by
  obtain ⟨hlens, hkraft, rfl⟩ := makeTable_eq_ok h
  exact ⟨⟨hl, by rw [List.length_map, length_canonCodes, hl], hlens⟩, hkraft, rfl⟩

theorem length_huffBuild {w lens : List Nat} (h : huffBuild w = some lens) : lens.length = alpha := by
  unfold huffBuild at h
  dsimp only at h
  split at h
  · cases h
  · split at h <;> cases h
    simp [HTree.lengths]

theorem buildTable_canonical {w : List Nat} {t : CodeTable} (h : buildTable w = .ok t) : t.Canonical := by
  unfold buildTable at h
  split at h
  · cases h
  case h_2 lens hb => exact makeTable_canonical (length_huffBuild hb) h

theorem length_padLengths {xs : List Nat} (h : xs.length ≤ alpha) : (padLengths xs).length = alpha := by
  rw [padLengths, List.length_append, List.length_replicate]
  omega

/-! ### A code fits its length

`spent ls`, the space the lengths take of 2^64, is what the codes assigned so far have counted up to: the code c of length
l that is assigned last satisfies (c + 1) * 2^(64 - l) = spent of the lengths up to it. -/

/-- The space that codes of these lengths take of the 2^64 of 44_huffman_tree R173. -/
def spent (ls : List Nat) : Nat := (ls.map (fun l => 2 ^ (lmax - l))).sum

theorem spent_cons (l : Nat) (ls : List Nat) : spent (l :: ls) = 2 ^ (lmax - l) + spent ls := by simp [spent]

theorem codedSymbols_perm (lens : List Nat) :
    (codedSymbols lens).Perm ((lens.zipIdx.filter (fun p => 0 < p.1)).map (fun p => (p.2, p.1))) :=
  List.perm_insertionSort _ _

/-- The lengths of the coded symbols are the positive ones. -/
theorem spent_codedSymbols (lens : List Nat) : spent ((codedSymbols lens).map Prod.snd) = kraftSum lens := by
  have hlens : ((lens.zipIdx.filter (fun p => 0 < p.1)).map (fun p => (p.2, p.1))).map Prod.snd =
      lens.filter (fun l => 0 < l) := by
    conv_rhs => rw [← List.zipIdx_map_fst 0 lens, List.filter_map]
    rw [List.map_map]
    rfl
  rw [kraftSum, ← hlens]
  exact (((codedSymbols_perm lens).map Prod.snd).map _).sum_eq

/-- A coded symbol stands with its length. -/
theorem mem_codedSymbols {lens : List Nat} {x l : Nat} : (x, l) ∈ codedSymbols lens ↔ lens[x]? = some l ∧ 0 < l := by
  rw [(codedSymbols_perm lens).mem_iff]
  simp only [List.mem_map, List.mem_filter, Prod.exists, Prod.mk.injEq, decide_eq_true_eq]
  constructor
  · rintro ⟨a, b, ⟨hm, ha⟩, rfl, rfl⟩
    exact ⟨List.mk_mem_zipIdx_iff_getElem?.1 hm, ha⟩
  · rintro ⟨hx, hl⟩
    exact ⟨l, x, ⟨List.mk_mem_zipIdx_iff_getElem?.2 hx, hl⟩, rfl, rfl⟩

/-- The coded symbols stand by length, then by symbol (44_huffman_tree R171). -/
theorem codedSymbols_sorted (lens : List Nat) : (codedSymbols lens).Pairwise canonLe := by
  have : Std.Total canonLe := ⟨fun a b => by simp only [canonLe]; omega⟩
  have : IsTrans _ canonLe := ⟨fun a b c hab hbc => by simp only [canonLe] at *; omega⟩
  exact List.pairwise_insertionSort canonLe _

/-- The first code after `c` is where the space spent so far ends, at the new length. -/
theorem nextCode_spent {c prev l : Nat} (hp : prev ≤ l) (hl : l ≤ lmax) :
    ((c + 1) <<< (l - prev)) * 2 ^ (lmax - l) = (c + 1) * 2 ^ (lmax - prev) := by
  rw [Nat.shiftLeft_eq, Nat.mul_assoc, ← pow_add]
  congr 2
  omega

theorem lt_two_pow_of_spent {c l : Nat} (hl : l ≤ lmax) (h : (c + 1) * 2 ^ (lmax - l) ≤ 2 ^ lmax) : c < 2 ^ l := by
  have hsplit : 2 ^ lmax = 2 ^ l * 2 ^ (lmax - l) := by rw [← pow_add]; congr 1; omega
  rw [hsplit] at h
  exact Nat.le_of_mul_le_mul_right h (Nat.two_pow_pos _)

/-- As long as the whole space is at most 2^64, every code assigned fits its length. -/
theorem assignFrom_fits {c prev : Nat} {ps : List (Nat × Nat)} (hsorted : ps.Pairwise canonLe)
    (hprev : ∀ p ∈ ps, prev ≤ p.2) (hmax : ∀ p ∈ ps, p.2 ≤ lmax)
    (hspace : (c + 1) * 2 ^ (lmax - prev) + spent (ps.map Prod.snd) ≤ 2 ^ lmax) :
    ∀ p ∈ assignFrom c prev ps, ∃ l, (p.1, l) ∈ ps ∧ p.2 < 2 ^ l := by
  induction ps generalizing c prev with
  | nil => simp [assignFrom]
  | cons q ps ih =>
    obtain ⟨x, l⟩ := q
    obtain ⟨hfirst, hrest⟩ := List.pairwise_cons.1 hsorted
    have hl : l ≤ lmax := hmax _ (List.mem_cons_self ..)
    have hnext : ((c + 1) <<< (l - prev)) * 2 ^ (lmax - l) = (c + 1) * 2 ^ (lmax - prev) :=
      nextCode_spent (hprev _ (List.mem_cons_self ..)) hl
    have hspent : (((c + 1) <<< (l - prev)) + 1) * 2 ^ (lmax - l) + spent (ps.map Prod.snd) ≤ 2 ^ lmax := by
      rw [List.map_cons, spent_cons] at hspace
      rw [Nat.add_mul, hnext, Nat.one_mul, Nat.add_assoc]
      exact hspace
    intro p hp
    rcases List.mem_cons.1 hp with rfl | hp
    · exact ⟨l, List.mem_cons_self .., lt_two_pow_of_spent hl (Nat.le_of_add_right_le hspent)⟩
    · obtain ⟨m, hm, hlt⟩ := ih hrest (fun r hr => by have := hfirst r hr; simp only [canonLe] at this; omega)
        (fun r hr => hmax r (List.mem_cons_of_mem _ hr)) hspent p hp
      exact ⟨m, List.mem_cons_of_mem _ hm, hlt⟩

theorem assignCodes_fits {ps : List (Nat × Nat)} (hsorted : ps.Pairwise canonLe) (hmax : ∀ p ∈ ps, p.2 ≤ lmax)
    (hspace : spent (ps.map Prod.snd) ≤ 2 ^ lmax) : ∀ p ∈ assignCodes ps, ∃ l, (p.1, l) ∈ ps ∧ p.2 < 2 ^ l := by
  cases ps with
  | nil => simp [assignCodes]
  | cons q ps =>
    obtain ⟨x, l⟩ := q
    obtain ⟨hfirst, hrest⟩ := List.pairwise_cons.1 hsorted
    rw [List.map_cons, spent_cons] at hspace
    intro p hp
    rcases List.mem_cons.1 hp with rfl | hp
    · exact ⟨l, List.mem_cons_self .., Nat.two_pow_pos l⟩
    · obtain ⟨m, hm, hlt⟩ := assignFrom_fits hrest (fun r hr => by have := hfirst r hr; simp only [canonLe] at this; omega)
        (fun r hr => hmax r (List.mem_cons_of_mem _ hr)) (by rwa [Nat.zero_add, Nat.one_mul]) p hp
      exact ⟨m, List.mem_cons_of_mem _ hm, hlt⟩

theorem mem_of_lookup_eq_some {ps : List (Nat × Nat)} {x c : Nat} (h : ps.lookup x = some c) : (x, c) ∈ ps := by
  obtain ⟨l₁, l₂, rfl, -⟩ := List.lookup_eq_some_iff.1 h
  simp

/-- Each canonical code fits its length: CODE[s] < 2^LEN[s] (44_huffman_tree R172). -/
theorem canonCodes_fits {lens : List Nat} (hmax : ∀ l ∈ lens, l ≤ lmax) (hkraft : kraftSum lens ≤ 2 ^ lmax) (x : Nat) :
    (canonCodes lens).getD x 0 < 2 ^ lens.getD x 0 := by
  have hfits := assignCodes_fits (codedSymbols_sorted lens)
    (fun p hp => hmax _ (List.mem_of_getElem? (mem_codedSymbols.1 hp).1)) (by rwa [spent_codedSymbols])
  by_cases hx : x < lens.length
  · have hcode : (canonCodes lens).getD x 0 = ((assignCodes (codedSymbols lens)).lookup x).getD 0 := by
      simp [canonCodes, List.getD_eq_getElem?_getD, hx]
    rw [hcode]
    cases hc : (assignCodes (codedSymbols lens)).lookup x with
    | none => exact Nat.two_pow_pos _
    | some c =>
      obtain ⟨l, hl, hlt⟩ := hfits _ (mem_of_lookup_eq_some hc)
      rw [List.getD_eq_getElem?_getD, (mem_codedSymbols.1 hl).1]
      exact hlt
  · rw [List.getD_eq_getElem?_getD, List.getElem?_eq_none (by rw [length_canonCodes]; omega)]
    exact Nat.two_pow_pos _

/-- A code of a canonical slot, in its length, is a well-formed field for a bit buffer. -/
theorem CodeTable.Canonical.code_wf {t : CodeTable} (h : t.Canonical) (x : Nat) :
    BitBuf.wf ⟨t.codeOf x, t.lenOf x⟩ := by
  obtain ⟨-, -, hmax⟩ := h.shape
  have hcode : t.codeOf x = BitVec.ofNat 64 ((canonCodes t.len).getD x 0) := by
    rw [CodeTable.codeOf, h.codes, List.getD_eq_getElem?_getD, List.getD_eq_getElem?_getD, List.getElem?_map]
    cases (canonCodes t.len)[x]? <;> rfl
  have hlen : t.lenOf x ≤ lmax := t.lenOf_cases (p := (· ≤ lmax)) (Nat.zero_le _) hmax x
  refine ⟨hlen, ?_⟩
  rw [hcode, toNat_ofNat_64 (canonCodes_fits hmax h.kraft x) hlen]
  exact canonCodes_fits hmax h.kraft x

theorem foldl_max_le {ls : List Nat} {m b : Nat} (hm : m ≤ b) (hl : ∀ l ∈ ls, l ≤ b) : ls.foldl max m ≤ b := by
  induction ls generalizing m with
  | nil => exact hm
  | cons l ls ih =>
    obtain ⟨hl, hls⟩ := List.forall_mem_cons.1 hl
    exact ih (Nat.max_le.2 ⟨hm, hl⟩) hls

/-- The table size of CHE.BLOCK is at most 65 (45_huffman_encoder R188). -/
theorem tableSize_le {t : CodeTable} (h : t.shape) : tableSize t ≤ 65 :=
  Nat.add_le_add_left (foldl_max_le (Nat.zero_le lmax) h.2.2) 1

end Sys2Proof.Machine
end

