-- ==== Sys2Proof/Proofs/InvariantOps.lean ====
section
/-! SUPPORT. The invariant and the operations on the state: which operation keeps it and under which premise, for the host's
actions (`State.Inv`) and for the parts of a command that runs (`State.Launch`: the invariant and no fault). -/

namespace Sys2Proof.Machine

/-! ### The registers within their shapes -/

theorem Regs.reset_shape {c : Config} (h : MtfTable.wf c.mtfInit) : (Regs.reset c).shape := by
  have hslot := CodeTable.empty_canonical.shape
  have hbuf := BitBuf.wf_empty
  refine ⟨⟨hbuf, hbuf, hbuf, hbuf⟩, ⟨h, h⟩, ⟨hslot, hslot, hslot, hslot⟩, ?_⟩
  simp [Regs.decShape, Regs.reset]

/-- What a late fault leaves in the registers keeps their shapes (log 6). -/
theorem freeRegsOf_shape {c : Config} (h : MtfTable.wf c.mtfInit) (k : Nat) : (freeRegsOf c k).shape := by
  unfold freeRegsOf
  split
  case isTrue hs => exact hs
  case isFalse => exact Regs.reset_shape h

/-- What the invariant asks of a state without a fault beyond the shapes of its registers. -/
structure State.Clear (s : State) : Prop where
  slots : ∀ t, (s.getSlot t).Canonical
  header : s.decState = .decodingHeader → s.hcnt < alpha
  region : s.outBase.toNat + s.outCap.toNat ≤ s.cfg.memWords
  err : s.err = 0

/-- The invariant of a state whose registers are within their shapes. -/
theorem State.Inv.of_shape {s : State} (hregs : s.toRegs.shape) (hclear : s.faulted = false → s.Clear)
    (herr : s.faulted = true → ∃ c : FaultCode, s.err = c.code) (hcfg : s.cfg.wf) (hsorted : s.mem.wf)
    (hinside : ∀ p ∈ s.mem, p.1 < s.cfg.memWords) (hsink : s.sinkCnt = BitVec.ofNat 32 s.sink.length)
    (hdrained : s.drained ≤ s.sink.length) : s.Inv := by
  obtain ⟨⟨hb0, hb1, hb2, hb3⟩, hmtf, ⟨hc0, hc1, hc2, hc3⟩, htsize, hhcnt, hlength, hlens, hwlen, hwval, hout⟩ := hregs
  exact {
    cfgOk := hcfg
    memSorted := hsorted
    memInside := hinside
    bufs := fun i => by cases i <;> assumption
    mtf := hmtf
    slotShape := fun t => by cases t <;> assumption
    slotCanonical := fun hf => (hclear hf).slots
    header := ⟨htsize, hhcnt, hlength, fun l hl => Nat.le_trans (hlens l hl) (by decide)⟩
    headerOpen := fun hf => (hclear hf).header
    walk := ⟨hwlen, hwval⟩
    outCount := hout
    outRegion := fun hf => (hclear hf).region
    sinkCount := hsink
    errCode := ⟨fun hf => (hclear hf).err, herr⟩
    drainedOk := hdrained }

/-- The reset input gives a state that meets the invariant, whatever the registers were (70_reset R255, R256). -/
theorem State.resetInput_inv {s : State} (hcfg : s.cfg.wf) (hsorted : s.mem.wf)
    (hinside : ∀ p ∈ s.mem, p.1 < s.cfg.memWords) : s.resetInput.Inv := by
  have hclear : s.resetInput.Clear := {
    slots := fun t => by cases t <;> exact CodeTable.empty_canonical
    header := fun hd => by cases hd
    region := Nat.zero_le _
    err := rfl }
  exact .of_shape (Regs.reset_shape hcfg.2.2.1) (fun _ => hclear) (fun hf => by cases hf) hcfg hsorted hinside rfl
    (Nat.le_refl 0)

/-! ### The host's side -/

section
variable {s : State} (h : s.Inv)
include h

theorem State.Inv.accept : s.accept.Inv := { h with }

theorem State.Inv.reply (r : HostReply) : (s.reply r).Inv := { h with }

theorem State.Inv.writeRegion {base : Nat} {vs : List Word} (hb : base + vs.length ≤ s.cfg.memWords) :
    (s.writeRegion base vs).Inv :=
  { h with
    memSorted := Memory.writeRange_wf h.memSorted base vs
    memInside := Memory.writeRange_inside h.memInside hb }

theorem State.Inv.hostDrain (k : Nat) : (hostDrain k s).Inv :=
  { h with
    drainedOk := by
      have := h.drainedOk
      simp only [Machine.hostDrain, State.reply, List.length_take, List.length_drop]
      omega }

/-- An early fault changes FAULTED and ERR only, and the invariant asks less of a faulted state. -/
theorem State.Inv.faulted (c : FaultCode) : ({ s with faulted := true, err := c.code } : State).Inv :=
  { h with
    slotCanonical := nofun
    headerOpen := nofun
    outRegion := nofun
    errCode := ⟨nofun, fun _ => ⟨c, rfl⟩⟩ }

theorem State.Inv.raise (c : FaultCode) : (s.raise c).Inv := by
  cases hf : s.faulted with
  | true => rwa [State.raise_of_faulted s c hf]
  | false => rw [State.raise_of_clear s c hf]; exact h.faulted c

end

/-! ### The parts of a command -/

section
variable {s : State} (h : s.Launch)
include h

theorem State.Launch.setBuf (i : BufReg) {v : BitBuf} (hv : v.wf) : (s.setBuf i v).Launch := by
  obtain ⟨hf, hi⟩ := h
  have hbufs (j : BufReg) : ((s.setBuf i v).getBuf j).wf := by
    rw [State.getBuf_setBuf]
    split
    · exact hv
    · exact hi.bufs j
  cases i <;> exact ⟨hf, { hi with bufs := hbufs }⟩

theorem State.Launch.setSlot (t : Slot) {v : CodeTable} (hv : v.Canonical) : (s.setSlot t v).Launch := by
  obtain ⟨hf, hi⟩ := h
  have hslots (u : Slot) : ((s.setSlot t v).getSlot u).Canonical := by
    rw [State.getSlot_setSlot]
    split
    · exact hv
    · exact hi.slotCanonical hf u
  cases t <;> exact ⟨hf, { hi with slotShape := fun u => (hslots u).shape, slotCanonical := fun _ => hslots }⟩

theorem State.Launch.sinkPut (bs : List Byte) : (s.sinkPut bs).Launch := by
  obtain ⟨hf, hi⟩ := h
  refine ⟨hf, { hi with sinkCount := ?_, drainedOk := ?_ }⟩
  · rw [State.sinkPut_sinkCnt, State.sinkPut_sink, hi.sinkCount, List.length_append, BitVec.ofNat_add]
  · have := hi.drainedOk
    rw [State.sinkPut_drained, State.sinkPut_sink, List.length_append]
    omega

theorem State.Launch.flushBuf (i : BufReg) (all : Bool) : (s.flushBuf i all).Launch :=
  (h.setBuf i (BitBuf.flush_wf all (h.2.bufs i))).sinkPut _

theorem State.Launch.writeRegion {base : Nat} {vs : List Word} (hb : base + vs.length ≤ s.cfg.memWords) :
    (s.writeRegion base vs).Launch := ⟨h.1, h.2.writeRegion hb⟩

theorem State.Launch.setRes (v : Word64) : ({ s with res := v } : State).Launch := ⟨h.1, { h.2 with }⟩

theorem State.Launch.setTe {t : MtfTable} (ht : MtfTable.wf t) : ({ s with te := t } : State).Launch :=
  ⟨h.1, { h.2 with mtf := ⟨ht, h.2.mtf.2⟩ }⟩

theorem State.Launch.setTd {t : MtfTable} (ht : MtfTable.wf t) : ({ s with td := t } : State).Launch :=
  ⟨h.1, { h.2 with mtf := ⟨h.2.mtf.1, ht⟩ }⟩

end

/-! ### Late faults -/

/-- What of the invariant a command must still meet where it raises a late fault: the registers are lost there, M, SINK and
the count of cells delivered are not. -/
structure State.FaultReady (s : State) : Prop where
  unfaulted : s.faulted = false
  memSorted : s.mem.wf
  memInside : ∀ p ∈ s.mem, p.1 < s.cfg.memWords
  outCount : s.outCnt.toNat ≤ s.outCap.toNat
  sinkCount : s.sinkCnt = BitVec.ofNat 32 s.sink.length
  drainedOk : s.drained ≤ s.sink.length

theorem State.Launch.faultReady {s : State} (h : s.Launch) : s.FaultReady :=
  ⟨h.1, h.2.memSorted, h.2.memInside, h.2.outCount, h.2.sinkCount, h.2.drainedOk⟩

/-- A late fault keeps the invariant: the cells it leaves unspecified lie in the output region. -/
theorem lateFault_inv {s u : State} (h : s.Launch) (hk : HostKept s u) (hcap : u.outCap = s.outCap) (hu : u.FaultReady)
    (c : FaultCode) : (s.lateFault u c).Inv := by
  have hcfg := h.2.cfgOk
  have hregion := h.2.outRegion h.1
  have hs := h.2.outCount
  have hcount := hu.outCount
  rw [hcap] at hcount
  refine .of_shape ?_ (fun hf => ?_) (fun _ => ⟨c, lateFault_err hu.unfaulted c⟩) ?_ ?_ ?_ ?_ ?_
  · rw [lateFault_toRegs]
    exact freeRegsOf_shape hcfg.2.2.1 s.draws
  · rw [lateFault_faulted] at hf
    cases hf
  · rwa [lateFault_cfg, hk.cfg]
  · rw [lateFault_mem]
    exact Memory.writeRange_wf hu.memSorted _ _
  · rw [lateFault_mem, lateFault_cfg]
    refine Memory.writeRange_inside hu.memInside ?_
    rw [State.length_freeCells, hk.cfg]
    omega
  · rw [lateFault_sinkCnt, lateFault_sink]
    exact hu.sinkCount
  · rw [lateFault_drained, lateFault_sink]
    exact hu.drainedOk

/-- The end of a part of a command that began with the invariant: it holds where the part ran to, and enough of it where it
raised a late fault. -/
abbrev CmdEnd.Safe (e : CmdEnd) : Prop := e.Ends State.Launch State.FaultReady

theorem CmdEnd.Safe.andThen {e : CmdEnd} {f : State → CmdEnd} (h : e.Safe) (hf : ∀ t : State, t.Launch → (f t).Safe) :
    (e.andThen f).Safe := CmdEnd.Ends.andThen h (fun _ ht => ht.faultReady) hf

end Sys2Proof.Machine
end

