-- ==== Sys2Proof/Proofs/InvariantCommands.lean ====
section
/-! SUPPORT. Every command's pseudocode, begun in a state that meets the invariant and holds no fault, is safe: where it runs
to, the invariant holds, and where it raises a late fault, enough of it does. One lemma per part, in the order of the model. -/

namespace Sys2Proof.Machine

/-! ### bit_buffer_accumulator -/

section
variable {r b : BitBuf} (hr : r.wf) {v n x : Nat}
include hr

theorem BitBuf.wf_of_pushLS (h : r.pushLS v n = some b) : b.wf := by
  obtain ⟨c, hc, hw, -⟩ := BitBuf.pushLS_eq hr v n ((BitBuf.pushLS_isSome r v n).1 (by rw [h]; rfl))
  cases h.symm.trans hc
  exact hw

theorem BitBuf.wf_of_pushMS (h : r.pushMS v n = some b) : b.wf := by
  have hfit : r.len + n ≤ bbCap := Nat.le_of_not_lt fun hn => by simp [BitBuf.pushMS_none hn] at h
  obtain ⟨c, hc, hw, -⟩ := BitBuf.pushMS_eq hr v n hfit
  cases h.symm.trans hc
  exact hw

theorem BitBuf.wf_of_pullLS (h : r.pullLS n = some (x, b)) : b.wf := by
  have hlen : n ≤ r.len := Nat.le_of_not_lt fun hn => by simp [BitBuf.pullLS_none hn] at h
  obtain ⟨c, hc, hw, -⟩ := BitBuf.pullLS_eq hr hlen
  cases h.symm.trans hc
  exact hw

/-- A pull from the most significant end leaves a well-formed buffer and gives a number of n bits. -/
theorem BitBuf.wf_of_pullMS (h : r.pullMS n = some (x, b)) : b.wf ∧ x < 2 ^ n := by
  have hlen : n ≤ r.len := Nat.le_of_not_lt fun hn => by simp [BitBuf.pullMS_none hn] at h
  obtain ⟨c, hc, hw, -, -, hx, -⟩ := BitBuf.pullMS_eq hr hlen
  cases h.symm.trans hc
  exact ⟨hw, hx⟩

end

theorem safe_appendAndFlush {s : State} (h : s.Launch) (i : BufReg) (o : BitBuf) : (s.appendAndFlush i o).Safe := by
  by_cases hfit : (s.getBuf i).len % 8 + o.len ≤ bbCap
  · obtain ⟨bs, b, he, hb, -⟩ := State.appendAndFlush_fits (h.2.bufs i) hfit
    rw [he]
    exact (h.setBuf i hb).sinkPut bs
  · rw [State.appendAndFlush_overflows (h.2.bufs i) (Nat.lt_of_not_le hfit)]
    exact (h.flushBuf i false).faultReady

/-! ### burrows_wheeler_transform and move_to_front: lengths, and the tables stay permutations -/

@[simp] theorem length_bwtForward (xs : List Nat) : (bwtForward xs).length = xs.length := by simp [bwtForward]

theorem length_bwtInverseLoop (xs : List Nat) (k cur : Nat) (acc : List Nat) :
    (bwtInverseLoop xs k cur acc).length = k + acc.length := by
  induction k generalizing cur acc with
  | zero => simp [bwtInverseLoop]
  | succ k ih =>
    rw [bwtInverseLoop, ih, List.length_cons]
    omega

@[simp] theorem length_bwtInverse (xs : List Nat) : (bwtInverse xs).length = xs.length := length_bwtInverseLoop ..

@[simp] theorem length_toWords (xs : List Nat) : (toWords xs).length = xs.length := List.length_map ..
@[simp] theorem length_toNats (xs : List Word) : (toNats xs).length = xs.length := List.length_map ..
@[simp] theorem length_toBytes (xs : List Word) : (toBytes xs).length = xs.length := List.length_map ..

theorem frontMove_perm (t : MtfTable) (j : Nat) : (frontMove t j).Perm t := by
  unfold frontMove
  split
  · exact .refl t
  case h_2 x hx =>
    obtain ⟨hj, rfl⟩ := List.getElem?_eq_some_iff.1 hx
    have hmid : (t.take j ++ t[j] :: t.drop (j + 1)).Perm (t[j] :: (t.take j ++ t.drop (j + 1))) := List.perm_middle
    rw [List.getElem_cons_drop, List.take_append_drop] at hmid
    exact hmid.symm

@[simp] theorem length_mtfEncode (t : MtfTable) (xs : List Byte) : (mtfEncode t xs).1.length = xs.length := by
  induction xs generalizing t with
  | nil => rfl
  | cons x xs ih => simp [mtfEncode, ih]

@[simp] theorem length_mtfDecode (t : MtfTable) (js : List Nat) : (mtfDecode t js).1.length = js.length := by
  induction js generalizing t with
  | nil => rfl
  | cons j js ih => simp [mtfDecode, ih]

theorem mtfEncode_perm (t : MtfTable) (xs : List Byte) : (mtfEncode t xs).2.Perm t := by
  induction xs generalizing t with
  | nil => exact .refl t
  | cons x xs ih => exact (ih _).trans (frontMove_perm t _)

theorem mtfDecode_perm (t : MtfTable) (js : List Nat) : (mtfDecode t js).2.Perm t := by
  induction js generalizing t with
  | nil => exact .refl t
  | cons j js ih => exact (ih _).trans (frontMove_perm t _)

theorem safe_dumpTable {s : State} (h : s.Launch) {t : MtfTable} (ht : MtfTable.wf t) (c : Word) :
    (dumpTable t c s).Safe := by
  have hlen : t.length = nsym := by simpa [allBytes] using ht.length_eq
  exact ends_checkRegion fun hc => h.writeRegion (by rwa [List.length_map, hlen])

/-! ### huffman_tree_builder -/

theorem length_slotCells {t : CodeTable} (h : t.shape) : (slotCells t).length = 774 := by
  obtain ⟨hlen, hcode, -⟩ := h
  have hcells : (slotCells t).length = t.len.length + t.code.length * 2 := by simp [slotCells]
  exact hcells.trans (congrArg₂ (fun m n => m + n * 2) hlen hcode)

theorem safe_storeTable {s : State} (h : s.Launch) (t : Slot) {r : Except FaultCode CodeTable}
    (hr : ∀ x, r = .ok x → x.Canonical) : (storeTable s t r).Safe :=
  ends_storeTable fun x hx => h.setSlot t (hr x hx)

theorem safe_htbCanon {s : State} (h : s.Launch) (t : Slot) (a b : Word) : (htbCanonBody t a b s).Safe := by
  refine ends_guard fun hb => ends_checkRegion fun _ => safe_storeTable h t fun _ => makeTable_canonical ?_
  simp only [Bool.or_eq_true, decide_eq_true_eq, not_or] at hb
  exact length_padLengths (by rw [length_toNats, State.length_readRegion]; omega)

/-! ### canonical_huffman_encoder -/

theorem safe_emit {s : State} (h : s.Launch) {v : Word64} {l : Nat} (hv : BitBuf.wf ⟨v, l⟩) : (emit v l s).Safe :=
  safe_appendAndFlush (h.setBuf .b1 hv) .b0 ⟨v, l⟩

theorem safe_encodeSym {s : State} (h : s.Launch) (t : Slot) (x : Nat) : (encodeSym t x s).Safe :=
  ends_guard fun _ => safe_emit h ((h.2.slotCanonical h.1 t).code_wf x)

theorem safe_encodeSyms {s : State} (h : s.Launch) (t : Slot) (xs : List Nat) : (encodeSyms t xs s).Safe := by
  induction xs generalizing s with
  | nil => exact h
  | cons x xs ih => exact (safe_encodeSym h t x).andThen fun _ => ih

theorem tableSize_wf {t : CodeTable} (h : t.shape) : BitBuf.wf ⟨BitVec.ofNat 64 (tableSize t), hdrInfoBits⟩ := by
  have hsize : tableSize t < 2 ^ 9 := Nat.lt_of_le_of_lt (tableSize_le h) (by decide)
  exact ⟨(by decide : 9 ≤ 64), by rwa [toNat_ofNat_64 hsize (by decide)]⟩

theorem safe_encodeBody {s : State} (h : s.Launch) (d : List Nat) (f : Bool) : (encodeBody d f s).Safe := by
  refine (safe_emit h (tableSize_wf (h.2.slotShape .ct0))).andThen fun t ht => ?_
  split
  · trivial
  case h_2 x hx =>
    refine CmdEnd.Safe.andThen (safe_encodeSyms (ht.setSlot .ct1 (buildTable_canonical hx)) .ct1 _) fun u hu => ?_
    refine (safe_encodeSyms hu .ct0 _).andThen fun v hv => ?_
    split
    · exact hv.flushBuf .b0 true
    · exact hv

/-! ### canonical_huffman_decoder -/

/-- The walk position at the root, where a walk begins. -/
theorem walk_reset : 0 < 64 ∧ (0 : Word64).toNat < 2 ^ 0 := by decide

/-- In the middle of a walk: the invariant but for the walk position, which may have come down to the last level, 64. -/
structure State.Walking (s : State) : Prop where
  launch : ({ s with wlen := 0, wval := 0 } : State).Launch
  wlen : s.wlen ≤ lmax
  wval : s.wval.toNat < 2 ^ s.wlen

/-- A walk that has not come to the last level has a position the invariant allows. -/
theorem State.Walking.stop {s : State} (h : s.Walking) (hlt : s.wlen < lmax) : s.Launch :=
  ⟨h.launch.1, { h.launch.2 with walk := ⟨hlt, h.wval⟩ }⟩

theorem State.Walking.faultReady {s : State} (h : s.Walking) : s.FaultReady := { h.launch.faultReady with }

theorem walking_of_stepWalk {s t : State} (h : s.Launch) (ht : stepWalk s = some t) :
    t.Walking ∧ t.decState = s.decState := by
  unfold stepWalk at ht
  split at ht
  · cases ht
  case h_2 bit r hpull =>
    cases ht
    obtain ⟨hr, hbit⟩ := BitBuf.wf_of_pullMS (h.2.bufs .b2) hpull
    obtain ⟨hwlen, hwval⟩ := h.2.walk
    obtain ⟨hf, hi⟩ := h.setBuf .b2 hr
    have hval : 2 * s.wval.toNat + bit < 2 ^ (s.wlen + 1) := by omega
    refine ⟨⟨⟨hf, { hi with walk := walk_reset }⟩, hwlen, ?_⟩, rfl⟩
    rwa [toNat_ofNat_64 hval hwlen]

/-- An inner node lies above the last level: a code of 64 bits is a leaf there (44_huffman_tree R175). -/
theorem lt_lmax_of_isNode {t : CodeTable} (h : t.shape) {l v : Nat} (hleaf : t.leafAt l v = none)
    (hnode : t.isNode l v = true) : l < lmax := by
  obtain ⟨⟨m, c⟩, hp, hnode⟩ := List.any_eq_true.1 hnode
  simp only [Bool.and_eq_true, decide_eq_true_eq, beq_iff_eq] at hnode
  obtain ⟨⟨-, hlm⟩, hval⟩ := hnode
  have hm : m ≤ lmax := h.2.2 m (List.of_mem_zip hp).1
  have hno := List.findIdx?_eq_none_iff.1 hleaf _ hp
  rcases Nat.lt_or_eq_of_le hlm with hlt | rfl
  · exact Nat.lt_of_lt_of_le hlt hm
  · rw [Nat.sub_self, Nat.shiftRight_zero] at hval
    simp [hval] at hno

/-- A leaf's symbol is one of the alphabet. -/
theorem leafAt_lt {t : CodeTable} (h : t.shape) {l v x : Nat} (hx : t.leafAt l v = some x) : x < alpha := by
  obtain ⟨hlt, -⟩ := List.findIdx?_eq_some_iff_getElem.1 hx
  simpa [h.1, h.2.1] using hlt

/-- What a walk from s ends in: a symbol of the alphabet or a kept position with the invariant, or a dead end. -/
def Walk.Safe (s : State) : Walk → Prop
  | .symbol v t => t.Launch ∧ t.decState = s.decState ∧ v < alpha
  | .none t => t.Launch
  | .deadEnd t => t.FaultReady

theorem Walk.Safe.after {s t : State} {w : Walk} (h : w.Safe t) (ht : t.decState = s.decState) : w.Safe s := by
  cases w with
  | symbol v u => exact ⟨h.1, h.2.1.trans ht, h.2.2⟩
  | _ => exact h

theorem safe_decodeSym {s : State} (h : s.Launch) (t : Slot) (k : Nat) : (decodeSym t k s).Safe s := by
  induction k generalizing s with
  | zero => exact h
  | succ k ih =>
    unfold decodeSym
    split
    · exact h
    case h_2 s' hs' =>
      obtain ⟨hwalk, hdec⟩ := walking_of_stepWalk h hs'
      have hshape : (s'.getSlot t).shape := hwalk.launch.2.slotShape t
      split
      case h_1 v hv => exact ⟨hwalk.launch, hdec, leafAt_lt hshape hv⟩
      case h_2 hleaf =>
        split
        case isTrue hnode => exact (ih (hwalk.stop (lt_lmax_of_isNode hshape hleaf hnode))).after hdec
        case isFalse => exact hwalk.faultReady

theorem safe_startHeader {s : State} (h : s.Launch) (v : Nat) : (startHeader v s).Safe := by
  unfold startHeader
  split
  · exact h.faultReady
  case isFalse hv =>
    split
    · exact h.faultReady
    case h_2 x hx =>
      obtain ⟨hf, hi⟩ := h.setSlot .ct2 (buildTable_canonical hx)
      obtain ⟨-, -, hlength, hlens⟩ := hi.header
      have hv : v ≤ 65 := by
        simp only [Bool.or_eq_true, decide_eq_true_eq, not_or] at hv
        omega
      exact ⟨hf, { hi with
        header := ⟨hv, Nat.zero_le _, hlength, hlens⟩
        headerOpen := fun _ _ => (by decide : 0 < alpha) }⟩

/-- HLEN with an entry more: its shape is kept. -/
theorem header_set {s : State} (h : s.Inv) {r : Nat} (hr : r < alpha) :
    (s.hlen.set s.hcnt r).length = alpha ∧ ∀ l ∈ s.hlen.set s.hcnt r, l ≤ 257 := by
  obtain ⟨-, -, hlength, hlens⟩ := h.header
  refine ⟨by rw [List.length_set, hlength], fun l hl => ?_⟩
  rcases List.mem_or_eq_of_mem_set hl with hl | rfl
  · exact hlens l hl
  · exact Nat.le_of_lt_succ hr

theorem safe_takeLength {s : State} (h : s.Launch) (hdec : s.decState = .decodingHeader) {r : Nat} (hr : r < alpha) :
    (takeLength r s).Safe := by
  have hopen := h.2.headerOpen h.1 hdec
  obtain ⟨hlength, hlens⟩ := header_set h.2 hr
  have htsize := h.2.header.1
  unfold takeLength
  dsimp only
  split
  · split
    · exact { h.faultReady with }
    case h_2 x hx =>
      obtain ⟨hf, hi⟩ := h.setSlot .ct3 (makeTable_canonical hlength hx)
      exact ⟨hf, { hi with header := ⟨htsize, hopen, hlength, hlens⟩, headerOpen := fun _ hd => by cases hd }⟩
  case isFalse hmore =>
    exact ⟨h.1, { h.2 with
      header := ⟨htsize, hopen, hlength, hlens⟩
      headerOpen := fun _ _ => Nat.lt_of_le_of_ne hopen hmore }⟩

theorem safe_outputSym {s : State} (h : s.Launch) (v : Nat) : (outputSym v s).Safe := by
  unfold outputSym
  dsimp only
  split
  · exact h.faultReady
  case isFalse hroom =>
    split
    · trivial
    case isFalse haddr =>
      obtain ⟨hf, hi⟩ := h.writeRegion (vs := [BitVec.ofNat 32 v]) (Nat.lt_of_not_le haddr)
      refine ⟨hf, { hi with outCount := ?_ }⟩
      have := s.outCap.isLt
      change (s.outCnt + 1).toNat ≤ s.outCap.toNat
      rw [BitVec.toNat_add_of_lt (by simp; omega)]
      simp; omega

theorem launch_afterSymbol {s : State} (h : s.Launch) (r : Nat) : (afterSymbol r s).Launch := by
  unfold afterSymbol
  split
  · exact ⟨h.1, { h.2 with headerOpen := fun _ hd => by cases hd }⟩
  · split
    · exact ⟨h.1, { h.2 with headerOpen := fun _ hd => by cases hd }⟩
    · exact h

theorem safe_takeSymbol {s : State} (h : s.Launch) (r : Nat) : (takeSymbol r s).Safe :=
  (safe_outputSym h r).andThen fun _ ht => launch_afterSymbol ht r

/-- What a turn of Run leaves, whether Run stops there or goes on. -/
def Turn.Safe : Turn → Prop
  | .stop t => t.Launch
  | .go e => e.Safe

theorem safe_turnOfWalk {s : State} {w : Walk} {f : Nat → State → CmdEnd} (h : w.Safe s)
    (hf : ∀ v t, t.Launch → t.decState = s.decState → v < alpha → (f v t).Safe) : (turnOfWalk w f).Safe := by
  cases w with
  | symbol v t => exact hf v t h.1 h.2.1 h.2.2
  | none t | deadEnd t => exact h

theorem safe_runTurn {s : State} (h : s.Launch) : (runTurn s).Safe := by
  unfold runTurn
  split
  · exact h
  · split
    · exact h
    case h_2 v r hpull => exact safe_startHeader (h.setBuf .b2 (BitBuf.wf_of_pullMS (h.2.bufs .b2) hpull).1) v
  case h_3 hdec =>
    exact safe_turnOfWalk (safe_decodeSym h .ct2 _) fun v t ht hd hv => safe_takeLength ht (hd.trans hdec) hv
  · exact safe_turnOfWalk (safe_decodeSym h .ct3 _) fun v t ht _ _ => safe_takeSymbol ht v

theorem safe_runFuel {s : State} (h : s.Launch) (k : Nat) : (runFuel k s).Safe := by
  induction k generalizing s with
  | zero => exact h
  | succ k ih =>
    have hturn := safe_runTurn h
    unfold runFuel
    split <;> rename_i he <;> rw [he] at hturn
    · exact hturn
    · exact ih hturn
    · exact hturn

theorem safe_chdPush {s : State} (h : s.Launch) (a : Word) : (chdPushBody a s).Safe := by
  refine ends_guard fun _ => ?_
  split
  · exact h
  · split
    · trivial
    case h_2 r hpush => exact safe_runFuel (h.setBuf .b2 (BitBuf.wf_of_pushLS (h.2.bufs .b2) hpush)) _

theorem launch_chdRst {s : State} (h : s.Launch) :
    ({ s with
      b2 := .empty, decState := .readingHeaderInfo, tsize := 0, hcnt := 0, hlen := List.replicate alpha 0,
      wlen := 0, wval := 0, outCnt := 0, decBlocks := 0 } : State).Launch := by
  obtain ⟨hf, hi⟩ := h.setBuf .b2 BitBuf.wf_empty
  exact ⟨hf, { hi with
    header := ⟨Nat.zero_le _, Nat.zero_le _, List.length_replicate, fun l hl => by
      rw [List.eq_of_mem_replicate hl]
      exact Nat.zero_le _⟩
    headerOpen := fun _ hd => by cases hd
    walk := walk_reset
    outCount := Nat.zero_le _ }⟩

/-! ### A command -/

/-- Every command's pseudocode is safe. -/
theorem safe_bodyOf (i : Instr) {s : State} (h : s.Launch) : (bodyOf i s).Safe := by
  cases i with
  | sysNop => exact h
  | bbClr bd => exact h.setBuf bd BitBuf.wf_empty
  | bbPushl bd n v =>
    exact ends_checkCount fun _ => ends_pushEnd fun b hb => h.setBuf bd (BitBuf.wf_of_pushLS (h.2.bufs bd) hb)
  | bbPushr bd n v =>
    exact ends_checkCount fun _ => ends_pushEnd fun b hb => h.setBuf bd (BitBuf.wf_of_pushMS (h.2.bufs bd) hb)
  | bbPulll bd n =>
    exact ends_checkCount fun _ => ends_pullEnd fun x b hb =>
      (h.setBuf bd (BitBuf.wf_of_pullLS (h.2.bufs bd) hb)).setRes _
  | bbPullr bd n =>
    exact ends_checkCount fun _ => ends_pullEnd fun x b hb =>
      (h.setBuf bd (BitBuf.wf_of_pullMS (h.2.bufs bd) hb).1).setRes _
  | bbFlush bd f => exact h.flushBuf bd f
  | bbAppf bd bs => exact ends_guard fun _ => safe_appendAndFlush h bd _
  | saBuild a b c => exact ends_checkSrcDst fun hc => h.writeRegion (by split <;> simpa using hc)
  | bwtFwd a b c | bwtInv a b c =>
    exact ends_checkSrcDst fun hc => ends_checkBytes (h.writeRegion (by split <;> simpa using hc))
  | mtfeRst => exact h.setTe h.2.cfgOk.2.2.1
  | mtfdRst => exact h.setTd h.2.cfgOk.2.2.1
  | mtfeRun a b c =>
    exact ends_checkSrcDst fun hc => ends_checkBytes
      ((h.setTe ((mtfEncode_perm _ _).trans h.2.mtf.1)).writeRegion (by simpa using hc))
  | mtfdRun a b c =>
    exact ends_checkSrcDst fun hc => ends_checkBytes
      ((h.setTd ((mtfDecode_perm _ _).trans h.2.mtf.2)).writeRegion (by simpa using hc))
  | mtfeDump c => exact safe_dumpTable h h.2.mtf.1 c
  | mtfdDump c => exact safe_dumpTable h h.2.mtf.2 c
  | htbBuild t a b =>
    exact ends_guard fun _ => ends_checkRegion fun _ => safe_storeTable h t fun _ => buildTable_canonical
  | htbPrior t b => exact ends_guard fun _ => safe_storeTable h t fun _ => buildTable_canonical
  | htbCanon t a b => exact safe_htbCanon h t a b
  | htbStore t c =>
    exact ends_checkRegion fun hc => h.writeRegion (by rwa [length_slotCells (h.2.slotShape t)])
  | cheRst => exact (h.setBuf .b0 BitBuf.wf_empty).setBuf .b1 BitBuf.wf_empty
  | cheSym t a => exact ends_guard fun _ => safe_encodeSym h t _
  | cheBlock f a b =>
    refine ends_checkRegion fun _ => ends_checkBytes ?_
    split
    · trivial
    case h_2 x hx =>
      exact CmdEnd.Safe.andThen (h.setSlot .ct0 (buildTable_canonical hx)) fun t ht => safe_encodeBody ht _ f
  | chdRst => exact launch_chdRst h
  | chdSetout b c =>
    exact ends_checkRegion fun hc => ⟨h.1, { h.2 with outCount := Nat.zero_le _, outRegion := fun _ => hc }⟩
  | chdPush a => exact safe_chdPush h a
  | chdRun => exact safe_runFuel h _

end Sys2Proof.Machine
end

