-- ==== Sys2Proof/Proofs/StepInvariant.lean ====
section
/-! PROOF. The reset state meets the invariant, and every step keeps it: a command by how its pseudocode ends, then the host's
other actions. -/

namespace Sys2Proof.Machine

/-- Settles O8: the state after power-on is its own reset, and M is empty. -/
theorem resetStateMeetsInvariant : Obligations.ResetStateMeetsInvariant := by
  unfold Obligations.ResetStateMeetsInvariant
  have hreset (c : Config) (hc : c.wf) : (State.resetOf c).Inv :=
    State.resetInput_inv (s := State.resetOf c) hc .nil (fun p hp => by cases hp)
  exact ⟨hreset, hreset Config.t0 (Config.wf_of_check (by decide +kernel))⟩

/-- A late fault leaves the output region's bounds alone: CHD.SETOUT, which names them, has none. -/
theorem late_outCap {i : Instr} {s u : State} {c : FaultCode} (h : bodyOf i s = .late c u) : u.outCap = s.outCap := by
  have hframe := framed_bodyOf i s
  rw [h] at hframe
  cases hn : Instr.namesOutput i with
  | false => simpa [State.erase, hn] using congrArg (·.outCap) hframe
  | true =>
    cases i with
    | chdSetout b c =>
      unfold bodyOf checkRegion at h
      dsimp only at h
      split at h <;> cases h
    | _ => cases hn

theorem exec_inv {i : Instr} {s t : State} (hs : s.Inv) (h : exec i s = .next t) : t.Inv := by
  rw [exec_eq_runCommand] at h
  rcases runCommand_cases h with ⟨-, rfl⟩ | ⟨hf, he⟩ | ⟨hf, c, -, rfl⟩ | ⟨hf, c, u, he, rfl⟩
  · exact hs
  · have := safe_bodyOf i ⟨hf, hs⟩
    rw [he] at this
    exact this.2
  · exact hs.faulted c
  · have hsafe := safe_bodyOf i ⟨hf, hs⟩
    have hkept := hostKept_bodyOf i s
    rw [he] at hsafe hkept
    exact lateFault_inv ⟨hf, hs⟩ hkept (late_outCap he) hsafe c

theorem hostAct_inv {a : HostAction} {s t : State} (hs : s.Inv) (h : hostAct a s = .next t) : t.Inv := by
  cases a with
  | issue d =>
    simp only [hostAct, issue] at h
    split at h
    · exact exec_inv hs h
    · cases h; exact hs.raise .illegal
  | csrRead k => cases h; exact hs.reply _
  | memRead a =>
    simp only [hostAct, hostRead] at h
    split at h <;> cases h
    exact hs.reply _
  | memWrite a v =>
    simp only [hostAct, hostWrite] at h
    split at h
    · cases h
    case isFalse ha =>
      cases h
      exact hs.writeRegion (Nat.lt_of_not_le ha)
  | drain k => cases h; exact hs.hostDrain k
  | reset => cases h; exact State.resetInput_inv hs.cfgOk hs.memSorted hs.memInside

/-- Settles O9: a step is the host's next action in a state that differs from s in the model's own fields only. -/
theorem stepKeepsInvariant : Obligations.StepKeepsInvariant := by
  unfold Obligations.StepKeepsInvariant
  intro s t hs h
  unfold step at h
  split at h
  · cases h; exact hs
  · exact hostAct_inv hs.accept h

end Sys2Proof.Machine
end

