-- ==== Sys2Proof/Proofs/SinkGrows.lean ====
section
/-! PROOF. SINK only grows (20_memory R74). A command that writes no cell of M is said once to change registers alone and to
put bytes into SINK (`Streamed`); the register frame covers the rest, which write no SINK. -/

namespace Sys2Proof.Machine

/-- t is s but for its registers and for bytes put into SINK: M, FAULTED, ERR, the configuration and the host's side are
the same. -/
def Streamed (s t : State) : Prop := ∃ bs, t = { s.sinkPut bs with toRegs := t.toRegs }

section
variable {s t u : State}

theorem State.sinkPut_nil (s : State) : s.sinkPut [] = s := by simp [State.sinkPut]

theorem State.sinkPut_sinkPut (s : State) (as bs : List Byte) : (s.sinkPut as).sinkPut bs = s.sinkPut (as ++ bs) := by
  simp [State.sinkPut, BitVec.add_assoc, BitVec.ofNat_add]

/-- Only registers change. -/
theorem Streamed.of_regs (h : t = { s with toRegs := t.toRegs }) : Streamed s t := ⟨[], by rwa [State.sinkPut_nil]⟩

theorem Streamed.refl (s : State) : Streamed s s := .of_regs rfl

theorem Streamed.sinkPut (s : State) (bs : List Byte) : Streamed s (s.sinkPut bs) := ⟨bs, rfl⟩

theorem Streamed.trans (h : Streamed s t) (k : Streamed t u) : Streamed s u := by
  obtain ⟨as, ht⟩ := h
  obtain ⟨bs, hu⟩ := k
  refine ⟨as ++ bs, ?_⟩
  rw [← State.sinkPut_sinkPut, hu, ht]
  rfl

theorem Streamed.mem (h : Streamed s t) : t.mem = s.mem := by
  obtain ⟨bs, ht⟩ := h
  rw [ht]
  rfl

theorem streamed_setBuf (s : State) (i : BufReg) (v : BitBuf) : Streamed s (s.setBuf i v) :=
  .of_regs (by cases i <;> rfl)

theorem streamed_setSlot (s : State) (u : Slot) (v : CodeTable) : Streamed s (s.setSlot u v) :=
  .of_regs (by cases u <;> rfl)

theorem streamed_flushBuf (s : State) (i : BufReg) (all : Bool) : Streamed s (s.flushBuf i all) :=
  (streamed_setBuf s i _).trans (.sinkPut _ _)

end

/-- A weaker claim about the same end. -/
theorem CmdEnd.Ends.imp {P Q P' Q' : State → Prop} {e : CmdEnd} (h : e.Ends P Q) (hP : ∀ t, P t → P' t)
    (hQ : ∀ t, Q t → Q' t) : e.Ends P' Q' := by
  cases e with
  | done t => exact hP t h
  | late c t => exact hQ t h
  | early | absent => trivial

/-- Every state that the end of a part of a command names is s but for registers and SINK. -/
abbrev CmdEnd.Streams (s : State) (e : CmdEnd) : Prop := e.Ends (Streamed s) (Streamed s)

section
variable {s t : State} {e : CmdEnd}

theorem CmdEnd.Streams.after (h : e.Streams t) (ht : Streamed s t) : e.Streams s := h.imp (fun _ => ht.trans) fun _ => ht.trans

theorem CmdEnd.Streams.andThen {f : State → CmdEnd} (h : e.Streams s) (hf : ∀ t, (f t).Streams t) :
    (e.andThen f).Streams s := CmdEnd.Ends.andThen h (fun _ ht => ht) fun t ht => (hf t).after ht

theorem streams_storeTable (u : Slot) (r : Except FaultCode CodeTable) : (storeTable s u r).Streams s :=
  ends_storeTable fun x _ => streamed_setSlot s u x

theorem streams_appendAndFlush (s : State) (i : BufReg) (o : BitBuf) : (s.appendAndFlush i o).Streams s := by
  unfold State.appendAndFlush
  dsimp only
  split
  · exact streamed_flushBuf s i false
  · exact ((streamed_flushBuf s i false).trans (streamed_setBuf _ i _)).trans (streamed_flushBuf _ i false)

/-! ### The encoder -/

theorem streams_emit (v : Word64) (l : Nat) (s : State) : (emit v l s).Streams s :=
  (streams_appendAndFlush _ .b0 _).after (streamed_setBuf s .b1 ⟨v, l⟩)

theorem streams_encodeSym (u : Slot) (x : Nat) (s : State) : (encodeSym u x s).Streams s :=
  ends_guard fun _ => streams_emit _ _ s

theorem streams_encodeSyms (u : Slot) (xs : List Nat) (s : State) : (encodeSyms u xs s).Streams s := by
  induction xs generalizing s with
  | nil => exact .refl s
  | cons x xs ih => exact (streams_encodeSym u x s).andThen ih

theorem streams_encodeBody (d : List Nat) (f : Bool) (s : State) : (encodeBody d f s).Streams s := by
  refine (streams_emit _ _ s).andThen fun t => ?_
  split
  · trivial
  case h_2 x _ =>
    refine CmdEnd.Streams.andThen ((streams_encodeSyms .ct1 _ _).after (streamed_setSlot t .ct1 x)) fun t => ?_
    refine (streams_encodeSyms .ct0 _ t).andThen fun t => ?_
    split
    · exact streamed_flushBuf t .b0 true
    · exact .refl t

end

/-! ### A command -/

/-- The commands that write cells of M (20_memory R69). -/
def Instr.writesCells : Instr → Bool
  | .saBuild _ _ _ | .bwtFwd _ _ _ | .bwtInv _ _ _ | .mtfeRun _ _ _ | .mtfdRun _ _ _ => true
  | .mtfeDump _ | .mtfdDump _ | .htbStore _ _ | .chdPush _ | .chdRun => true
  | _ => false

/-- A command that writes no cell changes registers alone and puts bytes into SINK. -/
theorem streams_bodyOf {i : Instr} (hi : Instr.writesCells i = false) (s : State) : (bodyOf i s).Streams s := by
  cases i with
  | saBuild | bwtFwd | bwtInv | mtfeRun | mtfdRun | mtfeDump | mtfdDump | htbStore | chdPush | chdRun => cases hi
  | sysNop => exact .refl s
  | mtfeRst | mtfdRst | cheRst | chdRst => exact .of_regs rfl
  | bbClr bd => exact streamed_setBuf s bd _
  | bbPushl bd n v | bbPushr bd n v =>
    exact ends_checkCount fun _ => ends_pushEnd fun b _ => streamed_setBuf s bd b
  | bbPulll bd n | bbPullr bd n =>
    exact ends_checkCount fun _ => ends_pullEnd fun x b _ => (streamed_setBuf s bd b).trans (.of_regs rfl)
  | bbFlush bd f => exact streamed_flushBuf s bd f
  | bbAppf bd bs => exact ends_guard fun _ => streams_appendAndFlush s bd _
  | htbBuild u a b | htbCanon u a b => exact ends_guard fun _ => ends_checkRegion fun _ => streams_storeTable u _
  | htbPrior u b => exact ends_guard fun _ => streams_storeTable u _
  | cheSym u a => exact ends_guard fun _ => streams_encodeSym u _ s
  | cheBlock f a b =>
    refine ends_checkRegion fun _ => ends_checkBytes ?_
    split
    · trivial
    case h_2 x _ => exact CmdEnd.Streams.andThen (streamed_setSlot s .ct0 x) (streams_encodeBody _ f)
  | chdSetout b c => exact ends_checkRegion fun _ => .of_regs rfl

/-! ### SINK -/

/-- SINK has grown by some bytes and SINK_CNT has counted them. -/
def SinkGrew (s t : State) : Prop := ∃ bs, t.sink = s.sink ++ bs ∧ t.sinkCnt = s.sinkCnt + BitVec.ofNat 32 bs.length

section
variable {s t : State}

theorem SinkGrew.of_same (hsink : t.sink = s.sink) (hcnt : t.sinkCnt = s.sinkCnt) : SinkGrew s t :=
  ⟨[], by simpa using hsink, by simpa using hcnt⟩

theorem Streamed.sinkGrew (h : Streamed s t) : SinkGrew s t := by
  obtain ⟨bs, ht⟩ := h
  rw [ht]
  exact ⟨bs, rfl, rfl⟩

/-- A command that writes cells of M puts no byte into SINK. -/
theorem writesSink_of_writesCells {i : Instr} (h : Instr.writesCells i = true) : Instr.writesSink i = false := by
  cases i with
  | saBuild | bwtFwd | bwtInv | mtfeRun | mtfdRun | mtfeDump | mtfdDump | htbStore | chdPush | chdRun => rfl
  | _ => cases h

theorem sinkGrew_of_erase {i : Instr} (hi : Instr.writesSink i = false) (h : t.erase i = s.erase i) : SinkGrew s t :=
  .of_same (by simpa [State.erase, hi] using congrArg State.sink h)
    (by simpa [State.erase, hi] using congrArg State.sinkCnt h)

theorem sinkGrew_bodyOf (i : Instr) (s : State) : (bodyOf i s).Ends (SinkGrew s) (SinkGrew s) := by
  cases hi : Instr.writesCells i with
  | false => exact (streams_bodyOf hi s).imp (fun _ => Streamed.sinkGrew) fun _ => Streamed.sinkGrew
  | true =>
    have hgrew (t : State) := sinkGrew_of_erase (s := s) (t := t) (writesSink_of_writesCells hi)
    exact CmdEnd.Ends.imp (framed_bodyOf i s) hgrew hgrew

/-- A command, also one that faults, only adds to SINK. -/
theorem exec_sinkGrew {i : Instr} (h : exec i s = .next t) : SinkGrew s t := by
  rw [exec_eq_runCommand] at h
  have hb := sinkGrew_bodyOf i s
  rcases runCommand_cases h with ⟨-, rfl⟩ | ⟨-, he⟩ | ⟨-, c, -, rfl⟩ | ⟨-, c, u, he, rfl⟩
  · exact .of_same rfl rfl
  · rw [he] at hb; exact hb
  · exact .of_same rfl rfl
  · rw [he] at hb
    obtain ⟨bs, hsink, hcnt⟩ := hb
    exact ⟨bs, by rwa [lateFault_sink], by rwa [lateFault_sinkCnt]⟩

theorem issue_sinkGrew {d : Desc} (h : issue d s = .next t) : SinkGrew s t := by
  unfold issue at h
  split at h
  · exact exec_sinkGrew h
  · cases h; exact .of_same (State.raise_sink s _) (State.raise_sinkCnt s _)

end

/-- Settles O10: a command only adds to SINK, faulted or not, and no other action but reset touches it. -/
theorem sinkOnlyGrows : Obligations.SinkOnlyGrows := by
  unfold Obligations.SinkOnlyGrows
  intro a s t ha h
  cases a with
  | issue d => exact issue_sinkGrew h
  | csrRead k | drain k => cases h; exact SinkGrew.of_same rfl rfl
  | memRead a =>
    simp only [hostAct, hostRead] at h
    split at h <;> cases h
    exact SinkGrew.of_same rfl rfl
  | memWrite a v =>
    simp only [hostAct, hostWrite] at h
    split at h <;> cases h
    exact SinkGrew.of_same rfl rfl
  | reset => exact absurd rfl ha

end Sys2Proof.Machine
end

