-- ==== Sys2Proof/Proofs/CellFrame.lean ====
section
/-! PROOF. The cells of M that the host and the commands write (20_memory R65, R69, R70). A write of M is described by the
cells outside its region and those inside, so that the decoder's writes of one cell each add up to its region. -/

namespace Sys2Proof.Machine

/-! ### What a write leaves -/

/-- n is m with every cell of region (base, k) written and no other. -/
structure Memory.Wrote (m n : Memory) (base k : Nat) : Prop where
  outside : ∀ a, a < base ∨ base + k ≤ a → n.lookup a = m.lookup a
  inside : ∀ i, i < k → (n.lookup (base + i)).isSome = true

theorem Memory.Wrote.refl (m : Memory) (base : Nat) : m.Wrote m base 0 := ⟨fun _ _ => rfl, nofun⟩

theorem Memory.wrote_writeRange {m : Memory} (h : m.wf) (base : Nat) (vs : List Word) :
    m.Wrote (m.writeRange base vs) base vs.length where
  outside _ ha := Memory.lookup_writeRange_outside h base vs ha
  inside i hi := by rw [Memory.lookup_writeRange_inside h base vs (List.getElem?_eq_getElem hi)]; rfl

/-- Two regions written one after the other, the second right behind the first. -/
theorem Memory.Wrote.trans {m n o : Memory} {base j k : Nat} (h : m.Wrote n base j) (h' : n.Wrote o (base + j) k) :
    m.Wrote o base (j + k) where
  outside a ha := (h'.outside a (by omega)).trans (h.outside a (by omega))
  inside i hi := by
    by_cases hij : i < j
    · rw [h'.outside _ (by omega)]
      exact h.inside i hij
    · have := h'.inside (i - j) (by omega)
      rwa [show base + j + (i - j) = base + i by omega] at this

theorem Memory.Wrote.cellsOutsideKept {s t : State} {base k : Nat} (h : s.mem.Wrote t.mem base k)
    (hd : t.draws = s.draws) : CellsOutsideKept s t base k := fun a ha =>
  have hl := h.outside a ha
  ⟨by rw [State.readCell, State.readCell, hl, hd], hl⟩

/-! ### The host's access to one cell -/

/-- Settles O12: the host's write is a region of one cell, and its read changes the record of replies alone. -/
theorem hostTouchesOneCell : Obligations.HostTouchesOneCell := by
  unfold Obligations.HostTouchesOneCell
  intro s a v hs
  refine ⟨fun ha => ?_, fun ha => if_neg (Nat.not_le.2 ha), fun ha => ⟨if_pos ha, if_pos ha⟩⟩
  exact ⟨s.writeRegion a.toNat [v], if_neg (Nat.not_le.2 ha), State.readCell_writeRegion_inside hs a.toNat [v] (i := 0) rfl,
    (Memory.wrote_writeRange hs a.toNat [v]).cellsOutsideKept rfl, rfl⟩

/-! ### The decoder delivers cells one behind the other -/

/-- From s to t the decoder has written the cells from OUT_BASE + OUT_CNT on that OUT_CNT has counted, and no other. -/
structure Delivered (s t : State) : Prop where
  outBase : t.outBase = s.outBase
  outCap : t.outCap = s.outCap
  outCnt : s.outCnt.toNat ≤ t.outCnt.toNat
  cells : s.mem.Wrote t.mem (s.outBase.toNat + s.outCnt.toNat) (t.outCnt.toNat - s.outCnt.toNat)

/-- M and the output registers. -/
def State.output (s : State) : Memory × Word × Word × Word := (s.mem, s.outBase, s.outCap, s.outCnt)

section
variable {s t u : State}

theorem Delivered.of_output (h : t.output = s.output) : Delivered s t := by
  simp only [State.output, Prod.mk.injEq] at h
  obtain ⟨hmem, hbase, hcap, hcnt⟩ := h
  refine ⟨hbase, hcap, by rw [hcnt], ?_⟩
  rw [hmem, hcnt, Nat.sub_self]
  exact .refl _ _

theorem Delivered.refl (s : State) : Delivered s s := .of_output rfl

theorem Delivered.trans (h : Delivered s t) (k : Delivered t u) : Delivered s u := by
  have hst := h.outCnt
  have htu := k.outCnt
  refine ⟨k.outBase.trans h.outBase, k.outCap.trans h.outCap, hst.trans htu, ?_⟩
  have hcells := k.cells
  rw [h.outBase, show s.outBase.toNat + t.outCnt.toNat =
    s.outBase.toNat + s.outCnt.toNat + (t.outCnt.toNat - s.outCnt.toNat) by omega] at hcells
  rw [show u.outCnt.toNat - s.outCnt.toNat =
    t.outCnt.toNat - s.outCnt.toNat + (u.outCnt.toNat - t.outCnt.toNat) by omega]
  exact h.cells.trans hcells

end

/-- Every state that the end of a part of the decoder names has delivered what its OUT_CNT says. -/
abbrev CmdEnd.Delivers (s : State) (e : CmdEnd) : Prop := e.Ends (Delivered s) (Delivered s)

theorem CmdEnd.Delivers.after {s t : State} {e : CmdEnd} (h : e.Delivers t) (ht : Delivered s t) : e.Delivers s :=
  h.imp (fun _ => ht.trans) fun _ => ht.trans

/-- The state a walk ends in. -/
def Walk.state : Walk → State
  | .symbol _ s | .none s | .deadEnd s => s

theorem output_stepWalk {s t : State} (h : stepWalk s = some t) : t.output = s.output := by
  unfold stepWalk at h
  split at h
  · cases h
  · cases h; rfl

theorem output_decodeSym (u : Slot) (k : Nat) (s : State) : (decodeSym u k s).state.output = s.output := by
  induction k generalizing s with
  | zero => rfl
  | succ k ih =>
    unfold decodeSym
    split
    · rfl
    case h_2 s' h =>
      have h := output_stepWalk h
      split
      · exact h
      · split
        · exact (ih s').trans h
        · exact h

theorem delivers_startHeader (v : Nat) (s : State) : (startHeader v s).Delivers s := by
  unfold startHeader
  split
  · exact .refl s
  · split
    · exact .refl s
    · exact .of_output rfl

theorem delivers_takeLength (r : Nat) (s : State) : (takeLength r s).Delivers s := by
  unfold takeLength
  dsimp only
  split
  · split <;> exact .of_output rfl
  · exact .of_output rfl

theorem delivers_outputSym (v : Nat) {s : State} (h : s.mem.wf) : (outputSym v s).Delivers s := by
  unfold outputSym
  dsimp only
  split
  · exact .refl s
  case isFalse hroom =>
    split
    · trivial
    · have hcnt : (s.outCnt + 1).toNat = s.outCnt.toNat + 1 := by
        have := s.outCap.isLt
        rw [BitVec.toNat_add_of_lt (by simp; omega)]
        rfl
      refine ⟨rfl, rfl, ?_, ?_⟩
      · change s.outCnt.toNat ≤ (s.outCnt + 1).toNat
        omega
      · change s.mem.Wrote (s.mem.writeRange _ [BitVec.ofNat 32 v]) _ ((s.outCnt + 1).toNat - s.outCnt.toNat)
        rw [hcnt, Nat.add_sub_cancel_left]
        exact Memory.wrote_writeRange h _ _

theorem output_afterSymbol (r : Nat) (s : State) : (afterSymbol r s).output = s.output := by
  unfold afterSymbol
  split
  · rfl
  · split <;> rfl

theorem delivers_takeSymbol (r : Nat) {s : State} (h : s.mem.wf) : (takeSymbol r s).Delivers s :=
  CmdEnd.Ends.andThen (delivers_outputSym r h) (fun _ ht => ht) fun t ht => ht.trans (.of_output (output_afterSymbol r t))

/-- What a turn has delivered, whether Run stops there or goes on. -/
def Turn.Delivers (s : State) : Turn → Prop
  | .stop t => Delivered s t
  | .go e => e.Delivers s

theorem delivers_turnOfWalk {s : State} {w : Walk} {f : Nat → State → CmdEnd} (h : w.state.output = s.output)
    (hf : ∀ v t, t.output = s.output → (f v t).Delivers t) : (turnOfWalk w f).Delivers s := by
  cases w with
  | symbol v t => exact (hf v t h).after (.of_output h)
  | none t | deadEnd t => exact Delivered.of_output h

theorem delivers_runTurn {s : State} (h : s.mem.wf) : (runTurn s).Delivers s := by
  unfold runTurn
  split
  · exact Delivered.refl s
  · split
    · exact Delivered.refl s
    · exact (delivers_startHeader _ _).after (.of_output rfl)
  · exact delivers_turnOfWalk (output_decodeSym _ _ s) fun v t _ => delivers_takeLength v t
  · refine delivers_turnOfWalk (output_decodeSym _ _ s) fun v t ht => delivers_takeSymbol v ?_
    rwa [show t.mem = s.mem from congrArg Prod.fst ht]

theorem delivers_runFuel {s : State} (h : s.Launch) (k : Nat) : (runFuel k s).Delivers s := by
  induction k generalizing s with
  | zero => exact .refl s
  | succ k ih =>
    have hturn := delivers_runTurn h.2.memSorted
    have hsafe := safe_runTurn h
    unfold runFuel
    split <;> rename_i he <;> rw [he] at hturn hsafe
    · exact hturn
    · exact (ih hsafe).after hturn
    · exact hturn

theorem delivers_chdPush {s : State} (h : s.Launch) (a : Word) : (chdPushBody a s).Delivers s := by
  refine ends_guard fun _ => ?_
  split
  · exact .refl s
  · split
    · trivial
    case h_2 r hpush =>
      have hload := h.setBuf .b2 (BitBuf.wf_of_pushLS (h.2.bufs .b2) hpush)
      exact (delivers_runFuel hload _).after (.of_output rfl)

/-! ### A command -/

/-- From s to t every cell of region r has been written and no other, and the region lies in M. -/
structure RegionWritten (s t : State) (r : Region) : Prop where
  cells : s.mem.Wrote t.mem r.base r.count
  inside : r.count = 0 ∨ r.base + r.count ≤ s.cfg.memWords

/-- Where a command ends, it has written its write region. -/
abbrev CmdEnd.WritesRegion (i : Instr) (s : State) (e : CmdEnd) : Prop :=
  e.Ends (fun t => RegionWritten s t (Instr.writeRegionOf i s t)) fun _ => True

section
variable {s : State} (h : s.Launch)
include h

theorem regionWritten_writeRange {t : State} {base k : Nat} {vs : List Word} (hmem : t.mem = s.mem.writeRange base vs)
    (hlen : vs.length = k) (hb : base + k ≤ s.cfg.memWords) : RegionWritten s t ⟨base, k⟩ := by
  refine ⟨?_, .inr hb⟩
  rw [hmem, ← hlen]
  exact Memory.wrote_writeRange h.2.memSorted base vs

theorem regionWritten_dumpTable {t : MtfTable} (ht : MtfTable.wf t) (c : Word) :
    (dumpTable t c s).Ends (fun u => RegionWritten s u ⟨c.toNat, 256⟩) fun _ => True :=
  ends_checkRegion fun hc => regionWritten_writeRange h rfl (by simpa [allBytes] using ht.length_eq) hc

/-- The decoder's region ends where OUT_CNT says, which is at most OUT_CAP. -/
theorem regionWritten_of_delivered {t : State} (ht : t.Launch) (hd : Delivered s t) :
    RegionWritten s t ⟨s.outBase.toNat + s.outCnt.toNat, t.outCnt.toNat - s.outCnt.toNat⟩ := by
  refine ⟨hd.cells, .inr ?_⟩
  have hregion := h.2.outRegion h.1
  have hcount := ht.2.outCount
  have hs := hd.outCnt
  rw [hd.outCap] at hcount
  simp only
  omega

theorem writesRegion_decoder {e : CmdEnd} (hd : e.Delivers s) (hsafe : e.Safe) :
    e.Ends (fun t => RegionWritten s t ⟨s.outBase.toNat + s.outCnt.toNat, t.outCnt.toNat - s.outCnt.toNat⟩)
      fun _ => True := by
  cases e with
  | done t => exact regionWritten_of_delivered h hsafe hd
  | _ => trivial

omit h in
/-- A command that writes no cell has an empty write region. -/
theorem regionWritten_of_streamed {i : Instr} (hi : Instr.writesCells i = false) {t : State} (ht : Streamed s t) :
    RegionWritten s t (Instr.writeRegionOf i s t) := by
  have hempty : Instr.writeRegionOf i s t = ⟨0, 0⟩ := by
    cases i with
    | saBuild | bwtFwd | bwtInv | mtfeRun | mtfdRun | mtfeDump | mtfdDump | htbStore | chdPush | chdRun => cases hi
    | _ => rfl
  rw [hempty]
  exact ⟨by rw [ht.mem]; exact .refl _ _, .inl rfl⟩

/-- Every command's pseudocode writes its write region. -/
theorem writesRegion_bodyOf (i : Instr) : (bodyOf i s).WritesRegion i s := by
  cases i with
  | saBuild a b c =>
    exact ends_checkSrcDst fun hc => regionWritten_writeRange h rfl (by split <;> simp) hc
  | bwtFwd a b c | bwtInv a b c =>
    exact ends_checkSrcDst fun hc => ends_checkBytes (regionWritten_writeRange h rfl (by split <;> simp) hc)
  | mtfeRun a b c | mtfdRun a b c =>
    exact ends_checkSrcDst fun hc => ends_checkBytes (regionWritten_writeRange h rfl (by simp) hc)
  | mtfeDump c => exact regionWritten_dumpTable h h.2.mtf.1 c
  | mtfdDump c => exact regionWritten_dumpTable h h.2.mtf.2 c
  | htbStore u c =>
    exact ends_checkRegion fun hc => regionWritten_writeRange h rfl (length_slotCells (h.2.slotShape u)) hc
  | chdPush a => exact writesRegion_decoder h (delivers_chdPush h a) (safe_chdPush h a)
  | chdRun => exact writesRegion_decoder h (delivers_runFuel h _) (safe_runFuel h _)
  | _ => exact (streams_bodyOf rfl s).imp (fun _ => regionWritten_of_streamed rfl) fun _ _ => trivial

end

/-- Settles O16: where a command's pseudocode ends, it has written its write region and nothing outside it. -/
theorem commandsWriteOnlyTheirCells : Obligations.CommandsWriteOnlyTheirCells := by
  unfold Obligations.CommandsWriteOnlyTheirCells
  intro i s t hs h hf ht
  have hw := writesRegion_bodyOf ⟨hf, hs⟩ i
  rw [bodyOf_eq_done h hf ht] at hw
  exact ⟨hw.cells.cellsOutsideKept (exec_hostKept h).draws, hw.cells.inside, hw.inside⟩

end Sys2Proof.Machine
end

