-- ==== Sys2Proof/Proofs/RegionChecks.lean ====
section
/-! PROOF. The checks of the memory commands in the order of 60_exceptions R232, which is BOUNDS, OVERLAP, RANGE (20_memory
R62, R66, R67), and what is left of a command when its count is 0 (R68). -/

namespace Sys2Proof.Machine

/-! ### The checks -/

theorem Region.not_inBounds_iff {r : Region} {n : Nat} : (!r.inBounds n) = true ↔ n < r.base + r.count := by
  simp [Region.inBounds]

theorem Region.overlaps_iff {r q : Region} : r.overlaps q = true ↔ Overlap r.base r.count q.base q.count := by
  simp [Region.overlaps, Overlap, and_assoc]

theorem not_overlap_zero (x y : Nat) : ¬ Overlap x 0 y 0 := fun h => Nat.lt_irrefl 0 h.1

section
variable {s : State} {p : Bool} {a b c : Word} {e : CmdEnd}

theorem checkRegion_bounds {r : Region} (h : s.cfg.memWords < r.base + r.count) : checkRegion s r e = .early .bounds :=
  if_neg fun hr => Nat.not_le.2 h (Region.inBounds_iff.1 hr)

theorem checkRegion_passes {r : Region} (h : r.base + r.count ≤ s.cfg.memWords) : checkRegion s r e = e :=
  if_pos (Region.inBounds_iff.2 h)

theorem checkSrcDst_bounds (h : s.cfg.memWords < a.toNat + b.toNat ∨ s.cfg.memWords < c.toNat + b.toNat) :
    checkSrcDst s p a b c e = .early .bounds := by
  unfold checkSrcDst
  split
  · rfl
  case isFalse ha =>
    exact if_pos (Region.not_inBounds_iff.2 (h.resolve_left fun h => ha (Region.not_inBounds_iff.2 h)))

section
variable (ha : a.toNat + b.toNat ≤ s.cfg.memWords) (hc : c.toNat + b.toNat ≤ s.cfg.memWords)
include ha hc

/-- With both regions in M only the check for an overlap is left. -/
theorem checkSrcDst_inBounds : checkSrcDst s p a b c e =
    if !(p && a == c) && (regionOf a b).overlaps (regionOf c b) then .early .overlap else e :=
  (if_neg fun h => Nat.not_lt.2 ha (Region.not_inBounds_iff.1 h)).trans
    (if_neg fun h => Nat.not_lt.2 hc (Region.not_inBounds_iff.1 h))

theorem checkSrcDst_overlap (ho : Overlap a.toNat b.toNat c.toNat b.toNat) (hp : ¬ (p = true ∧ a = c)) :
    checkSrcDst s p a b c e = .early .overlap := by
  rw [checkSrcDst_inBounds ha hc]
  refine if_pos (Bool.and_eq_true_iff.2 ⟨?_, Region.overlaps_iff.2 ho⟩)
  simpa [imp_iff_not_or] using hp

theorem checkSrcDst_passes (ho : (p = true ∧ a = c) ∨ ¬ Overlap a.toNat b.toNat c.toNat b.toNat) :
    checkSrcDst s p a b c e = e := by
  rw [checkSrcDst_inBounds ha hc]
  refine if_neg fun h => ?_
  obtain ⟨hp, hov⟩ := Bool.and_eq_true_iff.1 h
  rcases ho with ho | ho
  · simp [ho] at hp
  · exact ho (Region.overlaps_iff.1 hov)

end

theorem checkBytes_range (h : ∃ x ∈ s.data a.toNat b.toNat, 255 < x) :
    checkBytes (s.readRegion a.toNat b.toNat) e = .early .range := by
  obtain ⟨x, hx, hlarge⟩ := h
  obtain ⟨w, hw, rfl⟩ := List.mem_map.1 hx
  exact if_pos (List.any_eq_true.2 ⟨w, hw, decide_eq_true hlarge⟩)

end

/-! ### The faults -/

/-- The command answers with the early fault that its pseudocode ends in. -/
theorem exec_faultedBy {i : Instr} {s : State} {c : FaultCode} (hs : s.faulted = false) (h : bodyOf i s = .early c) :
    exec i s = .next (s.faultedBy c) := by
  rw [exec_eq_runCommand, h]
  exact runCommand_early hs c

/-- The five commands with a source and a destination begin with the check of the two. -/
theorem bodyOf_of_srcDst {i : Instr} {a b c : Word} (h : Instr.srcDst i = some (a, b, c)) (s : State) :
    ∃ e, bodyOf i s = checkSrcDst s (Instr.runsInPlace i) a b c e := by
  cases i with
  | saBuild | bwtFwd | bwtInv | mtfeRun | mtfdRun => cases h; exact ⟨_, rfl⟩
  | _ => cases h

/-- Settles O20: the check of the regions comes first in every one of these commands. -/
theorem regionFaults : Obligations.RegionFaults := by
  unfold Obligations.RegionFaults
  refine ⟨fun i a b c s hi hs => ?_, fun f a b s hs h => exec_faultedBy hs (checkRegion_bounds h)⟩
  obtain ⟨e, he⟩ := bodyOf_of_srcDst hi s
  exact ⟨fun h => exec_faultedBy hs (he.trans (checkSrcDst_bounds h)),
    fun ha hc ho hp => exec_faultedBy hs (he.trans (checkSrcDst_overlap ha hc ho hp))⟩

/-- Settles O21: past the check of the regions, the check of the bytes comes first. -/
theorem cellAboveByteRaisesRange : Obligations.CellAboveByteRaisesRange := by
  unfold Obligations.CellAboveByteRaisesRange
  intro a b c f s hs ha hx
  refine ⟨fun hc ho => ?_, fun hc ho => ?_, ?_⟩
  · have hpass (e : CmdEnd) : checkSrcDst s false a b c e = e := checkSrcDst_passes ha hc (.inr ho)
    exact ⟨exec_faultedBy hs ((hpass _).trans (checkBytes_range hx)),
      exec_faultedBy hs ((hpass _).trans (checkBytes_range hx))⟩
  · have hpass (e : CmdEnd) : checkSrcDst s true a b c e = e :=
      checkSrcDst_passes ha hc (ho.imp_left fun h => ⟨rfl, h⟩)
    exact ⟨exec_faultedBy hs ((hpass _).trans (checkBytes_range hx)),
      exec_faultedBy hs ((hpass _).trans (checkBytes_range hx))⟩
  · exact exec_faultedBy hs ((checkRegion_passes ha).trans (checkBytes_range hx))

/-! ### A count of 0 -/

@[simp] theorem State.readRegion_zero (s : State) (base : Nat) : s.readRegion base 0 = [] := rfl

/-- With B = 0 the five commands with a source and a destination write no cell and move no table entry. -/
theorem bodyOf_srcDst_zero {i : Instr} {a c : Word} {s : State} (hi : Instr.srcDst i = some (a, 0, c)) (hw : s.mem.wf)
    (ha : a.toNat ≤ s.cfg.memWords) (hc : c.toNat ≤ s.cfg.memWords) : bodyOf i s = .done s := by
  have hpass (p : Bool) (e : CmdEnd) : checkSrcDst s p a 0 c e = e :=
    checkSrcDst_passes ha hc (.inr (not_overlap_zero _ _))
  cases i with
  | saBuild | bwtFwd | bwtInv | mtfeRun | mtfdRun =>
    cases hi
    refine (hpass _ _).trans (congrArg CmdEnd.done ?_)
    exact State.writeRegion_nil hw _
  | _ => cases hi

/-- In a block of no data only the terminator has a weight, and one symbol has no tree (44_huffman_tree R167). -/
theorem huffBuild_blockFreqs_nil (f : Bool) : huffBuild (blockFreqs [] f) = none := by cases f <;> decide +kernel

/-- Settles O22: with B = 0 nothing is left to read or to write; the count checks of HTB.* and the tree of CHE.BLOCK
fault. -/
theorem zeroLengthCommands : Obligations.ZeroLengthCommands := by
  unfold Obligations.ZeroLengthCommands
  intro i a c u f s hs hw
  have hbuild : bodyOf (.htbBuild u a 0) s = .early .range := rfl
  have hcanon : bodyOf (.htbCanon u a 0) s = .early .range := rfl
  have hprior : bodyOf (.htbPrior u 0) s = .early .range := rfl
  refine ⟨fun hi ha hc => ?_, exec_faultedBy hs hbuild, exec_faultedBy hs hcanon, exec_faultedBy hs hprior,
    fun ha => exec_faultedBy hs ((checkRegion_passes (r := regionOf a 0) ha).trans ?_)⟩
  · rw [exec_eq_runCommand, bodyOf_srcDst_zero hi hw ha hc, runCommand_done hs]
  · simp [checkBytes, someAboveByte, toNats, buildTable, huffBuild_blockFreqs_nil]

end Sys2Proof.Machine
end

