-- ==== Sys2Proof/Proofs/DecoderFacts.lean ====
section
/-! SUPPORT. What the decoder answers, said once: which fields are a command, and that a command and its fields determine
each other (30_encoding R84, R85). -/

namespace Sys2Proof

open Machine

/-! ### A command and its fields -/

/-- The fields that a command of operation o made from x sets: what o does not use is 0 (30_encoding R85). -/
def Fields.onlyUsed (o : Opcode) (x : Fields) : Fields :=
  let u := o.format.uses
  { op := o.code, bd := if u.bd then x.bd else 0, bs := if u.bs then x.bs else 0, n := if u.n then x.n else 0,
    f := if u.f then x.f else 0, t := if u.t then x.t else 0, rsv := 0, w1 := if u.w1 then x.w1 else 0,
    w2 := if u.w2 then x.w2 else 0, w3 := if u.w3 then x.w3 else 0 }

theorem fields_build (o : Opcode) (x : Fields) : (o.build x).fields = x.onlyUsed o := by
  cases o <;> simp [Opcode.build, Instr.fields, Instr.opcode, Fields.ofOp, Fields.onlyUsed, Opcode.format, Format.uses]

/-- Every operand of a command stands in its fields. -/
theorem build_fields (i : Instr) : i.opcode.build i.fields = i := by
  cases i <;> simp [Instr.opcode, Opcode.build, Instr.fields]

@[simp] theorem opcode_build (o : Opcode) (x : Fields) : (o.build x).opcode = o := by cases o <;> rfl

/-- Fields with the operation's code and no stray bit are those that set nothing else (30_encoding R85 (a), (c), (d)). -/
theorem onlyUsed_eq_iff {o : Opcode} {x : Fields} : x.onlyUsed o = x ↔ o.code = x.op ∧ ¬ StrayBits o x := by
  have hite {w : Nat} (u : Bool) (v : BitVec w) : (if u then v else 0) = v ↔ ¬ (u = false ∧ v ≠ 0) := by
    cases u with
    | false => simpa using eq_comm
    | true => simp
  have hrsv : 0 = x.rsv ↔ ¬ x.rsv ≠ 0 := by rw [not_not, eq_comm]
  cases x
  simp only [Fields.onlyUsed, Fields.mk.injEq, StrayBits, hite, hrsv, not_or]
  tauto

/-- The laws of OnlyUsedFields for all commands at once. -/
theorem onlyUsedFields (i : Instr) : Laws.OnlyUsedFields.Statement i := by
  have h : i.fields.onlyUsed i.opcode = i.fields := by rw [← fields_build, build_fields]
  exact (onlyUsed_eq_iff.1 h).imp_left Eq.symm

theorem BufReg.ofBits_injective : Function.Injective BufReg.ofBits := Function.LeftInverse.injective BufReg.bits_ofBits

/-- Well-formedness on the fields is 30_encoding R85 (e) and (f). -/
theorem build_wf_iff {o : Opcode} {x : Fields} : (o.build x).wf = true ↔
    (o.format.uses.n = true → x.n.toNat ≤ 64) ∧ (o = .bbAppf → x.bd ≠ x.bs) := by
  cases o with
  | bbPushl | bbPushr | bbPulll | bbPullr => simp [Opcode.build, Instr.wf, countOk, Opcode.format, Format.uses]
  | bbAppf => simp [Opcode.build, Instr.wf, Opcode.format, Format.uses, BufReg.ofBits_injective.eq_iff]
  | _ => simp [Opcode.build, Instr.wf, Opcode.format, Format.uses]

/-! ### The decoder -/

theorem checkOperands_eq_ok {i j : Instr} : checkOperands i = .ok j ↔ i.wf = true ∧ i = j := by
  unfold checkOperands
  split
  case isTrue h => simp [h]
  case isFalse h => split <;> simp [h]

theorem decodeFields_eq_ok {x : Fields} {i : Instr} : decodeFields x = .ok i ↔
    ∃ o : Opcode, o.code = x.op ∧ ¬ StrayBits o x ∧ (o.build x).wf = true ∧ o.build x = i := by
  unfold decodeFields
  cases hc : Opcode.ofCode x.op with
  | none =>
    have hnone := Opcode.ofCode_eq_none.1 hc
    split <;> simp [hnone]
  | some o =>
    have hop := Opcode.ofCode_eq_some.1 hc
    have huniq (p : Opcode) : p.code = x.op ↔ p = o :=
      ⟨fun h => Opcode.code_injective (h.trans hop.symm), fun h => h ▸ hop⟩
    simp only [huniq, exists_eq_left, strayBits_iff, not_or, ← checkOperands_eq_ok]
    split_ifs <;> simp_all

theorem decode_eq_ok {d : Desc} {i : Instr} : decode d = .ok i ↔
    ∃ o : Opcode, o.code = (unpack d).op ∧ ¬ StrayBits o (unpack d) ∧ (o.build (unpack d)).wf = true ∧
      o.build (unpack d) = i := decodeFields_eq_ok

end Sys2Proof
end

