-- ==== Sys2Proof/Proofs/Encoding.lean ====
section
/-! PROOF. The statements of 30_encoding: decode of encode, the masks of the opcode table, the six illegal cases, and what a
step does with a descriptor. -/

namespace Sys2Proof

open Machine

/-! ### Decode of encode -/

/-- Settles O2: a command's fields carry its code and no stray bit, and the command made from them is the command. -/
theorem decodeOfEncodedCommand : Obligations.DecodeOfEncodedCommand := by
  unfold Obligations.DecodeOfEncodedCommand
  intro i hwf
  have hbuild := build_fields i
  obtain ⟨hop, hstray⟩ := onlyUsedFields i
  rw [decode_eq_ok, unpack_encode]
  exact ⟨i.opcode, hop.symm, hstray, by rwa [hbuild], hbuild⟩

/-- A descriptor that decodes is the encoding of its command: what the command does not set was 0. -/
theorem encode_of_decode {d : Desc} {i : Instr} (h : decode d = .ok i) : encode i = d := by
  obtain ⟨o, hop, hstray, -, rfl⟩ := decode_eq_ok.1 h
  rw [encode, fields_build, onlyUsed_eq_iff.2 ⟨hop, hstray⟩, pack_unpack]

/-! ### Masks (30_encoding R86) -/

/-- Ones under a field that a format does not use, zeros under one it uses. -/
def onesUnless {w : Nat} (used : Bool) : BitVec w := if used then 0 else BitVec.allOnes w

theorem and_onesUnless {w : Nat} {u : Bool} {v : BitVec w} : v &&& onesUnless u = 0 ↔ ¬ (u = false ∧ v ≠ 0) := by
  cases u <;> simp [onesUnless]

/-- The fields of an operation's mask. -/
def Opcode.maskFields (o : Opcode) : Fields :=
  let u := o.format.uses
  { op := BitVec.allOnes 8, bd := onesUnless u.bd, bs := onesUnless u.bs, n := onesUnless u.n, f := onesUnless u.f,
    t := onesUnless u.t, rsv := BitVec.allOnes 10, w1 := onesUnless u.w1, w2 := onesUnless u.w2, w3 := onesUnless u.w3 }

theorem mask_eq_pack (o : Opcode) : o.mask = pack o.maskFields := by cases o <;> decide

theorem matchBits_eq_pack (o : Opcode) : o.matchBits = pack (Fields.ofOp o) := by cases o <;> decide

/-- Field by field conjunction, as the layout sees it. -/
def Fields.and (x y : Fields) : Fields :=
  { op := x.op &&& y.op, bd := x.bd &&& y.bd, bs := x.bs &&& y.bs, n := x.n &&& y.n, f := x.f &&& y.f,
    t := x.t &&& y.t, rsv := x.rsv &&& y.rsv, w1 := x.w1 &&& y.w1, w2 := x.w2 &&& y.w2, w3 := x.w3 &&& y.w3 }

theorem pack_and_pack (x y : Fields) : pack x &&& pack y = pack (x.and y) := by
  simp only [pack, Fields.and, ← BitVec.and_append]

/-- Under its mask a descriptor has the match of o exactly when it has o's code and no stray bit. -/
theorem and_mask_eq_matchBits_iff {d : Desc} {o : Opcode} :
    d &&& o.mask = o.matchBits ↔ o.code = (unpack d).op ∧ ¬ StrayBits o (unpack d) := by
  have hfields : d &&& o.mask = o.matchBits ↔ (unpack d).and o.maskFields = Fields.ofOp o := by
    rw [mask_eq_pack, matchBits_eq_pack]
    conv_lhs => rw [← pack_unpack d, pack_and_pack]
    exact ⟨pack_injective, congrArg pack⟩
  rw [hfields]
  simp only [Fields.and, Opcode.maskFields, Fields.ofOp, Fields.mk.injEq, and_onesUnless, BitVec.and_allOnes, StrayBits,
    not_or, not_not, ne_eq, eq_comm (b := o.code)]
  tauto

/-- Settles O3: the mask selects the code and leaves no stray bit, and the two further conditions are well-formedness. -/
theorem decodeAgreesWithMasks : Obligations.DecodeAgreesWithMasks := by
  unfold Obligations.DecodeAgreesWithMasks
  refine ⟨fun d o => ?_, fun d i h => ⟨encode_of_decode h, ?_⟩⟩
  · rw [← build_wf_iff, and_mask_eq_matchBits_iff, and_assoc]
    constructor
    · rintro ⟨i, hi, rfl⟩
      obtain ⟨o, hop, hstray, hwf, rfl⟩ := decode_eq_ok.1 hi
      rw [opcode_build]
      exact ⟨hop, hstray, hwf⟩
    · rintro ⟨hop, hstray, hwf⟩
      exact ⟨_, decode_eq_ok.2 ⟨o, hop, hstray, hwf, rfl⟩, opcode_build o _⟩
  · obtain ⟨o, -, -, hwf, rfl⟩ := decode_eq_ok.1 h
    exact hwf

/-! ### Illegal descriptors (30_encoding R85) -/

/-- The six cases are exactly the descriptors that are no command. -/
theorem illegalForm_iff {d : Desc} : IllegalForm (unpack d) ↔ ∀ i, decode d ≠ .ok i := by
  constructor
  · intro hillegal i hi
    obtain ⟨o, hop, hstray, hwf, -⟩ := decode_eq_ok.1 hi
    obtain ⟨hcount, hregs⟩ := build_wf_iff.1 hwf
    obtain hrsv | hnone | ⟨p, hp, hbad⟩ := hillegal
    · exact hstray (.inl hrsv)
    · exact hnone o hop
    · obtain rfl := Opcode.code_injective (hp.trans hop.symm)
      obtain h | ⟨hn, h⟩ | ⟨ho, h⟩ := hbad
      · exact hstray h
      · exact absurd (hcount hn) (Nat.not_le_of_lt h)
      · exact hregs ho h
  · intro hno
    by_contra hlegal
    simp only [IllegalForm, not_or, not_forall, not_not, not_exists, not_and, Nat.not_lt] at hlegal
    obtain ⟨-, ⟨o, hop⟩, hall⟩ := hlegal
    obtain ⟨hstray, hcount, hregs⟩ := hall o hop
    exact hno _ (decode_eq_ok.2 ⟨o, hop, hstray, build_wf_iff.2 ⟨hcount, hregs⟩, rfl⟩)

theorem issue_of_ok {d : Desc} {i : Instr} (h : decode d = .ok i) (s : State) : issue d s = exec i s := by
  rw [issue, h]

theorem issue_of_error {d : Desc} {e : DecodeError} (h : decode d = .error e) (s : State) :
    issue d s = .next (s.raise .illegal) := by rw [issue, h]

/-- Settles O4: an illegal descriptor does not decode and raises ILLEGAL, every other decodes and runs. -/
theorem illegalDescriptorRaisesIllegal : Obligations.IllegalDescriptorRaisesIllegal := by
  unfold Obligations.IllegalDescriptorRaisesIllegal
  intro d s hs
  rw [illegalForm_iff]
  cases hd : decode d with
  | ok i => exact ⟨fun h => absurd rfl (h i), fun _ => ⟨i, rfl, issue_of_ok hd s⟩⟩
  | error e =>
    refine ⟨fun _ => ⟨?_, rfl⟩, fun h => absurd nofun h⟩
    rw [issue_of_error hd, State.raise_of_clear s _ hs, State.faultedBy]

/-- Settles O1: each word is decoded. -/
theorem knownWordsDecode : Obligations.KnownWordsDecode := by
  unfold Obligations.KnownWordsDecode
  decide

/-! ### Steps -/

theorem step_of_cons {s : State} {a : HostAction} {rest : List HostAction} (h : s.pending = a :: rest) :
    step s = hostAct a { s with pending := rest, draws := s.draws + 1 } := by
  simp only [step, h, State.accept, List.tail_cons]

/-- The host reads all 128 bits of a descriptor. -/
theorem descOfBits_toNat (d : Desc) : descOfBits 128 d.toNat = d := by
  rw [descOfBits, Nat.mod_eq_of_lt d.isLt, BitVec.ofNat_toNat, BitVec.setWidth_eq]

/-- Settles O5: a step is the host's next action, and issuing is by what the descriptor decodes to. -/
theorem stepRunsDecodedCommand : Obligations.StepRunsDecodedCommand := by
  unfold Obligations.StepRunsDecodedCommand
  refine ⟨fun s a rest => step_of_cons, fun s d rest i hp hd => ?_, fun s d rest e hp hd => ?_, fun s i hwf => ?_,
    fun s hp => ?_⟩
  · rw [step_of_cons hp]
    exact issue_of_ok hd _
  · rw [step_of_cons hp]
    exact issue_of_error hd _
  · have hdecode := decodeOfEncodedCommand i hwf
    rw [← descOfBits_toNat (encode i)] at hdecode
    rw [step_of_cons (s := s.withFetchWord 128 (encode i).toNat) rfl]
    exact issue_of_ok hdecode _
  · rw [step, hp]

end Sys2Proof
end

