-- ==== Sys2Proof/Proofs/BitBufferCommands.lean ====
section
/-! PROOF. The commands BB.* (40_bit_buffer R100 to R106) and R108's laws 2 and 3 at the commands. Each command ends as its
primitive does, so its statement is the primitive's law and the rule for the command's end. -/

namespace Sys2Proof.Machine

/-! ### What the statements share -/

/-- The op field of a command's descriptor is its opcode (30_encoding R80). -/
theorem encode_opField (i : Instr) : (encode i).extractLsb' 0 8 = i.opcode.code := by
  obtain ⟨hop, -⟩ := onlyUsedFields i
  have hunpack : (unpack (encode i)).op = i.fields.op := congrArg Fields.op (unpack_encode i)
  exact hunpack.trans hop

/-- A stray bit is one of the six illegal cases, whatever the operation (30_encoding R85 (a), (c), (d)). -/
theorem strayRaisesIllegal (o : Opcode) {s : State} (hs : s.faulted = false) : StrayRaisesIllegal o s := by
  intro d hop hstray
  obtain ⟨hillegal, -⟩ := illegalDescriptorRaisesIllegal d s hs
  exact (hillegal (.inr (.inr ⟨o, hop.symm, .inl hstray⟩))).1

theorem exec_of_done {i : Instr} {s t : State} (hs : s.faulted = false) (h : bodyOf i s = .done t) :
    exec i s = .next t := by
  rw [exec_eq_runCommand, h, runCommand_done hs]

theorem checkCount_illegal {n : BitVec 7} (h : 64 < n.toNat) (e : CmdEnd) : checkCount n e = .early .illegal :=
  if_neg fun hn => Nat.not_le.2 h (of_decide_eq_true hn)

theorem checkCount_passes {n : BitVec 7} (h : n.toNat ≤ 64) (e : CmdEnd) : checkCount n e = e :=
  if_pos (decide_eq_true h)

theorem shiftLeft_or_eq_mul_add (a : Nat) {b n : Nat} (hb : b < 2 ^ n) : a <<< n ||| b = a * 2 ^ n + b := by
  rw [← Nat.shiftLeft_add_eq_or_of_lt hb, Nat.shiftLeft_eq]

/-- Settles O24: clearing writes the empty buffer to the register. -/
theorem clearEmptiesOneRegister : Obligations.ClearEmptiesOneRegister := by
  unfold Obligations.ClearEmptiesOneRegister
  intro bd s hs
  refine ⟨_, exec_of_done hs rfl, fun r => State.getBuf_setBuf s bd r _, ?_, strayRaisesIllegal _ hs, encode_opField _⟩
  rw [State.getBuf_setBuf_self]

/-! ### Pushes and pulls -/

section
variable {s : State} {bd : BufReg} {n : BitVec 7} {v : Word64} {b : BitBuf} {x : Nat}
variable (hs : s.faulted = false) (hn : n.toNat ≤ 64)
include hs hn

theorem exec_bbPushl (h : (s.getBuf bd).pushLS v.toNat n.toNat = some b) :
    exec (.bbPushl bd n v) s = .next (s.setBuf bd b) :=
  exec_of_done hs ((checkCount_passes hn _).trans (congrArg (pushEnd s bd) h))

theorem exec_bbPushr (h : (s.getBuf bd).pushMS v.toNat n.toNat = some b) :
    exec (.bbPushr bd n v) s = .next (s.setBuf bd b) :=
  exec_of_done hs ((checkCount_passes hn _).trans (congrArg (pushEnd s bd) h))

theorem exec_bbPulll (h : (s.getBuf bd).pullLS n.toNat = some (x, b)) :
    exec (.bbPulll bd n) s = .next { s.setBuf bd b with res := BitVec.ofNat 64 x } :=
  exec_of_done hs ((checkCount_passes hn _).trans (congrArg (pullEnd s bd) h))

theorem exec_bbPullr (h : (s.getBuf bd).pullMS n.toNat = some (x, b)) :
    exec (.bbPullr bd n) s = .next { s.setBuf bd b with res := BitVec.ofNat 64 x } :=
  exec_of_done hs ((checkCount_passes hn _).trans (congrArg (pullEnd s bd) h))

end

/-- Settles O25: the count is checked first, then the primitive answers a buffer or CAPACITY. -/
theorem pushCommands : Obligations.PushCommands := by
  unfold Obligations.PushCommands
  intro bd n v s hs hb
  refine ⟨fun hn => ⟨?_, ?_⟩, fun hn hlen => ⟨?_, ?_⟩, fun hn hlen => ⟨?_, ?_⟩, ?_, encode_opField _, encode_opField _⟩
  · exact exec_faultedBy hs (checkCount_illegal hn _)
  · exact exec_faultedBy hs (checkCount_illegal hn _)
  · exact exec_faultedBy hs ((checkCount_passes hn _).trans (congrArg (pushEnd s bd) (BitBuf.pushLS_none hlen)))
  · exact exec_faultedBy hs ((checkCount_passes hn _).trans (congrArg (pushEnd s bd) (BitBuf.pushMS_none hlen)))
  · obtain ⟨b, hpush, -, hblen, hval, -⟩ := BitBuf.pushLS_eq hb v.toNat n.toNat hlen
    refine ⟨b, exec_bbPushl hs hn hpush, hblen, ?_⟩
    rw [hval, shiftLeft_or_eq_mul_add _ (Nat.mod_lt _ (Nat.two_pow_pos _))]
  · obtain ⟨b, hpush, -, hblen, hval, -⟩ := BitBuf.pushMS_eq hb v.toNat n.toNat hlen
    refine ⟨b, exec_bbPushr hs hn hpush, hblen, ?_⟩
    rw [hval, shiftLeft_or_eq_mul_add _ hb.2]
  · exact fun o d _ => strayRaisesIllegal o hs d

/-- Settles O26: the count is checked first, then the primitive answers the bits and the rest, or UNDERFLOW. -/
theorem pullCommands : Obligations.PullCommands := by
  unfold Obligations.PullCommands
  intro bd n s hs hb
  refine ⟨fun hn => ⟨?_, ?_⟩, fun hn hlen => ⟨?_, ?_⟩, fun hlen => ?_, ?_, encode_opField _, encode_opField _⟩
  · exact exec_faultedBy hs (checkCount_illegal hn _)
  · exact exec_faultedBy hs (checkCount_illegal hn _)
  · exact exec_faultedBy hs ((checkCount_passes hn _).trans (congrArg (pullEnd s bd) (BitBuf.pullLS_none hlen)))
  · exact exec_faultedBy hs ((checkCount_passes hn _).trans (congrArg (pullEnd s bd) (BitBuf.pullMS_none hlen)))
  · have hn : n.toNat ≤ 64 := hlen.trans hb.1
    simp only [Nat.shiftRight_eq_div_pow]
    constructor
    · obtain ⟨b, hpull, -, hblen, hval, -⟩ := BitBuf.pullLS_eq hb hlen
      exact ⟨b, _, exec_bbPulll hs hn hpull, hblen, hval, toNat_ofNat_64 (Nat.mod_lt _ (Nat.two_pow_pos _)) hn⟩
    · obtain ⟨b, hpull, -, hblen, hval, hx, -⟩ := BitBuf.pullMS_eq hb hlen
      exact ⟨b, _, exec_bbPullr hs hn hpull, hblen, hval, toNat_ofNat_64 hx hn⟩
  · exact fun o d _ => strayRaisesIllegal o hs d

/-! ### A pushed field comes back (40_bit_buffer R108 laws 2 and 3) -/

/-- A buffer that ends in a field of n bits gives the field and the rest to PullLS. -/
theorem BitBuf.pullLS_of_bits_eq {b r : BitBuf} {v n : Nat} (hb : b.wf) (hr : r.wf) (h : b.bits = r.bits ++ bitsMS v n) :
    b.pullLS n = some (v % 2 ^ n, r) := by
  have hlen : b.len = r.len + n := by simpa using congrArg List.length h
  obtain ⟨c, hpull, hc, hclen, -, hbits⟩ := BitBuf.pullLS_eq hb (n := n) (by omega)
  obtain ⟨hrest, hfield⟩ := List.append_inj (h.symm.trans hbits) (by simp; omega)
  rw [← bitsMS_mod v] at hfield
  have hlt (w : Nat) : w % 2 ^ n < 2 ^ n := Nat.mod_lt _ (Nat.two_pow_pos n)
  rw [hpull, ← bitsMS_injective (hlt _) (hlt _) hfield, BitBuf.eq_of_bits hr hc hrest]

/-- A buffer that begins with a field of n bits gives the field and the rest to PullMS. -/
theorem BitBuf.pullMS_of_bits_eq {b r : BitBuf} {v n : Nat} (hb : b.wf) (hr : r.wf) (h : b.bits = bitsMS v n ++ r.bits) :
    b.pullMS n = some (v % 2 ^ n, r) := by
  have hlen : b.len = n + r.len := by simpa using congrArg List.length h
  obtain ⟨c, hpull, hc, hclen, -, hx, hbits⟩ := BitBuf.pullMS_eq hb (n := n) (by omega)
  obtain ⟨hfield, hrest⟩ := List.append_inj (h.symm.trans hbits) (by simp)
  rw [← bitsMS_mod v] at hfield
  rw [hpull, ← bitsMS_injective (Nat.mod_lt _ (Nat.two_pow_pos n)) hx hfield, BitBuf.eq_of_bits hr hc hrest]

section
variable {s : State} {bd : BufReg} {n : BitVec 7} {v : Word64} {b : BitBuf}
variable (hs : s.faulted = false) (hn : n.toNat ≤ 64)
include hs hn

/-- A pull at the least significant end that takes the field off gives back the state before the push, but for RES. -/
theorem exec_bbPulll_restores (h : b.pullLS n.toNat = some (v.toNat % 2 ^ n.toNat, s.getBuf bd)) :
    ∃ x, exec (.bbPulll bd n) (s.setBuf bd b) = .next { s with res := x } ∧ x.toNat = v.toNat % 2 ^ n.toNat := by
  refine ⟨_, ?_, toNat_ofNat_64 (Nat.mod_lt _ (Nat.two_pow_pos _)) hn⟩
  rw [exec_bbPulll (by simpa using hs) hn (by rwa [State.getBuf_setBuf_self]), State.setBuf_setBuf, State.setBuf_getBuf]

/-- A pull at the most significant end that takes the field off gives back the state before the push, but for RES. -/
theorem exec_bbPullr_restores (h : b.pullMS n.toNat = some (v.toNat % 2 ^ n.toNat, s.getBuf bd)) :
    ∃ x, exec (.bbPullr bd n) (s.setBuf bd b) = .next { s with res := x } ∧ x.toNat = v.toNat % 2 ^ n.toNat := by
  refine ⟨_, ?_, toNat_ofNat_64 (Nat.mod_lt _ (Nat.two_pow_pos _)) hn⟩
  rw [exec_bbPullr (by simpa using hs) hn (by rwa [State.getBuf_setBuf_self]), State.setBuf_setBuf, State.setBuf_getBuf]

end

/-- Settles O29: the push joins the field to the register's bits, and the pull splits them at the same place; with no bits
in the register both ends of the field are the register's. -/
theorem pushThenPullReturnsField : Obligations.PushThenPullReturnsField := by
  unfold Obligations.PushThenPullReturnsField
  intro bd n v s hs hb hlen
  have hn : n.toNat ≤ 64 := by omega
  obtain ⟨l, hpushl, hl, -, -, hlbits⟩ := BitBuf.pushLS_eq hb v.toNat n.toNat hlen
  obtain ⟨m, hpushr, hm, -, -, hmbits⟩ := BitBuf.pushMS_eq hb v.toNat n.toNat hlen
  rw [exec_bbPushl hs hn hpushl, exec_bbPushr hs hn hpushr]
  refine ⟨?_, ?_, fun hempty => ?_⟩
  · rintro _ ⟨⟩
    exact exec_bbPulll_restores hs hn (BitBuf.pullLS_of_bits_eq hl hb hlbits)
  · rintro _ ⟨⟩
    exact exec_bbPullr_restores hs hn (BitBuf.pullMS_of_bits_eq hm hb hmbits)
  · rintro _ ⟨⟩
    have hnil : (s.getBuf bd).bits = [] := List.eq_nil_of_length_eq_zero (by simpa using hempty)
    exact exec_bbPullr_restores hs hn (BitBuf.pullMS_of_bits_eq hl hb (by simpa [hnil] using hlbits))

/-! ### Flush and append -/

/-- Settles O27: the command is the primitive on the register, with its bytes put into SINK. -/
theorem flushCommand : Obligations.FlushCommand := by
  unfold Obligations.FlushCommand
  intro bd all s hs hb
  obtain ⟨hwf, hlen, hbytes, hbits⟩ := BitBuf.flush_spec all hb
  refine ⟨_, _, exec_of_done hs (congrArg CmdEnd.done (s.flushBuf_eq bd all)), ?_, hwf, hlen, hbits,
    strayRaisesIllegal _ hs, encode_opField _⟩
  simpa using hbytes

theorem State.setBuf_sinkPut_eq (s : State) (i : BufReg) (b : BitBuf) (bs : List Byte) : (s.setBuf i b).sinkPut bs =
    { s.setBuf i b with sink := s.sink ++ bs, sinkCnt := s.sinkCnt + BitVec.ofNat 32 bs.length } := by cases i <;> rfl

/-- The bytes of a flush without `all` are the first bits of the buffer. -/
theorem BitBuf.byteBits_flush_eq_take {r : BitBuf} (hr : r.wf) :
    byteBits (r.flush false).1 = r.bits.take (8 * (r.flush false).1.length) := by
  obtain ⟨-, -, -, hbits⟩ := BitBuf.flush_spec false hr
  have happ : r.bits = byteBits (r.flush false).1 ++ (r.flush false).2.bits := by simpa using hbits.symm
  rw [happ, List.take_left' (length_byteBits _)]

theorem bodyOf_bbAppf_of_ne {bd bs : BufReg} (h : bd ≠ bs) (s : State) :
    bodyOf (.bbAppf bd bs) s = s.appendAndFlush bd (s.getBuf bs) := if_neg h

/-- Settles O28: the merge fits exactly when the sum of the lengths left is at most 64; when it does not, what the first
flush put into SINK stays. -/
theorem appendAndFlushCommand : Obligations.AppendAndFlushCommand := by
  unfold Obligations.AppendAndFlushCommand
  intro bd bs s hs hbufs
  refine ⟨fun heq => exec_faultedBy hs (if_pos heq), fun hne hfits => ?_, fun hne hover => ?_,
    strayRaisesIllegal .bbAppf hs, encode_opField _⟩
  · obtain ⟨ys, b, hdone, hb, hlen, -, hbits⟩ := State.appendAndFlush_fits (hbufs bd) hfits
    rw [State.setBuf_sinkPut_eq] at hdone
    exact ⟨b, ys, exec_of_done hs ((bodyOf_bbAppf_of_ne hne s).trans hdone), hb, hlen, hbits⟩
  · obtain ⟨-, -, hbytes, -⟩ := BitBuf.flush_spec false (hbufs bd)
    have hlate := (bodyOf_bbAppf_of_ne hne s).trans (State.appendAndFlush_overflows (hbufs bd) hover)
    refine ⟨s.lateFault (s.flushBuf bd false) .capacity, ((s.getBuf bd).flush false).1, ?_, lateFault_faulted _ _ _,
      lateFault_err (by simpa using hs) _, ?_, by simpa using hbytes, BitBuf.byteBits_flush_eq_take (hbufs bd)⟩
    · rw [exec_eq_runCommand, hlate, runCommand_late hs]
    · rw [lateFault_sink, State.flushBuf_sink]

end Sys2Proof.Machine
end

