-- ==== Sys2Proof/Proofs/SuffixTypes.lean ====
section
/-! PROOF. The order of suffixes, the suffix array as a sort of the positions (41_suffix_array R121), and the types and LMS
positions of SA-IS (R122, R123). -/

namespace Sys2Proof.Machine

/-! ### The order of suffixes (41_suffix_array R121) -/

/-- Two suffixes compare by their first symbols, and by the suffixes after them where those agree. -/
theorem suffixLt_step {xs : List Nat} {i j : Nat} (hi : i < xs.length) (hj : j < xs.length) :
    SuffixLt xs i j ↔ symAt xs i < symAt xs j ∨ symAt xs i = symAt xs j ∧ SuffixLt xs (i + 1) (j + 1) := by
  have hshift (i m : Nat) : symAt xs (i + 1 + m) = symAt xs (i + (m + 1)) := by rw [Nat.add_right_comm, Nat.add_assoc]
  constructor
  · rintro ⟨k, hik, hjk, heq, hlt⟩
    cases k with
    | zero => exact .inl hlt
    | succ k =>
      refine .inr ⟨heq 0 (Nat.succ_pos k), k, by omega, by omega, fun m hm => ?_, ?_⟩
      · simpa only [hshift] using heq (m + 1) (Nat.succ_lt_succ hm)
      · simpa only [hshift] using hlt
  · rintro (h | ⟨h, k, hik, hjk, heq, hlt⟩)
    · exact ⟨0, hi, hj, nofun, h⟩
    · refine ⟨k + 1, by omega, by omega, fun m hm => ?_, by simpa only [hshift] using hlt⟩
      cases m with
      | zero => exact h
      | succ m => simpa only [hshift] using heq m (Nat.lt_of_succ_lt_succ hm)

theorem drop_eq_symAt_cons {xs : List Nat} {i : Nat} (h : i < xs.length) :
    xs.drop i = symAt xs i :: xs.drop (i + 1) := by
  rw [List.drop_eq_getElem_cons h, symAt_eq_getElem h]

theorem drop_lt_step {xs : List Nat} {i j : Nat} (hi : i < xs.length) (hj : j < xs.length) :
    xs.drop i < xs.drop j ↔
      symAt xs i < symAt xs j ∨ symAt xs i = symAt xs j ∧ xs.drop (i + 1) < xs.drop (j + 1) := by
  rw [drop_eq_symAt_cons hi, drop_eq_symAt_cons hj, List.cons_lt_cons_iff]

theorem SentinelString.length_pos {xs : List Nat} (h : SentinelString xs) : 0 < xs.length := by
  cases xs with
  | nil => cases h.1
  | cons => exact Nat.succ_pos _

/-- The sentinel stands at the last position and nowhere else. -/
theorem SentinelString.symAt_eq_zero {xs : List Nat} (h : SentinelString xs) {i : Nat} (hi : i < xs.length) :
    symAt xs i = 0 ↔ i + 1 = xs.length := by
  obtain ⟨hlast, hother⟩ := h
  refine ⟨fun h0 => ?_, fun hi' => ?_⟩
  · by_contra hne
    exact hother i (by omega) h0
  · obtain rfl : i = xs.length - 1 := by omega
    rw [List.getLast?_eq_getElem?] at hlast
    simp [symAt, List.getD_eq_getElem?_getD, hlast]

/-- Positions of one symbol are both before the sentinel, or the same. -/
theorem SentinelString.succ_lt {xs : List Nat} (h : SentinelString xs) {i j : Nat} (hi : i < xs.length)
    (hj : j < xs.length) (hsym : symAt xs i = symAt xs j) (hne : i ≠ j) :
    i + 1 < xs.length ∧ j + 1 < xs.length := by
  have hzi := h.symAt_eq_zero hi
  have hzj := h.symAt_eq_zero hj
  rw [hsym] at hzi
  omega

/-- No suffix begins with another, so the order of suffixes is that of lists. -/
theorem suffixLt_iff_drop_lt {xs : List Nat} (h : SentinelString xs) {i j : Nat} (hi : i < xs.length)
    (hj : j < xs.length) : SuffixLt xs i j ↔ xs.drop i < xs.drop j := by
  rw [suffixLt_step hi hj, drop_lt_step hi hj]
  refine or_congr_right (and_congr_right fun hsym => ?_)
  by_cases hne : i = j
  · subst hne
    refine iff_of_false ?_ (lt_irrefl _)
    rintro ⟨k, -, -, -, hlt⟩
    exact lt_irrefl _ hlt
  · obtain ⟨hi', hj'⟩ := h.succ_lt hi hj hsym hne
    exact suffixLt_iff_drop_lt h hi' hj'
termination_by xs.length - i

theorem lexLe_iff_not_lt (xs ys : List Nat) : lexLe xs ys = true ↔ ¬ ys < xs := by
  induction xs generalizing ys with
  | nil => simp [lexLe]
  | cons x xs ih =>
    cases ys with
    | nil => simp [lexLe]
    | cons y ys =>
      simp only [lexLe, Bool.or_eq_true, Bool.and_eq_true, decide_eq_true_eq, beq_iff_eq, ih, List.cons_lt_cons_iff]
      rcases lt_trichotomy x y with h | rfl | h
      · simp [h, h.not_gt, h.ne']
      · simp
      · simp [h, h.not_gt, h.ne']

theorem lexLe_iff_le (xs ys : List Nat) : lexLe xs ys = true ↔ xs ≤ ys := (lexLe_iff_not_lt xs ys).trans not_lt

theorem drop_injOn (xs : List Nat) {i j : Nat} (hi : i < xs.length) (hj : j < xs.length)
    (h : xs.drop i = xs.drop j) : i = j := by
  have := congrArg List.length h
  simp only [List.length_drop] at this
  omega

/-- Sorting the positions by suffix gives a suffix array. -/
theorem suffixArray_isSuffixArray {xs : List Nat} (h : SentinelString xs) : IsSuffixArray xs (suffixArray xs) := by
  have htotal : Std.Total (suffixLe xs) := ⟨fun i j => by simpa only [lexLe_iff_le] using le_total _ _⟩
  have htrans : IsTrans Nat (suffixLe xs) := ⟨fun i j k => by simpa only [lexLe_iff_le] using le_trans⟩
  have hperm := suffixArray_perm xs
  have hsorted : (suffixArray xs).Pairwise (suffixLe xs) := List.pairwise_insertionSort _ _
  have hnodup : (suffixArray xs).Nodup := hperm.nodup_iff.2 List.nodup_range
  refine ⟨hperm, (hsorted.and hnodup).imp_of_mem fun {i j} hi hj hij => ?_⟩
  have hi : i < xs.length := List.mem_range.1 (hperm.mem_iff.1 hi)
  have hj : j < xs.length := List.mem_range.1 (hperm.mem_iff.1 hj)
  obtain ⟨hle, hne⟩ := hij
  rw [suffixLt_iff_drop_lt h hi hj]
  exact lt_of_le_of_ne ((lexLe_iff_le _ _).1 hle) fun he => hne (drop_injOn xs hi hj he)

/-- A string has one suffix array (41_suffix_array R121). -/
theorem IsSuffixArray.unique {xs sa sa' : List Nat} (h : SentinelString xs) (hsa : IsSuffixArray xs sa)
    (hsa' : IsSuffixArray xs sa') : sa' = sa := by
  obtain ⟨hperm, hlt⟩ := hsa
  obtain ⟨hperm', hlt'⟩ := hsa'
  refine (hperm'.trans hperm.symm).eq_of_pairwise (fun i j hi hj hij hji => ?_) hlt' hlt
  have hi := List.mem_range.1 (hperm'.mem_iff.1 hi)
  have hj := List.mem_range.1 (hperm.mem_iff.1 hj)
  rw [suffixLt_iff_drop_lt h hi hj] at hij
  rw [suffixLt_iff_drop_lt h hj hi] at hji
  exact absurd hji (lt_asymm hij)

/-- The suffix that is the lone sentinel comes first (41_suffix_array R121). -/
theorem IsSuffixArray.head {xs sa : List Nat} (h : SentinelString xs) (hsa : IsSuffixArray xs sa) :
    sa.head? = some (xs.length - 1) := by
  obtain ⟨hperm, hlt⟩ := hsa
  have hpos := h.length_pos
  have hlast : xs.length - 1 ∈ sa := hperm.mem_iff.2 (List.mem_range.2 (by omega))
  cases sa with
  | nil => cases hlast
  | cons p ps =>
    by_contra hne
    have hmem : xs.length - 1 ∈ ps := (List.mem_cons.1 hlast).resolve_left fun he => hne (by simp [he])
    have hp := List.mem_range.1 (hperm.mem_iff.1 List.mem_cons_self)
    have hzero := (h.symAt_eq_zero (i := xs.length - 1) (by omega)).2 (by omega)
    rcases (suffixLt_step hp (by omega)).1 (List.rel_of_pairwise_cons hlt hmem) with hs | ⟨hs, -⟩
    · omega
    · have := (h.symAt_eq_zero hp).1 (hs.trans hzero)
      exact hne (by simp; omega)

/-! ### Types (41_suffix_array R122) -/

@[simp] theorem length_sTypes (xs : List Nat) : (sTypes xs).length = xs.length := by
  induction xs using sTypes.induct with
  | case1 => rfl
  | case2 => rfl
  | case3 x y r ih => simpa [sTypes] using ih

theorem isS_last (xs : List Nat) : isS (sTypes xs) (xs.length - 1) = true := by
  induction xs using sTypes.induct with
  | case1 => rfl
  | case2 => rfl
  | case3 x y r ih => simpa [sTypes, isS] using ih

theorem isS_of_length_le {xs : List Nat} {i : Nat} (h : xs.length ≤ i) : isS (sTypes xs) i = true := by
  simp [isS, List.getD_eq_getElem?_getD, h]

/-- The definition of the types, read position by position. -/
theorem isS_iff {xs : List Nat} {i : Nat} (h : i + 1 < xs.length) : isS (sTypes xs) i = true ↔
    symAt xs i < symAt xs (i + 1) ∨ symAt xs i = symAt xs (i + 1) ∧ isS (sTypes xs) (i + 1) = true := by
  induction xs using sTypes.induct generalizing i with
  | case1 => cases h
  | case2 => simp at h
  | case3 x y r ih =>
    cases i with
    | zero => simp [sTypes, isS, symAt, List.headD_eq_head?_getD, List.head?_eq_getElem?, List.getD_eq_getElem?_getD]
    | succ i =>
      have := ih (i := i) (by simpa using h)
      simpa [sTypes, isS, symAt] using this

/-- The types are the order of neighbouring suffixes (41_suffix_array R122). -/
theorem isS_iff_suffixLt {xs : List Nat} (h : SentinelString xs) {i : Nat} (hi : i + 1 < xs.length) :
    isS (sTypes xs) i = true ↔ SuffixLt xs i (i + 1) := by
  rw [isS_iff hi, suffixLt_step (by omega) hi]
  refine or_congr_right (and_congr_right fun hsym => ?_)
  obtain ⟨-, hnext⟩ := h.succ_lt (by omega) hi hsym (Nat.ne_of_lt (Nat.lt_succ_self i))
  exact isS_iff_suffixLt h hnext
termination_by xs.length - i

theorem isS_next_to_last {xs : List Nat} (h : SentinelString xs) (h2 : 2 ≤ xs.length) :
    isS (sTypes xs) (xs.length - 2) = false := by
  have hzero := (h.symAt_eq_zero (i := xs.length - 2 + 1) (by omega)).2 (by omega)
  have hpos := mt (h.symAt_eq_zero (i := xs.length - 2) (by omega)).1 (by omega)
  rw [Bool.eq_false_iff, Ne, isS_iff (by omega), hzero]
  omega

/-! ### LMS positions (41_suffix_array R123) -/

theorem isLms_iff {t : List Bool} {i : Nat} :
    isLms t i = true ↔ 0 < i ∧ isS t i = true ∧ isS t (i - 1) = false := by
  simp [isLms, and_assoc]

theorem isLms_succ_iff {t : List Bool} {i : Nat} :
    isLms t (i + 1) = true ↔ isS t (i + 1) = true ∧ isS t i = false := by simp [isLms]

theorem isLms_zero (t : List Bool) : isLms t 0 = false := rfl

theorem not_isLms_succ_of_isLms {t : List Bool} {i : Nat} (h : isLms t i = true) : isLms t (i + 1) = false := by
  obtain ⟨-, hs, -⟩ := isLms_iff.1 h
  rw [Bool.eq_false_iff, Ne, isLms_succ_iff, hs]
  simp

theorem isLms_last {xs : List Nat} (h : SentinelString xs) (h2 : 2 ≤ xs.length) :
    isLms (sTypes xs) (xs.length - 1) = true :=
  isLms_iff.2 ⟨by omega, isS_last xs, isS_next_to_last h h2⟩

/-- Of positions no two of which are adjacent, and not the first, at most half of a string's are. -/
theorem two_mul_countP_range_le {f : Nat → Bool} (h0 : f 0 = false) (hadj : ∀ i, f i = true → f (i + 1) = false)
    (n : Nat) : 2 * (List.range n).countP f ≤ n := by
  induction n using Nat.twoStepInduction with
  | zero => simp
  | one => simp [h0]
  | more n ih _ =>
    have hpair : (if f n = true then 1 else 0) + (if f (n + 1) = true then 1 else 0) ≤ 1 := by
      by_cases hn : f n = true
      · simp [hn, hadj n hn]
      · rw [if_neg hn]
        split <;> omega
    simp only [List.range_succ, List.countP_append, List.countP_singleton]
    omega

theorem two_mul_length_lmsPositions_le (xs : List Nat) : 2 * (lmsPositions (sTypes xs)).length ≤ xs.length := by
  rw [lmsPositions, ← List.countP_eq_length_filter, length_sTypes]
  exact two_mul_countP_range_le (isLms_zero _) (fun _ => not_isLms_succ_of_isLms) _

/-- Settles O32: the types by their recursion from the right, their meaning by the same recursion on the suffixes, the
bound by counting positions that are never adjacent. -/
theorem suffixTypesMatchOrder : Obligations.SuffixTypesMatchOrder := by
  unfold Obligations.SuffixTypesMatchOrder
  intro xs h
  refine ⟨length_sTypes xs, isS_last xs, fun i => isS_iff, fun i => isS_iff_suffixLt h, fun i hi => ?_, ?_,
    fun h2 => ⟨isS_next_to_last h h2, isLms_last h h2⟩, isLms_zero _, fun i ⟨hi, hi'⟩ => ?_,
    two_mul_length_lmsPositions_le xs⟩
  · exact isLms_iff.trans (and_iff_right hi)
  · rw [lmsPositions, length_sTypes]
  · exact Bool.false_ne_true ((not_isLms_succ_of_isLms hi).symm.trans hi')

end Sys2Proof.Machine
end

