-- ==== Sys2Proof/Proofs/SuffixArrayCommands.lean ====
section
/-! PROOF. SA.BUILD under the sentinel precondition (41_suffix_array R120, R121), and SA.BUILD, BWT.FWD and BWT.INV outside
their preconditions (R131, 42_bwt R145). -/

namespace Sys2Proof.Machine

/-! ### What the commands share -/

theorem length_data (s : State) (base k : Nat) : (s.data base k).length = k := by simp [State.data]

section
variable {a b c : Word} {s : State}

/-- With both regions in M and apart, SA.BUILD runs to its end (41_suffix_array R120). -/
theorem exec_saBuild (hs : s.faulted = false) (ha : a.toNat + b.toNat ≤ s.cfg.memWords)
    (hc : c.toNat + b.toNat ≤ s.cfg.memWords) (ho : ¬ Overlap a.toNat b.toNat c.toNat b.toNat) :
    exec (.saBuild a b c) s = .next (s.writeRegion c.toNat
      (if sentinelOk (s.data a.toNat b.toNat) then toWords (suffixArray (s.data a.toNat b.toNat))
       else s.freeCells c.toNat b.toNat)) :=
  exec_of_done hs (checkSrcDst_passes ha hc (.inr ho))

theorem checkBytes_passes {xs : List Word} {e : CmdEnd} (h : ∀ x ∈ toNats xs, x ≤ 255) : checkBytes xs e = e := by
  refine if_neg fun hbig => ?_
  obtain ⟨w, hw, hlarge⟩ := List.any_eq_true.1 hbig
  exact Nat.not_lt.2 (h _ (List.mem_map_of_mem hw)) (of_decide_eq_true hlarge)

/-- On bytes, BWT.FWD runs to its end (42_bwt R140). -/
theorem exec_bwtFwd (hs : s.faulted = false) (ha : a.toNat + b.toNat ≤ s.cfg.memWords)
    (hc : c.toNat + b.toNat ≤ s.cfg.memWords) (ho : ¬ Overlap a.toNat b.toNat c.toNat b.toNat)
    (hx : ∀ x ∈ s.data a.toNat b.toNat, x ≤ 255) :
    exec (.bwtFwd a b c) s = .next (s.writeRegion c.toNat
      (if sentinelOk (s.data a.toNat b.toNat) then toWords (bwtForward (s.data a.toNat b.toNat))
       else s.freeCells c.toNat b.toNat)) :=
  exec_of_done hs ((checkSrcDst_passes ha hc (.inr ho)).trans (checkBytes_passes hx))

/-- On bytes, BWT.INV runs to its end (42_bwt R143). -/
theorem exec_bwtInv (hs : s.faulted = false) (ha : a.toNat + b.toNat ≤ s.cfg.memWords)
    (hc : c.toNat + b.toNat ≤ s.cfg.memWords) (ho : ¬ Overlap a.toNat b.toNat c.toNat b.toNat)
    (hx : ∀ x ∈ s.data a.toNat b.toNat, x ≤ 255) :
    exec (.bwtInv a b c) s = .next (s.writeRegion c.toNat
      (if inverseOk (s.data a.toNat b.toNat) then toWords (bwtInverse (s.data a.toNat b.toNat))
       else s.freeCells c.toNat b.toNat)) :=
  exec_of_done hs ((checkSrcDst_passes ha hc (.inr ho)).trans (checkBytes_passes hx))

end

/-- Numbers that fit a cell come back from cells (00_scope R13). -/
theorem toNats_toWords {xs : List Nat} (h : ∀ x ∈ xs, x < 2 ^ 32) : toNats (toWords xs) = xs := by
  rw [toNats, toWords, List.map_map]
  refine (List.map_congr_left fun x hx => ?_).trans (List.map_id xs)
  exact (BitVec.toNat_ofNat x 32).trans (Nat.mod_eq_of_lt (h x hx))

/-- A region written with k numbers that fit a cell holds them. -/
theorem data_writeRegion_toWords {s : State} (h : s.mem.wf) (base : Nat) {xs : List Nat}
    (hx : ∀ x ∈ xs, x < 2 ^ 32) : (s.writeRegion base (toWords xs)).data base xs.length = xs := by
  have hread := State.readRegion_writeRegion h base (toWords xs)
  rw [length_toWords] at hread
  rw [State.data, hread, toNats_toWords hx]

theorem cellsOutsideKept_writeRegion {s : State} (h : s.mem.wf) (base : Nat) (vs : List Word) :
    CellsOutsideKept s (s.writeRegion base vs) base vs.length :=
  (Memory.wrote_writeRange h base vs).cellsOutsideKept rfl

/-! ### SA.BUILD -/

/-- Settles O30: the result layer is a suffix array, and its entries fit their cells. -/
theorem saBuildWritesSuffixArray : Obligations.SaBuildWritesSuffixArray := by
  unfold Obligations.SaBuildWritesSuffixArray
  intro a b c s hs hw ha hc ho hsent
  have hsa := suffixArray_isSuffixArray hsent
  have hlen : (suffixArray (s.data a.toNat b.toNat)).length = b.toNat := by rw [length_suffixArray, length_data]
  have hfits : ∀ x ∈ suffixArray (s.data a.toNat b.toNat), x < 2 ^ 32 := fun x hx => by
    have hx : x < b.toNat := by simpa [length_data] using (suffixArray_perm _).mem_iff.1 hx
    exact hx.trans b.isLt
  have hexec := exec_saBuild hs ha hc ho
  rw [if_pos (sentinelOk_iff.2 hsent)] at hexec
  refine ⟨_, _, hexec, hsa, ?_, ?_, fun sa' hsa' => hsa.unique hsent hsa', ?_, rfl⟩
  · simpa only [hlen] using data_writeRegion_toWords hw c.toNat hfits
  · simpa only [length_data] using hsa.head hsent
  · simpa only [length_toWords, hlen] using cellsOutsideKept_writeRegion hw c.toNat
      (toWords (suffixArray (s.data a.toNat b.toNat)))

/-- Settles O31: outside its precondition each of the three commands writes free values, as many as its region has
cells. -/
theorem brokenPreconditionWritesOnlyItsCells : Obligations.BrokenPreconditionWritesOnlyItsCells := by
  unfold Obligations.BrokenPreconditionWritesOnlyItsCells
  intro a b c s hs hw ha hc ho i hi
  have hexec : exec i s = .next (s.writeRegion c.toNat (s.freeCells c.toNat b.toNat)) := by
    rcases hi with ⟨rfl, hsent⟩ | ⟨rfl, hx, hsent⟩ | ⟨rfl, hx, hzero⟩
    · rw [exec_saBuild hs ha hc ho, if_neg (mt sentinelOk_iff.1 hsent)]
    · rw [exec_bwtFwd hs ha hc ho hx, if_neg (mt sentinelOk_iff.1 hsent)]
    · rw [exec_bwtInv hs ha hc ho hx, if_neg (by simpa [inverseOk] using hzero)]
  have hwrote := Memory.wrote_writeRange hw c.toNat (s.freeCells c.toNat b.toNat)
  rw [State.length_freeCells] at hwrote
  exact ⟨_, hexec, rfl, hwrote.cellsOutsideKept rfl, hwrote.inside⟩

end Sys2Proof.Machine
end

