-- ==== Sys2Proof/Proofs/InductionSweep.lean ====
section
/-! SUPPORT. One sweep of the induced sort (41_suffix_array R125, passes 1 and 2), said once for both directions: every
position lands at its rank when it is placed before it is read and its pointer stands at that rank. -/

namespace Sys2Proof.Machine

/-! ### Ranks -/

/-- How many positions below n have a smaller key than p: the place of p when the positions are sorted by key. -/
def rankBy (n : Nat) (key : Nat → List Nat) (p : Nat) : Nat := ((Finset.range n).filter (fun q => key q < key p)).card

section
variable {n : Nat} {key : Nat → List Nat} (hinj : ∀ p < n, ∀ q < n, key p = key q → p = q)

theorem rankBy_lt_rankBy_of_lt {p q : Nat} (hp : p < n) (h : key p < key q) : rankBy n key p < rankBy n key q := by
  refine Finset.card_lt_card ((Finset.ssubset_iff_of_subset fun u hu => ?_).2 ⟨p, ?_, ?_⟩)
  · rw [Finset.mem_filter] at hu ⊢
    exact ⟨hu.1, hu.2.trans h⟩
  · simpa [hp] using h
  · simp

theorem rankBy_lt {p : Nat} (hp : p < n) : rankBy n key p < n := by
  have hlt : rankBy n key p < (Finset.range n).card :=
    Finset.card_lt_card ((Finset.filter_ssubset).2 ⟨p, Finset.mem_range.2 hp, lt_irrefl _⟩)
  rwa [Finset.card_range] at hlt

include hinj

theorem rankBy_lt_rankBy {p q : Nat} (hp : p < n) (hq : q < n) :
    rankBy n key p < rankBy n key q ↔ key p < key q := by
  refine ⟨fun h => ?_, rankBy_lt_rankBy_of_lt hp⟩
  rcases lt_trichotomy (key p) (key q) with hlt | heq | hgt
  · exact hlt
  · rw [hinj p hp q hq heq] at h
    exact absurd h (lt_irrefl _)
  · exact absurd h (rankBy_lt_rankBy_of_lt hq hgt).not_gt

theorem rankBy_injective {p q : Nat} (hp : p < n) (hq : q < n) (h : rankBy n key p = rankBy n key q) : p = q := by
  refine hinj p hp q hq (le_antisymm (not_lt.1 fun hlt => ?_) (not_lt.1 fun hlt => ?_))
  · exact absurd h (rankBy_lt_rankBy_of_lt hq hlt).ne'
  · exact absurd h (rankBy_lt_rankBy_of_lt hp hlt).ne

theorem exists_rankBy_eq {i : Nat} (hi : i < n) : ∃ p < n, rankBy n key p = i := by
  have hsurj := Finset.surjOn_of_injOn_of_card_le (s := Finset.range n) (t := Finset.range n) (rankBy n key)
    (fun p hp => by simpa using rankBy_lt (by simpa using hp))
    (fun p hp q hq h => rankBy_injective hinj (by simpa using hp) (by simpa using hq) h) le_rfl
  obtain ⟨p, hp, hpi⟩ := hsurj (by simpa using hi)
  exact ⟨p, by simpa using hp, hpi⟩

end

/-! ### Buckets (41_suffix_array R124) -/

theorem map_symAt_range (xs : List Nat) : (List.range xs.length).map (symAt xs) = xs := by
  refine List.ext_getElem (by simp) fun i h _ => ?_
  simp only [List.getElem_map, List.getElem_range]
  exact symAt_eq_getElem (by simpa using h)

/-- Counting symbols is counting positions. -/
theorem countP_eq_card (xs : List Nat) (f : Nat → Bool) :
    xs.countP f = ((Finset.range xs.length).filter (fun q => f (symAt xs q) = true)).card := by
  conv_lhs => rw [← map_symAt_range xs, List.countP_map]
  simp [List.countP_eq_length_filter, Finset.card, Finset.range, Multiset.range, Function.comp_def]

theorem bucketHead_eq_card (xs : List Nat) (c : Nat) :
    bucketHead xs c = ((Finset.range xs.length).filter (fun q => symAt xs q < c)).card := by
  rw [bucketHead, countP_eq_card]
  simp only [decide_eq_true_eq]

/-- head(c), cnt[c] and the number of symbols above c make up the length (41_suffix_array R124). -/
theorem bucketHead_add_count_add_card (xs : List Nat) (c : Nat) :
    bucketHead xs c + xs.count c + ((Finset.range xs.length).filter (fun q => c < symAt xs q)).card = xs.length := by
  have hcount : xs.count c = ((Finset.range xs.length).filter (fun q => symAt xs q = c)).card := by
    rw [List.count, countP_eq_card]
    simp only [beq_iff_eq]
  rw [bucketHead_eq_card, hcount]
  simp only [Finset.card_filter, ← Finset.sum_add_distrib]
  calc _ = ∑ _q ∈ Finset.range xs.length, 1 := Finset.sum_congr rfl fun q _ => by split_ifs <;> omega
    _ = xs.length := by simp

section
variable {xs : List Nat} {key : Nat → List Nat} {p : Nat} {C : Nat → Prop} [DecidablePred C]

/-- A position whose class comes first in its bucket stands at the head plus the number of its class before it. -/
theorem rankBy_eq_head_add (hkey : ∀ q < xs.length,
      (key q < key p ↔ symAt xs q < symAt xs p ∨ C q ∧ symAt xs q = symAt xs p ∧ key q < key p)) :
    rankBy xs.length key p = bucketHead xs (symAt xs p) +
      ((Finset.range xs.length).filter (fun q => C q ∧ symAt xs q = symAt xs p ∧ key q < key p)).card := by
  rw [rankBy, bucketHead_eq_card, Finset.filter_congr fun q hq => hkey q (Finset.mem_range.1 hq), Finset.filter_or,
    Finset.card_union_of_disjoint]
  exact Finset.disjoint_filter.2 fun q _ hlt heq => hlt.ne heq.2.1

/-- A position whose class comes last in its bucket stands at the tail less the number of its class after it. -/
theorem rankBy_eq_tail_sub (hinj : ∀ p < xs.length, ∀ q < xs.length, key p = key q → p = q) (hp : p < xs.length)
    (hkey : ∀ q < xs.length,
      (key p < key q ↔ symAt xs p < symAt xs q ∨ C q ∧ symAt xs q = symAt xs p ∧ key p < key q)) :
    rankBy xs.length key p = bucketTail xs (symAt xs p) -
      ((Finset.range xs.length).filter (fun q => C q ∧ symAt xs q = symAt xs p ∧ key p < key q)).card := by
  have hsplit : rankBy xs.length key p + 1 + ((Finset.range xs.length).filter (fun q => key p < key q)).card =
      xs.length := by
    have hself : ((Finset.range xs.length).filter (fun q => q = p)).card = 1 := by
      simp [Finset.filter_eq', hp]
    rw [rankBy, ← hself]
    simp only [Finset.card_filter, ← Finset.sum_add_distrib]
    calc _ = ∑ _q ∈ Finset.range xs.length, 1 := Finset.sum_congr rfl fun q hq => ?_
      _ = xs.length := by simp
    rcases lt_trichotomy (key q) (key p) with hlt | heq | hgt
    · have hne : q ≠ p := fun h => hlt.ne (congrArg key h)
      simp [hlt, hlt.not_gt, hne]
    · simp [hinj q (Finset.mem_range.1 hq) p hp heq]
    · have hne : q ≠ p := fun h => hgt.ne' (congrArg key h)
      simp [hgt, hgt.not_gt, hne]
  have habove : ((Finset.range xs.length).filter (fun q => key p < key q)).card =
      ((Finset.range xs.length).filter (fun q => symAt xs p < symAt xs q)).card +
      ((Finset.range xs.length).filter (fun q => C q ∧ symAt xs q = symAt xs p ∧ key p < key q)).card := by
    rw [Finset.filter_congr fun q hq => hkey q (Finset.mem_range.1 hq), Finset.filter_or,
      Finset.card_union_of_disjoint]
    exact Finset.disjoint_filter.2 fun q _ hlt heq => hlt.ne' heq.2.1
  have hbucket := bucketHead_add_count_add_card xs (symAt xs p)
  rw [bucketTail]
  omega

end

/-! ### One sweep over the array (41_suffix_array R125, passes 1 and 2) -/

/-- The array's entry at index i. -/
def entryAt (a : List (Option Nat)) (i : Nat) : Option Nat := a.getD i none

theorem entryAt_set_self {a : List (Option Nat)} {i : Nat} (h : i < a.length) (v : Option Nat) :
    entryAt (a.set i v) i = v := by simp [entryAt, h, List.getD_eq_getElem?_getD]

theorem entryAt_set_ne {a : List (Option Nat)} {i j : Nat} (h : i ≠ j) (v : Option Nat) :
    entryAt (a.set i v) j = entryAt a j := by simp [entryAt, h, List.getD_eq_getElem?_getD]

/-- Place p at the pointer of its symbol; `slot c k` is where the pointer of c stands after k placements. -/
def Induction.placeAt (slot : Nat → Nat → Nat) (xs : List Nat) (st : Induction) (p : Nat) : Induction :=
  { entries := st.entries.set (slot (symAt xs p) (st.placed.count (symAt xs p))) (some p),
    placed := symAt xs p :: st.placed }

theorem placeHead_eq_placeAt (xs : List Nat) :
    Induction.placeHead xs = Induction.placeAt (fun c k => bucketHead xs c + k) xs := rfl

theorem placeTail_eq_placeAt (xs : List Nat) :
    Induction.placeTail xs = Induction.placeAt (fun c k => bucketTail xs c - k) xs := rfl

/-- p is a position that a sweep for type s places: one of that type that has a successor. -/
abbrev Induced (xs : List Nat) (t : List Bool) (s : Bool) (p : Nat) : Prop := p + 1 < xs.length ∧ isS t p = s

/-- How many positions of symbol c have been placed before time τ, where p is placed when its successor is read. -/
def placedBefore (xs : List Nat) (t : List Bool) (s : Bool) (time : Nat → Nat) (c τ : Nat) : Nat :=
  ((Finset.range xs.length).filter (fun q => Induced xs t s q ∧ symAt xs q = c ∧ time (q + 1) < τ)).card

/-- What makes a sweep place every position where it belongs. At time τ the sweep visits index `index τ`; a position p
with `reads p` is to be read there at `time p`. -/
structure SweepPlan (xs : List Nat) (t : List Bool) (s : Bool) (slot : Nat → Nat → Nat) (index time : Nat → Nat)
    (reads : Nat → Prop) (init : List (Option Nat)) : Prop where
  length_eq : init.length = xs.length
  index_lt : ∀ τ < xs.length, index τ < xs.length
  index_inj : ∀ τ < xs.length, ∀ σ < xs.length, index τ = index σ → τ = σ
  time_lt : ∀ p, reads p → p < xs.length ∧ time p < xs.length
  time_inj : ∀ p q, reads p → reads q → time p = time q → p = q
  reads_induced : ∀ p, Induced xs t s p → reads p ∧ reads (p + 1)
  /-- a position is placed before it is read -/
  placed_before_read : ∀ p, Induced xs t s p → time (p + 1) < time p
  /-- where it belongs is where the pointer of its symbol then stands -/
  slot_eq : ∀ p, Induced xs t s p →
    index (time p) = slot (symAt xs p) (placedBefore xs t s time (symAt xs p) (time (p + 1)))
  /-- the positions that the sweep does not place stand where they belong already -/
  given : ∀ p, reads p → ¬ Induced xs t s p → entryAt init (index (time p)) = some p
  /-- nothing else is read -/
  empty : ∀ τ < xs.length, (∀ p, reads p → time p ≠ τ) → entryAt init (index τ) = none

/-- The sweep after the visits before time τ. -/
structure SweepPlan.Reached (xs : List Nat) (t : List Bool) (s : Bool) (index time : Nat → Nat) (reads : Nat → Prop)
    (τ : Nat) (st : Induction) : Prop where
  length_eq : st.entries.length = xs.length
  placed : ∀ p, reads p → (Induced xs t s p → time (p + 1) < τ) → entryAt st.entries (index (time p)) = some p
  empty : ∀ σ < xs.length, (∀ p, reads p → time p ≠ σ) → entryAt st.entries (index σ) = none
  count_eq : ∀ c, st.placed.count c = placedBefore xs t s time c τ

section
variable {xs : List Nat} {t : List Bool} {s : Bool} {slot : Nat → Nat → Nat} {index time : Nat → Nat}
  {reads : Nat → Prop} {init : List (Option Nat)} {τ : Nat} {st : Induction}

theorem placedBefore_succ_of_none (h : ∀ q, Induced xs t s q → time (q + 1) ≠ τ) (c : Nat) :
    placedBefore xs t s time c (τ + 1) = placedBefore xs t s time c τ := by
  refine congrArg Finset.card (Finset.filter_congr fun q _ => and_congr_right fun hq => and_congr_right fun _ => ?_)
  have := h q hq
  omega

theorem placedBefore_succ_of_some (plan : SweepPlan xs t s slot index time reads init) {p : Nat}
    (hp : Induced xs t s p) (hτ : time (p + 1) = τ) (c : Nat) :
    placedBefore xs t s time c (τ + 1) = placedBefore xs t s time c τ + if symAt xs p = c then 1 else 0 := by
  have honly : ∀ q, Induced xs t s q → (time (q + 1) < τ + 1 ↔ time (q + 1) < τ ∨ q = p) := fun q hq => by
    refine Nat.lt_succ_iff_lt_or_eq.trans (or_congr_right ⟨fun hqτ => ?_, fun hqp => hqp ▸ hτ⟩)
    have := plan.time_inj _ _ (plan.reads_induced q hq).2 (plan.reads_induced p hp).2 (hqτ.trans hτ.symm)
    omega
  by_cases hc : symAt xs p = c
  · have hnew : p ∉ (Finset.range xs.length).filter
        (fun q => Induced xs t s q ∧ symAt xs q = c ∧ time (q + 1) < τ) := fun hmem => by
      have hlt := (Finset.mem_filter.1 hmem).2.2.2
      omega
    rw [if_pos hc, placedBefore, placedBefore, ← Finset.card_insert_of_notMem hnew]
    refine congrArg Finset.card (Finset.ext fun q => ?_)
    simp only [Finset.mem_insert, Finset.mem_filter, Finset.mem_range]
    constructor
    · rintro ⟨hqn, hq, hqc, hlt⟩
      exact ((honly q hq).1 hlt).symm.imp_right fun hlt => ⟨hqn, hq, hqc, hlt⟩
    · rintro (rfl | ⟨hqn, hq, hqc, hlt⟩)
      · exact ⟨Nat.lt_of_succ_lt hp.1, hp, hc, hτ ▸ Nat.lt_succ_self _⟩
      · exact ⟨hqn, hq, hqc, hlt.trans (Nat.lt_succ_self τ)⟩
  · rw [if_neg hc, Nat.add_zero]
    refine congrArg Finset.card (Finset.filter_congr fun q _ => and_congr_right fun hq => and_congr_right fun hqc => ?_)
    exact (honly q hq).trans (or_iff_left fun hqp => hc (hqp ▸ hqc))

theorem SweepPlan.reached_zero (plan : SweepPlan xs t s slot index time reads init) :
    Reached xs t s index time reads 0 ⟨init, []⟩ where
  length_eq := plan.length_eq
  placed p hp hlt := plan.given p hp fun hind => Nat.not_lt_zero _ (hlt hind)
  empty := plan.empty
  count_eq c := by simp [placedBefore]

/-- A visit that places nothing. -/
theorem SweepPlan.Reached.idle (h : Reached xs t s index time reads τ st)
    (hnone : ∀ q, Induced xs t s q → time (q + 1) ≠ τ) : Reached xs t s index time reads (τ + 1) st where
  length_eq := h.length_eq
  placed p hp hlt := h.placed p hp fun hind => by
    have := hlt hind
    have := hnone p hind
    omega
  empty := h.empty
  count_eq c := (h.count_eq c).trans (placedBefore_succ_of_none hnone c).symm

/-- A visit that places p, whose successor it reads. -/
theorem SweepPlan.Reached.place (plan : SweepPlan xs t s slot index time reads init)
    (h : Reached xs t s index time reads τ st) {p : Nat} (hp : Induced xs t s p) (hτ : time (p + 1) = τ) :
    Reached xs t s index time reads (τ + 1) (st.placeAt slot xs p) := by
  obtain ⟨hread, -⟩ := plan.reads_induced p hp
  obtain ⟨-, htime⟩ := plan.time_lt p hread
  have hentries : (st.placeAt slot xs p).entries = st.entries.set (index (time p)) (some p) := by
    rw [Induction.placeAt, h.count_eq, plan.slot_eq p hp, hτ]
  have hother : ∀ σ < xs.length, time p ≠ σ → entryAt (st.placeAt slot xs p).entries (index σ) =
      entryAt st.entries (index σ) := fun σ hσ hne => by
    rw [hentries, entryAt_set_ne fun he => hne (plan.index_inj _ htime σ hσ he)]
  refine ⟨by rw [hentries, List.length_set, h.length_eq], fun q hq hlt => ?_, fun σ hσ hnone => ?_, fun c => ?_⟩
  · by_cases hqp : q = p
    · subst hqp
      rw [hentries, entryAt_set_self (by rw [h.length_eq]; exact plan.index_lt _ htime)]
    · rw [hother _ (plan.time_lt q hq).2 fun he => hqp (plan.time_inj _ _ hread hq he).symm]
      refine h.placed q hq fun hind => ?_
      have hne : time (q + 1) ≠ τ := fun he => hqp <| by
        have := plan.time_inj _ _ (plan.reads_induced q hind).2 (plan.reads_induced p hp).2 (he.trans hτ.symm)
        omega
      have := hlt hind
      omega
  · rw [hother σ hσ (hnone p hread), h.empty σ hσ hnone]
  · rw [placedBefore_succ_of_some plan hp hτ, ← h.count_eq, Induction.placeAt, List.count_cons]
    simp only [beq_iff_eq]

/-- One visit (41_suffix_array R125). -/
theorem SweepPlan.Reached.visit (plan : SweepPlan xs t s slot index time reads init) (hτ : τ < xs.length)
    (h : Reached xs t s index time reads τ st) :
    Reached xs t s index time reads (τ + 1) (st.visit s t (Induction.placeAt slot xs) (index τ)) := by
  by_cases hex : ∃ p, reads p ∧ time p = τ
  · obtain ⟨p, hp, hpτ⟩ := hex
    obtain ⟨hlt, -⟩ := plan.time_lt p hp
    have hentry : entryAt st.entries (index τ) = some p :=
      hpτ ▸ h.placed p hp fun hind => hpτ ▸ plan.placed_before_read p hind
    have hsucc : ∀ q, Induced xs t s q → time (q + 1) = τ → q + 1 = p := fun q hq hqτ =>
      plan.time_inj _ _ (plan.reads_induced q hq).2 hp (hqτ.trans hpτ.symm)
    have hvisit : st.visit s t (Induction.placeAt slot xs) (index τ) =
        if 0 < p && isS t (p - 1) == s then st.placeAt slot xs (p - 1) else st := by
      rw [Induction.visit, show st.entries.getD (index τ) none = some p from hentry]
    rw [hvisit]
    split
    case isTrue hcond =>
      obtain ⟨hpos, htype⟩ : 0 < p ∧ isS t (p - 1) = s := by simpa using hcond
      have hback : p - 1 + 1 = p := by omega
      exact h.place plan ⟨by omega, htype⟩ (by rw [hback, hpτ])
    case isFalse hcond =>
      refine h.idle fun q hq hqτ => hcond ?_
      obtain rfl := hsucc q hq hqτ
      simp [hq.2]
  · have hentry : entryAt st.entries (index τ) = none := h.empty τ hτ fun p hp hpτ => hex ⟨p, hp, hpτ⟩
    have hvisit : st.visit s t (Induction.placeAt slot xs) (index τ) = st := by
      rw [Induction.visit, show st.entries.getD (index τ) none = none from hentry]
    rw [hvisit]
    exact h.idle fun q hq hqτ => hex ⟨q + 1, (plan.reads_induced q hq).2, hqτ⟩

/-- A whole sweep. -/
theorem SweepPlan.reached_all (plan : SweepPlan xs t s slot index time reads init) :
    Reached xs t s index time reads xs.length
      (((List.range xs.length).map index).foldl (Induction.visit s t (Induction.placeAt slot xs)) ⟨init, []⟩) := by
  have hreach : ∀ k ≤ xs.length, Reached xs t s index time reads k
      (((List.range k).map index).foldl (Induction.visit s t (Induction.placeAt slot xs)) ⟨init, []⟩) := by
    intro k
    induction k with
    | zero => exact fun _ => plan.reached_zero
    | succ k ih =>
      intro hk
      rw [List.range_succ, List.map_append, List.foldl_append]
      exact (ih (by omega)).visit plan hk
  exact hreach _ le_rfl

/-- At the end of the sweep every position it reads stands where it belongs. -/
theorem SweepPlan.entryAt_final (plan : SweepPlan xs t s slot index time reads init) {p : Nat} (hp : reads p) :
    entryAt (((List.range xs.length).map index).foldl (Induction.visit s t (Induction.placeAt slot xs))
      ⟨init, []⟩).entries (index (time p)) = some p :=
  plan.reached_all.placed p hp fun hind => (plan.time_lt _ (plan.reads_induced p hind).2).2

end

end Sys2Proof.Machine
end

