-- ==== Sys2Proof/Proofs/SuffixKeys.lean ====
section
/-! SUPPORT. The keys by which SA-IS sorts (41_suffix_array R124, R125): the order of positions that the three passes produce
from any order of the LMS positions, as the order of lists of numbers. -/

namespace Sys2Proof.Machine

/-! ### The keys by which an induction sorts -/

/-- A symbol and its type as one number: within a bucket L-type comes before S-type (41_suffix_array R124). -/
def typeCode (xs : List Nat) (p : Nat) : Nat := 2 * symAt xs p + if isS (sTypes xs) p then 1 else 0

/-- The part of its bucket that pass 0 and pass 1 put a position in: L-type, S-type, and the LMS positions at the end
(41_suffix_array R125). -/
def lmsClass (xs : List Nat) (p : Nat) : Nat :=
  if isLms (sTypes xs) p then 2 else if isS (sTypes xs) p then 1 else 0

/-- A symbol and its class as one number. -/
def lmsCode (xs : List Nat) (p : Nat) : Nat := 3 * symAt xs p + lmsClass xs p

/-- The codes from p up to the next LMS position, p itself included, and then `r` of that position. -/
def lmsKey (xs : List Nat) (r : Nat → Nat) (p : Nat) : List Nat :=
  if _ : p < xs.length then
    lmsCode xs p :: if isLms (sTypes xs) p then [r p] else lmsKey xs r (p + 1)
  else []
termination_by xs.length - p

/-- The key by which the three passes sort the positions, when `r` orders the LMS positions of one bucket in pass 0. -/
def inducedKey (xs : List Nat) (r : Nat → Nat) (p : Nat) : List Nat := typeCode xs p :: lmsKey xs r (p + 1)

section
variable {xs : List Nat} {r : Nat → Nat} {p q : Nat}

theorem isS_of_isLms {t : List Bool} (h : isLms t p = true) : isS t p = true := (isLms_iff.1 h).2.1

theorem not_isLms_of_isL {t : List Bool} (h : isS t p = false) : isLms t p = false := by simp [isLms, h]

theorem not_isLms_succ_of_isS {t : List Bool} (h : isS t p = true) : isLms t (p + 1) = false := by simp [isLms, h]

theorem lt_length_of_isLms (h : isLms (sTypes xs) p = true) : p < xs.length := by
  obtain ⟨hpos, -, hL⟩ := isLms_iff.1 h
  by_contra hge
  by_cases hp : p = xs.length
  · rw [hp, isS_last] at hL
    cases hL
  · rw [isS_of_length_le (by omega)] at hL
    cases hL

theorem typeCode_lt_iff : typeCode xs p < typeCode xs q ↔ symAt xs p < symAt xs q ∨
    symAt xs p = symAt xs q ∧ isS (sTypes xs) p = false ∧ isS (sTypes xs) q = true := by
  unfold typeCode
  cases isS (sTypes xs) p <;> cases isS (sTypes xs) q <;> simp <;> omega

theorem typeCode_eq_iff : typeCode xs p = typeCode xs q ↔
    symAt xs p = symAt xs q ∧ isS (sTypes xs) p = isS (sTypes xs) q := by
  unfold typeCode
  cases isS (sTypes xs) p <;> cases isS (sTypes xs) q <;> simp <;> omega

theorem lmsClass_of_isLms (h : isLms (sTypes xs) p = true) : lmsClass xs p = 2 := if_pos h

theorem lmsClass_of_not_isLms (h : isLms (sTypes xs) p = false) :
    lmsClass xs p = if isS (sTypes xs) p then 1 else 0 := if_neg (by simp [h])

theorem lmsClass_of_isL (h : isS (sTypes xs) p = false) : lmsClass xs p = 0 := by
  rw [lmsClass_of_not_isLms (not_isLms_of_isL h), h]
  rfl

theorem lmsClass_cases (xs : List Nat) (p : Nat) :
    (lmsClass xs p = 0 ∧ isS (sTypes xs) p = false ∧ isLms (sTypes xs) p = false) ∨
    (lmsClass xs p = 1 ∧ isS (sTypes xs) p = true ∧ isLms (sTypes xs) p = false) ∨
    (lmsClass xs p = 2 ∧ isS (sTypes xs) p = true ∧ isLms (sTypes xs) p = true) := by
  cases hl : isLms (sTypes xs) p with
  | true => exact .inr (.inr ⟨lmsClass_of_isLms hl, isS_of_isLms hl, rfl⟩)
  | false => cases hs : isS (sTypes xs) p <;> simp [lmsClass_of_not_isLms hl, hs]

theorem lmsClass_le_two (xs : List Nat) (p : Nat) : lmsClass xs p ≤ 2 := by
  rcases lmsClass_cases xs p with ⟨h, -⟩ | ⟨h, -⟩ | ⟨h, -⟩ <;> omega

theorem lmsClass_eq_iff : lmsClass xs p = lmsClass xs q ↔
    isS (sTypes xs) p = isS (sTypes xs) q ∧ isLms (sTypes xs) p = isLms (sTypes xs) q := by
  rcases lmsClass_cases xs p with ⟨hp, hps, hpl⟩ | ⟨hp, hps, hpl⟩ | ⟨hp, hps, hpl⟩ <;>
    rcases lmsClass_cases xs q with ⟨hq, hqs, hql⟩ | ⟨hq, hqs, hql⟩ | ⟨hq, hqs, hql⟩ <;>
      simp [hp, hq, hps, hqs, hpl, hql]

theorem isL_of_lmsClass_le (hL : isS (sTypes xs) p = false) (hle : lmsClass xs q ≤ lmsClass xs p) :
    isS (sTypes xs) q = false := by
  rw [lmsClass_of_isL hL] at hle
  rcases lmsClass_cases xs q with ⟨-, hq, -⟩ | ⟨hq, -⟩ | ⟨hq, -⟩
  · exact hq
  · omega
  · omega

theorem isLms_of_lmsClass_le (hp : isLms (sTypes xs) p = true) (hle : lmsClass xs p ≤ lmsClass xs q) :
    isLms (sTypes xs) q = true := by
  rw [lmsClass_of_isLms hp] at hle
  rcases lmsClass_cases xs q with ⟨hq, -⟩ | ⟨hq, -⟩ | ⟨-, -, hq⟩
  · omega
  · omega
  · exact hq

theorem lmsCode_lt_iff : lmsCode xs p < lmsCode xs q ↔
    symAt xs p < symAt xs q ∨ symAt xs p = symAt xs q ∧ lmsClass xs p < lmsClass xs q := by
  have hp := lmsClass_le_two xs p
  have hq := lmsClass_le_two xs q
  unfold lmsCode
  omega

theorem lmsCode_eq_iff : lmsCode xs p = lmsCode xs q ↔
    symAt xs p = symAt xs q ∧ lmsClass xs p = lmsClass xs q := by
  have hp := lmsClass_le_two xs p
  have hq := lmsClass_le_two xs q
  unfold lmsCode
  omega

/-- Off the LMS positions the two codes sort alike. -/
theorem lmsCode_lt_iff_typeCode_lt (hp : isLms (sTypes xs) p = false) (hq : isLms (sTypes xs) q = false) :
    lmsCode xs p < lmsCode xs q ↔ typeCode xs p < typeCode xs q := by
  rw [lmsCode_lt_iff, typeCode_lt_iff, lmsClass_of_not_isLms hp, lmsClass_of_not_isLms hq]
  cases isS (sTypes xs) p <;> cases isS (sTypes xs) q <;> simp

theorem lmsCode_eq_iff_typeCode_eq (hp : isLms (sTypes xs) p = false) (hq : isLms (sTypes xs) q = false) :
    lmsCode xs p = lmsCode xs q ↔ typeCode xs p = typeCode xs q := by
  rw [lmsCode_eq_iff, typeCode_eq_iff, lmsClass_eq_iff, hp, hq]
  simp

theorem lmsKey_of_isLms (hp : isLms (sTypes xs) p = true) : lmsKey xs r p = [lmsCode xs p, r p] := by
  rw [lmsKey, dif_pos (lt_length_of_isLms hp), if_pos hp]

theorem lmsKey_of_not_isLms (hlt : p < xs.length) (hp : isLms (sTypes xs) p = false) :
    lmsKey xs r p = lmsCode xs p :: lmsKey xs r (p + 1) := by
  rw [lmsKey, dif_pos hlt, hp]
  rfl

/-- A key begins with its position's code. -/
theorem lmsKey_eq_cons (hlt : p < xs.length) : ∃ l, lmsKey xs r p = lmsCode xs p :: l := by
  rw [lmsKey, dif_pos hlt]
  exact ⟨_, rfl⟩

theorem lmsKey_lt_of_lmsCode_lt (hp : p < xs.length) (hq : q < xs.length) (h : lmsCode xs p < lmsCode xs q) :
    lmsKey xs r p < lmsKey xs r q := by
  obtain ⟨l, hl⟩ := lmsKey_eq_cons (r := r) hp
  obtain ⟨m, hm⟩ := lmsKey_eq_cons (r := r) hq
  rw [hl, hm]
  exact List.cons_lt_cons_iff.2 (.inl h)

theorem lmsKey_lt_of_symAt_lt (hp : p < xs.length) (hq : q < xs.length) (h : symAt xs p < symAt xs q) :
    lmsKey xs r p < lmsKey xs r q := lmsKey_lt_of_lmsCode_lt hp hq (lmsCode_lt_iff.2 (.inl h))

/-- Smaller keys are in an earlier bucket, or in no later part of the same one. -/
theorem symAt_lt_or_of_lmsKey_lt (hp : p < xs.length) (hq : q < xs.length) (h : lmsKey xs r p < lmsKey xs r q) :
    symAt xs p < symAt xs q ∨ symAt xs p = symAt xs q ∧ lmsClass xs p ≤ lmsClass xs q := by
  have hcode : ¬ lmsCode xs q < lmsCode xs p := fun hlt => (lmsKey_lt_of_lmsCode_lt hq hp hlt).not_gt h
  rw [lmsCode_lt_iff] at hcode
  omega

theorem lmsCode_eq_of_lmsKey_eq {r' : Nat → Nat} (hp : p < xs.length) (hq : q < xs.length)
    (h : lmsKey xs r p = lmsKey xs r' q) : lmsCode xs p = lmsCode xs q := by
  obtain ⟨l, hl⟩ := lmsKey_eq_cons (r := r) hp
  obtain ⟨m, hm⟩ := lmsKey_eq_cons (r := r') hq
  rw [hl, hm] at h
  exact (List.cons.inj h).1

theorem lmsKey_lt_iff_of_isLms (hp : isLms (sTypes xs) p = true) (hq : isLms (sTypes xs) q = true) :
    lmsKey xs r p < lmsKey xs r q ↔ lmsCode xs p < lmsCode xs q ∨ lmsCode xs p = lmsCode xs q ∧ r p < r q := by
  rw [lmsKey_of_isLms hp, lmsKey_of_isLms hq]
  simp [List.cons_lt_cons_iff]

theorem lmsKey_lt_iff_of_not_isLms (hp : p < xs.length) (hq : q < xs.length) (hpl : isLms (sTypes xs) p = false)
    (hql : isLms (sTypes xs) q = false) : lmsKey xs r p < lmsKey xs r q ↔
      lmsCode xs p < lmsCode xs q ∨ lmsCode xs p = lmsCode xs q ∧ lmsKey xs r (p + 1) < lmsKey xs r (q + 1) := by
  rw [lmsKey_of_not_isLms hp hpl, lmsKey_of_not_isLms hq hql, List.cons_lt_cons_iff]

theorem inducedKey_lt_iff : inducedKey xs r p < inducedKey xs r q ↔ typeCode xs p < typeCode xs q ∨
    typeCode xs p = typeCode xs q ∧ lmsKey xs r (p + 1) < lmsKey xs r (q + 1) := List.cons_lt_cons_iff

theorem inducedKey_eq_iff : inducedKey xs r p = inducedKey xs r q ↔
    typeCode xs p = typeCode xs q ∧ lmsKey xs r (p + 1) = lmsKey xs r (q + 1) := by simp [inducedKey]

theorem inducedKey_lt_of_symAt_lt (h : symAt xs p < symAt xs q) : inducedKey xs r p < inducedKey xs r q :=
  inducedKey_lt_iff.2 (.inl (typeCode_lt_iff.2 (.inl h)))

theorem symAt_lt_or_of_inducedKey_lt (h : inducedKey xs r p < inducedKey xs r q) : symAt xs p < symAt xs q ∨
    symAt xs p = symAt xs q ∧ (isS (sTypes xs) p = true → isS (sTypes xs) q = true) := by
  rcases inducedKey_lt_iff.1 h with hlt | ⟨heq, -⟩
  · exact (typeCode_lt_iff.1 hlt).imp_right fun ⟨hs, hp, hq⟩ => ⟨hs, fun _ => hq⟩
  · obtain ⟨hs, htype⟩ := typeCode_eq_iff.1 heq
    exact .inr ⟨hs, fun hp => htype ▸ hp⟩

/-- Off the LMS positions the two keys sort alike. -/
theorem lmsKey_lt_iff_inducedKey_lt (hp : p < xs.length) (hq : q < xs.length) (hpl : isLms (sTypes xs) p = false)
    (hql : isLms (sTypes xs) q = false) : lmsKey xs r p < lmsKey xs r q ↔ inducedKey xs r p < inducedKey xs r q := by
  rw [lmsKey_lt_iff_of_not_isLms hp hq hpl hql, inducedKey_lt_iff, lmsCode_lt_iff_typeCode_lt hpl hql,
    lmsCode_eq_iff_typeCode_eq hpl hql]

end

/-- `r` tells the LMS positions apart. -/
def SeparatesLms (xs : List Nat) (r : Nat → Nat) : Prop :=
  ∀ p q, isLms (sTypes xs) p = true → isLms (sTypes xs) q = true → r p = r q → p = q

/-! ### Successors -/

section
variable {xs : List Nat} (h : SentinelString xs) (h2 : 2 ≤ xs.length) {r : Nat → Nat} {p q : Nat}

theorem succ_lt_of_isL (hp : p < xs.length) (hL : isS (sTypes xs) p = false) : p + 1 < xs.length := by
  by_contra hge
  obtain rfl : p = xs.length - 1 := by omega
  rw [isS_last] at hL
  cases hL

/-- The successor of an L-type position comes before it: pass 1 reads it first. -/
theorem lmsKey_succ_lt_of_isL {p : Nat} (hp : p + 1 < xs.length) (hL : isS (sTypes xs) p = false) :
    lmsKey xs r (p + 1) < lmsKey xs r p := by
  have hnot := mt (isS_iff hp).2 (Bool.eq_false_iff.1 hL)
  by_cases hsym : symAt xs (p + 1) < symAt xs p
  · exact lmsKey_lt_of_symAt_lt hp (by omega) hsym
  · have heq : symAt xs (p + 1) = symAt xs p := by omega
    have hL' : isS (sTypes xs) (p + 1) = false := Bool.eq_false_iff.2 fun hS => hnot (.inr ⟨heq.symm, hS⟩)
    have hpl := not_isLms_of_isL hL
    have hpl' := not_isLms_of_isL hL'
    refine (lmsKey_lt_iff_of_not_isLms hp (by omega) hpl' hpl).2 (.inr ⟨?_, ?_⟩)
    · exact lmsCode_eq_iff.2 ⟨heq, (lmsClass_of_isL hL').trans (lmsClass_of_isL hL).symm⟩
    · exact lmsKey_succ_lt_of_isL (succ_lt_of_isL (p := p + 1) hp hL') hL'
termination_by xs.length - p

include h

/-- The successor of an S-type position comes after it: pass 2 reads it first. -/
theorem inducedKey_lt_succ_of_isS {p : Nat} (hp : p + 1 < xs.length) (hS : isS (sTypes xs) p = true) :
    inducedKey xs r p < inducedKey xs r (p + 1) := by
  rw [inducedKey_lt_iff]
  rcases (isS_iff hp).1 hS with hlt | ⟨heq, hS'⟩
  · exact .inl (typeCode_lt_iff.2 (.inl hlt))
  · obtain ⟨-, hp'⟩ := h.succ_lt (by omega) hp heq (by omega)
    refine .inr ⟨typeCode_eq_iff.2 ⟨heq, hS.trans hS'.symm⟩, ?_⟩
    rw [lmsKey_lt_iff_inducedKey_lt hp hp' (not_isLms_succ_of_isS hS) (not_isLms_succ_of_isS hS')]
    exact inducedKey_lt_succ_of_isS hp' hS'
termination_by xs.length - p

include h2

theorem succ_lt_of_not_isLms (hp : p < xs.length) (hpl : isLms (sTypes xs) p = false) : p + 1 < xs.length := by
  by_contra hge
  obtain rfl : p = xs.length - 1 := by omega
  rw [isLms_last h h2] at hpl
  cases hpl

/-! ### The keys tell the positions apart -/

theorem lmsKey_injective {p q : Nat} (hr : SeparatesLms xs r) (hp : p < xs.length) (hq : q < xs.length)
    (heq : lmsKey xs r p = lmsKey xs r q) : p = q := by
  obtain ⟨-, hclass⟩ := lmsCode_eq_iff.1 (lmsCode_eq_of_lmsKey_eq hp hq heq)
  obtain ⟨-, hlms⟩ := lmsClass_eq_iff.1 hclass
  cases hpl : isLms (sTypes xs) p with
  | true =>
    rw [hpl] at hlms
    rw [lmsKey_of_isLms hpl, lmsKey_of_isLms hlms.symm] at heq
    exact hr p q hpl hlms.symm (by simpa using (List.cons.inj heq).2)
  | false =>
    rw [hpl] at hlms
    rw [lmsKey_of_not_isLms hp hpl, lmsKey_of_not_isLms hq hlms.symm] at heq
    have hsucc := succ_lt_of_not_isLms h h2 hp hpl
    exact Nat.succ_injective
      (lmsKey_injective hr hsucc (succ_lt_of_not_isLms h h2 hq hlms.symm) (List.cons.inj heq).2)
termination_by xs.length - p

theorem inducedKey_injective (hr : SeparatesLms xs r) (hp : p < xs.length) (hq : q < xs.length)
    (heq : inducedKey xs r p = inducedKey xs r q) : p = q := by
  obtain ⟨hcode, hkey⟩ := inducedKey_eq_iff.1 heq
  by_contra hne
  obtain ⟨hp', hq'⟩ := h.succ_lt hp hq (typeCode_eq_iff.1 hcode).1 hne
  exact hne (Nat.succ_injective (lmsKey_injective h h2 hr hp' hq' hkey))

end

end Sys2Proof.Machine
end

