-- ==== Sys2Proof/Proofs/InducedSort.lean ====
section
/-! PROOF. Induce (41_suffix_array R125): from the LMS positions in any order the three passes sort all positions by their
keys and leave no entry empty (R128). -/

namespace Sys2Proof.Machine

/-! ### Pass 0 -/

section
variable {xs lms : List Nat} {place : Nat → Nat}

/-- Pass 0 puts every position of its list where `place` says, when that is where the tail pointer of its symbol stands
after the positions behind it in the list. -/
theorem inducePass0_entries (hlt : ∀ p ∈ lms, place p < xs.length)
    (hinj : ∀ p ∈ lms, ∀ q ∈ lms, place p = place q → p = q) (hnodup : lms.Nodup)
    (hplace : ∀ p ps, p :: ps <:+ lms →
      place p = bucketTail xs (symAt xs p) - (ps.map (symAt xs)).count (symAt xs p)) :
    (inducePass0 xs lms).entries.length = xs.length ∧ (inducePass0 xs lms).placed = lms.map (symAt xs) ∧
    (∀ p ∈ lms, entryAt (inducePass0 xs lms).entries (place p) = some p) ∧
    ∀ i, (∀ p ∈ lms, place p ≠ i) → entryAt (inducePass0 xs lms).entries i = none := by
  induction lms with
  | nil =>
    refine ⟨by simp [inducePass0], rfl, nofun, fun i _ => ?_⟩
    simp [inducePass0, entryAt, List.getD_eq_getElem?_getD]
  | cons p ps ih =>
    obtain ⟨hlen, hplaced, hin, hout⟩ := ih (fun q hq => hlt q (.tail _ hq))
      (fun q hq u hu => hinj q (.tail _ hq) u (.tail _ hu)) hnodup.of_cons
      (fun q qs hqs => hplace q qs (hqs.trans (List.suffix_cons _ _)))
    have hstep : inducePass0 xs (p :: ps) = (inducePass0 xs ps).placeTail xs p := by simp [inducePass0]
    have hentries : (inducePass0 xs (p :: ps)).entries = (inducePass0 xs ps).entries.set (place p) (some p) := by
      rw [hstep, hplace p ps (List.suffix_refl _), ← hplaced]
      rfl
    rw [hentries]
    refine ⟨by rw [List.length_set, hlen], ?_, fun q hq => ?_, fun i hi => ?_⟩
    · rw [hstep, List.map_cons, ← hplaced]
      rfl
    · rcases List.mem_cons.1 hq with rfl | hq'
      · exact entryAt_set_self (by rw [hlen]; exact hlt q hq) _
      · rw [entryAt_set_ne fun he => ?_, hin q hq']
        rw [hinj p (.head _) q hq he] at hnodup
        exact hnodup.notMem hq'
    · rw [entryAt_set_ne (hi p (.head _)), hout i fun q hq => hi q (.tail _ hq)]

end

/-! ### The three passes -/

section
variable {xs lms : List Nat} (h : SentinelString xs) (h2 : 2 ≤ xs.length)
  (hlms : lms.Perm (lmsPositions (sTypes xs))) {p q : Nat}

theorem mem_lmsPositions : p ∈ lmsPositions (sTypes xs) ↔ isLms (sTypes xs) p = true := by
  simp only [lmsPositions, length_sTypes, List.mem_filter, List.mem_range, and_iff_right_iff_imp]
  exact lt_length_of_isLms

theorem nodup_lmsPositions (xs : List Nat) : (lmsPositions (sTypes xs)).Nodup := List.nodup_range.filter _

include hlms

theorem mem_lms : p ∈ lms ↔ isLms (sTypes xs) p = true := hlms.mem_iff.trans mem_lmsPositions

theorem nodup_lms : lms.Nodup := hlms.nodup_iff.2 (nodup_lmsPositions xs)

/-- A list of the LMS positions tells them apart by their places in it. -/
theorem separatesLms_idxOf : SeparatesLms xs lms.idxOf := fun _ _ hp _ he =>
  (List.idxOf_inj ((mem_lms hlms).2 hp)).1 he

/-- Behind p in the list means after p by place. -/
theorem idxOf_lt_idxOf_iff_mem {ps : List Nat} (hps : p :: ps <:+ lms) (hq : q ∈ lms) :
    lms.idxOf p < lms.idxOf q ↔ q ∈ ps := by
  obtain ⟨pre, rfl⟩ := hps
  have hnodup := nodup_lms hlms
  have hdisj := List.disjoint_of_nodup_append hnodup
  have hp : (pre ++ p :: ps).idxOf p = pre.length := by
    rw [List.idxOf_append_of_notMem fun hmem => hdisj hmem (.head _), List.idxOf_cons_self, Nat.add_zero]
  rw [hp]
  by_cases hpre : q ∈ pre
  · refine iff_of_false ?_ fun hmem => hdisj hpre (.tail _ hmem)
    rw [List.idxOf_append_of_mem hpre]
    exact (List.idxOf_lt_length_of_mem hpre).le.not_gt
  · rw [List.idxOf_append_of_notMem hpre]
    by_cases hpq : q = p
    · subst hpq
      simpa using (List.nodup_append.1 hnodup).2.1.notMem
    · rw [List.idxOf_cons_ne _ (Ne.symm hpq)]
      refine iff_of_true (by omega) ?_
      simpa [hpre, hpq] using hq

/-- The LMS positions of p's bucket with a greater key are those behind p in the list. -/
theorem card_lmsKey_gt_of_suffix {ps : List Nat} (hps : p :: ps <:+ lms) :
    ((Finset.range xs.length).filter (fun q => isLms (sTypes xs) q = true ∧ symAt xs q = symAt xs p ∧
      lmsKey xs lms.idxOf p < lmsKey xs lms.idxOf q)).card = (ps.map (symAt xs)).count (symAt xs p) := by
  have hpl : isLms (sTypes xs) p = true := (mem_lms hlms).1 (hps.subset (.head _))
  have hnodup : ps.Nodup := ((nodup_lms hlms).sublist hps.sublist).of_cons
  have hkey : ∀ q, isLms (sTypes xs) q = true → symAt xs q = symAt xs p →
      (lmsKey xs lms.idxOf p < lmsKey xs lms.idxOf q ↔ q ∈ ps) := fun q hql hs => by
    have hcode : lmsCode xs p = lmsCode xs q :=
      lmsCode_eq_iff.2 ⟨hs.symm, (lmsClass_of_isLms hpl).trans (lmsClass_of_isLms hql).symm⟩
    rw [lmsKey_lt_iff_of_isLms hpl hql, or_iff_right hcode.not_lt, and_iff_right hcode]
    exact idxOf_lt_idxOf_iff_mem hlms hps ((mem_lms hlms).2 hql)
  rw [List.count, List.countP_map, List.countP_eq_length_filter, ← List.toFinset_card_of_nodup (hnodup.filter _)]
  refine congrArg Finset.card (Finset.ext fun q => ?_)
  simp only [Finset.mem_filter, Finset.mem_range, List.mem_toFinset, List.mem_filter, Function.comp_apply, beq_iff_eq]
  constructor
  · rintro ⟨-, hql, hs, hlt⟩
    exact ⟨(hkey q hql hs).1 hlt, hs⟩
  · rintro ⟨hmem, hs⟩
    have hql := (mem_lms hlms).1 (hps.subset (.tail _ hmem))
    exact ⟨lt_length_of_isLms hql, hql, hs, (hkey q hql hs).2 hmem⟩

include h h2

/-- Where pass 0 puts an LMS position is its rank in the order of pass 1. -/
theorem rankBy_lmsKey_of_suffix {ps : List Nat} (hps : p :: ps <:+ lms) :
    rankBy xs.length (lmsKey xs lms.idxOf) p =
      bucketTail xs (symAt xs p) - (ps.map (symAt xs)).count (symAt xs p) := by
  have hpl : isLms (sTypes xs) p = true := (mem_lms hlms).1 (hps.subset (.head _))
  have hlt := lt_length_of_isLms hpl
  rw [← card_lmsKey_gt_of_suffix hlms hps]
  refine rankBy_eq_tail_sub (fun p hp q hq => lmsKey_injective h h2 (separatesLms_idxOf hlms) hp hq) hlt fun q hq => ?_
  constructor
  · intro hpq
    refine (symAt_lt_or_of_lmsKey_lt hlt hq hpq).imp_right fun ⟨hs, hclass⟩ => ?_
    exact ⟨isLms_of_lmsClass_le hpl hclass, hs.symm, hpq⟩
  · rintro (hs | ⟨-, -, hpq⟩)
    · exact lmsKey_lt_of_symAt_lt hlt hq hs
    · exact hpq

end

/-! ### Where the passes put the positions -/

/-- Where a position stands in pass 1. -/
abbrev pass1Rank (xs : List Nat) (r : Nat → Nat) : Nat → Nat := rankBy xs.length (lmsKey xs r)

/-- Where a position stands in the end. -/
abbrev finalRank (xs : List Nat) (r : Nat → Nat) : Nat → Nat := rankBy xs.length (inducedKey xs r)

/-- When pass 2 visits the place of a position. -/
def pass2Time (xs : List Nat) (r : Nat → Nat) (p : Nat) : Nat := xs.length - 1 - finalRank xs r p

theorem pass2Time_lt {xs : List Nat} {r : Nat → Nat} {p : Nat} (hp : p < xs.length) :
    pass2Time xs r p < xs.length := by
  rw [pass2Time]
  omega

theorem sub_pass2Time {xs : List Nat} {r : Nat → Nat} {p : Nat} (hp : p < xs.length) :
    xs.length - 1 - pass2Time xs r p = finalRank xs r p := by
  have hlt : finalRank xs r p < xs.length := rankBy_lt hp
  rw [pass2Time]
  omega

/-- What pass 2 does not place stands in its final place after pass 1. -/
theorem finalRank_eq_pass1Rank {xs : List Nat} (h : SentinelString xs) (r : Nat → Nat) {p : Nat}
    (hp : p < xs.length) (hnot : ¬ Induced xs (sTypes xs) true p) : finalRank xs r p = pass1Rank xs r p := by
  refine congrArg Finset.card (Finset.filter_congr fun q hq => ?_)
  have hq : q < xs.length := Finset.mem_range.1 hq
  rcases lt_trichotomy (symAt xs q) (symAt xs p) with hs | hs | hs
  · exact iff_of_true (inducedKey_lt_of_symAt_lt hs) (lmsKey_lt_of_symAt_lt hq hp hs)
  · by_cases hne : q = p
    · rw [hne]
      exact iff_of_false (lt_irrefl _) (lt_irrefl _)
    obtain ⟨hq', hp'⟩ := h.succ_lt hq hp hs hne
    have hL : isS (sTypes xs) p = false := Bool.eq_false_iff.2 fun hS => hnot ⟨hp', hS⟩
    cases hqS : isS (sTypes xs) q with
    | false => exact (lmsKey_lt_iff_inducedKey_lt hq hp (not_isLms_of_isL hqS) (not_isLms_of_isL hL)).symm
    | true =>
      refine iff_of_false (fun hlt => ?_) fun hlt => ?_
      · rcases symAt_lt_or_of_inducedKey_lt hlt with hs' | ⟨-, hpS⟩
        · omega
        · exact absurd (hL.symm.trans (hpS hqS)) Bool.false_ne_true
      · rcases symAt_lt_or_of_lmsKey_lt hq hp hlt with hs' | ⟨-, hclass⟩
        · omega
        · exact absurd ((isL_of_lmsClass_le hL hclass).symm.trans hqS) Bool.false_ne_true
  · exact iff_of_false (inducedKey_lt_of_symAt_lt hs).not_gt (lmsKey_lt_of_symAt_lt hp hq hs).not_gt

section
variable {xs : List Nat} (h : SentinelString xs) (h2 : 2 ≤ xs.length) {r : Nat → Nat} (hr : SeparatesLms xs r)
  {p q : Nat}
include h h2 hr

theorem pass1Rank_lt_iff (hp : p < xs.length) (hq : q < xs.length) :
    pass1Rank xs r p < pass1Rank xs r q ↔ lmsKey xs r p < lmsKey xs r q :=
  rankBy_lt_rankBy (fun _ hp _ hq => lmsKey_injective h h2 hr hp hq) hp hq

theorem pass1Rank_injective (hp : p < xs.length) (hq : q < xs.length) (he : pass1Rank xs r p = pass1Rank xs r q) :
    p = q := rankBy_injective (fun _ hp _ hq => lmsKey_injective h h2 hr hp hq) hp hq he

theorem finalRank_lt_iff (hp : p < xs.length) (hq : q < xs.length) :
    finalRank xs r p < finalRank xs r q ↔ inducedKey xs r p < inducedKey xs r q :=
  rankBy_lt_rankBy (fun _ hp _ hq => inducedKey_injective h h2 hr hp hq) hp hq

theorem finalRank_injective (hp : p < xs.length) (hq : q < xs.length) (he : finalRank xs r p = finalRank xs r q) :
    p = q := rankBy_injective (fun _ hp _ hq => inducedKey_injective h h2 hr hp hq) hp hq he

theorem exists_finalRank_eq {i : Nat} (hi : i < xs.length) : ∃ p < xs.length, finalRank xs r p = i :=
  exists_rankBy_eq (fun _ hp _ hq => inducedKey_injective h h2 hr hp hq) hi

theorem pass2Time_lt_iff (hp : p < xs.length) (hq : q < xs.length) :
    pass2Time xs r p < pass2Time xs r q ↔ inducedKey xs r q < inducedKey xs r p := by
  have hp' : finalRank xs r p < xs.length := rankBy_lt hp
  have hq' : finalRank xs r q < xs.length := rankBy_lt hq
  rw [← finalRank_lt_iff h h2 hr hq hp, pass2Time, pass2Time]
  omega

/-- An L-type position stands in its bucket behind those L-type positions whose successors are read before its own. -/
theorem pass1Rank_of_isL (hp : Induced xs (sTypes xs) false p) : pass1Rank xs r p = bucketHead xs (symAt xs p) +
    placedBefore xs (sTypes xs) false (pass1Rank xs r) (symAt xs p) (pass1Rank xs r (p + 1)) := by
  obtain ⟨hp', hL⟩ := hp
  rw [pass1Rank, rankBy_eq_head_add (C := Induced xs (sTypes xs) false) fun q hq => ?_]
  · refine congrArg (bucketHead xs (symAt xs p) + ·) (congrArg Finset.card (Finset.filter_congr fun q _ => ?_))
    refine and_congr_right fun ⟨hq', hqL⟩ => and_congr_right fun hs => ?_
    have hcode : lmsCode xs q = lmsCode xs p :=
      lmsCode_eq_iff.2 ⟨hs, (lmsClass_of_isL hqL).trans (lmsClass_of_isL hL).symm⟩
    rw [pass1Rank_lt_iff h h2 hr hq' hp', lmsKey_lt_iff_of_not_isLms (by omega) (by omega) (not_isLms_of_isL hqL)
      (not_isLms_of_isL hL)]
    simp [hcode]
  · refine ⟨fun hlt => ?_, fun hor => ?_⟩
    · refine (symAt_lt_or_of_lmsKey_lt hq (by omega) hlt).imp_right fun ⟨hs, hclass⟩ => ?_
      have hqL := isL_of_lmsClass_le hL hclass
      exact ⟨⟨succ_lt_of_isL hq hqL, hqL⟩, hs, hlt⟩
    · rcases hor with hs | ⟨-, -, hlt⟩
      · exact lmsKey_lt_of_symAt_lt hq (by omega) hs
      · exact hlt

/-- An S-type position stands in its bucket before those S-type positions whose successors pass 2 reads before
its own. -/
theorem finalRank_of_isS (hp : Induced xs (sTypes xs) true p) : finalRank xs r p = bucketTail xs (symAt xs p) -
    placedBefore xs (sTypes xs) true (pass2Time xs r) (symAt xs p) (pass2Time xs r (p + 1)) := by
  obtain ⟨hp', hS⟩ := hp
  have hinj := fun p hp q hq => inducedKey_injective (p := p) (q := q) h h2 hr hp hq
  rw [finalRank, rankBy_eq_tail_sub (C := Induced xs (sTypes xs) true) hinj (by omega) fun q hq => ?_]
  · refine congrArg (bucketTail xs (symAt xs p) - ·) (congrArg Finset.card (Finset.filter_congr fun q _ => ?_))
    refine and_congr_right fun ⟨hq', hqS⟩ => and_congr_right fun hs => ?_
    have hcode : typeCode xs p = typeCode xs q := typeCode_eq_iff.2 ⟨hs.symm, hS.trans hqS.symm⟩
    rw [pass2Time_lt_iff h h2 hr hq' hp', inducedKey_lt_iff, ← lmsKey_lt_iff_inducedKey_lt hp' hq'
      (not_isLms_succ_of_isS hS) (not_isLms_succ_of_isS hqS)]
    simp [hcode]
  · refine ⟨fun hlt => ?_, fun hor => ?_⟩
    · refine (symAt_lt_or_of_inducedKey_lt hlt).imp_right fun ⟨hs, hqS⟩ => ?_
      have hne : p ≠ q := fun he => lt_irrefl _ (he ▸ hlt)
      exact ⟨⟨(h.succ_lt (by omega) hq hs hne).2, hqS hS⟩, hs.symm, hlt⟩
    · rcases hor with hs | ⟨-, -, hlt⟩
      · exact inducedKey_lt_of_symAt_lt hs
      · exact hlt

/-! ### Passes 1 and 2 -/

/-- Pass 1, from an array that holds the LMS positions at their places and nothing else. -/
theorem sweepPlan_pass1 {init : List (Option Nat)} (hlen : init.length = xs.length)
    (hlms : ∀ p, isLms (sTypes xs) p = true → entryAt init (pass1Rank xs r p) = some p)
    (hnone : ∀ i, (∀ p, isLms (sTypes xs) p = true → pass1Rank xs r p ≠ i) → entryAt init i = none) :
    SweepPlan xs (sTypes xs) false (fun c k => bucketHead xs c + k) id (pass1Rank xs r)
      (fun p => p < xs.length ∧ (isS (sTypes xs) p = false ∨ isLms (sTypes xs) p = true)) init where
  length_eq := hlen
  index_lt _ hτ := hτ
  index_inj _ _ _ _ he := he
  time_lt _ hp := ⟨hp.1, rankBy_lt hp.1⟩
  time_inj _ _ hp hq := pass1Rank_injective h h2 hr hp.1 hq.1
  reads_induced p hp := by
    obtain ⟨hp', hL⟩ := hp
    refine ⟨⟨by omega, .inl hL⟩, hp', ?_⟩
    cases hS : isS (sTypes xs) (p + 1) with
    | false => exact .inl rfl
    | true => exact .inr (isLms_succ_iff.2 ⟨hS, hL⟩)
  placed_before_read _ hp := rankBy_lt_rankBy_of_lt hp.1 (lmsKey_succ_lt_of_isL hp.1 hp.2)
  slot_eq _ hp := pass1Rank_of_isL h h2 hr hp
  given p hp hnot := hlms p (hp.2.resolve_left fun hL => hnot ⟨succ_lt_of_isL hp.1 hL, hL⟩)
  empty τ _ hτ := hnone τ fun p hp => hτ p ⟨lt_length_of_isLms hp, .inr hp⟩

/-- Pass 2, from an array that holds the L-type positions and the last one at their places. -/
theorem sweepPlan_pass2 {init : List (Option Nat)} (hlen : init.length = xs.length)
    (hgiven : ∀ p < xs.length, ¬ Induced xs (sTypes xs) true p → entryAt init (finalRank xs r p) = some p) :
    SweepPlan xs (sTypes xs) true (fun c k => bucketTail xs c - k) (fun τ => xs.length - 1 - τ) (pass2Time xs r)
      (fun p => p < xs.length) init := by
  refine ⟨hlen, fun τ hτ => by omega, fun τ hτ σ hσ he => by omega, fun p hp => ⟨hp, pass2Time_lt hp⟩,
    fun p q hp hq he => ?_, fun p hp => ⟨by have := hp.1; omega, hp.1⟩, fun p hp => ?_, fun p hp => ?_,
    fun p hp hnot => ?_, fun τ hτ hnone => ?_⟩
  · refine finalRank_injective h h2 hr hp hq ?_
    rw [← sub_pass2Time hp, ← sub_pass2Time hq, he]
  · exact (pass2Time_lt_iff h h2 hr hp.1 (Nat.lt_of_succ_lt hp.1)).2 (inducedKey_lt_succ_of_isS h hp.1 hp.2)
  · rw [sub_pass2Time (Nat.lt_of_succ_lt hp.1)]
    exact finalRank_of_isS h h2 hr hp
  · rw [sub_pass2Time hp]
    exact hgiven p hp hnot
  · obtain ⟨p, hp, hpτ⟩ := exists_finalRank_eq h h2 hr (i := xs.length - 1 - τ) (by omega)
    refine absurd ?_ (hnone p hp)
    rw [pass2Time, hpτ]
    omega

end

/-! ### The induction -/

section
variable {xs lms : List Nat} (h : SentinelString xs) (h2 : 2 ≤ xs.length)
  (hlms : lms.Perm (lmsPositions (sTypes xs)))
include h h2 hlms

/-- After pass 1 the L-type positions and the last position stand at their final places. -/
theorem entryAt_inducePass1 : (inducePass1 xs (sTypes xs) (inducePass0 xs lms).entries).entries.length = xs.length ∧
    ∀ p < xs.length, ¬ Induced xs (sTypes xs) true p →
      entryAt (inducePass1 xs (sTypes xs) (inducePass0 xs lms).entries).entries (finalRank xs lms.idxOf p) =
        some p := by
  have hr := separatesLms_idxOf hlms
  have hlt : ∀ p ∈ lms, p < xs.length := fun p hp => lt_length_of_isLms ((mem_lms hlms).1 hp)
  obtain ⟨hlen, -, hin, hout⟩ := inducePass0_entries (place := pass1Rank xs lms.idxOf)
    (fun p hp => rankBy_lt (hlt p hp)) (fun p hp q hq => pass1Rank_injective h h2 hr (hlt p hp) (hlt q hq))
    (nodup_lms hlms) fun p ps hps => rankBy_lmsKey_of_suffix h h2 hlms hps
  have plan := sweepPlan_pass1 h h2 hr hlen (fun p hp => hin p ((mem_lms hlms).2 hp))
    fun i hi => hout i fun p hp => hi p ((mem_lms hlms).1 hp)
  have hpass : inducePass1 xs (sTypes xs) (inducePass0 xs lms).entries = ((List.range xs.length).map id).foldl
      (Induction.visit false (sTypes xs) (Induction.placeAt (fun c k => bucketHead xs c + k) xs))
      ⟨(inducePass0 xs lms).entries, []⟩ := by
    rw [List.map_id, inducePass1, placeHead_eq_placeAt]
  rw [hpass]
  refine ⟨plan.reached_all.length_eq, fun p hp hnot => ?_⟩
  rw [finalRank_eq_pass1Rank h _ hp hnot]
  refine plan.entryAt_final ⟨hp, ?_⟩
  by_cases hp' : p + 1 < xs.length
  · exact .inl (Bool.eq_false_iff.2 fun hS => hnot ⟨hp', hS⟩)
  · obtain rfl : p = xs.length - 1 := by omega
    exact .inr (isLms_last h h2)

/-- Induce puts every position at its final place (41_suffix_array R125). -/
theorem entryAt_induce : (induce xs (sTypes xs) lms).length = xs.length ∧
    ∀ p < xs.length, entryAt (induce xs (sTypes xs) lms) (finalRank xs lms.idxOf p) = some p := by
  obtain ⟨hlen, hgiven⟩ := entryAt_inducePass1 h h2 hlms
  have plan := sweepPlan_pass2 h h2 (separatesLms_idxOf hlms) hlen hgiven
  have hreverse : (List.range xs.length).reverse = (List.range xs.length).map (fun τ => xs.length - 1 - τ) := by
    simpa [List.range_eq_range'] using List.reverse_range' (s := 0) (n := xs.length)
  have hpass : induce xs (sTypes xs) lms = (((List.range xs.length).map (fun τ => xs.length - 1 - τ)).foldl
      (Induction.visit true (sTypes xs) (Induction.placeAt (fun c k => bucketTail xs c - k) xs))
      ⟨(inducePass1 xs (sTypes xs) (inducePass0 xs lms).entries).entries, []⟩).entries := by
    rw [induce, inducePass2, placeTail_eq_placeAt, hreverse]
  rw [hpass]
  refine ⟨plan.reached_all.length_eq, fun p hp => ?_⟩
  rw [← sub_pass2Time hp]
  exact plan.entryAt_final hp

/-- No entry is empty, and every entry is at its place. -/
theorem induce_eq_map_some : ∃ l : List Nat, induce xs (sTypes xs) lms = l.map some ∧ l.length = xs.length ∧
    ∀ i (_ : i < l.length), l[i] < xs.length ∧ finalRank xs lms.idxOf l[i] = i := by
  obtain ⟨hlen, hentry⟩ := entryAt_induce h h2 hlms
  have hget : ∀ i (_ : i < (induce xs (sTypes xs) lms).length),
      ∃ p < xs.length, finalRank xs lms.idxOf p = i ∧ (induce xs (sTypes xs) lms)[i] = some p := by
    intro i hi
    obtain ⟨p, hp, rfl⟩ := exists_finalRank_eq h h2 (separatesLms_idxOf hlms) (hlen ▸ hi)
    exact ⟨p, hp, rfl, by rw [← hentry p hp, entryAt, List.getD_eq_getElem _ _ hi]⟩
  refine ⟨(induce xs (sTypes xs) lms).map (·.getD 0), List.ext_getElem (by simp) fun i hi _ => ?_,
    by simpa using hlen, fun i hi => ?_⟩
  · obtain ⟨p, -, -, hp⟩ := hget i hi
    simp [hp]
  · obtain ⟨p, hlt, hpi, hp⟩ := hget i (by simpa using hi)
    simpa [hp] using ⟨hlt, hpi⟩

/-- Induce sorts all positions by their keys (41_suffix_array R128). -/
theorem induce_sorts : ((induce xs (sTypes xs) lms).filterMap id).Perm (List.range xs.length) ∧
    ((induce xs (sTypes xs) lms).filterMap id).Pairwise
      (fun p q => inducedKey xs lms.idxOf p < inducedKey xs lms.idxOf q) := by
  obtain ⟨l, hl, hlen, hget⟩ := induce_eq_map_some h h2 hlms
  have hlist : (l.map some).filterMap id = l := by simp [List.filterMap_map]
  rw [hl, hlist]
  have hsorted : l.Pairwise (fun p q => inducedKey xs lms.idxOf p < inducedKey xs lms.idxOf q) := by
    refine List.pairwise_iff_getElem.2 fun i j hi hj hij => ?_
    obtain ⟨hp, hpi⟩ := hget i hi
    obtain ⟨hq, hqj⟩ := hget j hj
    exact (finalRank_lt_iff h h2 (separatesLms_idxOf hlms) hp hq).1 (by omega)
  refine ⟨(List.subperm_of_subset (hsorted.imp fun hlt he => ?_) fun p hp => ?_).perm_of_length_le ?_, hsorted⟩
  · exact lt_irrefl _ (he ▸ hlt)
  · obtain ⟨i, hi, rfl⟩ := List.getElem_of_mem hp
    exact List.mem_range.2 (hget i hi).1
  · simpa using hlen.ge

end

end Sys2Proof.Machine
end

