-- ==== Sys2Proof/Proofs/LmsSubstrings.lean ====
section
/-! PROOF. What the keys say of suffixes and of LMS substrings (41_suffix_array R126): with the LMS positions in the order of
their suffixes the keys are in the order of all suffixes, and the key of a substring stands for the substring. -/

namespace Sys2Proof.Machine

/-! ### The keys and the order of suffixes -/

/-- The key of the LMS substring alone: the LMS positions that end two substrings are not told apart. -/
abbrev substringKey (xs : List Nat) : Nat → List Nat := inducedKey xs (fun _ => 0)

section
variable {xs : List Nat} (h : SentinelString xs)
include h

/-- Inside a bucket the L-type suffixes come before the S-type ones (41_suffix_array R124). -/
theorem suffixLt_of_isL_of_isS {p q : Nat} (hp : p < xs.length) (hq : q < xs.length) (hsym : symAt xs p = symAt xs q)
    (hL : isS (sTypes xs) p = false) (hS : isS (sTypes xs) q = true) : SuffixLt xs p q := by
  have hne : p ≠ q := fun he => by rw [he, hS] at hL; cases hL
  obtain ⟨hp', hq'⟩ := h.succ_lt hp hq hsym hne
  have hnot := mt (isS_iff hp').2 (Bool.eq_false_iff.1 hL)
  refine (suffixLt_step hp hq).2 (.inr ⟨hsym, ?_⟩)
  by_cases hlt : symAt xs (p + 1) < symAt xs (q + 1)
  · exact (suffixLt_step hp' hq').2 (.inl hlt)
  · rcases (isS_iff hq').1 hS with hS | ⟨hS, hS'⟩
    · omega
    · have hs : symAt xs p = symAt xs (p + 1) := by omega
      exact suffixLt_of_isL_of_isS hp' hq' (by omega) (Bool.eq_false_iff.2 fun hL' => hnot (.inr ⟨hs, hL'⟩)) hS'
termination_by xs.length - p

section
variable (h2 : 2 ≤ xs.length) {r : Nat → Nat}
  (hr : ∀ p q, isLms (sTypes xs) p = true → isLms (sTypes xs) q = true → r p < r q → SuffixLt xs p q)
include h2 hr

theorem suffixLt_of_lmsKey_lt {p q : Nat} (hp : p < xs.length) (hq : q < xs.length)
    (hlms : isS (sTypes xs) p = isS (sTypes xs) q → isLms (sTypes xs) p = isLms (sTypes xs) q)
    (hlt : lmsKey xs r p < lmsKey xs r q) : SuffixLt xs p q := by
  rcases symAt_lt_or_of_lmsKey_lt hp hq hlt with hs | ⟨hs, hclass⟩
  · exact (suffixLt_step hp hq).2 (.inl hs)
  by_cases htype : isS (sTypes xs) p = isS (sTypes xs) q
  · have hlms := hlms htype
    have hcode : lmsCode xs p = lmsCode xs q := lmsCode_eq_iff.2 ⟨hs, lmsClass_eq_iff.2 ⟨htype, hlms⟩⟩
    cases hpl : isLms (sTypes xs) p with
    | true =>
      have hql := hlms.symm.trans hpl
      exact hr p q hpl hql (((lmsKey_lt_iff_of_isLms hpl hql).1 hlt).resolve_left hcode.not_lt).2
    | false =>
      have hql := hlms.symm.trans hpl
      refine (suffixLt_step hp hq).2 (.inr ⟨hs, suffixLt_of_lmsKey_lt (succ_lt_of_not_isLms h h2 hp hpl)
        (succ_lt_of_not_isLms h h2 hq hql) (fun hnext => ?_)
        (((lmsKey_lt_iff_of_not_isLms hp hq hpl hql).1 hlt).resolve_left hcode.not_lt).2⟩)
      rw [Bool.eq_iff_iff, isLms_succ_iff, isLms_succ_iff, hnext, htype]
  · have hother : isS (sTypes xs) q = !isS (sTypes xs) p := Bool.eq_not_of_ne (Ne.symm htype)
    cases hpS : isS (sTypes xs) p with
    | false => exact suffixLt_of_isL_of_isS h hp hq hs hpS (hother.trans (congrArg not hpS))
    | true =>
      exact absurd ((isL_of_lmsClass_le (hother.trans (congrArg not hpS)) hclass).symm.trans hpS) Bool.false_ne_true
termination_by xs.length - p

/-- When the LMS positions are given in the order of their suffixes, the keys sort all positions by suffix. -/
theorem suffixLt_of_inducedKey_lt {p q : Nat} (hp : p < xs.length) (hq : q < xs.length)
    (hlt : inducedKey xs r p < inducedKey xs r q) : SuffixLt xs p q := by
  have hne : p ≠ q := fun he => lt_irrefl _ (he ▸ hlt)
  rcases inducedKey_lt_iff.1 hlt with hcode | ⟨hcode, hkey⟩
  · rcases typeCode_lt_iff.1 hcode with hs | ⟨hs, hL, hS⟩
    · exact (suffixLt_step hp hq).2 (.inl hs)
    · exact suffixLt_of_isL_of_isS h hp hq hs hL hS
  · obtain ⟨hs, htype⟩ := typeCode_eq_iff.1 hcode
    obtain ⟨hp', hq'⟩ := h.succ_lt hp hq hs hne
    refine (suffixLt_step hp hq).2 (.inr ⟨hs, suffixLt_of_lmsKey_lt h h2 hr hp' hq' (fun hnext => ?_) hkey⟩)
    rw [Bool.eq_iff_iff, isLms_succ_iff, isLms_succ_iff, hnext, htype]

end

/-- Substrings that differ order the suffixes as the substrings are ordered. -/
theorem suffixLt_of_substringKey_lt (h2 : 2 ≤ xs.length) {p q : Nat} (hp : p < xs.length) (hq : q < xs.length)
    (hlt : substringKey xs p < substringKey xs q) : SuffixLt xs p q :=
  suffixLt_of_inducedKey_lt h h2 (fun _ _ _ _ hlt => absurd hlt (lt_irrefl _)) hp hq hlt

end

section
variable {xs : List Nat} {r : Nat → Nat}

/-- The keys refine the order of the substrings. -/
theorem lmsKey_lt_of_lmsKey_zero_lt (h : SentinelString xs) (h2 : 2 ≤ xs.length) {p q : Nat} (hp : p < xs.length)
    (hq : q < xs.length) (hlt : lmsKey xs (fun _ => 0) p < lmsKey xs (fun _ => 0) q) :
    lmsKey xs r p < lmsKey xs r q := by
  by_cases hcode : lmsCode xs p < lmsCode xs q
  · exact lmsKey_lt_of_lmsCode_lt hp hq hcode
  have heq : lmsCode xs p = lmsCode xs q :=
    le_antisymm (not_lt.1 fun hgt => (lmsKey_lt_of_lmsCode_lt hq hp hgt).not_gt hlt) (not_lt.1 hcode)
  obtain ⟨-, hlms⟩ := lmsClass_eq_iff.1 (lmsCode_eq_iff.1 heq).2
  cases hpl : isLms (sTypes xs) p with
  | true =>
    rw [lmsKey_lt_iff_of_isLms hpl (hlms.symm.trans hpl)] at hlt
    exact absurd hlt (by simp [hcode])
  | false =>
    have hql := hlms.symm.trans hpl
    rw [lmsKey_lt_iff_of_not_isLms hp hq hpl hql] at hlt ⊢
    exact .inr ⟨heq, lmsKey_lt_of_lmsKey_zero_lt h h2 (succ_lt_of_not_isLms h h2 hp hpl)
      (succ_lt_of_not_isLms h h2 hq hql) (hlt.resolve_left hcode).2⟩
termination_by xs.length - p

theorem substringKey_le_of_inducedKey_lt (h : SentinelString xs) (h2 : 2 ≤ xs.length) {p q : Nat} (hp : p < xs.length)
    (hq : q < xs.length) (hlt : inducedKey xs r p < inducedKey xs r q) : substringKey xs p ≤ substringKey xs q := by
  refine not_lt.1 fun hgt => hlt.not_gt ?_
  have hne : q ≠ p := fun he => lt_irrefl _ (he ▸ hlt)
  refine inducedKey_lt_iff.2 ((inducedKey_lt_iff.1 hgt).imp_right fun ⟨hcode, hkey⟩ => ⟨hcode, ?_⟩)
  obtain ⟨hq', hp'⟩ := h.succ_lt hq hp (typeCode_eq_iff.1 hcode).1 hne
  exact lmsKey_lt_of_lmsKey_zero_lt h h2 hq' hp' hkey

/-- After equal substrings the suffixes compare as those of the LMS positions that end them. -/
theorem suffixLt_of_lmsKey_eq {p q d e : Nat} (heq : lmsKey xs (fun _ => 0) p = lmsKey xs (fun _ => 0) q)
    (hp : isLms (sTypes xs) (p + d) = true) (hpd : ∀ m < d, isLms (sTypes xs) (p + m) = false)
    (hq : isLms (sTypes xs) (q + e) = true) (hqe : ∀ m < e, isLms (sTypes xs) (q + m) = false)
    (hlt : SuffixLt xs (p + d) (q + e)) : SuffixLt xs p q := by
  have hplt : p < xs.length := by have := lt_length_of_isLms hp; omega
  have hqlt : q < xs.length := by have := lt_length_of_isLms hq; omega
  obtain ⟨hs, hclass⟩ := lmsCode_eq_iff.1 (lmsCode_eq_of_lmsKey_eq hplt hqlt heq)
  obtain ⟨-, hlms⟩ := lmsClass_eq_iff.1 hclass
  cases d with
  | zero =>
    cases e with
    | zero => exact hlt
    | succ e => exact absurd (hlms.symm.trans hp) (by simpa using hqe 0 (Nat.succ_pos e))
  | succ d =>
    have hpl : isLms (sTypes xs) p = false := hpd 0 (Nat.succ_pos d)
    cases e with
    | zero => exact absurd (hlms.trans hq) (by simp [hpl])
    | succ e =>
      have hshift (i m : Nat) : i + 1 + m = i + (m + 1) := by omega
      rw [lmsKey_of_not_isLms hplt hpl, lmsKey_of_not_isLms hqlt (hlms.symm.trans hpl)] at heq
      refine (suffixLt_step hplt hqlt).2 (.inr ⟨hs, suffixLt_of_lmsKey_eq (d := d) (e := e) (List.cons.inj heq).2
        ?_ (fun m hm => ?_) ?_ (fun m hm => ?_) ?_⟩)
      all_goals rw [hshift]
      · exact hp
      · exact hpd _ (Nat.succ_lt_succ hm)
      · exact hq
      · exact hqe _ (Nat.succ_lt_succ hm)
      · rwa [hshift]

end

/-! ### LMS substrings (41_suffix_array R126) -/

/-- The symbols and types from p up to the next LMS position, p itself included. -/
def substringFrom (xs : List Nat) (p : Nat) : List (Nat × Bool) :=
  if _ : p < xs.length then
    (symAt xs p, isS (sTypes xs) p) :: if isLms (sTypes xs) p then [] else substringFrom xs (p + 1)
  else []
termination_by xs.length - p

section
variable {xs : List Nat} {p q : Nat}

theorem substringFrom_of_isLms (hp : isLms (sTypes xs) p = true) :
    substringFrom xs p = [(symAt xs p, isS (sTypes xs) p)] := by
  rw [substringFrom, dif_pos (lt_length_of_isLms hp), if_pos hp]

theorem substringFrom_of_not_isLms (hlt : p < xs.length) (hp : isLms (sTypes xs) p = false) :
    substringFrom xs p = (symAt xs p, isS (sTypes xs) p) :: substringFrom xs (p + 1) := by
  rw [substringFrom, dif_pos hlt, hp]
  rfl

theorem substringFrom_ne_nil (hlt : p < xs.length) : substringFrom xs p ≠ [] := by
  rw [substringFrom, dif_pos hlt]
  exact List.cons_ne_nil _ _

theorem drop_zip_sTypes (hlt : p < xs.length) :
    (xs.zip (sTypes xs)).drop p = (symAt xs p, isS (sTypes xs) p) :: (xs.zip (sTypes xs)).drop (p + 1) := by
  rw [List.drop_eq_getElem_cons (by simpa using hlt), List.getElem_zip, symAt_eq_getElem hlt, isS,
    List.getD_eq_getElem _ _ (by simpa using hlt)]

theorem substringFrom_eq_take {d : Nat} (hlms : isLms (sTypes xs) (p + d) = true)
    (hnone : ∀ m < d, isLms (sTypes xs) (p + m) = false) :
    substringFrom xs p = ((xs.zip (sTypes xs)).drop p).take (d + 1) := by
  have hlt : p < xs.length := by have := lt_length_of_isLms hlms; omega
  rw [drop_zip_sTypes hlt, List.take_succ_cons]
  induction d generalizing p with
  | zero => rw [substringFrom_of_isLms (p := p) hlms, List.take_zero]
  | succ d ih =>
    have hshift (m : Nat) : p + 1 + m = p + (m + 1) := by omega
    rw [← hshift] at hlms
    have hlt' : p + 1 < xs.length := by have := lt_length_of_isLms hlms; omega
    rw [substringFrom_of_not_isLms hlt (hnone 0 (Nat.succ_pos d)), drop_zip_sTypes hlt', List.take_succ_cons,
      ih hlms (fun m hm => by rw [hshift]; exact hnone _ (Nat.succ_lt_succ hm)) hlt']

end

section
variable {xs : List Nat} (h : SentinelString xs) (h2 : 2 ≤ xs.length)
include h h2

/-- From every position an LMS position is reached. -/
theorem exists_next_isLms {p : Nat} (hp : p < xs.length) :
    ∃ d, isLms (sTypes xs) (p + d) = true ∧ ∀ m < d, isLms (sTypes xs) (p + m) = false := by
  have hex : ∃ d, isLms (sTypes xs) (p + d) = true :=
    ⟨xs.length - 1 - p, by rw [show p + (xs.length - 1 - p) = xs.length - 1 by omega]; exact isLms_last h h2⟩
  exact ⟨Nat.find hex, Nat.find_spec hex, fun m hm => Bool.eq_false_iff.2 (Nat.find_min hex hm)⟩

theorem lmsSubstring_eq {p : Nat} (hp : p < xs.length) :
    lmsSubstring xs (sTypes xs) p = (symAt xs p, isS (sTypes xs) p) :: substringFrom xs (p + 1) := by
  by_cases hp' : p + 1 < xs.length
  · obtain ⟨d, hlms, hnone⟩ := exists_next_isLms h h2 hp'
    have hfind : (List.range xs.length).find? (fun i => p < i && isLms (sTypes xs) i) = some (p + 1 + d) := by
      have hpd : p < p + 1 + d := by omega
      have hmem := List.mem_range.2 (lt_length_of_isLms hlms)
      refine List.find?_range_eq_some.2 ⟨by simp [hlms, hpd], hmem, fun j hj => ?_⟩
      by_cases hpj : p < j
      · have := hnone (j - (p + 1)) (by omega)
        rw [show p + 1 + (j - (p + 1)) = j by omega] at this
        simp [this]
      · simp [hpj]
    rw [substringFrom_eq_take hlms hnone, lmsSubstring, hfind, drop_zip_sTypes hp, Option.getD_some,
      show p + 1 + d - p + 1 = d + 1 + 1 by omega, List.take_succ_cons]
  · have hfind : (List.range xs.length).find? (fun i => p < i && isLms (sTypes xs) i) = none := by
      refine List.find?_eq_none.2 fun i hi => ?_
      have := List.mem_range.1 hi
      simp [show ¬ p < i by omega]
    rw [substringFrom, dif_neg hp', lmsSubstring, hfind, drop_zip_sTypes hp, Option.getD_none, Nat.sub_self,
      List.take_succ_cons, List.take_zero]

theorem substringFrom_eq_iff {p q : Nat} (hp : p < xs.length) (hq : q < xs.length) :
    substringFrom xs p = substringFrom xs q ↔ lmsKey xs (fun _ => 0) p = lmsKey xs (fun _ => 0) q := by
  have hcode : lmsKey xs (fun _ => 0) p = lmsKey xs (fun _ => 0) q →
      isLms (sTypes xs) p = isLms (sTypes xs) q := fun heq =>
    (lmsClass_eq_iff.1 (lmsCode_eq_iff.1 (lmsCode_eq_of_lmsKey_eq hp hq heq)).2).2
  cases hpl : isLms (sTypes xs) p <;> cases hql : isLms (sTypes xs) q
  case false.false =>
    have ih := substringFrom_eq_iff (succ_lt_of_not_isLms h h2 hp hpl) (succ_lt_of_not_isLms h h2 hq hql)
    rw [substringFrom_of_not_isLms hp hpl, substringFrom_of_not_isLms hq hql, lmsKey_of_not_isLms hp hpl,
      lmsKey_of_not_isLms hq hql, List.cons_eq_cons, List.cons_eq_cons, Prod.mk.injEq, ih,
      lmsCode_eq_iff_typeCode_eq hpl hql, typeCode_eq_iff]
  case true.true =>
    rw [substringFrom_of_isLms hpl, substringFrom_of_isLms hql, lmsKey_of_isLms hpl, lmsKey_of_isLms hql]
    simp [lmsCode_eq_iff, lmsClass_eq_iff, hpl, hql]
  case false.true =>
    refine iff_of_false (fun heq => ?_) fun heq => by simpa [hpl, hql] using hcode heq
    rw [substringFrom_of_not_isLms hp hpl, substringFrom_of_isLms hql] at heq
    exact substringFrom_ne_nil (succ_lt_of_not_isLms h h2 hp hpl) (List.cons.inj heq).2
  case true.false =>
    refine iff_of_false (fun heq => ?_) fun heq => by simpa [hpl, hql] using hcode heq
    rw [substringFrom_of_isLms hpl, substringFrom_of_not_isLms hq hql] at heq
    exact substringFrom_ne_nil (succ_lt_of_not_isLms h h2 hq hql) (List.cons.inj heq).2.symm
termination_by xs.length - p

/-- Two LMS substrings are equal exactly when their keys are. -/
theorem lmsSubstring_eq_iff {p q : Nat} (hp : p < xs.length) (hq : q < xs.length) :
    lmsSubstring xs (sTypes xs) p = lmsSubstring xs (sTypes xs) q ↔ substringKey xs p = substringKey xs q := by
  rw [lmsSubstring_eq h h2 hp, lmsSubstring_eq h h2 hq, List.cons_eq_cons, Prod.mk.injEq, inducedKey_eq_iff,
    typeCode_eq_iff]
  refine and_congr_right fun hcode => ?_
  by_cases hne : p = q
  · simp [hne]
  · obtain ⟨hp', hq'⟩ := h.succ_lt hp hq hcode.1 hne
    exact substringFrom_eq_iff h h2 hp' hq'

end

end Sys2Proof.Machine
end

