-- ==== Sys2Proof/Proofs/Sais.lean ====
section
/-! PROOF. SA-IS as a whole (41_suffix_array R126 to R130): the names of the LMS substrings make a string that meets the
sentinel precondition again, whose suffix array gives the order of the LMS positions. -/

namespace Sys2Proof.Machine

/-- The LMS positions of a string in ascending order (41_suffix_array R123). -/
abbrev lmsOf (xs : List Nat) : List Nat := lmsPositions (sTypes xs)

/-! ### Names (41_suffix_array R126) -/

/-- y is named right after x: the same name for an equal substring, the next name for a greater one. -/
def NamedNext (key : Nat → List Nat) (x y : Nat × Nat) : Prop :=
  y.2 = x.2 ∧ key x.1 = key y.1 ∨ y.2 = x.2 + 1 ∧ key x.1 < key y.1

/-- x and y are named as their keys compare, x not after y. -/
def NamedInOrder (key : Nat → List Nat) (x y : Nat × Nat) : Prop :=
  x.2 = y.2 ∧ key x.1 = key y.1 ∨ x.2 < y.2 ∧ key x.1 < key y.1

/-- The names of x and y compare as their keys do. -/
def NamedByKey (key : Nat → List Nat) (x y : Nat × Nat) : Prop :=
  (x.2 < y.2 ↔ key x.1 < key y.1) ∧ (y.2 < x.2 ↔ key y.1 < key x.1)

/-- The name of a position in a list of positions with their names. -/
def nameOf (names : List (Nat × Nat)) (p : Nat) : Nat := (names.lookup p).getD 0

section
variable {key : Nat → List Nat}

/-- Going through positions whose keys do not fall, every position is named right after the one before it. -/
theorem nameSubstrings_spec {sub : Nat → List (Nat × Bool)} {p k : Nat} {ps : List Nat}
    (hsub : ∀ q ∈ p :: ps, ∀ u ∈ p :: ps, sub q = sub u ↔ key q = key u)
    (hle : (p :: ps).Pairwise (fun q u => key q ≤ key u)) :
    ((p, k) :: nameSubstrings sub (sub p) k ps).IsChain (NamedNext key) ∧
    ((p, k) :: nameSubstrings sub (sub p) k ps).map Prod.fst = p :: ps := by
  induction ps generalizing p k with
  | nil => exact ⟨List.isChain_singleton _, rfl⟩
  | cons q ps ih =>
    obtain ⟨hchain, hfst⟩ := ih (k := if sub q = sub p then k else k + 1)
      (fun u hu v hv => hsub u (.tail _ hu) v (.tail _ hv)) hle.of_cons
    refine ⟨List.isChain_cons_cons.2 ⟨?_, hchain⟩, congrArg (p :: ·) hfst⟩
    have heq := hsub q (.tail _ (.head _)) p (.head _)
    have hpq : key p ≤ key q := List.rel_of_pairwise_cons hle (.head _)
    by_cases hqp : sub q = sub p
    · exact .inl ⟨if_pos hqp, (heq.1 hqp).symm⟩
    · exact .inr ⟨if_neg hqp, lt_of_le_of_ne hpq fun h => hqp (heq.2 h.symm)⟩

theorem NamedInOrder.trans {x y z : Nat × Nat} (hxy : NamedInOrder key x y) (hyz : NamedInOrder key y z) :
    NamedInOrder key x z := by
  rcases hxy with ⟨hn, hk⟩ | ⟨hn, hk⟩
  · unfold NamedInOrder
    rwa [hn, hk]
  · rcases hyz with ⟨hn', hk'⟩ | ⟨hn', hk'⟩
    · exact .inr ⟨hn' ▸ hn, hk' ▸ hk⟩
    · exact .inr ⟨hn.trans hn', hk.trans hk'⟩

theorem NamedNext.inOrder {x y : Nat × Nat} (h : NamedNext key x y) : NamedInOrder key x y :=
  h.imp (fun ⟨hn, hk⟩ => ⟨hn.symm, hk⟩) fun ⟨hn, hk⟩ => ⟨by omega, hk⟩

theorem NamedInOrder.byKey {x y : Nat × Nat} (h : NamedInOrder key x y) : NamedByKey key x y := by
  rcases h with ⟨hn, hk⟩ | ⟨hn, hk⟩
  · simp [NamedByKey, hn, hk]
  · simp [NamedByKey, hn, hk, hn.not_gt, hk.not_gt]

variable {names : List (Nat × Nat)}

theorem namedByKey_of_isChain (hchain : names.IsChain (NamedNext key)) {x y : Nat × Nat} (hx : x ∈ names)
    (hy : y ∈ names) : NamedByKey key x y := by
  have htrans : Trans (NamedInOrder key) (NamedInOrder key) (NamedInOrder key) := ⟨NamedInOrder.trans⟩
  have hsymm : Std.Symm (NamedByKey key) := ⟨fun _ _ hxy => hxy.symm⟩
  have hpair : names.Pairwise (NamedByKey key) :=
    (hchain.imp fun _ _ => NamedNext.inOrder).pairwise.imp NamedInOrder.byKey
  exact hpair.forall_of_forall (fun x _ => by simp [NamedByKey]) hx hy

theorem mem_nameOf {p : Nat} (hp : p ∈ names.map Prod.fst) : (p, nameOf names p) ∈ names := by
  obtain ⟨x, hx, rfl⟩ := List.mem_map.1 hp
  have hsome : (names.lookup x.1).isSome = true := List.lookup_isSome_iff.2 ⟨x, hx, by simp⟩
  obtain ⟨k, hk⟩ := Option.isSome_iff_exists.1 hsome
  rw [nameOf, hk]
  exact mem_of_lookup_eq_some hk

theorem nameOf_lt_iff (hchain : names.IsChain (NamedNext key)) {p q : Nat} (hp : p ∈ names.map Prod.fst)
    (hq : q ∈ names.map Prod.fst) : nameOf names p < nameOf names q ↔ key p < key q :=
  (namedByKey_of_isChain hchain (mem_nameOf hp) (mem_nameOf hq)).1

/-- Every name in the list is the one its position is looked up by. -/
theorem map_nameOf_fst (hnodup : (names.map Prod.fst).Nodup) :
    (names.map Prod.fst).map (nameOf names) = names.map Prod.snd := by
  rw [List.map_map]
  refine List.map_congr_left fun x hx => ?_
  have hmem := mem_nameOf (List.mem_map_of_mem hx)
  exact congrArg Prod.snd (List.inj_on_of_nodup_map hnodup hmem hx rfl)

/-- A name is at most its place in the list; a last name that reaches it tells that all of them do. -/
theorem names_eq_range' {p k : Nat} {names : List (Nat × Nat)} (hchain : ((p, k) :: names).IsChain (NamedNext key)) :
    (∀ x ∈ (p, k) :: names, x.2 ≤ k + names.length) ∧
    ((∃ x ∈ (p, k) :: names, x.2 = k + names.length) →
      ((p, k) :: names).map Prod.snd = List.range' k (names.length + 1)) := by
  induction names generalizing p k with
  | nil => simp
  | cons y names ih =>
    obtain ⟨hnext, hchain⟩ := List.isChain_cons_cons.1 hchain
    obtain ⟨q, k'⟩ := y
    have hk : k' = k ∨ k' = k + 1 := hnext.imp And.left And.left
    obtain ⟨hle, heq⟩ := ih hchain
    have hlen : ((q, k') :: names).length = names.length + 1 := rfl
    refine ⟨fun x hx => ?_, fun ⟨x, hx, hxk⟩ => ?_⟩
    · rcases List.mem_cons.1 hx with rfl | hx
      · exact Nat.le_add_right _ _
      · have := hle x hx
        omega
    · rcases List.mem_cons.1 hx with rfl | hx
      · simp at hxk
      · have := hle x hx
        obtain rfl : k' = k + 1 := by omega
        exact congrArg (k :: ·) (heq ⟨x, hx, by omega⟩)

end

/-! ### The reduced string (41_suffix_array R126, R127) -/

/-- The LMS positions of a level, in the order of the first induction, with their names. -/
def levelNames (xs : List Nat) : List (Nat × Nat) :=
  lmsNames xs (sTypes xs) (induce xs (sTypes xs) (lmsOf xs))

/-- The string of the next level. -/
def reducedString (xs : List Nat) : List Nat := (lmsOf xs).map (nameOf (levelNames xs))

@[simp] theorem length_reducedString (xs : List Nat) :
    (reducedString xs).length = (lmsOf xs).length := List.length_map ..

/-- One level of the algorithm (41_suffix_array R129). -/
theorem saisFuel_succ {xs : List Nat} (h1 : xs.length ≠ 1) (fuel : Nat) : saisFuel (fuel + 1) xs =
    (induce xs (sTypes xs) ((if (reducedString xs).foldl max 0 + 1 = (reducedString xs).length
      then invertNames (reducedString xs) else saisFuel fuel (reducedString xs)).map
        (symAt (lmsOf xs)))).filterMap id := by
  rw [saisFuel, if_neg h1, length_reducedString]
  rfl

section
variable {xs : List Nat} (h : SentinelString xs) (h2 : 2 ≤ xs.length)
include h h2

/-- The names are given in the order of the substrings, the first one is 0. -/
theorem levelNames_spec : ∃ p names, levelNames xs = (p, 0) :: names ∧
    (levelNames xs).IsChain (NamedNext (substringKey xs)) ∧
    ((levelNames xs).map Prod.fst).Perm (lmsOf xs) := by
  obtain ⟨hperm, hsorted⟩ := induce_sorts h h2 (List.Perm.refl (lmsOf xs))
  rw [levelNames, lmsNames]
  generalize (induce xs (sTypes xs) (lmsOf xs)).filterMap id = l at hperm hsorted
  have hlms : (l.filter (isLms (sTypes xs))).Perm (lmsOf xs) := by
    rw [lmsOf, lmsPositions, length_sTypes]
    exact hperm.filter _
  have hlt : ∀ p ∈ l, p < xs.length := fun p hp => List.mem_range.1 (hperm.mem_iff.1 hp)
  have hle : (l.filter (isLms (sTypes xs))).Pairwise (fun p q => substringKey xs p ≤ substringKey xs q) :=
    (hsorted.imp_of_mem fun {p q} hp hq hpq =>
      substringKey_le_of_inducedKey_lt h h2 (hlt p hp) (hlt q hq) hpq).filter _
  have hmem : ∀ p ∈ l.filter (isLms (sTypes xs)), p < xs.length := fun p hp => hlt p (List.mem_filter.1 hp).1
  generalize l.filter (isLms (sTypes xs)) = lms at hlms hle hmem
  cases lms with
  | nil => exact absurd (hlms.symm.subset (mem_lmsPositions.2 (isLms_last h h2))) List.not_mem_nil
  | cons p ps =>
    obtain ⟨hchain, hfst⟩ := nameSubstrings_spec (k := 0) (key := substringKey xs)
      (fun q hq u hu => lmsSubstring_eq_iff h h2 (hmem q hq) (hmem u hu)) hle
    exact ⟨p, _, rfl, hchain, (List.Perm.of_eq hfst).trans hlms⟩

theorem nameOf_levelNames_lt_iff {p q : Nat} (hp : isLms (sTypes xs) p = true) (hq : isLms (sTypes xs) q = true) :
    nameOf (levelNames xs) p < nameOf (levelNames xs) q ↔ substringKey xs p < substringKey xs q := by
  obtain ⟨-, -, -, hchain, hperm⟩ := levelNames_spec h h2
  exact nameOf_lt_iff hchain (hperm.mem_iff.2 (mem_lmsPositions.2 hp)) (hperm.mem_iff.2 (mem_lmsPositions.2 hq))

theorem nameOf_levelNames_eq_iff {p q : Nat} (hp : isLms (sTypes xs) p = true) (hq : isLms (sTypes xs) q = true) :
    nameOf (levelNames xs) p = nameOf (levelNames xs) q ↔ substringKey xs p = substringKey xs q := by
  rw [eq_iff_le_not_lt, eq_iff_le_not_lt, ← not_lt, ← not_lt, nameOf_levelNames_lt_iff h h2 hp hq,
    nameOf_levelNames_lt_iff h h2 hq hp]

theorem reducedString_perm : (reducedString xs).Perm ((levelNames xs).map Prod.snd) := by
  obtain ⟨-, -, -, -, hperm⟩ := levelNames_spec h h2
  rw [← map_nameOf_fst (hperm.nodup_iff.2 (nodup_lmsPositions xs))]
  exact (hperm.map _).symm

end

/-! ### Positions of the reduced string -/

section
variable {xs : List Nat} {i j : Nat}

theorem symAt_mem {l : List Nat} (hi : i < l.length) : symAt l i ∈ l := by
  rw [symAt_eq_getElem hi]
  exact List.getElem_mem hi

theorem isLms_symAt (hi : i < (lmsOf xs).length) :
    isLms (sTypes xs) (symAt (lmsOf xs) i) = true := mem_lmsPositions.1 (symAt_mem hi)

theorem symAt_reducedString (hi : i < (lmsOf xs).length) :
    symAt (reducedString xs) i = nameOf (levelNames xs) (symAt (lmsOf xs) i) := by
  rw [symAt_eq_getElem (by simpa using hi), symAt_eq_getElem hi]
  exact List.getElem_map _

/-- The LMS positions are listed in ascending order. -/
theorem symAt_lmsOf_lt (hij : i < j) (hj : j < (lmsOf xs).length) :
    symAt (lmsOf xs) i < symAt (lmsOf xs) j := by
  rw [symAt_eq_getElem (hij.trans hj), symAt_eq_getElem hj]
  exact List.pairwise_iff_getElem.1 (List.pairwise_lt_range.filter _) i j _ _ hij

theorem exists_symAt_eq {p : Nat} (hp : isLms (sTypes xs) p = true) :
    ∃ i < (lmsOf xs).length, symAt (lmsOf xs) i = p := by
  obtain ⟨i, hi, hip⟩ := List.getElem_of_mem (mem_lmsPositions.2 hp)
  exact ⟨i, hi, (symAt_eq_getElem hi).trans hip⟩

/-- Between one LMS position and the next in the list there is none. -/
theorem not_isLms_between (hi : i + 1 < (lmsOf xs).length) {p : Nat}
    (hip : symAt (lmsOf xs) i < p) (hpi : p < symAt (lmsOf xs) (i + 1)) :
    isLms (sTypes xs) p = false := by
  refine Bool.eq_false_iff.2 fun hp => ?_
  obtain ⟨j, hj, rfl⟩ := exists_symAt_eq hp
  rcases lt_trichotomy i j with hij | rfl | hji
  · rcases (Nat.succ_le_iff.2 hij).lt_or_eq with hij | rfl
    · exact (symAt_lmsOf_lt hij hj).not_gt hpi
    · exact lt_irrefl _ hpi
  · exact lt_irrefl _ hip
  · exact (symAt_lmsOf_lt hji (by omega)).not_gt hip

/-- With equal substrings the suffixes at two LMS positions compare as those at the next LMS positions. -/
theorem suffixLt_of_substringKey_eq (hi : i + 1 < (lmsOf xs).length) (hj : j + 1 < (lmsOf xs).length)
    (hkey : substringKey xs (symAt (lmsOf xs) i) = substringKey xs (symAt (lmsOf xs) j))
    (hlt : SuffixLt xs (symAt (lmsOf xs) (i + 1)) (symAt (lmsOf xs) (j + 1))) :
    SuffixLt xs (symAt (lmsOf xs) i) (symAt (lmsOf xs) j) := by
  obtain ⟨hcode, hkey⟩ := inducedKey_eq_iff.1 hkey
  obtain ⟨d, hd⟩ := Nat.exists_eq_add_of_lt (symAt_lmsOf_lt (Nat.lt_add_one i) hi)
  obtain ⟨e, he⟩ := Nat.exists_eq_add_of_lt (symAt_lmsOf_lt (Nat.lt_add_one j) hj)
  rw [Nat.add_right_comm] at hd he
  have hnext : SuffixLt xs (symAt (lmsOf xs) i + 1) (symAt (lmsOf xs) j + 1) :=
    suffixLt_of_lmsKey_eq (d := d) (e := e) hkey (hd ▸ isLms_symAt hi)
      (fun m hm => not_isLms_between hi (by omega) (by omega)) (he ▸ isLms_symAt hj)
      (fun m hm => not_isLms_between hj (by omega) (by omega)) (hd ▸ he ▸ hlt)
  exact (suffixLt_step (lt_length_of_isLms (isLms_symAt (by omega))) (lt_length_of_isLms (isLms_symAt (by omega)))).2
    (.inr ⟨(typeCode_eq_iff.1 hcode).1, hnext⟩)

variable (h : SentinelString xs) (h2 : 2 ≤ xs.length)
include h h2

/-- Suffixes of the reduced string compare as the suffixes at their LMS positions (41_suffix_array R128). -/
theorem suffixLt_of_reducedString {i j : Nat} (hi : i < (lmsOf xs).length) (hj : j < (lmsOf xs).length)
    (hlt : SuffixLt (reducedString xs) i j) : SuffixLt xs (symAt (lmsOf xs) i) (symAt (lmsOf xs) j) := by
  have hil := isLms_symAt hi
  have hjl := isLms_symAt hj
  have hname := (suffixLt_step (by simpa using hi) (by simpa using hj)).1 hlt
  rw [symAt_reducedString hi, symAt_reducedString hj, nameOf_levelNames_lt_iff h h2 hil hjl,
    nameOf_levelNames_eq_iff h h2 hil hjl] at hname
  rcases hname with hkey | ⟨hkey, hnext⟩
  · exact suffixLt_of_substringKey_lt h h2 (lt_length_of_isLms hil) (lt_length_of_isLms hjl) hkey
  · obtain ⟨k, hik, hjk, -⟩ := id hnext
    rw [length_reducedString] at hik hjk
    have hi' : i + 1 < (lmsOf xs).length := by omega
    have hj' : j + 1 < (lmsOf xs).length := by omega
    exact suffixLt_of_substringKey_eq hi' hj' hkey (suffixLt_of_reducedString hi' hj' hnext)
termination_by (lmsOf xs).length - i

theorem length_lmsOf_pos : 0 < (lmsOf xs).length :=
  List.length_pos_of_mem (mem_lmsPositions.2 (isLms_last h h2))

/-- The last LMS position is that of the sentinel. -/
theorem symAt_lmsOf_last :
    symAt (lmsOf xs) ((lmsOf xs).length - 1) = xs.length - 1 := by
  obtain ⟨i, hi, hilast⟩ := exists_symAt_eq (isLms_last h h2)
  by_cases hlast : i = (lmsOf xs).length - 1
  · rw [← hlast, hilast]
  · have := symAt_lmsOf_lt (xs := xs) (i := i) (j := (lmsOf xs).length - 1) (by omega) (by omega)
    have := lt_length_of_isLms (isLms_symAt (xs := xs) (i := (lmsOf xs).length - 1) (by omega))
    omega

/-- The substring of the sentinel is named before every other. -/
theorem nameOf_last_lt {p : Nat} (hp : isLms (sTypes xs) p = true) (hne : p ≠ xs.length - 1) :
    nameOf (levelNames xs) (xs.length - 1) < nameOf (levelNames xs) p := by
  have hplt := lt_length_of_isLms hp
  refine (nameOf_levelNames_lt_iff h h2 (isLms_last h h2) hp).2 (inducedKey_lt_of_symAt_lt ?_)
  rw [(h.symAt_eq_zero (by omega)).2 (by omega)]
  have := mt (h.symAt_eq_zero hplt).1 (by omega)
  omega

theorem nameOf_last : nameOf (levelNames xs) (xs.length - 1) = 0 := by
  obtain ⟨p, names, hcons, -, hperm⟩ := levelNames_spec h h2
  have hp : isLms (sTypes xs) p = true := mem_lmsPositions.1 (hperm.subset (by simp [hcons]))
  have hzero : nameOf (levelNames xs) p = 0 := by simp [nameOf, hcons]
  by_cases hlast : p = xs.length - 1
  · rw [← hlast, hzero]
  · have := nameOf_last_lt h h2 hp hlast
    omega

/-- The reduced string meets the sentinel precondition again (41_suffix_array R126). -/
theorem reducedString_sentinel : SentinelString (reducedString xs) := by
  have hpos := length_lmsOf_pos h h2
  constructor
  · rw [List.getLast?_eq_getElem?, List.getElem?_eq_getElem (by simpa using hpos), ← symAt_eq_getElem,
      length_reducedString, symAt_reducedString (by omega), symAt_lmsOf_last h h2, nameOf_last h h2]
  · intro i hi
    rw [length_reducedString] at hi
    rw [symAt_reducedString (by omega)]
    have hlt := symAt_lmsOf_lt (xs := xs) (i := i) (j := (lmsOf xs).length - 1) (by omega) (by omega)
    rw [symAt_lmsOf_last h h2] at hlt
    have := nameOf_last_lt h h2 (isLms_symAt (xs := xs) (i := i) (by omega)) hlt.ne
    omega

end

/-! ### All names distinct (41_suffix_array R127) -/

theorem foldl_max_mem (a : Nat) (l : List Nat) : l.foldl max a ∈ a :: l := by
  induction l generalizing a with
  | nil => exact .head _
  | cons b l ih =>
    rcases List.mem_cons.1 (ih (max a b)) with hm | hm
    · rw [List.foldl_cons, hm]
      rcases max_choice a b with hmax | hmax
      · rw [hmax]
        exact .head _
      · rw [hmax]
        exact .tail _ (.head _)
    · exact .tail _ (.tail _ hm)

/-- When the largest name says that all are distinct, they are 0 to m - 1. -/
theorem reducedString_perm_range {xs : List Nat} (h : SentinelString xs) (h2 : 2 ≤ xs.length)
    (hmax : (reducedString xs).foldl max 0 + 1 = (reducedString xs).length) :
    (reducedString xs).Perm (List.range (reducedString xs).length) := by
  obtain ⟨p, names, hcons, hchain, -⟩ := levelNames_spec h h2
  have hperm := reducedString_perm h h2
  rw [hcons] at hchain hperm
  have hlen : (reducedString xs).length = names.length + 1 := by simpa using hperm.length_eq
  have hmem : (reducedString xs).foldl max 0 ∈ ((p, 0) :: names).map Prod.snd := by
    rcases List.mem_cons.1 (foldl_max_mem 0 (reducedString xs)) with hm | hm
    · rw [hm]
      exact .head _
    · exact hperm.subset hm
  obtain ⟨x, hx, hxm⟩ := List.mem_map.1 hmem
  have hnames := (names_eq_range' hchain).2 ⟨x, hx, by omega⟩
  rw [hnames] at hperm
  rwa [hlen, List.range_eq_range']

/-- Distinct names order the suffixes by their first symbols. -/
theorem invertNames_isSuffixArray {s1 : List Nat} (hperm : s1.Perm (List.range s1.length)) :
    IsSuffixArray s1 (invertNames s1) := by
  have hnodup : s1.Nodup := hperm.nodup_iff.2 List.nodup_range
  have hmem : ∀ k ∈ List.range s1.length, k ∈ s1 := fun k hk => hperm.mem_iff.2 hk
  constructor
  · have hself : s1.map (fun k => s1.idxOf k) = List.range s1.length := by
      refine List.ext_getElem (by simp) fun i hi _ => ?_
      simp [hnodup.idxOf_getElem]
    have hmap := hperm.symm.map (fun k => s1.idxOf k)
    rwa [hself] at hmap
  · rw [invertNames, List.pairwise_map]
    refine List.pairwise_lt_range.imp_of_mem fun {k l} hk hl hkl => ?_
    have hk' := List.idxOf_lt_length_of_mem (hmem k hk)
    have hl' := List.idxOf_lt_length_of_mem (hmem l hl)
    refine (suffixLt_step hk' hl').2 (.inl ?_)
    rw [symAt_eq_getElem hk', symAt_eq_getElem hl', List.getElem_idxOf, List.getElem_idxOf]
    exact hkl

/-! ### The whole algorithm (41_suffix_array R129, R130) -/

theorem rel_of_idxOf_lt {l : List Nat} {R : Nat → Nat → Prop} (hl : l.Pairwise R) {p q : Nat} (hq : q ∈ l)
    (hlt : l.idxOf p < l.idxOf q) : R p q := by
  have hq' := List.idxOf_lt_length_of_mem hq
  have := List.pairwise_iff_getElem.1 hl _ _ (hlt.trans hq') hq' hlt
  rwa [List.getElem_idxOf, List.getElem_idxOf] at this

/-- Induced from the LMS positions in the order of their suffixes, all positions are (41_suffix_array R128). -/
theorem induce_isSuffixArray {xs order : List Nat} (h : SentinelString xs) (h2 : 2 ≤ xs.length)
    (hperm : order.Perm (lmsOf xs)) (hsorted : order.Pairwise (SuffixLt xs)) :
    IsSuffixArray xs ((induce xs (sTypes xs) order).filterMap id) := by
  obtain ⟨hall, hkeys⟩ := induce_sorts h h2 hperm
  refine ⟨hall, hkeys.imp_of_mem fun {p q} hp hq hpq => ?_⟩
  have hp := List.mem_range.1 (hall.mem_iff.1 hp)
  have hq := List.mem_range.1 (hall.mem_iff.1 hq)
  exact suffixLt_of_inducedKey_lt h h2
    (fun p q _ hq hlt => rel_of_idxOf_lt hsorted ((mem_lms hperm).2 hq) hlt) hp hq hpq

/-- The suffix array of the reduced string gives the order of the LMS positions. -/
theorem order_of_reducedString {xs sa1 : List Nat} (h : SentinelString xs) (h2 : 2 ≤ xs.length)
    (hsa : IsSuffixArray (reducedString xs) sa1) :
    (sa1.map (symAt (lmsOf xs))).Perm (lmsOf xs) ∧
    (sa1.map (symAt (lmsOf xs))).Pairwise (SuffixLt xs) := by
  obtain ⟨hperm, hsorted⟩ := hsa
  rw [length_reducedString] at hperm
  refine ⟨?_, List.pairwise_map.2 (hsorted.imp_of_mem fun {i j} hi hj hij => ?_)⟩
  · have := hperm.map (symAt (lmsOf xs))
    rwa [map_symAt_range] at this
  · have hi := List.mem_range.1 (hperm.mem_iff.1 hi)
    have hj := List.mem_range.1 (hperm.mem_iff.1 hj)
    exact suffixLt_of_reducedString h h2 hi hj hij

theorem saisFuel_isSuffixArray {fuel : Nat} {xs : List Nat} (h : SentinelString xs) (hfuel : xs.length ≤ fuel) :
    IsSuffixArray xs (saisFuel fuel xs) := by
  have hpos := h.length_pos
  induction fuel generalizing xs with
  | zero => omega
  | succ fuel ih =>
    by_cases h1 : xs.length = 1
    · rw [saisFuel, if_pos h1, IsSuffixArray, h1]
      exact ⟨.refl _, List.pairwise_singleton _ _⟩
    · have h2 : 2 ≤ xs.length := by omega
      rw [saisFuel_succ h1]
      have hsent := reducedString_sentinel h h2
      have hhalf : 2 * (lmsOf xs).length ≤ xs.length := two_mul_length_lmsPositions_le xs
      have hsa1 : IsSuffixArray (reducedString xs)
          (if (reducedString xs).foldl max 0 + 1 = (reducedString xs).length then invertNames (reducedString xs)
            else saisFuel fuel (reducedString xs)) := by
        split
        case isTrue hmax => exact invertNames_isSuffixArray (reducedString_perm_range h h2 hmax)
        case isFalse => exact ih hsent (by rw [length_reducedString]; omega) hsent.length_pos
      obtain ⟨hperm, hsorted⟩ := order_of_reducedString h h2 hsa1
      exact induce_isSuffixArray h h2 hperm hsorted

/-- Settles O33: by induction over the levels. Each level sorts its LMS substrings by one induction, hands their names to
the next level, and sorts all suffixes by a second induction from the order that comes back. -/
theorem saisAgreesWithResultLayer : Obligations.SaisAgreesWithResultLayer := by
  unfold Obligations.SaisAgreesWithResultLayer
  intro xs h
  have hsais : IsSuffixArray xs (sais xs) := saisFuel_isSuffixArray h le_rfl
  exact ⟨hsais, (suffixArray_isSuffixArray h).unique h hsais⟩

end Sys2Proof.Machine
end

