-- ==== Sys2Proof/Proofs/BwtTransform.lean ====
section
/-! SUPPORT. The two transforms as functions on lists: the forward one by the ranks of the suffixes (42_bwt R141), the
inverse one by its walk along the LF-mapping (R142, R143), and that the walk undoes the forward transform (R144). -/

namespace Sys2Proof.Machine

/-! ### The forward transform (42_bwt R141) -/

section
variable {xs : List Nat} {i : Nat}

/-- Row i holds the symbol before suffix SA[i] (42_bwt R141). -/
theorem symAt_bwtForward (hi : i < xs.length) :
    symAt (bwtForward xs) i = symAt xs ((symAt (suffixArray xs) i + xs.length - 1) % xs.length) := by
  rw [symAt_eq_getElem (by simpa using hi), symAt_eq_getElem (xs := suffixArray xs) (by simpa using hi)]
  exact List.getElem_map _

/-- The symbols before the positions 0, 1, .. are the string turned by one. -/
theorem map_previous_range (xs : List Nat) :
    (List.range xs.length).map (fun p => xs.getD ((p + xs.length - 1) % xs.length) 0) = xs.rotate (xs.length - 1) := by
  refine List.ext_getElem (by simp) fun i h _ => ?_
  have hi : i < xs.length := by simpa using h
  rw [List.getElem_map, List.getElem_range, List.getElem_rotate, Nat.add_sub_assoc (by omega)]
  exact symAt_eq_getElem (Nat.mod_lt _ (by omega))

/-- The transform is a permutation of the data (42_bwt R141). -/
theorem bwtForward_perm (xs : List Nat) : (bwtForward xs).Perm xs := by
  have hmap := (suffixArray_perm xs).map (fun p => xs.getD ((p + xs.length - 1) % xs.length) 0)
  rw [map_previous_range] at hmap
  exact hmap.trans (List.rotate_perm _ _)

/-! ### Rows are ranks of suffixes -/

/-- The row of suffix p: how many suffixes come before it. -/
def suffixRank (xs : List Nat) (p : Nat) : Nat := rankBy xs.length xs.drop p

theorem countP_range_eq_card (n : Nat) (C : Nat → Prop) [DecidablePred C] :
    (List.range n).countP C = ((Finset.range n).filter C).card := by
  simp [List.countP_eq_length_filter, Finset.card, Finset.range, Multiset.range]

/-- In a list with ascending keys, the elements below the one at i are the first i. -/
theorem filter_lt_getElem_eq_take {l : List Nat} {key : Nat → List Nat} (hl : l.Pairwise (fun p q => key p < key q))
    (hi : i < l.length) : l.filter (fun q => key q < key l[i]) = l.take i := by
  have hsplit : l.take i ++ l[i] :: l.drop (i + 1) = l := by rw [List.getElem_cons_drop, List.take_append_drop]
  rw [← hsplit] at hl
  obtain ⟨-, hfrom, hbefore⟩ := List.pairwise_append.1 hl
  have hafter : ∀ q ∈ l[i] :: l.drop (i + 1), ¬ key q < key l[i] :=
    List.forall_mem_cons.2 ⟨lt_irrefl _, fun q hq => ((List.pairwise_cons.1 hfrom).1 q hq).asymm⟩
  calc l.filter (fun q => key q < key l[i])
    _ = (l.take i ++ l[i] :: l.drop (i + 1)).filter (fun q => key q < key l[i]) := by rw [hsplit]
    _ = l.take i ++ [] := by
      rw [List.filter_append, List.filter_eq_self.2, List.filter_eq_nil_iff.2]
      · exact fun q hq => mt of_decide_eq_true (hafter q hq)
      · exact fun q hq => decide_eq_true (hbefore q hq _ List.mem_cons_self)
    _ = l.take i := List.append_nil _

/-- Before row i of the suffix array stand the suffixes below the one of that row. -/
theorem take_suffixArray_perm (h : SentinelString xs) (hi : i < xs.length) : ((suffixArray xs).take i).Perm
    ((List.range xs.length).filter (fun q => xs.drop q < xs.drop (symAt (suffixArray xs) i))) := by
  obtain ⟨hperm, hlt⟩ := suffixArray_isSuffixArray h
  have hmem {p : Nat} (hp : p ∈ suffixArray xs) : p < xs.length := List.mem_range.1 (hperm.mem_iff.1 hp)
  have hsorted : (suffixArray xs).Pairwise (fun p q => xs.drop p < xs.drop q) :=
    hlt.imp_of_mem fun hp hq => (suffixLt_iff_drop_lt h (hmem hp) (hmem hq)).1
  rw [symAt_eq_getElem (by simpa using hi), ← filter_lt_getElem_eq_take hsorted]
  exact hperm.filter _

theorem suffixRank_symAt_suffixArray (h : SentinelString xs) (hi : i < xs.length) :
    suffixRank xs (symAt (suffixArray xs) i) = i := by
  rw [suffixRank, rankBy, ← countP_range_eq_card, List.countP_eq_length_filter,
    ← (take_suffixArray_perm h hi).length_eq]
  simp [hi.le]

theorem suffixRank_lt {p : Nat} (hp : p < xs.length) : suffixRank xs p < xs.length := rankBy_lt hp

theorem symAt_suffixArray_suffixRank (h : SentinelString xs) {p : Nat} (hp : p < xs.length) :
    symAt (suffixArray xs) (suffixRank xs p) = p := by
  have hrow := suffixRank_lt hp
  have hmem : symAt (suffixArray xs) (suffixRank xs p) < xs.length :=
    List.mem_range.1 ((suffixArray_perm xs).mem_iff.1 (symAt_mem (by simpa using hrow)))
  exact rankBy_injective (fun _ hp _ hq => drop_injOn xs hp hq) hmem hp (suffixRank_symAt_suffixArray h hrow)

/-! ### The LF-mapping goes one position back (42_bwt R142, R144) -/

/-- LF by the bucket of the symbol in row i and its rank in that bucket (42_bwt R142). -/
theorem bwtLf_eq (xs : List Nat) (i : Nat) :
    bwtLf xs i = bucketHead xs (symAt xs i) + (xs.take i).count (symAt xs i) := rfl

/-- The position after q, around the end. -/
def nextPos (xs : List Nat) (q : Nat) : Nat := (q + 1) % xs.length

theorem nextPos_lt (hpos : 0 < xs.length) (q : Nat) : nextPos xs q < xs.length := Nat.mod_lt _ hpos

theorem previous_nextPos {q : Nat} (hq : q < xs.length) : (nextPos xs q + xs.length - 1) % xs.length = q := by
  rw [nextPos]
  by_cases hlast : q + 1 = xs.length
  · rw [hlast, Nat.mod_self, Nat.mod_eq_of_lt (by omega)]
    omega
  · rw [Nat.mod_eq_of_lt (by omega : q + 1 < xs.length), show q + 1 + xs.length - 1 = q + xs.length by omega,
      Nat.add_mod_right, Nat.mod_eq_of_lt hq]

theorem map_nextPos_range_perm (xs : List Nat) :
    ((List.range xs.length).map (nextPos xs)).Perm (List.range xs.length) := by
  have hrotate : (List.range xs.length).map (nextPos xs) = (List.range xs.length).rotate 1 :=
    List.ext_getElem (by simp) fun i _ _ => by simp [nextPos, List.getElem_rotate]
  rw [hrotate]
  exact List.rotate_perm _ _

/-- Every row is that of the suffix after some position. -/
theorem exists_suffixRank_nextPos_eq (hi : i < xs.length) : ∃ q < xs.length, suffixRank xs (nextPos xs q) = i := by
  obtain ⟨p, hp, hrank⟩ := exists_rankBy_eq (fun _ hp _ hq => drop_injOn xs hp hq) hi
  obtain ⟨q, hq, rfl⟩ := List.mem_map.1 ((map_nextPos_range_perm xs).mem_iff.2 (List.mem_range.2 hp))
  exact ⟨q, List.mem_range.1 hq, hrank⟩

/-- A suffix is below another by its first symbol, or it begins with the same symbol. -/
theorem drop_lt_iff {p q : Nat} (hp : p < xs.length) (hq : q < xs.length) : xs.drop p < xs.drop q ↔
    symAt xs p < symAt xs q ∨ symAt xs p = symAt xs q ∧ xs.drop p < xs.drop q := by
  rw [drop_lt_step hp hq]
  tauto

/-- Suffixes that begin with one symbol are in the order of the suffixes after them. -/
theorem drop_nextPos_lt_iff (h : SentinelString xs) {p q : Nat} (hp : p < xs.length) (hq : q < xs.length)
    (hsym : symAt xs p = symAt xs q) :
    xs.drop (nextPos xs p) < xs.drop (nextPos xs q) ↔ xs.drop p < xs.drop q := by
  by_cases hne : p = q
  · subst hne
    simp
  · obtain ⟨hp', hq'⟩ := h.succ_lt hp hq hsym hne
    rw [nextPos, nextPos, Nat.mod_eq_of_lt hp', Nat.mod_eq_of_lt hq', drop_lt_step hp hq]
    simp [hsym]

/-- The row of the suffix after q holds the symbol at q. -/
theorem symAt_bwtForward_suffixRank (h : SentinelString xs) {q : Nat} (hq : q < xs.length) :
    symAt (bwtForward xs) (suffixRank xs (nextPos xs q)) = symAt xs q := by
  have hnext := nextPos_lt h.length_pos q
  rw [symAt_bwtForward (suffixRank_lt hnext), symAt_suffixArray_suffixRank h hnext, previous_nextPos hq]

/-- How often a symbol stands in the rows before that of suffix p. -/
theorem count_take_suffixRank (h : SentinelString xs) {p : Nat} (hp : p < xs.length) (c : Nat) :
    ((bwtForward xs).take (suffixRank xs p)).count c =
      ((Finset.range xs.length).filter (fun q => symAt xs q = c ∧ xs.drop (nextPos xs q) < xs.drop p)).card := by
  have htake := take_suffixArray_perm h (suffixRank_lt hp)
  rw [symAt_suffixArray_suffixRank h hp] at htake
  rw [bwtForward, ← List.map_take, List.count, List.countP_map, htake.countP_eq, List.countP_filter,
    ← (map_nextPos_range_perm xs).countP_eq, List.countP_map, ← countP_range_eq_card]
  refine List.countP_congr fun q hq => ?_
  have hprev := previous_nextPos (List.mem_range.1 hq)
  simp [hprev, symAt]

/-- LF sends the row of the suffix after q to the row of suffix q (42_bwt R144). -/
theorem bwtLf_suffixRank (h : SentinelString xs) {q : Nat} (hq : q < xs.length) :
    bwtLf (bwtForward xs) (suffixRank xs (nextPos xs q)) = suffixRank xs q := by
  have hafter : ((bwtForward xs).take (suffixRank xs (nextPos xs q))).count (symAt xs q) =
      ((Finset.range xs.length).filter
        (fun p => True ∧ symAt xs p = symAt xs q ∧ xs.drop p < xs.drop q)).card := by
    rw [count_take_suffixRank h (nextPos_lt h.length_pos q)]
    refine congrArg Finset.card (Finset.filter_congr fun p hp => ?_)
    rw [true_and]
    exact and_congr_right fun hsym => drop_nextPos_lt_iff h (Finset.mem_range.1 hp) hq hsym
  have hbelow : bucketHead (bwtForward xs) (symAt xs q) = bucketHead xs (symAt xs q) :=
    (bwtForward_perm xs).countP_eq _
  rw [bwtLf_eq, symAt_bwtForward_suffixRank h hq, hafter, hbelow]
  exact (rankBy_eq_head_add fun p hp => by rw [true_and]; exact drop_lt_iff hp hq).symm

end

/-! ### The walk of the inverse transform (42_bwt R143) -/

section
variable {xs : List Nat} {i : Nat}

/-- LF stays within the rows (42_bwt R142). -/
theorem bwtLf_lt (hi : i < xs.length) : bwtLf xs i < xs.length := by
  have hall := bucketHead_add_count_add_card xs (symAt xs i)
  have hrank : ((xs.take i).count (symAt xs i)) + 1 ≤ xs.count (symAt xs i) := by
    have := (List.take_sublist (i + 1) xs).count_le (symAt xs i)
    rwa [List.take_succ_eq_append_getElem hi, ← symAt_eq_getElem hi, List.count_append, List.count_singleton_self] at this
  rw [bwtLf_eq]
  omega

/-- The row the inverse stands at after k turns of its loop. -/
def bwtRow (xs : List Nat) (k : Nat) : Nat := (bwtLf xs)^[k] (xs.idxOf 0)

theorem bwtRow_succ (xs : List Nat) (k : Nat) : bwtRow xs (k + 1) = bwtLf xs (bwtRow xs k) :=
  Function.iterate_succ_apply' ..

theorem bwtRow_lt (h0 : 0 ∈ xs) (k : Nat) : bwtRow xs k < xs.length := by
  induction k with
  | zero => exact List.idxOf_lt_length_of_mem h0
  | succ k ih =>
    rw [bwtRow_succ]
    exact bwtLf_lt ih

theorem symAt_bwtRow_zero (h0 : 0 ∈ xs) : symAt xs (bwtRow xs 0) = 0 := by
  rw [symAt_eq_getElem (bwtRow_lt h0 0)]
  exact List.getElem_idxOf (bwtRow_lt h0 0)

theorem bwtInverseLoop_eq (xs : List Nat) (k cur : Nat) (acc : List Nat) : bwtInverseLoop xs k cur acc =
    ((List.range k).map (fun j => symAt xs ((bwtLf xs)^[j] cur))).reverse ++ acc := by
  induction k generalizing cur acc with
  | zero => rfl
  | succ k ih =>
    rw [bwtInverseLoop, ih, List.range_succ_eq_map]
    simp [Function.comp_def, symAt]

/-- The inverse is what the rows of the walk hold, the last one first (42_bwt R143). -/
theorem bwtInverse_eq (xs : List Nat) :
    bwtInverse xs = ((List.range xs.length).map (fun k => symAt xs (bwtRow xs k))).reverse := by
  rw [bwtInverse, bwtInverseLoop_eq, List.append_nil]
  rfl

theorem symAt_bwtInverse {k : Nat} (hk : k < xs.length) :
    symAt (bwtInverse xs) (xs.length - 1 - k) = symAt xs (bwtRow xs k) := by
  rw [symAt_eq_getElem (by rw [length_bwtInverse]; omega)]
  simp only [bwtInverse_eq, List.getElem_reverse, List.getElem_map, List.getElem_range, List.length_map,
    List.length_range]
  congr 2
  omega

/-- The inverse makes up nothing. -/
theorem mem_of_mem_bwtInverse (h0 : 0 ∈ xs) {x : Nat} (hx : x ∈ bwtInverse xs) : x ∈ xs := by
  rw [bwtInverse_eq, List.mem_reverse] at hx
  obtain ⟨k, -, rfl⟩ := List.mem_map.1 hx
  exact symAt_mem (bwtRow_lt h0 k)

/-! ### The involution (42_bwt R144) -/

theorem zero_mem_bwtForward (h : SentinelString xs) : 0 ∈ bwtForward xs :=
  (bwtForward_perm xs).mem_iff.2 (List.mem_of_getLast? h.1)

/-- The walk over a transform begins at the row of the whole string. -/
theorem bwtRow_zero_bwtForward (h : SentinelString xs) : bwtRow (bwtForward xs) 0 = suffixRank xs 0 := by
  have h0 := zero_mem_bwtForward h
  obtain ⟨q, hq, hrow⟩ := exists_suffixRank_nextPos_eq (by simpa using bwtRow_lt h0 0)
  have hzero := symAt_bwtRow_zero h0
  rw [← hrow, symAt_bwtForward_suffixRank h hq, h.symAt_eq_zero hq] at hzero
  rw [← hrow, nextPos, hzero, Nat.mod_self]

/-- After k turns the walk over a transform is at the row of the suffix k positions from the end. -/
theorem bwtRow_bwtForward (h : SentinelString xs) {k : Nat} (hk : k < xs.length) :
    bwtRow (bwtForward xs) k = suffixRank xs (nextPos xs (xs.length - 1 - k)) := by
  induction k with
  | zero =>
    rw [bwtRow_zero_bwtForward h, nextPos, Nat.sub_zero, Nat.sub_add_cancel h.length_pos, Nat.mod_self]
  | succ k ih =>
    rw [bwtRow_succ, ih (by omega), bwtLf_suffixRank h (by omega), nextPos, Nat.mod_eq_of_lt (by omega)]
    congr 1
    omega

/-- So the walk reads the string from its end (42_bwt R144). -/
theorem bwtInverse_bwtForward (h : SentinelString xs) : bwtInverse (bwtForward xs) = xs := by
  refine List.ext_getElem (by simp) fun i hi hi' => ?_
  rw [← symAt_eq_getElem hi, ← symAt_eq_getElem hi']
  have hread := symAt_bwtInverse (xs := bwtForward xs) (k := xs.length - 1 - i) (by simp; omega)
  rw [bwtRow_bwtForward h (by omega), symAt_bwtForward_suffixRank h (by omega), length_bwtForward] at hread
  rwa [show xs.length - 1 - (xs.length - 1 - i) = i by omega] at hread

end

end Sys2Proof.Machine
end

