-- ==== Sys2Proof/Proofs/BwtCommands.lean ====
section
/-! PROOF. BWT.FWD (42_bwt R140, R141), BWT.INV (R142, R143) and that the second undoes the first (R144). -/

namespace Sys2Proof.Machine

/-! ### What the commands do under their preconditions -/

theorem inverseOk_iff {xs : List Nat} : inverseOk xs = true ↔ xs.count 0 = 1 := beq_iff_eq

theorem SentinelString.count_zero {xs : List Nat} (h : SentinelString xs) : xs.count 0 = 1 := by
  have hok := sentinelOk_iff.2 h
  rw [sentinelOk, Bool.and_eq_true] at hok
  exact beq_iff_eq.1 hok.2

theorem zero_mem_of_count {xs : List Nat} (h : xs.count 0 = 1) : 0 ∈ xs :=
  List.count_pos_iff.1 (h ▸ Nat.one_pos)

/-- Bytes fit a cell. -/
theorem fits_of_bytes {xs ys : List Nat} (hx : ∀ x ∈ xs, x ≤ 255) (hsub : ∀ y ∈ ys, y ∈ xs) : ∀ y ∈ ys, y < 2 ^ 32 :=
  fun y hy => (hx y (hsub y hy)).trans_lt (by decide)

section
variable {a b c : Word} {s : State}

/-- Under the forward precondition BWT.FWD writes the transform (42_bwt R140). -/
theorem exec_bwtFwd_writes (hs : s.faulted = false) (hw : s.mem.wf) (ha : a.toNat + b.toNat ≤ s.cfg.memWords)
    (hc : c.toNat + b.toNat ≤ s.cfg.memWords) (ho : ¬ Overlap a.toNat b.toNat c.toNat b.toNat)
    (hx : ∀ x ∈ s.data a.toNat b.toNat, x ≤ 255) (hsent : SentinelString (s.data a.toNat b.toNat)) :
    exec (.bwtFwd a b c) s = .next (s.writeRegion c.toNat (toWords (bwtForward (s.data a.toNat b.toNat)))) ∧
    (s.writeRegion c.toNat (toWords (bwtForward (s.data a.toNat b.toNat)))).data c.toNat b.toNat =
      bwtForward (s.data a.toNat b.toNat) := by
  constructor
  · rw [exec_bwtFwd hs ha hc ho hx, if_pos (sentinelOk_iff.2 hsent)]
  · simpa only [length_bwtForward, length_data] using
      data_writeRegion_toWords hw c.toNat (fits_of_bytes hx fun _ => (bwtForward_perm _).mem_iff.1)

/-- Under the inverse precondition BWT.INV writes the inverse transform (42_bwt R143). -/
theorem exec_bwtInv_writes (hs : s.faulted = false) (hw : s.mem.wf) (ha : a.toNat + b.toNat ≤ s.cfg.memWords)
    (hc : c.toNat + b.toNat ≤ s.cfg.memWords) (ho : ¬ Overlap a.toNat b.toNat c.toNat b.toNat)
    (hx : ∀ x ∈ s.data a.toNat b.toNat, x ≤ 255) (hzero : (s.data a.toNat b.toNat).count 0 = 1) :
    exec (.bwtInv a b c) s = .next (s.writeRegion c.toNat (toWords (bwtInverse (s.data a.toNat b.toNat)))) ∧
    (s.writeRegion c.toNat (toWords (bwtInverse (s.data a.toNat b.toNat)))).data c.toNat b.toNat =
      bwtInverse (s.data a.toNat b.toNat) := by
  constructor
  · rw [exec_bwtInv hs ha hc ho hx, if_pos (inverseOk_iff.2 hzero)]
  · simpa only [length_bwtInverse, length_data] using data_writeRegion_toWords hw c.toNat
      (fits_of_bytes hx fun _ => mem_of_mem_bwtInverse (zero_mem_of_count hzero))

end

theorem cellsOutsideKept_toWords {s : State} (h : s.mem.wf) (base : Nat) {xs : List Nat} {k : Nat}
    (hlen : xs.length = k) : CellsOutsideKept s (s.writeRegion base (toWords xs)) base k := by
  have := cellsOutsideKept_writeRegion h base (toWords xs)
  rwa [length_toWords, hlen] at this

/-! ### The obligations -/

/-- Settles O36: the output of BWT.FWD meets the precondition of BWT.INV, and the inverse transform undoes the forward
one. -/
theorem bwtInverseUndoesForward : Obligations.BwtInverseUndoesForward := by
  unfold Obligations.BwtInverseUndoesForward
  intro a b c e s hs hw ha hc he ho ho' hx hsent
  obtain ⟨hfwd, hout⟩ := exec_bwtFwd_writes hs hw ha hc ho hx hsent
  have hperm := bwtForward_perm (s.data a.toNat b.toNat)
  obtain ⟨hinv, hback⟩ := exec_bwtInv_writes (a := c) (b := b) (c := e)
    (s := s.writeRegion c.toNat (toWords (bwtForward (s.data a.toNat b.toNat)))) hs
    (Memory.writeRange_wf hw _ _) hc he ho' (fun x hm => hx x (hperm.mem_iff.1 (hout ▸ hm)))
    (by rw [hout, hperm.count_eq, hsent.count_zero])
  rw [hout, bwtInverse_bwtForward hsent] at hinv hback
  exact ⟨_, _, hfwd, hinv, hback⟩

/-- Settles O34: the result layer's suffix array gives the rows, and the rows are a permutation of the data. -/
theorem bwtForwardOutput : Obligations.BwtForwardOutput := by
  unfold Obligations.BwtForwardOutput
  intro a b c s hs hw ha hc ho hx hsent
  obtain ⟨hfwd, hout⟩ := exec_bwtFwd_writes hs hw ha hc ho hx hsent
  refine ⟨_, _, hfwd, suffixArray_isSuffixArray hsent, fun i hi => ?_, ?_,
    cellsOutsideKept_toWords hw _ (by rw [length_bwtForward, length_data]), rfl⟩
  · rw [hout]
    simpa only [length_data] using symAt_bwtForward (xs := s.data a.toNat b.toNat) (by rwa [length_data])
  · rw [hout]
    exact bwtForward_perm _

/-- Settles O35: the rows are those of the walk along the LF-mapping, which stays within the block. -/
theorem bwtInverseOutput : Obligations.BwtInverseOutput := by
  unfold Obligations.BwtInverseOutput
  intro a b c s hs hw ha hc ho hx hzero
  obtain ⟨hinv, hout⟩ := exec_bwtInv_writes hs hw ha hc ho hx hzero
  have h0 := zero_mem_of_count hzero
  have hlt (k : Nat) : bwtRow (s.data a.toNat b.toNat) k < b.toNat := by
    simpa only [length_data] using bwtRow_lt h0 k
  have hread {k : Nat} (hk : k < b.toNat) : symAt (bwtInverse (s.data a.toNat b.toNat)) (b.toNat - 1 - k) =
      symAt (s.data a.toNat b.toNat) (bwtRow (s.data a.toNat b.toNat) k) := by
    simpa only [length_data] using symAt_bwtInverse (xs := s.data a.toNat b.toNat) (by rwa [length_data])
  refine ⟨_, bwtRow (s.data a.toNat b.toNat), hinv, hlt 0, symAt_bwtRow_zero h0, fun k hk => ⟨hlt k, ?_, ?_⟩, ?_,
    cellsOutsideKept_toWords hw _ (by rw [length_bwtInverse, length_data]), rfl⟩
  · rw [hout]
    exact hread hk
  · exact bwtRow_succ _ k
  · rw [hout]
    exact (hread (Nat.zero_lt_of_lt (hlt 0))).trans (symAt_bwtRow_zero h0)

end Sys2Proof.Machine
end

