-- ==== Sys2Proof/Proofs/MoveToFront.lean ====
section
/-! PROOF. The move-to-front transforms on lists (43_mtf R152 to R154): both front-move their table at the same indices, so
the sequence of tables depends on the indices alone. The facts about the forward transform are read off the inverse one. -/

namespace Sys2Proof.Machine

/-! ### The table -/

theorem MtfTable.wf.length_eq {t : MtfTable} (h : MtfTable.wf t) : t.length = 256 := by
  simpa [allBytes] using List.Perm.length_eq h

theorem mem_allBytes (x : Byte) : x ∈ allBytes :=
  List.mem_map.2 ⟨x.toNat, List.mem_range.2 x.isLt, (BitVec.ofNat_toNat 8 x).trans (BitVec.setWidth_eq x)⟩

theorem MtfTable.wf.mem {t : MtfTable} (h : MtfTable.wf t) (x : Byte) : x ∈ t := (List.Perm.mem_iff h).2 (mem_allBytes x)

@[simp] theorem length_frontMove (t : MtfTable) (j : Nat) : (frontMove t j).length = t.length :=
  (frontMove_perm t j).length_eq

/-- The model's front move is the one of 43_mtf R154, entry by entry. -/
theorem frontMoved_frontMove {t : MtfTable} {j : Nat} (hj : j < t.length) : FrontMoved t j (frontMove t j) := by
  have hcons : frontMove t j = t[j] :: (t.take j ++ t.drop (j + 1)) := by
    rw [frontMove, List.getElem?_eq_getElem hj]
  have hlen : (t.take j).length = j := List.length_take_of_le hj.le
  refine ⟨length_frontMove t j, ?_, fun k hpos hk => ?_, fun k hk => ?_⟩
  · rw [hcons, List.getElem?_cons_zero, List.getElem?_eq_getElem hj]
  · obtain ⟨i, rfl⟩ := Nat.exists_eq_succ_of_ne_zero hpos.ne'
    rw [hcons, List.getElem?_cons_succ, List.getElem?_append_left (by rwa [hlen]), List.getElem?_take_of_lt hk]
    rfl
  · obtain ⟨i, rfl⟩ := Nat.exists_eq_add_of_lt hk
    rw [hcons, List.getElem?_cons_succ, List.getElem?_append_right (by rw [hlen]; omega), hlen, List.getElem?_drop]
    congr 1
    omega

/-- The table after the front moves at the first k of the indices js. -/
def tableAt (t : MtfTable) (js : List Nat) (k : Nat) : MtfTable := (js.take k).foldl frontMove t

/-! ### The two transforms -/

/-- The inverse transform leaves the table after all its indices. -/
theorem mtfDecode_snd (t : MtfTable) (js : List Nat) : (mtfDecode t js).2 = tableAt t js js.length := by
  rw [tableAt, List.take_length]
  induction js generalizing t with
  | nil => rfl
  | cons j js ih => exact ih _

/-- Step i of the inverse transform emits the entry at index i of the sequence and front-moves the table there. -/
theorem mtfDecode_step {t : MtfTable} {js : List Nat} (hjs : ∀ j ∈ js, j < t.length) {i : Nat} (hi : i < js.length) :
    (tableAt t js i)[symAt js i]? = (mtfDecode t js).1[i]? ∧
    FrontMoved (tableAt t js i) (symAt js i) (tableAt t js (i + 1)) := by
  induction js generalizing t i with
  | nil => cases hi
  | cons j js ih =>
    obtain ⟨hj, hrest⟩ := List.forall_mem_cons.1 hjs
    cases i with
    | zero =>
      refine ⟨?_, frontMoved_frontMove hj⟩
      change t[j]? = some (t.getD j 0)
      rw [List.getD_eq_getElem _ _ hj, List.getElem?_eq_getElem hj]
    | succ i => exact ih (t := frontMove t j) (by simpa using hrest) (Nat.lt_of_succ_lt_succ hi)

section
variable {t : MtfTable} (ht : MtfTable.wf t) (xs : List Byte)
include ht

/-- 43_mtf R157 on lists: the forward transform emits an index of the symbol, and both transforms move their table there. -/
theorem mtfDecode_mtfEncode : mtfDecode t (mtfEncode t xs).1 = (xs, (mtfEncode t xs).2) := by
  induction xs generalizing t with
  | nil => rfl
  | cons x xs ih =>
    have hlt : t.idxOf x < t.length := List.idxOf_lt_length_of_mem (ht.mem x)
    have hentry : t.getD (t.idxOf x) 0 = x := by rw [List.getD_eq_getElem _ _ hlt, List.getElem_idxOf]
    simp only [mtfEncode, mtfDecode, hentry, ih ((frontMove_perm t _).trans ht)]

theorem mem_mtfEncode_lt : ∀ j ∈ (mtfEncode t xs).1, j < 256 := by
  induction xs generalizing t with
  | nil => exact List.forall_mem_nil _
  | cons x xs ih =>
    refine List.forall_mem_cons.2 ⟨?_, ih ((frontMove_perm t _).trans ht)⟩
    exact ht.length_eq ▸ List.idxOf_lt_length_of_mem (ht.mem x)

end

end Sys2Proof.Machine
end

