-- ==== Sys2Proof/Proofs/MoveToFrontCommands.lean ====
section
/-! PROOF. MTFE.RUN and MTFD.RUN (43_mtf R152 to R154), that the second undoes the first (R157), and MTFE.DUMP and MTFD.DUMP
(R155, R156). -/

namespace Sys2Proof.Machine

/-! ### Bytes in cells -/

theorem map_setWidth_eq_toWords (bs : List Byte) : bs.map (BitVec.setWidth 32) = toWords (bs.map BitVec.toNat) := by
  rw [toWords, List.map_map]
  exact List.map_congr_left fun x _ => (BitVec.ofNat_toNat 32 x).symm

theorem le_of_mem_map_toNat (bs : List Byte) : ∀ x ∈ bs.map BitVec.toNat, x ≤ 255 :=
  List.forall_mem_map.2 fun x _ => Nat.le_of_lt_succ x.isLt

/-- Cells that hold bytes are those bytes. -/
theorem map_toNat_toBytes {cells : List Word} (h : ∀ x ∈ toNats cells, x ≤ 255) :
    (toBytes cells).map BitVec.toNat = toNats cells := by
  rw [toBytes, toNats, List.map_map]
  refine List.map_congr_left fun x hx => ?_
  exact (BitVec.toNat_setWidth 8 x).trans (Nat.mod_eq_of_lt (Nat.lt_succ_of_le (h _ (List.mem_map_of_mem hx))))

/-- Numbers up to 255 written to k cells are there, and no other cell changes. -/
theorem writeRegion_bytes {s : State} (hw : s.mem.wf) (base : Nat) {xs : List Nat} {k : Nat} (hlen : xs.length = k)
    (hx : ∀ x ∈ xs, x ≤ 255) : (s.writeRegion base (toWords xs)).data base k = xs ∧
    CellsOutsideKept s (s.writeRegion base (toWords xs)) base k :=
  ⟨hlen ▸ data_writeRegion_toWords hw base (fits_of_bytes hx fun _ => id), cellsOutsideKept_toWords hw base hlen⟩

/-! ### What the commands do -/

/-- The bytes of a region of M. -/
def State.byteData (s : State) (base k : Nat) : List Byte := toBytes (s.readRegion base k)

theorem State.map_toNat_byteData {s : State} {base k : Nat} (h : ∀ x ∈ s.data base k, x ≤ 255) :
    (s.byteData base k).map BitVec.toNat = s.data base k := map_toNat_toBytes h

section
variable {a b c : Word} {s : State} (hs : s.faulted = false) (hw : s.mem.wf)
variable (ha : a.toNat + b.toNat ≤ s.cfg.memWords) (hc : c.toNat + b.toNat ≤ s.cfg.memWords)
variable (ho : a = c ∨ ¬ Overlap a.toNat b.toNat c.toNat b.toNat) (hx : ∀ x ∈ s.data a.toNat b.toNat, x ≤ 255)
include hs hw ha hc ho hx

/-- MTFE.RUN is the forward transform with TE as its table (43_mtf R152). -/
theorem exec_mtfeRun_writes (ht : MtfTable.wf s.te) : ∃ t, exec (.mtfeRun a b c) s = .next t ∧
    t.data c.toNat b.toNat = (mtfEncode s.te (s.byteData a.toNat b.toNat)).1 ∧
    t.te = (mtfEncode s.te (s.byteData a.toNat b.toNat)).2 ∧ t.mem.wf ∧
    CellsOutsideKept s t c.toNat b.toNat ∧ t = { s with te := t.te, mem := t.mem } := by
  have hdone := exec_of_done (i := .mtfeRun a b c) hs
    ((checkSrcDst_passes ha hc (ho.imp_left fun h => ⟨rfl, h⟩)).trans (checkBytes_passes hx))
  obtain ⟨hdata, hkept⟩ := writeRegion_bytes (s := { s with te := (mtfEncode s.te (s.byteData a.toNat b.toNat)).2 })
    (k := b.toNat) hw c.toNat (by simp [State.byteData])
    fun j hj => Nat.le_of_lt_succ (mem_mtfEncode_lt ht (s.byteData a.toNat b.toNat) j hj)
  exact ⟨_, hdone, hdata, rfl, Memory.writeRange_wf hw _ _, hkept, rfl⟩

/-- MTFD.RUN is the inverse transform with TD as its table (43_mtf R153). -/
theorem exec_mtfdRun_writes : ∃ t, exec (.mtfdRun a b c) s = .next t ∧
    t.data c.toNat b.toNat = (mtfDecode s.td (s.data a.toNat b.toNat)).1.map BitVec.toNat ∧
    t.td = (mtfDecode s.td (s.data a.toNat b.toNat)).2 ∧
    CellsOutsideKept s t c.toNat b.toNat ∧ t = { s with td := t.td, mem := t.mem } := by
  have hdone := exec_of_done (i := .mtfdRun a b c) hs
    ((checkSrcDst_passes ha hc (ho.imp_left fun h => ⟨rfl, h⟩)).trans (checkBytes_passes hx))
  rw [map_setWidth_eq_toWords] at hdone
  obtain ⟨hdata, hkept⟩ := writeRegion_bytes (s := { s with td := (mtfDecode s.td (s.data a.toNat b.toNat)).2 })
    (k := b.toNat) hw c.toNat (by simp [length_data]) (le_of_mem_map_toNat (mtfDecode s.td (s.data a.toNat b.toNat)).1)
  exact ⟨_, hdone, hdata, rfl, hkept, rfl⟩

end

/-- A dump that fits in M writes the table and nothing else (43_mtf R155, R156). -/
theorem exec_dump_writes {i : Instr} {t : MtfTable} {c : Word} {s : State} (hi : bodyOf i s = dumpTable t c s)
    (hs : s.faulted = false) (hw : s.mem.wf) (ht : MtfTable.wf t) (hc : c.toNat + 256 ≤ s.cfg.memWords) :
    ∃ u, exec i s = .next u ∧ u.data c.toNat 256 = t.map BitVec.toNat ∧ CellsOutsideKept s u c.toNat 256 ∧
      u = { s with mem := u.mem } := by
  obtain ⟨hdata, hkept⟩ := writeRegion_bytes hw c.toNat ((List.length_map ..).trans ht.length_eq)
    (le_of_mem_map_toNat t)
  have hdone := exec_of_done hs (hi.trans (checkRegion_passes hc))
  rw [map_setWidth_eq_toWords] at hdone
  exact ⟨_, hdone, hdata, hkept, rfl⟩

/-! ### The obligations -/

/-- Settles O39: the forward transform's indices are bytes, and the inverse transform undoes it from the same table. -/
theorem mtfDecodeUndoesEncode : Obligations.MtfDecodeUndoesEncode := by
  unfold Obligations.MtfDecodeUndoesEncode
  intro a b c e s hs hw ht htd ha hc he ho ho' hx
  obtain ⟨t, hrun, hout, hte, hmem, -, hkeep⟩ := exec_mtfeRun_writes hs hw ha hc ho hx ht
  have htds : t.td = s.te := by rw [hkeep, htd]
  have hcfg : t.cfg = s.cfg := by rw [hkeep]
  obtain ⟨u, hback, hdata, hutd, -, hukeep⟩ := exec_mtfdRun_writes (a := c) (b := b) (c := e) (s := t)
    (by rw [hkeep, hs]) hmem (hcfg ▸ hc) (hcfg ▸ he) ho'
    (hout ▸ fun j hj => Nat.le_of_lt_succ (mem_mtfEncode_lt ht _ j hj))
  have hute : u.te = t.te := by rw [hukeep]
  rw [htds, hout, mtfDecode_mtfEncode ht] at hdata hutd
  exact ⟨t, u, hrun, hback, hdata.trans (State.map_toNat_byteData hx), hutd.trans (hte.symm.trans hute.symm), hute⟩

/-- Settles O37: the indices written, decoded from the same table, give the data back, so each step of the inverse transform
is one of the forward transform. -/
theorem mtfEncodeRun : Obligations.MtfEncodeRun := by
  unfold Obligations.MtfEncodeRun
  intro a b c s hs hw ht ha hc ho hx
  obtain ⟨t, hrun, hout, hte, -, hkept, hkeep⟩ := exec_mtfeRun_writes hs hw ha hc ho hx ht
  have hback := mtfDecode_mtfEncode ht (s.byteData a.toNat b.toNat)
  have hbyte := mem_mtfEncode_lt ht (s.byteData a.toNat b.toNat)
  rw [← hout] at hback hbyte
  refine ⟨t, tableAt s.te (t.data c.toNat b.toNat), hrun, rfl, fun i hi => ?_, ?_, hkept, hkeep⟩
  · have hlen : i < (t.data c.toNat b.toNat).length := by rwa [length_data]
    obtain ⟨hentry, hmove⟩ := mtfDecode_step (fun j hj => ht.length_eq ▸ hbyte j hj) hlen
    have hi' : i < (s.byteData a.toNat b.toNat).length := by simpa [State.byteData]
    rw [hback, List.getElem?_eq_getElem hi'] at hentry
    refine ⟨_, _, hbyte _ (symAt_mem hlen), hentry, ?_, rfl, hmove⟩
    rw [← State.map_toNat_byteData hx, symAt_eq_getElem (by simpa), List.getElem_map]
  · have hlast := mtfDecode_snd s.te (t.data c.toNat b.toNat)
    rwa [hback, length_data, ← hte] at hlast

/-- Settles O38: the steps of the inverse transform are those of the rule. -/
theorem mtfDecodeRun : Obligations.MtfDecodeRun := by
  unfold Obligations.MtfDecodeRun
  intro a b c s hs hw ht ha hc ho hx
  obtain ⟨t, hrun, hout, htd, hkept, hkeep⟩ := exec_mtfdRun_writes hs hw ha hc ho hx
  refine ⟨t, tableAt s.td (s.data a.toNat b.toNat), hrun, rfl, fun i hi => ?_, ?_, hkept, hkeep⟩
  · have hlen : i < (mtfDecode s.td (s.data a.toNat b.toNat)).1.length := by rwa [length_mtfDecode, length_data]
    obtain ⟨hentry, hmove⟩ := mtfDecode_step (t := s.td) (js := s.data a.toNat b.toNat)
      (fun j hj => ht.length_eq ▸ Nat.lt_succ_of_le (hx j hj)) (i := i) (by rwa [length_data])
    rw [List.getElem?_eq_getElem hlen] at hentry
    refine ⟨_, _, rfl, hentry, ?_, hmove⟩
    rw [hout, symAt_eq_getElem (by simpa using hlen), List.getElem_map]
  · rw [htd, mtfDecode_snd, length_data]

/-- Settles O40: both commands check the region and write their table. -/
theorem mtfDumpWritesTable : Obligations.MtfDumpWritesTable := by
  unfold Obligations.MtfDumpWritesTable
  intro c s hs hw hte htd
  exact ⟨fun h => ⟨exec_faultedBy hs (checkRegion_bounds h), exec_faultedBy hs (checkRegion_bounds h)⟩,
    fun h => ⟨exec_dump_writes rfl hs hw hte h, exec_dump_writes rfl hs hw htd h⟩,
    strayRaisesIllegal _ hs, strayRaisesIllegal _ hs, encode_opField _, encode_opField _⟩

end Sys2Proof.Machine
end

