-- ==== Sys2Proof/Proofs/CanonicalCodes.lean ====
section
/-! PROOF. Canonical codes (44_huffman_tree R171, R172) and the tree of a slot (R175). With n no less than any length, the
code c of length l stands for the points p of 0 .. 2^n - 1 whose first l of n bits are c. In canonical order these ranges
follow one another without a gap, from 0 up to the Kraft sum, so no two share a point, and with Kraft sum 1 they cover all. -/

namespace Sys2Proof.Machine

/-! ### The ranges in canonical order -/

/-- The space that codes take of the 2^n points, each by its length, the second of a pair (44_huffman_tree R173). -/
def spaceOf (n : Nat) (ps : List (Nat × Nat)) : Nat := (ps.map (fun p => 2 ^ (n - p.2))).sum

@[simp] theorem spaceOf_cons (n : Nat) (p : Nat × Nat) (ps : List (Nat × Nat)) :
    spaceOf n (p :: ps) = 2 ^ (n - p.2) + spaceOf n ps := List.sum_cons

/-- Where the range of the i-th of these symbols starts. A pair is (symbol, length). -/
def spaceBefore (n : Nat) (ps : List (Nat × Nat)) (i : Nat) : Nat := spaceOf n (ps.take i)

@[simp] theorem spaceBefore_zero (n : Nat) (ps : List (Nat × Nat)) : spaceBefore n ps 0 = 0 := rfl

theorem spaceBefore_cons_succ (n : Nat) (q : Nat × Nat) (ps : List (Nat × Nat)) (i : Nat) :
    spaceBefore n (q :: ps) (i + 1) = 2 ^ (n - q.2) + spaceBefore n ps i := spaceOf_cons n q _

theorem spaceBefore_succ (n : Nat) {ps : List (Nat × Nat)} {i : Nat} {p : Nat × Nat} (h : ps[i]? = some p) :
    spaceBefore n ps (i + 1) = spaceBefore n ps i + 2 ^ (n - p.2) := by
  simp [spaceBefore, spaceOf, List.take_add_one, h]

theorem spaceBefore_mono (n : Nat) (ps : List (Nat × Nat)) : Monotone (spaceBefore n ps) := by
  refine monotone_nat_of_le_succ fun i => ?_
  cases h : ps[i]? with
  | none => rw [spaceBefore, spaceBefore, List.take_add_one, h, Option.toList_none, List.append_nil]
  | some p => exact spaceBefore_succ n h ▸ Nat.le_add_right _ _

/-- The code after c starts where the range of c ends. -/
theorem nextCode_mul {n prev l : Nat} (c : Nat) (hp : prev ≤ l) (hl : l ≤ n) :
    ((c + 1) <<< (l - prev)) * 2 ^ (n - l) = (c + 1) * 2 ^ (n - prev) := by
  rw [Nat.shiftLeft_eq, Nat.mul_assoc, ← pow_add, Nat.add_comm (l - prev), Nat.sub_add_sub_cancel hl hp]

theorem assignFrom_start {n : Nat} {ps : List (Nat × Nat)} (hmax : ∀ p ∈ ps, p.2 ≤ n) {c prev : Nat}
    (hsorted : ps.Pairwise canonLe) (hprev : ∀ p ∈ ps, prev ≤ p.2) {i : Nat} {p : Nat × Nat} (hp : ps[i]? = some p) :
    ∃ c', (p.1, c') ∈ assignFrom c prev ps ∧ c' * 2 ^ (n - p.2) = (c + 1) * 2 ^ (n - prev) + spaceBefore n ps i := by
  induction ps generalizing c prev i with
  | nil => cases hp
  | cons q ps ih =>
    obtain ⟨x, l⟩ := q
    obtain ⟨hl, hmax⟩ := List.forall_mem_cons.1 hmax
    obtain ⟨hprev, -⟩ := List.forall_mem_cons.1 hprev
    obtain ⟨hfirst, hrest⟩ := List.pairwise_cons.1 hsorted
    cases i with
    | zero =>
      cases hp
      exact ⟨_, List.mem_cons_self .., nextCode_mul c hprev hl⟩
    | succ i =>
      obtain ⟨c', hmem, hc'⟩ := ih hmax (c := (c + 1) <<< (l - prev)) hrest
        (fun r hr => (hfirst r hr).elim Nat.le_of_lt fun h => h.1.le) hp
      refine ⟨c', List.mem_cons_of_mem _ hmem, ?_⟩
      rw [hc', Nat.add_mul, nextCode_mul c hprev hl, spaceBefore_cons_succ, Nat.one_mul, Nat.add_assoc]

theorem assignCodes_start {n : Nat} {ps : List (Nat × Nat)} (hmax : ∀ p ∈ ps, p.2 ≤ n) (hsorted : ps.Pairwise canonLe)
    {i : Nat} {p : Nat × Nat} (hp : ps[i]? = some p) :
    ∃ c, (p.1, c) ∈ assignCodes ps ∧ c * 2 ^ (n - p.2) = spaceBefore n ps i := by
  cases ps with
  | nil => cases hp
  | cons q ps =>
    obtain ⟨hfirst, hrest⟩ := List.pairwise_cons.1 hsorted
    cases i with
    | zero =>
      cases hp
      exact ⟨0, List.mem_cons_self .., Nat.zero_mul _⟩
    | succ i =>
      obtain ⟨c, hmem, hc⟩ := assignFrom_start (List.forall_mem_cons.1 hmax).2 (c := 0) hrest
        (fun r hr => (hfirst r hr).elim Nat.le_of_lt fun h => h.1.le) hp
      exact ⟨c, List.mem_cons_of_mem _ hmem, by rw [hc, spaceBefore_cons_succ, Nat.zero_add, Nat.one_mul]⟩

/-! ### Places in the canonical order -/

theorem map_fst_assignFrom (c prev : Nat) (ps : List (Nat × Nat)) :
    (assignFrom c prev ps).map Prod.fst = ps.map Prod.fst := by
  induction ps generalizing c prev with
  | nil => rfl
  | cons q ps ih => exact congrArg (q.1 :: ·) (ih _ _)

theorem map_fst_assignCodes (ps : List (Nat × Nat)) : (assignCodes ps).map Prod.fst = ps.map Prod.fst := by
  cases ps with
  | nil => rfl
  | cons q ps => exact congrArg (q.1 :: ·) (map_fst_assignFrom 0 q.2 ps)

theorem nodup_map_fst_codedSymbols (lens : List Nat) : ((codedSymbols lens).map Prod.fst).Nodup := by
  have hsub : (((lens.zipIdx.filter (fun p => 0 < p.1)).map (fun p => (p.2, p.1))).map Prod.fst).Sublist
      (lens.zipIdx.map Prod.snd) := by
    rw [List.map_map]
    exact List.filter_sublist.map _
  rw [((codedSymbols_perm lens).map Prod.fst).nodup_iff]
  exact hsub.nodup (by rw [List.zipIdx_map_snd]; exact List.nodup_range' 1)

/-- An entry is what its key looks up, when no key stands twice. -/
theorem lookup_eq_some_of_mem {ps : List (Nat × Nat)} (hkeys : (ps.map Prod.fst).Nodup) {x c : Nat} (h : (x, c) ∈ ps) :
    ps.lookup x = some c := by
  obtain ⟨before, after, rfl⟩ := List.append_of_mem h
  rw [List.map_append, List.map_cons, List.nodup_middle, List.nodup_cons] at hkeys
  refine List.lookup_eq_some_iff.2 ⟨before, after, rfl, fun p hp => ?_⟩
  rw [bne_iff_ne]
  rintro rfl
  exact hkeys.1 (List.mem_append_left _ (List.mem_map.2 ⟨p, hp, rfl⟩))

theorem canonCodes_eq_of_mem {lens : List Nat} {x c : Nat} (hx : x < lens.length)
    (h : (x, c) ∈ assignCodes (codedSymbols lens)) : (canonCodes lens).getD x 0 = c := by
  have hkeys : ((assignCodes (codedSymbols lens)).map Prod.fst).Nodup := by
    rw [map_fst_assignCodes]
    exact nodup_map_fst_codedSymbols lens
  simp [canonCodes, List.getD_eq_getElem?_getD, hx, lookup_eq_some_of_mem hkeys h]

theorem canonCodes_of_absent {lens : List Nat} {x : Nat} (h : lens.getD x 0 = 0) : (canonCodes lens).getD x 0 = 0 := by
  by_cases hx : x < lens.length
  · have hnone : (assignCodes (codedSymbols lens)).lookup x = none := by
      refine List.lookup_eq_none_iff.2 fun p hp => ?_
      rw [bne_iff_ne]
      rintro rfl
      have hmem : p.1 ∈ (codedSymbols lens).map Prod.fst := map_fst_assignCodes _ ▸ List.mem_map_of_mem hp
      obtain ⟨⟨y, l⟩, hq, hy⟩ := List.mem_map.1 hmem
      obtain ⟨hl, hpos⟩ := mem_codedSymbols.1 hq
      rw [List.getD_eq_getElem?_getD, ← hy, hl] at h
      exact hpos.ne' h
    simp [canonCodes, List.getD_eq_getElem?_getD, hx, hnone]
  · exact List.getD_eq_default _ _ (by rw [length_canonCodes]; exact Nat.le_of_not_lt hx)

/-- Symbol x stands in place i of the canonical order. -/
def CodedAt (lens : List Nat) (i x : Nat) : Prop := (codedSymbols lens)[i]? = some (x, lens.getD x 0)

theorem mem_codedSymbols_iff_getD {lens : List Nat} {x l : Nat} :
    (x, l) ∈ codedSymbols lens ↔ lens.getD x 0 = l ∧ 0 < l := by
  rw [mem_codedSymbols, List.getD_eq_getElem?_getD]
  cases lens[x]? with
  | none => simp; omega
  | some m => simp

theorem exists_codedAt {lens : List Nat} {x : Nat} (h : 0 < lens.getD x 0) : ∃ i, CodedAt lens i x :=
  List.mem_iff_getElem?.1 (mem_codedSymbols_iff_getD.2 ⟨rfl, h⟩)

theorem exists_codedAt_of_lt {lens : List Nat} {i : Nat} (h : i < (codedSymbols lens).length) : ∃ x, CodedAt lens i x := by
  obtain ⟨⟨x, l⟩, hx⟩ : ∃ p, (codedSymbols lens)[i]? = some p := ⟨_, List.getElem?_eq_getElem h⟩
  obtain ⟨rfl, -⟩ := mem_codedSymbols_iff_getD.1 (List.mem_of_getElem? hx)
  exact ⟨x, hx⟩

theorem CodedAt.lt_length {lens : List Nat} {i x : Nat} (h : CodedAt lens i x) : i < (codedSymbols lens).length :=
  (List.getElem?_eq_some_iff.1 h).1

theorem CodedAt.pos {lens : List Nat} {i x : Nat} (h : CodedAt lens i x) : 0 < lens.getD x 0 :=
  (mem_codedSymbols_iff_getD.1 (List.mem_of_getElem? h)).2

theorem CodedAt.place_eq {lens : List Nat} {i j x : Nat} (hi : CodedAt lens i x) (hj : CodedAt lens j x) : i = j := by
  have hkey {k : Nat} (hk : CodedAt lens k x) : ((codedSymbols lens).map Prod.fst)[k]? = some x := by
    rw [List.getElem?_map, hk]
    rfl
  exact (List.getElem?_inj (by rw [List.length_map]; exact hi.lt_length) (nodup_map_fst_codedSymbols lens)).1
    ((hkey hi).trans (hkey hj).symm)

theorem CodedAt.symbol_eq {lens : List Nat} {i x y : Nat} (hx : CodedAt lens i x) (hy : CodedAt lens i y) : x = y :=
  congrArg Prod.fst (Option.some.inj (hx.symm.trans hy))

theorem CodedAt.canonBefore_of_lt {lens : List Nat} {i j x y : Nat} (hx : CodedAt lens i x) (hy : CodedAt lens j y)
    (h : i < j) : CanonBefore lens x y := by
  have hle : canonLe (x, lens.getD x 0) (y, lens.getD y 0) := by
    obtain ⟨hi, hxi⟩ := List.getElem?_eq_some_iff.1 hx
    obtain ⟨hj, hyj⟩ := List.getElem?_eq_some_iff.1 hy
    exact hxi ▸ hyj ▸ List.pairwise_iff_getElem.1 (codedSymbols_sorted lens) i j hi hj h
  have hne : x ≠ y := fun he => h.ne (hx.place_eq (he ▸ hy))
  exact hle.imp_right (And.imp_right fun hle => lt_of_le_of_ne hle hne)

theorem CodedAt.lt_iff {lens : List Nat} {i j x y : Nat} (hx : CodedAt lens i x) (hy : CodedAt lens j y) :
    i < j ↔ CanonBefore lens x y := by
  refine ⟨hx.canonBefore_of_lt hy, fun h => ?_⟩
  rcases Nat.lt_trichotomy i j with hlt | rfl | hgt
  · exact hlt
  · have := hx.symbol_eq hy
    unfold CanonBefore at h
    subst this
    omega
  · have := hy.canonBefore_of_lt hx hgt
    unfold CanonBefore at h this
    omega

/-! ### The code of a symbol is where its range starts -/

theorem forall_mem_codedSymbols_le {lens : List Nat} {n : Nat} (hmax : ∀ l ∈ lens, l ≤ n) :
    ∀ p ∈ codedSymbols lens, p.2 ≤ n :=
  fun _ hp => hmax _ (List.mem_of_getElem? (mem_codedSymbols.1 hp).1)

theorem getD_le_of_forall {lens : List Nat} {n : Nat} (hmax : ∀ l ∈ lens, l ≤ n) (x : Nat) : lens.getD x 0 ≤ n := by
  rcases getD_eq_or_mem lens x 0 with h | h
  · rw [h]
    exact Nat.zero_le n
  · exact hmax _ h

section
variable {lens : List Nat} {n : Nat} (hmax : ∀ l ∈ lens, l ≤ n) {i j x y : Nat}
include hmax

theorem CodedAt.start (hx : CodedAt lens i x) :
    (canonCodes lens).getD x 0 * 2 ^ (n - lens.getD x 0) = spaceBefore n (codedSymbols lens) i := by
  obtain ⟨c, hmem, hc⟩ := assignCodes_start (forall_mem_codedSymbols_le hmax) (codedSymbols_sorted lens) hx
  have hlt : x < lens.length := by
    by_contra hge
    exact hx.pos.ne' (List.getD_eq_default _ _ (Nat.le_of_not_lt hge))
  rw [canonCodes_eq_of_mem hlt hmem]
  exact hc

theorem CodedAt.finish (hx : CodedAt lens i x) :
    ((canonCodes lens).getD x 0 + 1) * 2 ^ (n - lens.getD x 0) = spaceBefore n (codedSymbols lens) (i + 1) := by
  rw [spaceBefore_succ n hx, ← hx.start hmax, Nat.add_mul, Nat.one_mul]

end

/-- The coded symbols' lengths are the positive ones. -/
theorem map_snd_codedSymbols_perm (lens : List Nat) :
    ((codedSymbols lens).map Prod.snd).Perm (lens.filter (fun l => 0 < l)) := by
  have hfirst : lens.filter (fun l => 0 < l) = (lens.zipIdx.filter (fun p => 0 < p.1)).map Prod.fst := by
    rw [← Function.comp_def (fun l => decide (0 < l)) Prod.fst, ← List.filter_map, List.zipIdx_map_fst]
  have hperm := (codedSymbols_perm lens).map Prod.snd
  rw [List.map_map] at hperm
  exact hfirst ▸ hperm

/-- The space of all coded symbols is the Kraft sum. -/
theorem spaceBefore_length (n : Nat) (lens : List Nat) :
    spaceBefore n (codedSymbols lens) (codedSymbols lens).length = kraftAt n lens := by
  have hsum := ((map_snd_codedSymbols_perm lens).map (fun l => 2 ^ (n - l))).sum_eq
  rw [List.map_map] at hsum
  rw [spaceBefore, List.take_length]
  exact hsum

/-! ### Points and symbols -/

theorem exists_place_of_lt {n : Nat} {ps : List (Nat × Nat)} {p k : Nat} (h : p < spaceBefore n ps k) :
    ∃ i < k, spaceBefore n ps i ≤ p ∧ p < spaceBefore n ps (i + 1) := by
  induction k with
  | zero => exact absurd h (Nat.not_lt_zero p)
  | succ k ih =>
    by_cases hk : p < spaceBefore n ps k
    · obtain ⟨i, hi, hp⟩ := ih hk
      exact ⟨i, Nat.lt_succ_of_lt hi, hp⟩
    · exact ⟨k, Nat.lt_succ_self k, Nat.le_of_not_lt hk, h⟩

/-- The first bits of the n-bit point p are the code of the coded symbol x (44_huffman_tree R175). -/
def Covers (n : Nat) (lens : List Nat) (x p : Nat) : Prop :=
  0 < lens.getD x 0 ∧ p / 2 ^ (n - lens.getD x 0) = (canonCodes lens).getD x 0

theorem covers_start (n : Nat) {lens : List Nat} {x : Nat} (h : 0 < lens.getD x 0) :
    Covers n lens x ((canonCodes lens).getD x 0 * 2 ^ (n - lens.getD x 0)) :=
  ⟨h, Nat.mul_div_cancel _ (Nat.two_pow_pos _)⟩

section
variable {lens : List Nat} {n : Nat} (hmax : ∀ l ∈ lens, l ≤ n) {i x y p : Nat}
include hmax

theorem CodedAt.covers_iff (hx : CodedAt lens i x) : Covers n lens x p ↔
    spaceBefore n (codedSymbols lens) i ≤ p ∧ p < spaceBefore n (codedSymbols lens) (i + 1) := by
  have hpow := Nat.two_pow_pos (n - lens.getD x 0)
  rw [Covers, and_iff_right hx.pos, Nat.div_eq_iff hpow, ← hx.start hmax, ← hx.finish hmax, Nat.add_mul]
  omega

/-- No point belongs to two symbols, so no code begins with another. -/
theorem Covers.symbol_eq (hx : Covers n lens x p) (hy : Covers n lens y p) : x = y := by
  obtain ⟨i, hi⟩ := exists_codedAt hx.1
  obtain ⟨j, hj⟩ := exists_codedAt hy.1
  obtain ⟨hix, hxi⟩ := (hi.covers_iff hmax).1 hx
  obtain ⟨hjy, hyj⟩ := (hj.covers_iff hmax).1 hy
  have hmono := spaceBefore_mono n (codedSymbols lens)
  have hij : i = j := Nat.le_antisymm (Nat.lt_succ_iff.1 (hmono.reflect_lt (hix.trans_lt hyj)))
    (Nat.lt_succ_iff.1 (hmono.reflect_lt (hjy.trans_lt hxi)))
  exact hi.symbol_eq (hij ▸ hj)

/-- Every point below the Kraft sum belongs to a symbol. -/
theorem exists_covers (hp : p < kraftAt n lens) : ∃ x, Covers n lens x p := by
  rw [← spaceBefore_length] at hp
  obtain ⟨i, hi, hstart, hfinish⟩ := exists_place_of_lt hp
  obtain ⟨x, hx⟩ := exists_codedAt_of_lt hi
  exact ⟨x, (hx.covers_iff hmax).2 ⟨hstart, hfinish⟩⟩

/-- With Kraft sum at most 1 every code fits its length (44_huffman_tree R172). -/
theorem canonCodes_lt (hkraft : kraftAt n lens ≤ 2 ^ n) (hx : 0 < lens.getD x 0) :
    (canonCodes lens).getD x 0 < 2 ^ lens.getD x 0 := by
  obtain ⟨i, hi⟩ := exists_codedAt hx
  have hsplit : 2 ^ n = 2 ^ lens.getD x 0 * 2 ^ (n - lens.getD x 0) := by
    rw [← pow_add, Nat.add_sub_cancel' (getD_le_of_forall hmax x)]
  have hfinish : ((canonCodes lens).getD x 0 + 1) * 2 ^ (n - lens.getD x 0) ≤ 2 ^ n := calc
    _ = spaceBefore n (codedSymbols lens) (i + 1) := hi.finish hmax
    _ ≤ kraftAt n lens := spaceBefore_length n lens ▸ spaceBefore_mono n _ hi.lt_length
    _ ≤ 2 ^ n := hkraft
  exact Nat.le_of_mul_le_mul_right (hsplit ▸ hfinish) (Nat.two_pow_pos _)

/-- The next code is one more, shifted left by the growth of the length (44_huffman_tree R172). -/
theorem canonCodes_of_canonNext (h : CanonNext lens x y) : (canonCodes lens).getD y 0 =
    ((canonCodes lens).getD x 0 + 1) <<< (lens.getD y 0 - lens.getD x 0) := by
  obtain ⟨hx, hy, hbefore, hnone⟩ := h
  obtain ⟨i, hi⟩ := exists_codedAt hx
  obtain ⟨j, hj⟩ := exists_codedAt hy
  have hij : i < j := (hi.lt_iff hj).2 hbefore
  have hnext : j = i + 1 := by
    by_contra hne
    obtain ⟨z, hz⟩ := exists_codedAt_of_lt (lens := lens) (i := i + 1) (by have := hj.lt_length; omega)
    exact hnone z hz.pos ⟨hi.canonBefore_of_lt hz (Nat.lt_succ_self i), hz.canonBefore_of_lt hj (by omega)⟩
  have hle : lens.getD x 0 ≤ lens.getD y 0 := hbefore.elim Nat.le_of_lt fun h => h.1.le
  refine Nat.eq_of_mul_eq_mul_right (Nat.two_pow_pos (n - lens.getD y 0)) ?_
  rw [nextCode_mul _ hle (getD_le_of_forall hmax y), hj.start hmax, hi.finish hmax, hnext]

theorem canonCodes_of_first (hx : 0 < lens.getD x 0) (hfirst : ∀ z, 0 < lens.getD z 0 → ¬ CanonBefore lens z x) :
    (canonCodes lens).getD x 0 = 0 := by
  obtain ⟨i, hi⟩ := exists_codedAt hx
  have hzero : i = 0 := by
    by_contra hne
    obtain ⟨z, hz⟩ := exists_codedAt_of_lt (Nat.lt_of_le_of_lt (Nat.zero_le i) hi.lt_length)
    exact hfirst z hz.pos (hz.canonBefore_of_lt hi (Nat.pos_of_ne_zero hne))
  have hstart := hi.start hmax
  rw [hzero, spaceBefore_zero] at hstart
  exact (Nat.mul_eq_zero.1 hstart).resolve_right (Nat.two_pow_pos _).ne'

end

/-! ### Prefixes -/

/-- The first k of n bits of a point that begins with the m bits v. -/
theorem mul_two_pow_div {n m k : Nat} (v : Nat) (hkm : k ≤ m) (hmn : m ≤ n) :
    v * 2 ^ (n - m) / 2 ^ (n - k) = v / 2 ^ (m - k) := by
  have hsplit : 2 ^ (n - k) = 2 ^ (m - k) * 2 ^ (n - m) := by
    rw [← pow_add, Nat.add_comm, Nat.sub_add_sub_cancel hmn hkm]
  rw [hsplit, Nat.mul_div_mul_right _ _ (Nat.two_pow_pos _)]

/-- The first k of n bits are the first k of the first m. -/
theorem div_two_pow_div {n m k : Nat} (p : Nat) (hkm : k ≤ m) (hmn : m ≤ n) :
    p / 2 ^ (n - m) / 2 ^ (m - k) = p / 2 ^ (n - k) := by
  rw [Nat.div_div_eq_div_mul, ← pow_add, Nat.sub_add_sub_cancel hmn hkm]

/-- A symbol whose code begins with the code of another is that one (44_huffman_tree R172). -/
theorem eq_of_code_prefix {lens : List Nat} {n x y : Nat} (hmax : ∀ l ∈ lens, l ≤ n) (hx : 0 < lens.getD x 0)
    (hle : lens.getD x 0 ≤ lens.getD y 0)
    (h : (canonCodes lens).getD y 0 / 2 ^ (lens.getD y 0 - lens.getD x 0) = (canonCodes lens).getD x 0) : x = y := by
  refine Covers.symbol_eq hmax ⟨hx, ?_⟩ (covers_start n (hx.trans_le hle))
  rw [mul_two_pow_div _ hle (getD_le_of_forall hmax y), h]

/-- Settles O43: in canonical order each code is where the ranges before it end. -/
theorem canonicalAssignment : Obligations.CanonicalAssignment := by
  unfold Obligations.CanonicalAssignment
  intro lens
  have hsum : ∀ l ∈ lens, l ≤ lens.sum := fun _ => List.le_sum_of_mem
  refine ⟨fun x y => canonCodes_of_canonNext hsum, fun x => canonCodes_of_first hsum, fun x => canonCodes_of_absent,
    fun n hmax hkraft => ⟨fun x => canonCodes_lt hmax hkraft, fun x y hne hx hle hprefix => hne ?_⟩⟩
  rw [Nat.shiftRight_eq_div_pow] at hprefix
  exact eq_of_code_prefix hmax hx hle hprefix

/-! ### The tree of a slot -/

theorem CodeTable.Canonical.toNat_codeOf {t : CodeTable} (h : t.Canonical) (x : Nat) :
    (t.codeOf x).toNat = (canonCodes t.len).getD x 0 := by
  obtain ⟨-, -, hmax⟩ := h.shape
  have hcode : t.codeOf x = BitVec.ofNat 64 ((canonCodes t.len).getD x 0) := by
    rw [CodeTable.codeOf, h.codes, List.getD_eq_getElem?_getD, List.getD_eq_getElem?_getD, List.getElem?_map]
    cases (canonCodes t.len)[x]? <;> rfl
  rw [hcode]
  exact toNat_ofNat_64 (canonCodes_fits hmax h.kraft x) (getD_le_of_forall hmax x)

/-- The tree's nodes, through the canonical codes. -/
theorem CodeTable.Canonical.treeNode_iff {t : CodeTable} (h : t.Canonical) {l v : Nat} : t.TreeNode l v ↔
    ∃ x, 0 < t.len.getD x 0 ∧ l ≤ t.len.getD x 0 ∧ (canonCodes t.len).getD x 0 / 2 ^ (t.len.getD x 0 - l) = v := by
  simp only [CodeTable.TreeNode, h.toNat_codeOf, Nat.shiftRight_eq_div_pow]
  rfl

theorem CodeTable.Canonical.treeLeaf_iff {t : CodeTable} (h : t.Canonical) {x l v : Nat} : t.TreeLeaf x l v ↔
    0 < t.len.getD x 0 ∧ t.len.getD x 0 = l ∧ (canonCodes t.len).getD x 0 = v := by
  simp only [CodeTable.TreeLeaf, h.toNat_codeOf]
  rfl

/-- Below an inner node of a full tree every child w is a node: the symbol of the child's first point lies below the child,
since one at or above the inner node would share a point with the symbol x below it. -/
theorem exists_code_below_child {lens : List Nat} {n x l w : Nat} (hmax : ∀ l ∈ lens, l ≤ n)
    (hkraft : kraftAt n lens = 2 ^ n) (hl : l < lens.getD x 0)
    (hw : w / 2 = (canonCodes lens).getD x 0 / 2 ^ (lens.getD x 0 - l)) :
    ∃ y, 0 < lens.getD y 0 ∧ l + 1 ≤ lens.getD y 0 ∧
      (canonCodes lens).getD y 0 / 2 ^ (lens.getD y 0 - (l + 1)) = w := by
  have hx : 0 < lens.getD x 0 := Nat.zero_lt_of_lt hl
  have hln : l + 1 ≤ n := hl.trans_le (getD_le_of_forall hmax x)
  have hpoint : w * 2 ^ (n - (l + 1)) < kraftAt n lens := by
    have hhalf : w / 2 < 2 ^ l := by
      rw [hw]
      refine Nat.div_lt_of_lt_mul ?_
      rw [← pow_add, Nat.sub_add_cancel hl.le]
      exact canonCodes_lt hmax hkraft.le hx
    have hlt : w < 2 ^ (l + 1) := by rw [pow_succ]; omega
    have hsplit : 2 ^ n = 2 ^ (l + 1) * 2 ^ (n - (l + 1)) := by rw [← pow_add, Nat.add_sub_cancel' hln]
    rw [hkraft, hsplit]
    exact Nat.mul_lt_mul_of_pos_right hlt (Nat.two_pow_pos _)
  obtain ⟨y, hy, hcode⟩ := exists_covers hmax hpoint
  rcases Nat.lt_or_ge l (lens.getD y 0) with hbelow | habove
  · refine ⟨y, hy, hbelow, ?_⟩
    rw [← hcode, div_two_pow_div _ hbelow (getD_le_of_forall hmax y), Nat.mul_div_cancel _ (Nat.two_pow_pos _)]
  · have hyx : y = x := by
      refine eq_of_code_prefix hmax hy (habove.trans hl.le) ?_
      calc (canonCodes lens).getD x 0 / 2 ^ (lens.getD x 0 - lens.getD y 0)
          = w / 2 / 2 ^ (l - lens.getD y 0) := by
            rw [hw, Nat.div_div_eq_div_mul, ← pow_add, Nat.sub_add_sub_cancel hl.le habove]
        _ = w / 2 ^ (l + 1 - lens.getD y 0) := by
            rw [Nat.div_div_eq_div_mul, ← pow_succ', Nat.sub_add_comm habove]
        _ = (canonCodes lens).getD y 0 := by rw [← mul_two_pow_div w (Nat.le_succ_of_le habove) hln, hcode]
    exact absurd (hyx ▸ hl) (Nat.not_lt.2 habove)

/-- Settles O44: an inner node is the first bits of a longer code, so both of its children have a symbol below them. -/
theorem fullTreeHasNoDeadEnd : Obligations.FullTreeHasNoDeadEnd := by
  unfold Obligations.FullTreeHasNoDeadEnd
  intro t ht hkraft l v hnode hleaf
  obtain ⟨-, -, hmax⟩ := ht.shape
  obtain ⟨x, hx, hle, rfl⟩ := ht.treeNode_iff.1 hnode
  have hl : l < t.len.getD x 0 := by
    refine lt_of_le_of_ne hle fun he => hleaf x (ht.treeLeaf_iff.2 ⟨hx, he.symm, ?_⟩)
    rw [he, Nat.sub_self, pow_zero, Nat.div_one]
  exact ⟨ht.treeNode_iff.2 (exists_code_below_child hmax hkraft hl (by omega)),
    ht.treeNode_iff.2 (exists_code_below_child hmax hkraft hl (by omega))⟩

end Sys2Proof.Machine
end

