-- ==== Sys2Proof/Proofs/HuffmanTrees.lean ====
section
/-! PROOF. Huffman's tree (44_huffman_tree R165 to R167): the model's sorted queue takes the merges of `HuffMerges`, and the
lengths are the depths of the tree's leaves, whose space is the whole (R168 (1), (2), (4)). -/

namespace Sys2Proof.Machine

/-! ### Trees -/

/-- The symbols of the leaves, from the first node merged to the last. -/
def HTree.symbols : HTree → List Nat
  | .leaf s => [s]
  | .node p q => p.symbols ++ q.symbols

theorem HTree.map_fst_depths (t : HTree) (d : Nat) : (t.depths d).map Prod.fst = t.symbols := by
  induction t generalizing d with
  | leaf s => rfl
  | node p q ihp ihq => rw [depths, symbols, List.map_append, ihp, ihq]

theorem HTree.mem_depths_iff {t : HTree} {d x e : Nat} :
    (x, e) ∈ t.depths d ↔ ∃ k, e = d + k ∧ t.LeafAtDepth x k := by
  induction t generalizing d with
  | leaf s => simp [depths, LeafAtDepth]; tauto
  | node p q ihp ihq =>
    simp only [depths, List.mem_append, ihp, ihq, LeafAtDepth]
    constructor
    · rintro (⟨k, rfl, hk⟩ | ⟨k, rfl, hk⟩)
      · exact ⟨k + 1, by omega, k, rfl, .inl hk⟩
      · exact ⟨k + 1, by omega, k, rfl, .inr hk⟩
    · rintro ⟨_, rfl, k, rfl, hk | hk⟩
      · exact .inl ⟨k, by omega, hk⟩
      · exact .inr ⟨k, by omega, hk⟩

theorem HTree.mem_depths_zero {t : HTree} {x d : Nat} : (x, d) ∈ t.depths 0 ↔ t.LeafAtDepth x d := by
  simp [mem_depths_iff]

theorem HTree.mem_symbols_iff {t : HTree} {x : Nat} : x ∈ t.symbols ↔ ∃ d, t.LeafAtDepth x d := by
  simp [← t.map_fst_depths 0, mem_depths_zero]

theorem HTree.symbols_length_pos (t : HTree) : 0 < t.symbols.length := by
  induction t with
  | leaf s => exact Nat.one_pos
  | node p q ihp ihq => rw [symbols, List.length_append]; omega

/-- A leaf lies at most as deep as there are other leaves (44_huffman_tree R168 (4)). -/
theorem HTree.LeafAtDepth.lt_length {t : HTree} {x d : Nat} (h : t.LeafAtDepth x d) : d < t.symbols.length := by
  induction t generalizing d with
  | leaf s => exact h.2 ▸ Nat.one_pos
  | node p q ihp ihq =>
    have := p.symbols_length_pos
    have := q.symbols_length_pos
    rw [symbols, List.length_append]
    obtain ⟨e, rfl, h | h⟩ := h
    · have := ihp h; omega
    · have := ihq h; omega

/-- In a tree of several leaves none is the root. -/
theorem HTree.LeafAtDepth.pos {t : HTree} {x d : Nat} (h : t.LeafAtDepth x d) (ht : 2 ≤ t.symbols.length) : 0 < d := by
  cases t with
  | leaf s => exact absurd ht (by simp [symbols])
  | node p q =>
    obtain ⟨e, rfl, -⟩ := h
    exact Nat.succ_pos e

/-- The leaves below depth d take the space of one code of length d (44_huffman_tree R168 (2)). -/
theorem HTree.spaceOf_depths (t : HTree) {n d : Nat} (hmax : ∀ p ∈ t.depths d, p.2 ≤ n) :
    spaceOf n (t.depths d) = 2 ^ (n - d) := by
  induction t generalizing d with
  | leaf s => exact Nat.add_zero _
  | node p q ihp ihq =>
    obtain ⟨hp, hq⟩ := List.forall_mem_append.1 hmax
    have hd : d < n := by
      obtain ⟨⟨x, e⟩, hx⟩ := List.exists_mem_of_length_pos
        (by rw [← List.length_map Prod.fst, p.map_fst_depths]; exact p.symbols_length_pos : 0 < (p.depths (d + 1)).length)
      obtain ⟨k, he, -⟩ := mem_depths_iff.1 hx
      have := hp _ hx
      omega
    have happend : spaceOf n ((node p q).depths d) = spaceOf n (p.depths (d + 1)) + spaceOf n (q.depths (d + 1)) := by
      rw [depths, spaceOf, List.map_append, List.sum_append, spaceOf, spaceOf]
    rw [happend, ihp hp, ihq hq, ← Nat.two_mul, ← pow_succ']
    congr 1
    omega

/-! ### Sums over symbols -/

/-- A sum over the numbers below n is one over those where it is not 0. -/
theorem sum_map_range_eq {n : Nat} {xs : List Nat} (hnodup : xs.Nodup) (hlt : ∀ x ∈ xs, x < n) {g : Nat → Nat}
    (hzero : ∀ x, x ∉ xs → g x = 0) : ((List.range n).map g).sum = (xs.map g).sum := by
  rw [← List.sum_toFinset g (List.nodup_range), ← List.sum_toFinset g hnodup]
  exact (Finset.sum_subset (fun x hx => by simpa using hlt x (by simpa using hx))
    fun x _ hx => hzero x (by simpa using hx)).symm

/-- The space of one symbol: none when it is not coded (44_huffman_tree R173). -/
def kraftTerm (n l : Nat) : Nat := if 0 < l then 2 ^ (n - l) else 0

theorem kraftTerm_of_pos {n l : Nat} (h : 0 < l) : kraftTerm n l = 2 ^ (n - l) := if_pos h

theorem kraftAt_eq_sum_map (n : Nat) (lens : List Nat) : kraftAt n lens = (lens.map (kraftTerm n)).sum := by
  induction lens with
  | nil => rfl
  | cons l lens ih =>
    rw [List.map_cons, List.sum_cons, ← ih]
    by_cases hl : 0 < l <;> simp [kraftAt, kraftTerm, hl]

/-- The Kraft sum, symbol by symbol. -/
theorem kraftAt_eq_sum_range (n : Nat) (lens : List Nat) :
    kraftAt n lens = ((List.range lens.length).map (fun x => kraftTerm n (lens.getD x 0))).sum := by
  rw [kraftAt_eq_sum_map]
  congr 1
  exact List.ext_getElem (by simp) (by simp +contextual)

/-! ### The lengths of a tree -/

section
variable {t : HTree} (hnodup : t.symbols.Nodup) (hlt : ∀ x ∈ t.symbols, x < alpha)

theorem HTree.lengths_getD_of_not_mem {x : Nat} (hx : x ∉ t.symbols) : t.lengths.getD x 0 = 0 := by
  have hnone : (t.depths 0).lookup x = none := by
    refine List.lookup_eq_none_iff.2 fun p hp => bne_iff_ne.2 ?_
    rintro rfl
    exact hx (t.map_fst_depths 0 ▸ List.mem_map_of_mem hp)
  by_cases hx : x < alpha <;> simp [lengths, List.getD_eq_getElem?_getD, hnone, hx]

include hnodup hlt

theorem HTree.lengths_getD_of_leafAtDepth {x d : Nat} (h : t.LeafAtDepth x d) : t.lengths.getD x 0 = d := by
  have hlook := lookup_eq_some_of_mem (by rwa [t.map_fst_depths]) (mem_depths_zero.2 h)
  have hx : x < alpha := hlt x (mem_symbols_iff.2 ⟨d, h⟩)
  simp [lengths, List.getD_eq_getElem?_getD, hlook, hx]

theorem HTree.leafAtDepth_iff {x d : Nat} : t.LeafAtDepth x d ↔ x ∈ t.symbols ∧ t.lengths.getD x 0 = d := by
  refine ⟨fun h => ⟨mem_symbols_iff.2 ⟨d, h⟩, lengths_getD_of_leafAtDepth hnodup hlt h⟩, ?_⟩
  rintro ⟨hx, rfl⟩
  obtain ⟨e, he⟩ := mem_symbols_iff.1 hx
  rwa [lengths_getD_of_leafAtDepth hnodup hlt he]

/-- A sum over all symbols of a quantity that is 0 for length 0 is one over the leaves. -/
theorem HTree.sum_lengths (f : Nat → Nat → Nat) (hf : ∀ x, f x 0 = 0) :
    ((List.range alpha).map (fun x => f x (t.lengths.getD x 0))).sum = ((t.depths 0).map (fun p => f p.1 p.2)).sum := by
  rw [sum_map_range_eq hnodup hlt fun x hx => by rw [lengths_getD_of_not_mem hx, hf], ← t.map_fst_depths 0, List.map_map]
  congr 1
  refine List.map_congr_left fun p hp => ?_
  exact congrArg (f p.1) (lengths_getD_of_leafAtDepth hnodup hlt (mem_depths_zero.1 hp))

end

theorem HTree.length_lengths (t : HTree) : t.lengths.length = alpha := by simp [lengths]

/-! ### The merges -/

theorem HuffMerges.of_perm {j : Nat} {q q' : List HNode} {t : HTree} (h : HuffMerges j q t) (hp : q'.Perm q) :
    HuffMerges j q' t := by
  cases h with
  | root => exact List.perm_singleton.1 hp ▸ .root j _
  | merge _ _ rest a b _ hq hab hrest htail => exact .merge j q' rest a b t (hp.trans hq) hab hrest htail

/-- The merges lose no leaf. -/
theorem HuffMerges.symbols_perm {j : Nat} {q : List HNode} {t : HTree} (h : HuffMerges j q t) :
    t.symbols.Perm (q.flatMap (fun m => m.tree.symbols)) := by
  induction h with
  | root j m => simp
  | merge j q rest a b t hq hab hrest htail ih =>
    refine ih.trans (.trans ?_ (hq.flatMap_right _).symm)
    simp [HTree.symbols]

theorem HNode.le_total_trans : Std.Total HNode.le ∧ IsTrans HNode HNode.le :=
  ⟨⟨fun a b => by simp only [HNode.le]; omega⟩, ⟨fun a b c hab hbc => by simp only [HNode.le] at *; omega⟩⟩

/-- A queue in the order of its keys, no two of them equal, all older than the nodes still to be made. -/
structure QueueOk (j : Nat) (q : List HNode) : Prop where
  sorted : q.Pairwise HNode.le
  distinct : (q.map HNode.order).Nodup
  older : ∀ m ∈ q, m.order < alpha + j

theorem QueueOk.keyBefore {j : Nat} {a : HNode} {q : List HNode} (h : QueueOk j (a :: q)) : ∀ c ∈ q, KeyBefore a c := by
  intro c hc
  obtain ⟨hnot, -⟩ := List.nodup_cons.1 h.distinct
  have hne : a.order ≠ c.order := fun he => hnot (he ▸ List.mem_map_of_mem hc)
  exact ((List.pairwise_cons.1 h.sorted).1 c hc).imp_right (And.imp_right fun hle => lt_of_le_of_ne hle hne)

theorem QueueOk.tail {j : Nat} {a : HNode} {q : List HNode} (h : QueueOk j (a :: q)) : QueueOk j q :=
  ⟨(List.pairwise_cons.1 h.sorted).2, (List.nodup_cons.1 h.distinct).2, (List.forall_mem_cons.1 h.older).2⟩

/-- Putting back the node made in turn j keeps the queue in order. -/
theorem QueueOk.insert {j : Nat} {q : List HNode} (h : QueueOk j q) {m : HNode} (hm : m.order = alpha + j) :
    QueueOk (j + 1) (q.orderedInsert HNode.le m) := by
  obtain ⟨htotal, htrans⟩ := HNode.le_total_trans
  have hperm := List.perm_orderedInsert HNode.le m q
  refine ⟨h.sorted.orderedInsert m q, ?_, fun c hc => ?_⟩
  · rw [(hperm.map _).nodup_iff, List.map_cons, List.nodup_cons]
    refine ⟨fun hmem => ?_, h.distinct⟩
    obtain ⟨c, hc, he⟩ := List.mem_map.1 hmem
    exact (h.older c hc).ne (he.trans hm)
  · rcases List.mem_cons.1 (hperm.mem_iff.1 hc) with rfl | hc
    · omega
    · have := h.older c hc
      omega

/-- The sorted queue takes the merges of 44_huffman_tree R166. -/
theorem huffMerge_merges {k j : Nat} {q : List HNode} (hlen : q.length = k + 1) (hq : QueueOk j q) :
    ∃ root, huffMerge k j q = [root] ∧ HuffMerges j q root.tree := by
  induction k generalizing j q with
  | zero =>
    obtain ⟨m, rfl⟩ := List.length_eq_one_iff.1 hlen
    exact ⟨m, rfl, .root j m⟩
  | succ k ih =>
    match q, hlen with
    | a :: b :: rest, hlen =>
      have hperm := List.perm_orderedInsert HNode.le ⟨a.weight + b.weight, alpha + j, .node a.tree b.tree⟩ rest
      obtain ⟨root, hrun, hmerges⟩ := ih (hperm.length_eq.trans (Nat.succ.inj hlen))
        (hq.tail.tail.insert (m := ⟨a.weight + b.weight, alpha + j, .node a.tree b.tree⟩) rfl)
      exact ⟨root, hrun, .merge j _ rest a b _ (.refl _) (hq.keyBefore b (List.mem_cons_self ..)) hq.tail.keyBefore
        (hmerges.of_perm hperm.symm)⟩

/-! ### The leaves -/

/-- The symbols of positive weight, ascending (44_huffman_tree R165). -/
def weighted (w : List Nat) : List Nat := (List.range w.length).filter (fun x => 0 < w.getD x 0)

theorem weightLeaves_eq (w : List Nat) :
    weightLeaves w = (weighted w).map (fun x => ⟨w.getD x 0, x, .leaf x⟩) := rfl

theorem mem_weighted {w : List Nat} {x : Nat} : x ∈ weighted w ↔ 0 < w.getD x 0 := by
  rw [weighted, List.mem_filter, List.mem_range, decide_eq_true_eq, and_iff_right_iff_imp]
  intro h
  by_contra hx
  exact h.ne' (List.getD_eq_default _ _ (Nat.le_of_not_lt hx))

theorem nodup_weighted (w : List Nat) : (weighted w).Nodup := List.nodup_range.filter _

theorem weighted_lt {w : List Nat} {x : Nat} (h : x ∈ weighted w) : x < w.length :=
  List.mem_range.1 (List.mem_of_mem_filter h)

theorem zipIdx_eq_map_range (w : List Nat) : w.zipIdx = (List.range w.length).map (fun x => (w.getD x 0, x)) :=
  List.ext_getElem (by simp) (by simp +contextual)

theorem length_weighted (w : List Nat) : (weighted w).length = w.countP (fun x => 0 < x) := by
  conv_rhs => rw [← List.zipIdx_map_fst 0 w, zipIdx_eq_map_range, List.map_map, List.countP_map]
  rw [List.countP_eq_length_filter]
  rfl

theorem huffLeaves_eq_weightLeaves (w : List Nat) : huffLeaves w = weightLeaves w := by
  rw [huffLeaves, zipIdx_eq_map_range, List.filter_map, List.map_map]
  rfl

theorem huffQueue_perm (w : List Nat) : (huffQueue w).Perm (weightLeaves w) :=
  huffLeaves_eq_weightLeaves w ▸ List.perm_insertionSort _ _

theorem length_huffQueue (w : List Nat) : (huffQueue w).length = w.countP (fun x => 0 < x) := by
  rw [(huffQueue_perm w).length_eq, weightLeaves_eq, List.length_map, length_weighted]

theorem huffQueue_ok {w : List Nat} (hw : w.length ≤ alpha) : QueueOk 0 (huffQueue w) := by
  obtain ⟨htotal, htrans⟩ := HNode.le_total_trans
  refine ⟨List.pairwise_insertionSort _ _, ?_, fun m hm => ?_⟩
  · rw [((huffQueue_perm w).map _).nodup_iff, weightLeaves_eq, List.map_map]
    exact (List.map_id (weighted w)).symm ▸ nodup_weighted w
  · rw [(huffQueue_perm w).mem_iff, weightLeaves_eq] at hm
    obtain ⟨x, hx, rfl⟩ := List.mem_map.1 hm
    exact (weighted_lt hx).trans_le hw

/-- What HuffBuild does: nothing for fewer than two positive weights, else the lengths of the merges' tree
(44_huffman_tree R166, R167). -/
theorem huffBuild_cases {w : List Nat} (hw : w.length ≤ alpha) :
    (w.countP (fun x => 0 < x) < 2 ∧ huffBuild w = none) ∨
    (2 ≤ w.countP (fun x => 0 < x) ∧ ∃ t, HuffMerges 0 (weightLeaves w) t ∧ huffBuild w = some t.lengths) := by
  have hlen := length_huffQueue w
  rcases Nat.lt_or_ge (w.countP (fun x => 0 < x)) 2 with hlt | hge
  · exact .inl ⟨hlt, by simp [huffBuild, hlen, hlt]⟩
  · obtain ⟨root, hrun, hmerges⟩ := huffMerge_merges (k := (huffQueue w).length - 1) (by omega) (huffQueue_ok hw)
    refine .inr ⟨hge, root.tree, hmerges.of_perm (huffQueue_perm w).symm, ?_⟩
    simp only [huffBuild]
    rw [if_neg (by omega), hrun]

/-! ### The tree of the weights -/

section
variable {w : List Nat} {t : HTree} (ht : HuffMerges 0 (weightLeaves w) t)
include ht

theorem HuffMerges.symbols_perm_weighted : t.symbols.Perm (weighted w) := by
  have := ht.symbols_perm
  rw [weightLeaves_eq, List.flatMap_map] at this
  simpa [HTree.symbols] using this

theorem HuffMerges.mem_symbols {x : Nat} : x ∈ t.symbols ↔ 0 < w.getD x 0 :=
  ht.symbols_perm_weighted.mem_iff.trans mem_weighted

theorem HuffMerges.nodup_symbols : t.symbols.Nodup := ht.symbols_perm_weighted.nodup_iff.2 (nodup_weighted w)

theorem HuffMerges.length_symbols : t.symbols.length = w.countP (fun x => 0 < x) :=
  ht.symbols_perm_weighted.length_eq.trans (length_weighted w)

variable (hw : w.length ≤ alpha)
include hw

theorem HuffMerges.symbols_lt : ∀ x ∈ t.symbols, x < alpha :=
  fun _ hx => (weighted_lt (ht.symbols_perm_weighted.mem_iff.1 hx)).trans_le hw

theorem HuffMerges.leafAtDepth_iff {x d : Nat} : t.LeafAtDepth x d ↔ 0 < w.getD x 0 ∧ t.lengths.getD x 0 = d := by
  rw [HTree.leafAtDepth_iff ht.nodup_symbols (ht.symbols_lt hw), ht.mem_symbols]

variable (hcount : 2 ≤ w.countP (fun x => 0 < x))
include hcount

/-- The coded symbols are those of positive weight (44_huffman_tree R168 (1)). -/
theorem HuffMerges.one_le_lengths_iff {x : Nat} : 1 ≤ t.lengths.getD x 0 ↔ 0 < w.getD x 0 := by
  refine ⟨fun h => ?_, fun h => ((ht.leafAtDepth_iff hw).2 ⟨h, rfl⟩).pos (ht.length_symbols ▸ hcount)⟩
  by_contra hx
  rw [HTree.lengths_getD_of_not_mem (mt ht.mem_symbols.1 hx)] at h
  exact absurd h (by decide)

/-- No length exceeds the number of coded symbols less one (44_huffman_tree R168 (4)). -/
theorem HuffMerges.forall_mem_lengths_lt : ∀ l ∈ t.lengths, l < w.countP (fun x => 0 < x) := by
  intro l hl
  obtain ⟨x, hx, rfl⟩ := List.getElem_of_mem hl
  have hget : t.lengths[x] = t.lengths.getD x 0 := (List.getD_eq_getElem _ _ hx).symm
  rcases Nat.eq_zero_or_pos (t.lengths.getD x 0) with hzero | hpos
  · omega
  · have hleaf := (ht.leafAtDepth_iff hw).2 ⟨(ht.one_le_lengths_iff hw hcount).1 hpos, rfl⟩
    rw [hget, ← ht.length_symbols]
    exact hleaf.lt_length

/-- The Kraft sum of the lengths is 1 (44_huffman_tree R168 (2)). -/
theorem HuffMerges.kraftAt_lengths {n : Nat} (hmax : ∀ l ∈ t.lengths, l ≤ n) : kraftAt n t.lengths = 2 ^ n := by
  have hpos {p : Nat × Nat} (hp : p ∈ t.depths 0) : 0 < p.2 :=
    (HTree.mem_depths_zero.1 hp).pos (ht.length_symbols ▸ hcount)
  have hmem {p : Nat × Nat} (hp : p ∈ t.depths 0) : t.lengths.getD p.1 0 = p.2 :=
    ((ht.leafAtDepth_iff hw).1 (HTree.mem_depths_zero.1 hp)).2
  have hspace : ((t.depths 0).map (fun p => kraftTerm n p.2)).sum = spaceOf n (t.depths 0) :=
    congrArg List.sum (List.map_congr_left fun p hp => kraftTerm_of_pos (hpos hp))
  rw [kraftAt_eq_sum_range, HTree.length_lengths,
    HTree.sum_lengths ht.nodup_symbols (ht.symbols_lt hw) (fun _ => kraftTerm n) fun _ => rfl, hspace]
  exact t.spaceOf_depths fun p hp => hmem hp ▸ getD_le_of_forall hmax p.1

end

/-- Settles O41: the model's queue takes the merges of the rule, and the lengths are read off their tree. -/
theorem huffmanLengths : Obligations.HuffmanLengths := by
  unfold Obligations.HuffmanLengths
  intro w hw
  rcases huffBuild_cases hw with ⟨hcount, hnone⟩ | ⟨hcount, t, ht, hsome⟩
  · exact ⟨iff_of_true hnone hcount, fun lens hlens => by rw [hnone] at hlens; cases hlens⟩
  · have hbound := ht.forall_mem_lengths_lt hw hcount
    have hmax : ∀ l ∈ t.lengths, l ≤ 257 := fun l hl =>
      Nat.le_of_lt_succ ((hbound l hl).trans_le (List.countP_le_length.trans hw))
    refine ⟨iff_of_false (by simp [hsome]) (Nat.not_lt.2 hcount), fun lens hlens => ?_⟩
    obtain rfl : t.lengths = lens := Option.some.inj (hsome.symm.trans hlens)
    exact ⟨t.length_lengths, fun x => ht.one_le_lengths_iff hw hcount, ht.kraftAt_lengths hw hcount hmax, hbound, t, ht,
      fun x d => ht.leafAtDepth_iff hw⟩

end Sys2Proof.Machine
end

