-- ==== Sys2Proof/Proofs/HuffmanOptimal.lean ====
section
/-! PROOF. Huffman's lengths are optimal (44_huffman_tree R168 (3)). Any lengths for the nodes of a queue can be changed, at
no cost, so that the two least nodes have equal lengths that no other exceeds; with their parent in their place, one bit
higher, they are lengths for the queue after the merge. -/

namespace Sys2Proof.Machine

/-! ### The cost of a tree -/

/-- The weight of a tree: the sum over its leaves of the symbols' weights. -/
def HTree.weight (wt : Nat → Nat) : HTree → Nat
  | .leaf s => wt s
  | .node p q => p.weight wt + q.weight wt

/-- The weighted sum of the leaves' depths: one bit more for every leaf below each merge. -/
def HTree.cost (wt : Nat → Nat) : HTree → Nat
  | .leaf _ => 0
  | .node p q => p.cost wt + q.cost wt + (p.weight wt + q.weight wt)

theorem HTree.sum_depths (wt : Nat → Nat) (t : HTree) (d : Nat) :
    ((t.depths d).map (fun p => wt p.1 * p.2)).sum = t.cost wt + t.weight wt * d := by
  induction t generalizing d with
  | leaf s => simp [depths, cost, weight]
  | node p q ihp ihq =>
    rw [depths, List.map_append, List.sum_append, ihp, ihq, cost, weight]
    ring

/-! ### Lengths for a list of weights

A pair is (weight, length). -/

/-- The weighted sum of the lengths. -/
def costOf (ps : List (Nat × Nat)) : Nat := (ps.map (fun p => p.1 * p.2)).sum

@[simp] theorem costOf_cons (p : Nat × Nat) (ps : List (Nat × Nat)) : costOf (p :: ps) = p.1 * p.2 + costOf ps :=
  List.sum_cons

theorem spaceOf_perm {n : Nat} {ps qs : List (Nat × Nat)} (h : (ps.map Prod.snd).Perm (qs.map Prod.snd)) :
    spaceOf n ps = spaceOf n qs := by
  have := (h.map (fun l => 2 ^ (n - l))).sum_eq
  rwa [List.map_map, List.map_map] at this

theorem dvd_spaceOf {n m : Nat} {ps : List (Nat × Nat)} (h : ∀ p ∈ ps, p.2 ≤ m) : 2 ^ (n - m) ∣ spaceOf n ps :=
  List.dvd_sum (List.forall_mem_map.2 fun p hp => pow_dvd_pow 2 (Nat.sub_le_sub_left (h p hp) n))

/-- The least weight can take the largest length, by exchanges that do not raise the cost. -/
theorem exists_longest_first {w l : Nat} {ps : List (Nat × Nat)} (hmin : ∀ p ∈ ps, w ≤ p.1) :
    ∃ m qs, qs.map Prod.fst = ps.map Prod.fst ∧ (m :: qs.map Prod.snd).Perm (l :: ps.map Prod.snd) ∧
      (∀ p ∈ qs, p.2 ≤ m) ∧ w * m + costOf qs ≤ w * l + costOf ps := by
  induction ps with
  | nil => exact ⟨l, [], rfl, .refl _, List.forall_mem_nil _, Nat.le_refl _⟩
  | cons p ps ih =>
    obtain ⟨v, k⟩ := p
    obtain ⟨hw, hmin⟩ := List.forall_mem_cons.1 hmin
    obtain ⟨m, qs, hfst, hsnd, hmax, hcost⟩ := ih hmin
    rcases Nat.le_total k m with hkm | hmk
    · refine ⟨m, (v, k) :: qs, by simp [hfst], ?_, List.forall_mem_cons.2 ⟨hkm, hmax⟩, ?_⟩
      · exact (List.Perm.swap ..).trans ((hsnd.cons k).trans (.swap ..))
      · simp only [costOf_cons]
        omega
    · refine ⟨k, (v, m) :: qs, by simp [hfst], (hsnd.cons k).trans (.swap ..),
        List.forall_mem_cons.2 ⟨hmk, fun p hp => (hmax p hp).trans hmk⟩, ?_⟩
      have hexchange : w * k + v * m ≤ w * m + v * k := mul_add_mul_le_mul_add_mul hw hmk
      simp only [costOf_cons]
      omega

theorem add_le_of_lt_of_dvd {d x y : Nat} (hx : d ∣ x) (hy : d ∣ y) (h : x < y) : x + d ≤ y := by
  have := Nat.le_of_dvd (Nat.sub_pos_of_lt h) (Nat.dvd_sub hy hx)
  omega

/-- Where codes of lengths ma and mb fit besides codes no longer than mb, one code of length mb - 1 fits in place of the two:
the space that is left beside mb is a multiple of 2^(n - mb), and not 0. -/
theorem exists_pred_fits {n ma mb w : Nat} {qs : List (Nat × Nat)} (hmb : mb ≤ n) (hqs : ∀ p ∈ qs, p.2 ≤ mb)
    (hspace : 2 ^ (n - ma) + (2 ^ (n - mb) + spaceOf n qs) ≤ 2 ^ n) :
    ∃ m, mb = m + 1 ∧ spaceOf n ((w, m) :: qs) ≤ 2 ^ n := by
  have hpos := Nat.two_pow_pos (n - ma)
  have htwo : 2 ^ (n - mb) + spaceOf n qs + 2 ^ (n - mb) ≤ 2 ^ n :=
    add_le_of_lt_of_dvd (dvd_add (dvd_refl _) (dvd_spaceOf hqs)) (pow_dvd_pow 2 (Nat.sub_le n mb)) (by omega)
  cases mb with
  | zero =>
    have := Nat.two_pow_pos n
    rw [Nat.sub_zero] at htwo
    omega
  | succ m =>
    have hdouble : 2 ^ (n - m) = 2 * 2 ^ (n - (m + 1)) := by
      rw [← pow_succ']
      congr 1
      omega
    refine ⟨m, rfl, ?_⟩
    rw [spaceOf_cons, hdouble]
    omega

/-- Lengths for the weights after a merge, from lengths for the weights before it: the two least weights a and b get equal
largest lengths, and their parent one bit less. -/
theorem exists_lengths_of_merge {n a b la lb : Nat} {ps : List (Nat × Nat)} (hab : a ≤ b) (hb : ∀ p ∈ ps, b ≤ p.1)
    (hmax : ∀ p ∈ (a, la) :: (b, lb) :: ps, p.2 ≤ n) (hspace : spaceOf n ((a, la) :: (b, lb) :: ps) ≤ 2 ^ n) :
    ∃ m qs, qs.map Prod.fst = ps.map Prod.fst ∧ (∀ p ∈ (a + b, m) :: qs, p.2 ≤ n) ∧
      spaceOf n ((a + b, m) :: qs) ≤ 2 ^ n ∧
      costOf ((a + b, m) :: qs) + (a + b) ≤ costOf ((a, la) :: (b, lb) :: ps) := by
  obtain ⟨ma, rs, hfst', hsnd', hrs, hcost'⟩ := exists_longest_first (w := a) (l := la) (ps := (b, lb) :: ps)
    (List.forall_mem_cons.2 ⟨hab, fun p hp => hab.trans (hb p hp)⟩)
  obtain ⟨⟨b', lb'⟩, ps', rfl⟩ : ∃ p ps', rs = p :: ps' := List.exists_cons_of_ne_nil (by rintro rfl; cases hfst')
  obtain ⟨rfl, hps⟩ := List.cons.inj hfst'
  have hb' : ∀ p ∈ ps', b' ≤ p.1 := fun p hp => by
    obtain ⟨q, hq, he⟩ := List.mem_map.1 (hps ▸ List.mem_map_of_mem hp : p.1 ∈ ps.map Prod.fst)
    exact he ▸ hb q hq
  obtain ⟨mb, qs, hfst, hsnd, hqs, hcost⟩ := exists_longest_first (l := lb') hb'
  have hlens : (((a, ma) :: (b', mb) :: qs).map Prod.snd).Perm (((a, la) :: (b', lb) :: ps).map Prod.snd) :=
    (hsnd.cons ma).trans hsnd'
  have hle : ∀ l ∈ ((a, ma) :: (b', mb) :: qs).map Prod.snd, l ≤ n := fun l hl => by
    obtain ⟨p, hp, rfl⟩ := List.mem_map.1 (hlens.mem_iff.1 hl)
    exact hmax p hp
  simp only [List.map_cons, List.forall_mem_cons, List.forall_mem_map] at hle
  obtain ⟨-, hmbn, hqsn⟩ := hle
  have hmb : mb ≤ ma := by
    have hmem : mb ∈ ((b', lb') :: ps').map Prod.snd := hsnd.mem_iff.1 (List.mem_cons_self ..)
    obtain ⟨p, hp, rfl⟩ := List.mem_map.1 hmem
    exact hrs p hp
  rw [← spaceOf_perm hlens] at hspace
  obtain ⟨m, rfl, hfits⟩ := exists_pred_fits (w := a + b') hmbn hqs hspace
  refine ⟨m, qs, hfst.trans hps, List.forall_mem_cons.2 ⟨Nat.le_of_succ_le hmbn, hqsn⟩, hfits, ?_⟩
  have hma : a * (m + 1) ≤ a * ma := Nat.mul_le_mul_left a hmb
  simp only [costOf_cons] at hcost' ⊢
  have hsplit : (a + b') * m + (a + b') = a * (m + 1) + b' * (m + 1) := by ring
  omega

/-! ### The merges -/

/-- A list whose images are a permutation of ys has a permutation whose images are ys. -/
theorem exists_perm_map_eq {α β : Type} {f : α → β} {xs : List α} {ys : List β} (h : (xs.map f).Perm ys) :
    ∃ zs : List α, zs.Perm xs ∧ zs.map f = ys := by
  have himages : List.Forall₂ (fun y x => y = f x) (xs.map f) xs :=
    List.forall₂_map_left_iff.2 (List.forall₂_same.2 fun _ _ => rfl)
  obtain ⟨zs, hzs, hperm⟩ := List.perm_comp_forall₂ h.symm himages
  exact ⟨zs, hperm, (List.forall₂_eq_eq_eq ▸ List.forall₂_map_right_iff.2 hzs : ys = zs.map f).symm⟩

theorem KeyBefore.weight_le {a b : HNode} (h : KeyBefore a b) : a.weight ≤ b.weight := h.elim Nat.le_of_lt fun h => h.1.le

/-- No lengths for the nodes of a queue cost less than the merges, each of which adds one bit below the two least nodes. -/
theorem HuffMerges.cost_le {j : Nat} {q : List HNode} {t : HTree} (h : HuffMerges j q t) {wt : Nat → Nat}
    (hq : ∀ m ∈ q, m.weight = m.tree.weight wt) {n : Nat} {ps : List (Nat × Nat)}
    (hps : (ps.map Prod.fst).Perm (q.map HNode.weight)) (hmax : ∀ p ∈ ps, p.2 ≤ n) (hspace : spaceOf n ps ≤ 2 ^ n) :
    t.cost wt ≤ (q.map (fun m => m.tree.cost wt)).sum + costOf ps := by
  induction h generalizing ps with
  | root j m => simp
  | merge j q rest a b t hperm hab hrest htail ih =>
    obtain ⟨zs, hzs, hweights⟩ := exists_perm_map_eq (hps.trans (hperm.map _))
    match zs, hweights with
    | (wa, la) :: (wb, lb) :: rs, hweights =>
      obtain ⟨rfl, rfl, hrs⟩ : wa = a.weight ∧ wb = b.weight ∧ rs.map Prod.fst = rest.map HNode.weight := by
        simpa using hweights
      have hb : ∀ p ∈ rs, b.weight ≤ p.1 := fun p hp => by
        obtain ⟨c, hc, he⟩ := List.mem_map.1 (hrs ▸ List.mem_map_of_mem hp : p.1 ∈ rest.map HNode.weight)
        exact he ▸ (hrest c hc).weight_le
      rw [spaceOf_perm (hzs.symm.map _)] at hspace
      obtain ⟨m, qs, hfst, hmaxm, hspacem, hcost⟩ :=
        exists_lengths_of_merge hab.weight_le hb (fun p hp => hmax p (hzs.mem_iff.1 hp)) hspace
      obtain ⟨ha, hbw, hrestw⟩ : a.weight = a.tree.weight wt ∧ b.weight = b.tree.weight wt ∧
          ∀ c ∈ rest, c.weight = c.tree.weight wt := by
        simpa using fun c hc => hq c (hperm.mem_iff.2 hc)
      have hnode : a.weight + b.weight = (HTree.node a.tree b.tree).weight wt := congrArg₂ (· + ·) ha hbw
      have hle := ih (ps := (a.weight + b.weight, m) :: qs) (List.forall_mem_cons.2 ⟨hnode, hrestw⟩)
        (.of_eq (congrArg (List.cons _) (hfst.trans hrs))) hmaxm hspacem
      have hcosts : costOf ((a.weight, la) :: (b.weight, lb) :: rs) = costOf ps := (hzs.map _).sum_eq
      have hsum := (hperm.map (fun m => m.tree.cost wt)).sum_eq
      simp only [List.map_cons, List.sum_cons, HTree.cost] at hle hsum ⊢
      omega

/-- The cost of the tree is the weighted sum of the lengths. -/
theorem HuffMerges.cost_eq {w : List Nat} {t : HTree} (ht : HuffMerges 0 (weightLeaves w) t) (hw : w.length ≤ alpha) :
    ((List.range alpha).map (fun x => w.getD x 0 * t.lengths.getD x 0)).sum = t.cost (fun x => w.getD x 0) := by
  rw [HTree.sum_lengths ht.nodup_symbols (ht.symbols_lt hw) (fun x l => w.getD x 0 * l) fun _ => Nat.mul_zero _]
  exact t.sum_depths (fun x => w.getD x 0) 0

/-- The symbols of positive weight are some of the alphabet. -/
theorem sum_weighted_le {w : List Nat} (hw : w.length ≤ alpha) (g : Nat → Nat) :
    ((weighted w).map g).sum ≤ ((List.range alpha).map g).sum :=
  ((List.filter_sublist.trans (List.range_sublist.2 hw)).map g).sum_le_sum fun _ _ => Nat.zero_le _

/-- Settles O42: lengths for the symbols of positive weight are lengths for the queue of leaves, so they cost no less than the
merges. -/
theorem huffmanLengthsAreOptimal : Obligations.HuffmanLengthsAreOptimal := by
  unfold Obligations.HuffmanLengthsAreOptimal
  intro w lens other n hw hlens hlen hpos hmax hkraft
  rcases huffBuild_cases hw with ⟨-, hnone⟩ | ⟨-, t, ht, hsome⟩
  · rw [hnone] at hlens
    cases hlens
  obtain rfl : t.lengths = lens := Option.some.inj (hsome.symm.trans hlens)
  have hspace : spaceOf n ((weighted w).map (fun x => (w.getD x 0, other.getD x 0))) ≤ kraftAt n other := by
    have hterms : (weighted w).map (fun x => kraftTerm n (other.getD x 0)) =
        (weighted w).map (fun x => 2 ^ (n - other.getD x 0)) :=
      List.map_congr_left fun x hx => kraftTerm_of_pos (hpos x (mem_weighted.1 hx))
    rw [spaceOf, List.map_map, kraftAt_eq_sum_range, hlen]
    exact (congrArg List.sum hterms).symm.trans_le (sum_weighted_le hw _)
  calc ((List.range alpha).map (fun x => w.getD x 0 * t.lengths.getD x 0)).sum
      = t.cost (fun x => w.getD x 0) := ht.cost_eq hw
    _ ≤ ((weightLeaves w).map (fun m => m.tree.cost fun x => w.getD x 0)).sum +
        costOf ((weighted w).map (fun x => (w.getD x 0, other.getD x 0))) := by
      refine ht.cost_le ?_ ?_ (List.forall_mem_map.2 fun x _ => getD_le_of_forall hmax x) (hspace.trans hkraft)
      · exact List.forall_mem_map.2 fun x _ => rfl
      · rw [weightLeaves_eq, List.map_map, List.map_map]
        rfl
    _ = ((weighted w).map (fun x => w.getD x 0 * other.getD x 0)).sum := by
      simp [weightLeaves_eq, costOf, HTree.cost, Function.comp_def]
    _ ≤ _ := sum_weighted_le hw _

end Sys2Proof.Machine
end

