-- ==== Sys2Proof/Proofs/HuffmanCommands.lean ====
section
/-! PROOF. The commands HTB.BUILD, HTB.PRIOR, HTB.CANON and HTB.STORE (44_huffman_tree R173, R176 to R179), and that a
canonical table is rebuilt from its stored lengths (R180). -/

namespace Sys2Proof.Machine

/-! ### The tables -/

theorem makeTable_ok {lens : List Nat} (hmax : ∀ l ∈ lens, l ≤ 64) (hkraft : kraftAt 64 lens ≤ 2 ^ 64) :
    makeTable lens = .ok ⟨lens, (canonCodes lens).map (BitVec.ofNat 64)⟩ := by
  rw [makeTable, if_neg (by simpa using hmax)]
  exact if_neg (Nat.not_lt.2 hkraft)

theorem makeTable_capacity {lens : List Nat} (h : ∃ l ∈ lens, 64 < l) : makeTable lens = .error .capacity :=
  if_pos (by simpa using h)

theorem makeTable_kraft {lens : List Nat} (hmax : ∀ l ∈ lens, l ≤ 64) (hkraft : 2 ^ 64 < kraftAt 64 lens) :
    makeTable lens = .error .kraft := by
  rw [makeTable, if_neg (by simpa using hmax)]
  exact if_pos hkraft

theorem buildTable_of_none {w : List Nat} (h : huffBuild w = none) : buildTable w = .error .degenerate := by
  rw [buildTable, h]

theorem buildTable_of_some {w lens : List Nat} (h : huffBuild w = some lens) : buildTable w = makeTable lens := by
  rw [buildTable, h]

/-- The lengths of HuffBuild have Kraft sum 1 (44_huffman_tree R168 (2)). -/
theorem kraftAt_of_huffBuild {w lens : List Nat} (hw : w.length ≤ 258) (h : huffBuild w = some lens) {n : Nat}
    (hmax : ∀ l ∈ lens, l ≤ n) : kraftAt n lens = 2 ^ n := by
  rcases huffBuild_cases hw with ⟨-, hnone⟩ | ⟨hcount, t, ht, hsome⟩
  · rw [hnone] at h
    cases h
  · obtain rfl : t.lengths = lens := Option.some.inj (hsome.symm.trans h)
    exact ht.kraftAt_lengths hw hcount hmax

/-- The table of HuffBuild's lengths, when no length exceeds 64 (44_huffman_tree R173). -/
theorem exists_buildTable {w lens : List Nat} (hw : w.length ≤ 258) (h : huffBuild w = some lens)
    (hmax : ∀ l ∈ lens, l ≤ 64) :
    ∃ x : CodeTable, buildTable w = .ok x ∧ x.len = lens ∧ x.Canonical ∧ kraftAt 64 x.len = 2 ^ 64 := by
  have hkraft := kraftAt_of_huffBuild hw h hmax
  have hok := (buildTable_of_some h).trans (makeTable_ok hmax hkraft.le)
  exact ⟨_, hok, rfl, buildTable_canonical hok, hkraft⟩

/-- A table that is built has Kraft sum 1. -/
theorem kraftAt_of_buildTable {w : List Nat} {x : CodeTable} (hw : w.length ≤ 258) (h : buildTable w = .ok x) :
    kraftAt 64 x.len = 2 ^ 64 := by
  cases hlens : huffBuild w with
  | none => rw [buildTable_of_none hlens] at h; cases h
  | some lens =>
    obtain ⟨hmax, -, rfl⟩ := makeTable_eq_ok ((buildTable_of_some hlens).symm.trans h)
    exact kraftAt_of_huffBuild hw hlens hmax

/-- A canonical table is determined by its lengths (44_huffman_tree R180). -/
theorem CodeTable.Canonical.eq_of_len_eq {x y : CodeTable} (hx : x.Canonical) (hy : y.Canonical) (h : x.len = y.len) :
    x = y := by
  have hcode : x.code = y.code := by rw [hx.codes, hy.codes, h]
  cases x
  cases y
  exact congrArg₂ CodeTable.mk h hcode

/-! ### The checks -/

theorem checkCountRange_fails {k lo hi : Nat} (h : k < lo ∨ hi < k) (e : CmdEnd) :
    (if k < lo || hi < k then CmdEnd.early .range else e) = .early .range := if_pos (by simpa using h)

theorem checkCountRange_passes {k lo hi : Nat} (hlo : lo ≤ k) (hhi : k ≤ hi) (e : CmdEnd) :
    (if k < lo || hi < k then CmdEnd.early .range else e) = e := if_neg (by simp; omega)

section
variable {t : Slot} {a b : Word} {s : State}

theorem bodyOf_htbBuild (hlo : 1 ≤ b.toNat) (hhi : b.toNat ≤ 258) : bodyOf (.htbBuild t a b) s =
    checkRegion s (regionOf a b) (storeTable s t (buildTable (s.data a.toNat b.toNat))) :=
  checkCountRange_passes hlo hhi _

theorem bodyOf_htbCanon (hlo : 1 ≤ b.toNat) (hhi : b.toNat ≤ 258) : bodyOf (.htbCanon t a b) s =
    checkRegion s (regionOf a b) (storeTable s t (makeTable (padLengths (s.data a.toNat b.toNat)))) :=
  checkCountRange_passes hlo hhi _

theorem bodyOf_htbPrior (hlo : 2 ≤ b.toNat) (hhi : b.toNat ≤ 65) : bodyOf (.htbPrior t b) s =
    storeTable s t (headerTable s.cfg b.toNat) := checkCountRange_passes hlo hhi _

end

/-! ### HTB.BUILD -/

/-- Settles O45: past the checks the slot takes the table of HuffBuild's lengths. -/
theorem htbBuildOutcome : Obligations.HtbBuildOutcome := by
  unfold Obligations.HtbBuildOutcome
  refine ⟨fun t a b s hs => ⟨fun h => exec_faultedBy hs (checkCountRange_fails h _), fun hlo hhi hb =>
    exec_faultedBy hs ((bodyOf_htbBuild hlo hhi).trans (checkRegion_bounds hb)), fun hlo hhi hb => ?_⟩,
    fun w lens _ h hlarge => (buildTable_of_some h).trans (makeTable_capacity hlarge)⟩
  have hbody := (bodyOf_htbBuild (t := t) hlo hhi).trans (checkRegion_passes hb)
  have hw : (s.data a.toNat b.toNat).length ≤ 258 := by rwa [length_data]
  obtain ⟨hdegenerate, -⟩ := huffmanLengths _ hw
  refine ⟨fun hcount => exec_faultedBy hs ?_, fun lens h hmax => ?_⟩
  · rw [hbody, buildTable_of_none (hdegenerate.2 hcount)]
    rfl
  · obtain ⟨x, hok, hx⟩ := exists_buildTable hw h hmax
    refine ⟨x, exec_of_done hs ?_, hx⟩
    rw [hbody, hok]
    rfl

/-! ### HTB.PRIOR -/

theorem length_hdrWeights (c : Config) (k : Nat) : (hdrWeights c k).length = k := by simp [hdrWeights]

theorem hdrWeights_eq (c : Config) (k : Nat) : hdrWeights c k =
    (List.range k).map (fun l => if l < c.hdrPrior.length then c.hdrPrior.getD l 0 else 1) := by
  refine List.map_congr_left fun l _ => ?_
  split
  case isTrue h => rw [List.getD_eq_getElem _ _ h, List.getD_eq_getElem _ _ h]
  case isFalse h => exact List.getD_eq_default _ _ (Nat.le_of_not_lt h)

/-- A legal prior gives every header symbol a positive weight (00_scope R8). -/
theorem hdrWeights_pos {c : Config} (hc : c.wf) {k l : Nat} : 0 < (hdrWeights c k).getD l 0 ↔ l < k := by
  obtain ⟨-, -, -, -, hprior⟩ := hc
  by_cases hl : l < k
  · refine iff_of_true ?_ hl
    have hget : (hdrWeights c k).getD l 0 = c.hdrPrior.getD l 1 := by simp [hdrWeights, List.getD_eq_getElem?_getD, hl]
    rw [hget]
    rcases getD_eq_or_mem c.hdrPrior l 1 with h | h
    · rw [h]
      exact Nat.one_pos
    · exact hprior _ h
  · refine iff_of_false (Nat.not_lt.2 (Nat.le_of_eq ?_)) hl
    exact List.getD_eq_default _ _ (by rw [length_hdrWeights]; exact Nat.le_of_not_lt hl)

theorem countP_hdrWeights {c : Config} (hc : c.wf) (k : Nat) : (hdrWeights c k).countP (fun x => 0 < x) = k := by
  conv_rhs => rw [← length_hdrWeights c k]
  refine List.countP_eq_length.2 fun x hx => ?_
  obtain ⟨l, hl, rfl⟩ := List.getElem_of_mem hx
  rw [← List.getD_eq_getElem _ 0 hl]
  exact decide_eq_true ((hdrWeights_pos hc).2 (length_hdrWeights c k ▸ hl))

/-- Settles O46: the header weights are positive and at most 65, so HuffBuild's lengths are at most 64. -/
theorem htbPriorOutcome : Obligations.HtbPriorOutcome := by
  unfold Obligations.HtbPriorOutcome
  intro t b s hs hc
  refine ⟨fun h => exec_faultedBy hs (checkCountRange_fails h _), fun hlo hhi => ?_, strayRaisesIllegal _ hs,
    encode_opField _⟩
  have hw : (hdrWeights s.cfg b.toNat).length ≤ 258 := by rw [length_hdrWeights]; omega
  have hcount := countP_hdrWeights hc b.toNat
  obtain ⟨hdegenerate, hsome⟩ := huffmanLengths _ hw
  obtain ⟨lens, hlens⟩ := Option.ne_none_iff_exists'.1 (mt hdegenerate.1 (by omega))
  obtain ⟨-, hcoded, -, hbound, -⟩ := hsome lens hlens
  obtain ⟨x, hok, rfl, hx, hkraft⟩ := exists_buildTable hw hlens fun l hl => by have := hbound l hl; omega
  refine ⟨x, exec_of_done hs ?_, hx, hkraft, hdrWeights_eq s.cfg b.toNat ▸ hlens,
    fun l => (hcoded l).trans (hdrWeights_pos hc)⟩
  rw [bodyOf_htbPrior hlo hhi, headerTable, hok]
  rfl

/-! ### HTB.CANON -/

theorem forall_mem_padLengths {xs : List Nat} {n : Nat} : (∀ l ∈ padLengths xs, l ≤ n) ↔ ∀ l ∈ xs, l ≤ n := by
  rw [padLengths, List.forall_mem_append]
  exact and_iff_left fun l hl => (List.eq_of_mem_replicate hl).trans_le (Nat.zero_le n)

theorem kraftAt_padLengths (n : Nat) (xs : List Nat) : kraftAt n (padLengths xs) = kraftAt n xs := by
  simp [kraftAt, padLengths]

/-- Settles O47: the padding changes neither the largest length nor the Kraft sum. -/
theorem htbCanonOutcome : Obligations.HtbCanonOutcome := by
  unfold Obligations.HtbCanonOutcome
  intro t a b s hs
  refine ⟨fun h => exec_faultedBy hs (checkCountRange_fails h _), fun hlo hhi hb =>
    exec_faultedBy hs ((bodyOf_htbCanon hlo hhi).trans (checkRegion_bounds hb)), fun hlo hhi hb => ?_,
    strayRaisesIllegal _ hs, encode_opField _⟩
  have hbody := (bodyOf_htbCanon (t := t) hlo hhi).trans (checkRegion_passes hb)
  have hstore {r : Except FaultCode CodeTable} (hr : makeTable (padLengths (s.data a.toNat b.toNat)) = r) :
      bodyOf (.htbCanon t a b) s = storeTable s t r := hr ▸ hbody
  have hlen : (s.data a.toNat b.toNat).length = b.toNat := length_data ..
  refine ⟨fun h => exec_faultedBy hs (hstore (makeTable_capacity ?_)), fun hmax hkraft => exec_faultedBy hs
    (hstore (makeTable_kraft (forall_mem_padLengths.2 hmax) (hkraft.trans_eq (kraftAt_padLengths 64 _).symm))),
    fun hmax hkraft => ?_⟩
  · obtain ⟨l, hl, hlarge⟩ := h
    exact ⟨l, List.mem_append_left _ hl, hlarge⟩
  · have hok := makeTable_ok (forall_mem_padLengths.2 hmax) ((kraftAt_padLengths 64 _).trans_le hkraft)
    exact ⟨_, exec_of_done hs (hstore hok), makeTable_canonical (length_padLengths (by rwa [hlen])) hok,
      by rw [padLengths, hlen]⟩

/-! ### HTB.STORE -/

/-- The halves of the codes, two cells each (44_huffman_tree R178). -/
theorem getElem?_flatMap_halves (cs : List Word64) (x : Nat) :
    (cs.flatMap (fun c => [lowHalf c, highHalf c]))[2 * x]? = cs[x]?.map lowHalf ∧
    (cs.flatMap (fun c => [lowHalf c, highHalf c]))[2 * x + 1]? = cs[x]?.map highHalf := by
  induction cs generalizing x with
  | nil => exact ⟨rfl, rfl⟩
  | cons c cs ih =>
    cases x with
    | zero => exact ⟨rfl, rfl⟩
    | succ x => exact ih x

section
variable {t : CodeTable} (ht : t.shape) {x : Nat} (hx : x < 258)
include ht hx

theorem getElem?_slotCells_len : (slotCells t)[x]? = some (BitVec.ofNat 32 (t.lenOf x)) := by
  obtain ⟨hlen, -⟩ := ht
  have hlt : x < t.len.length := hlen ▸ hx
  rw [slotCells, List.getElem?_append_left (by rwa [length_toWords]), toWords, List.getElem?_map,
    List.getElem?_eq_getElem hlt, CodeTable.lenOf, List.getD_eq_getElem _ _ hlt]
  rfl

theorem getElem?_slotCells_code : (slotCells t)[258 + 2 * x]? = some (lowHalf (t.codeOf x)) ∧
    (slotCells t)[258 + (2 * x + 1)]? = some (highHalf (t.codeOf x)) := by
  obtain ⟨hlen, hcode, -⟩ := ht
  have hlt : x < t.code.length := hcode ▸ hx
  have hright (i : Nat) : (slotCells t)[258 + i]? = (t.code.flatMap (fun c => [lowHalf c, highHalf c]))[i]? := by
    have hwords : (toWords t.len).length = 258 := (length_toWords _).trans hlen
    rw [slotCells, List.getElem?_append_right (by omega), hwords, Nat.add_sub_cancel_left]
  obtain ⟨hlow, hhigh⟩ := getElem?_flatMap_halves t.code x
  rw [hright, hright, hlow, hhigh, List.getElem?_eq_getElem hlt, CodeTable.codeOf, List.getD_eq_getElem _ _ hlt]
  exact ⟨rfl, rfl⟩

end

/-- Settles O48: the 774 cells written are those of the slot. -/
theorem htbStoreWritesSlot : Obligations.HtbStoreWritesSlot := by
  unfold Obligations.HtbStoreWritesSlot
  intro t c s hs hw ht
  refine ⟨fun h => exec_faultedBy hs (checkRegion_bounds h), fun h => ⟨_, exec_of_done hs (checkRegion_passes h),
    fun x hx => ?_, ?_, rfl⟩, strayRaisesIllegal _ hs, encode_opField _⟩
  · have hlen : (s.getSlot t).lenOf x ≤ 64 := CodeTable.lenOf_cases (p := (· ≤ 64)) (Nat.zero_le _) ht.2.2 x
    obtain ⟨hlow, hhigh⟩ := getElem?_slotCells_code ht hx
    have hlow := State.readCell_writeRegion_inside hw c.toNat _ hlow
    have hhigh := State.readCell_writeRegion_inside hw c.toNat _ hhigh
    rw [← Nat.add_assoc] at hlow
    rw [← Nat.add_assoc, ← Nat.add_assoc] at hhigh
    rw [State.readCell_writeRegion_inside hw _ _ (getElem?_slotCells_len ht hx), hlow, hhigh]
    exact ⟨(BitVec.toNat_ofNat ..).trans (Nat.mod_eq_of_lt (by omega)), highHalf_append_lowHalf _⟩
  · have := cellsOutsideKept_writeRegion hw c.toNat (slotCells (s.getSlot t))
    rwa [length_slotCells ht] at this

/-! ### Building, storing and building again -/

/-- HTB.BUILD without a fault stores a built table. -/
theorem exists_table_of_htbBuild {t : Slot} {a b : Word} {s s1 : State} (hs : s.faulted = false)
    (h : exec (.htbBuild t a b) s = .next s1) (hs1 : s1.faulted = false) :
    ∃ x : CodeTable, s1 = s.setSlot t x ∧ x.Canonical ∧ kraftAt 64 x.len = 2 ^ 64 := by
  have hends : (bodyOf (.htbBuild t a b) s).Ends (fun s1 => ∃ x : CodeTable, s1 = s.setSlot t x ∧ x.Canonical ∧
      kraftAt 64 x.len = 2 ^ 64) fun _ => True := by
    refine ends_guard fun hb => ends_checkRegion fun _ => ends_storeTable fun x hx =>
      ⟨x, rfl, buildTable_canonical hx, kraftAt_of_buildTable ?_ hx⟩
    rw [length_toNats, State.length_readRegion]
    simp only [Bool.or_eq_true, decide_eq_true_eq, not_or] at hb
    exact Nat.le_of_not_lt hb.2
  rw [bodyOf_eq_done h hs hs1] at hends
  exact hends

theorem data_eq_len {t : CodeTable} (ht : t.shape) {s : State} {base : Nat}
    (h : ∀ x, x < 258 → (s.readCell (base + x)).toNat = t.lenOf x) : s.data base 258 = t.len := by
  obtain ⟨hlen, -⟩ := ht
  refine List.ext_getElem ((length_data ..).trans hlen.symm) fun x hx hxt => ?_
  have := h x (by rwa [length_data] at hx)
  rw [CodeTable.lenOf, List.getD_eq_getElem _ _ hxt] at this
  simpa [State.data, toNats, State.readRegion] using this

/-- Settles O49: the stored lengths are those of the built table, whose Kraft sum passes the check, and its codes are the
canonical ones of its lengths. -/
theorem canonicalTableRebuilds : Obligations.CanonicalTableRebuilds := by
  unfold Obligations.CanonicalTableRebuilds
  intro t u a b c s s1 s2 s3 hinv hs hbuild hs1 hstore hs2 hcanon
  obtain ⟨x, rfl, hx, hkraft⟩ := exists_table_of_htbBuild hs hbuild hs1
  have hslot : (s.setSlot t x).getSlot t = x := State.getSlot_setSlot_self ..
  obtain ⟨hbounds, hwrites, -⟩ := htbStoreWritesSlot t c (s.setSlot t x) hs1 (by simpa using hinv.memSorted)
    (by rw [hslot]; exact hx.shape)
  have hc : c.toNat + 774 ≤ (s.setSlot t x).cfg.memWords := by
    by_contra hc
    rw [hbounds (Nat.lt_of_not_le hc)] at hstore
    cases hstore
    cases hs2
  obtain ⟨s2', hrun, hcells, -, hkeep⟩ := hwrites hc
  obtain rfl : s2' = s2 := Host.Outcome.next.inj (hrun.symm.trans hstore)
  rw [hslot] at hcells
  have hdata : s2'.data c.toNat (258 : Word).toNat = x.len := data_eq_len hx.shape fun y hy => (hcells y hy).1
  have hcfg : s2'.cfg = (s.setSlot t x).cfg := by rw [hkeep]
  obtain ⟨-, -, hin, -⟩ := htbCanonOutcome u c 258 s2' hs2
  obtain ⟨-, -, hok⟩ := hin (by decide) (by decide) (by rw [hcfg]; exact le_trans (Nat.add_le_add_left (by decide) _) hc)
  rw [hdata] at hok
  obtain ⟨y, hyrun, hy, hylen⟩ := hok hx.shape.2.2 hkraft.le
  have hyx : y = x := hy.eq_of_len_eq hx (hylen.trans (List.append_nil _))
  obtain rfl : s2'.setSlot u y = s3 := Host.Outcome.next.inj (hyrun.symm.trans hcanon)
  rw [State.getSlot_setSlot_self, hslot, hyx]
  refine ⟨by simpa using hs2, rfl, hkraft, fun z l => ?_⟩
  constructor
  · rintro ⟨v, hpos, rfl, -⟩
    exact ⟨hpos, rfl⟩
  · rintro ⟨hpos, rfl⟩
    exact ⟨_, hpos, rfl, rfl⟩

end Sys2Proof.Machine
end

