-- ==== Sys2Proof/Proofs/EncoderCommands.lean ====
section
/-! PROOF. The commands CHE.SYM and CHE.BLOCK (45_huffman_encoder R185 to R193). `Emitted` says what a part of the encoder
does, one field or a sequence of them: it puts bits behind the stream's bits. The parts of CHE.BLOCK are chained by it. -/

namespace Sys2Proof.Machine

/-! ### What a part of the encoder does -/

/-- From s to t the encoder has put `bits` behind the bits of b0, its whole bytes into SINK, the last field staged in b1;
at most 7 bits stay in b0, and nothing else has changed (45_huffman_encoder R185, R191). -/
structure Emitted (s : State) (bits : List Bool) (field : BitBuf) (t : State) : Prop where
  wf : t.b0.wf
  short : t.b0.len ≤ 7
  stream : ∃ bs, t = { s.sinkPut bs with b0 := t.b0, b1 := field } ∧ byteBits bs ++ t.b0.bits = s.b0.bits ++ bits

section
variable {s t u : State} {as bs : List Bool} {p q : BitBuf}

theorem Emitted.trans (h : Emitted s as p t) (k : Emitted t bs q u) : Emitted s (as ++ bs) q u := by
  obtain ⟨-, -, xs, ht, hxs⟩ := h
  obtain ⟨hwf, hlen, ys, hu, hys⟩ := k
  refine ⟨hwf, hlen, xs ++ ys, ?_, ?_⟩
  · rw [← State.sinkPut_sinkPut, hu, ht]
    rfl
  · rw [byteBits_append, List.append_assoc, hys, ← List.append_assoc, hxs, List.append_assoc]

/-- The slots play no part: one may be replaced before or after. -/
theorem Emitted.setSlot (h : Emitted s bs p t) (c : Slot) (x : CodeTable) :
    Emitted (s.setSlot c x) bs p (t.setSlot c x) := by
  obtain ⟨hwf, hlen, ys, ht, hys⟩ := h
  cases c <;> exact ⟨hwf, hlen, ys, by rw [ht]; rfl, hys⟩

theorem Emitted.getSlot (h : Emitted s bs p t) (c : Slot) : t.getSlot c = s.getSlot c := by
  obtain ⟨-, -, ys, ht, -⟩ := h
  rw [ht]
  cases c <;> rfl

theorem Emitted.cfg (h : Emitted s bs p t) : t.cfg = s.cfg := by
  obtain ⟨-, -, ys, ht, -⟩ := h
  rw [ht]
  rfl

/-- What stays in b0 is what does not fill a byte. -/
theorem Emitted.len_b0 (h : Emitted s bs p t) : t.b0.len = (s.b0.len + bs.length) % 8 := by
  obtain ⟨-, hlen, ys, -, hys⟩ := h
  have hcount : 8 * ys.length + t.b0.len = s.b0.len + bs.length := by simpa using congrArg List.length hys
  omega

end

/-! ### One field (45_huffman_encoder R185) -/

section
variable {s : State} {v : Word64} {l : Nat}

/-- A field fits when the bits left by the first flush and its own are at most 64. -/
theorem exists_emit_emitted (hb : s.b0.wf) (hfits : s.b0.len % 8 + l ≤ 64) :
    ∃ t, emit v l s = .done t ∧ Emitted s (bitsMS v.toNat l) ⟨v, l⟩ t := by
  obtain ⟨bs, b, hdone, hwf, hlen, -, hbits⟩ :=
    State.appendAndFlush_fits (s := { s with b1 := ⟨v, l⟩ }) (i := .b0) (o := ⟨v, l⟩) hb hfits
  have hlt : b.len < 8 := hlen.trans_lt (Nat.mod_lt _ (by decide))
  exact ⟨_, hdone, hwf, Nat.le_of_lt_succ hlt, bs, rfl, hbits⟩

/-- A field that does not fit raises CAPACITY after the first flush. -/
theorem emit_overflows (hb : s.b0.wf) (hover : 64 < s.b0.len % 8 + l) :
    emit v l s = .late .capacity (State.flushBuf { s with b1 := ⟨v, l⟩ } .b0 false) :=
  State.appendAndFlush_overflows (s := { s with b1 := ⟨v, l⟩ }) (i := .b0) (o := ⟨v, l⟩) hb hover

end

theorem encodeSym_of_absent {c : Slot} {x : Nat} {s : State} (h : (s.getSlot c).lenOf x = 0) :
    encodeSym c x s = .early .range := if_pos h

theorem encodeSym_of_coded {c : Slot} {x : Nat} {s : State} (h : 0 < (s.getSlot c).lenOf x) :
    encodeSym c x s = emit ((s.getSlot c).codeOf x) ((s.getSlot c).lenOf x) s := if_neg (Nat.pos_iff_ne_zero.1 h)

/-! ### CHE.SYM -/

theorem bodyOf_cheSym_range {c : Slot} {a : Word} {s : State} (h : 257 < a.toNat ∨ (s.getSlot c).lenOf a.toNat = 0) :
    bodyOf (.cheSym c a) s = .early .range := by
  by_cases ha : 257 < a.toNat
  · exact if_pos ha
  · exact (if_neg ha).trans (encodeSym_of_absent (h.resolve_left ha))

theorem bodyOf_cheSym_coded {c : Slot} {a : Word} {s : State} (ha : a.toNat ≤ 257)
    (h : 0 < (s.getSlot c).lenOf a.toNat) :
    bodyOf (.cheSym c a) s = emit ((s.getSlot c).codeOf a.toNat) ((s.getSlot c).lenOf a.toNat) s :=
  (if_neg (Nat.not_lt.2 ha)).trans (encodeSym_of_coded h)

/-- Settles O50: a coded symbol is emitted as one field, which fits or raises CAPACITY. -/
theorem cheSymOutcome : Obligations.CheSymOutcome := by
  unfold Obligations.CheSymOutcome
  intro c a s hinv hs
  have hb : s.b0.wf := hinv.bufs .b0
  refine ⟨fun h => exec_faultedBy hs (bodyOf_cheSym_range h), fun ha hcoded => ⟨fun hfits => ?_, fun hover => ?_⟩⟩
  · obtain ⟨t, hdone, ht⟩ := exists_emit_emitted (v := (s.getSlot c).codeOf a.toNat) hb hfits
    have hexec := exec_of_done hs ((bodyOf_cheSym_coded ha hcoded).trans hdone)
    have hlen := ht.len_b0
    rw [length_bitsMS] at hlen
    obtain ⟨hwf, -, bs, heq, hbits⟩ := ht
    exact ⟨t.b0, bs, hexec.trans (congrArg Host.Outcome.next heq), hwf, hlen, hbits⟩
  · have hlate := (bodyOf_cheSym_coded ha hcoded).trans (emit_overflows hb hover)
    obtain ⟨-, -, hbytes, -⟩ := BitBuf.flush_spec false hb
    refine ⟨_, (s.b0.flush false).1, (exec_eq_runCommand _ s).trans (hlate ▸ runCommand_late hs ..),
      lateFault_faulted _ _ _, lateFault_err (by simpa using hs) _, lateFault_sink .., by simpa using hbytes,
      BitBuf.byteBits_flush_eq_take hb⟩

/-! ### A sequence of symbols -/

section
variable {c : Slot} {x : CodeTable} {s : State} (hb : s.b0.wf) (hx : s.getSlot c = x) (hmax : ∀ l ∈ x.len, l ≤ 57)
include hb hx hmax

/-- A code of 1 to 57 bits is emitted whatever b0 holds: 7 bits and 57 fit into 64. -/
theorem exists_encodeSym_emitted {y : Nat} (hy : 0 < x.lenOf y) :
    ∃ t, encodeSym c y s = .done t ∧ Emitted s (x.codeBits y) ⟨x.codeOf y, x.lenOf y⟩ t := by
  have hlen : x.lenOf y ≤ 57 := CodeTable.lenOf_cases (p := (· ≤ 57)) (Nat.zero_le _) hmax y
  subst hx
  rw [encodeSym_of_coded hy]
  exact exists_emit_emitted hb (by omega)

theorem exists_encodeSyms_emitted {ys : List Nat} {z : Nat} (hcoded : ∀ y ∈ ys ++ [z], 0 < x.lenOf y) :
    ∃ t, encodeSyms c (ys ++ [z]) s = .done t ∧
      Emitted s ((ys ++ [z]).flatMap x.codeBits) ⟨x.codeOf z, x.lenOf z⟩ t := by
  induction ys generalizing s with
  | nil =>
    obtain ⟨t, hdone, ht⟩ := exists_encodeSym_emitted hb hx hmax (hcoded z (List.mem_singleton_self z))
    exact ⟨t, CmdEnd.andThen_eq_done.2 ⟨t, hdone, rfl⟩, by simpa using ht⟩
  | cons y ys ih =>
    obtain ⟨hy, hys⟩ := List.forall_mem_cons.1 hcoded
    obtain ⟨t, hdone, ht⟩ := exists_encodeSym_emitted hb hx hmax hy
    obtain ⟨u, hrest, hu⟩ := ih ht.wf ((ht.getSlot c).trans hx) hys
    exact ⟨u, CmdEnd.andThen_eq_done.2 ⟨t, hdone, hrest⟩, ht.trans hu⟩

end

/-! ### The end of a block (45_huffman_encoder R188, step 7) -/

theorem padBits_mod (n : Nat) : padBits (n % 8) = padBits n := by rw [padBits, Nat.mod_mod, padBits]

/-- The padding fills the bits left in b0 up to a byte. -/
theorem Emitted.flushBuf {s t : State} {bs : List Bool} {p : BitBuf} (h : Emitted s bs p t) :
    Emitted s (bs ++ padBits (s.b0.len + bs.length)) p (t.flushBuf .b0 true) ∧ (t.flushBuf .b0 true).b0.len = 0 := by
  have hlen := h.len_b0
  obtain ⟨hwf, -, ys, ht, hys⟩ := h
  obtain ⟨hwf', hlen', -, hbits⟩ := BitBuf.flush_spec true hwf
  refine ⟨⟨hwf', hlen'.trans_le (Nat.zero_le 7), ys ++ (t.b0.flush true).1, ?_, ?_⟩, hlen'⟩
  · rw [← State.sinkPut_sinkPut, State.flushBuf_eq, ht]
    rfl
  · rw [byteBits_append, List.append_assoc]
    refine (congrArg (byteBits ys ++ ·) hbits).trans ?_
    rw [if_pos rfl, ← List.append_assoc, hys, hlen, padBits_mod, List.append_assoc]

/-! ### The tables of a block (45_huffman_encoder R188, steps 1 to 3) -/

/-- The table size is 1 + the largest length. -/
theorem tableSize_eq {t : CodeTable} {ts : Nat} (hmem : ∃ l ∈ t.len, ts = 1 + l) (hmax : ∀ l ∈ t.len, 1 + l ≤ ts) :
    tableSize t = ts := by
  obtain ⟨l, hl, rfl⟩ := hmem
  have hle : t.len.foldl max 0 ≤ l := foldl_max_le (Nat.zero_le l) fun k hk => Nat.le_of_add_le_add_left (hmax k hk)
  have hge : l ≤ t.len.foldl max 0 := by
    rw [List.foldl_eq_foldr]
    exact List.le_max_of_le' 0 hl le_rfl
  rw [tableSize, Nat.le_antisymm hle hge]

theorem terminator_lt (f : Bool) : terminator f < 258 := by cases f <;> decide

theorem blockFreqs_eq {d freqs : List Nat} {f : Bool} (hlen : freqs.length = 258)
    (h : ∀ x, x < 258 → freqs.getD x 0 = (d ++ [terminator f]).count x) : blockFreqs d f = freqs := by
  refine List.ext_getElem (by simp [blockFreqs, hlen]) fun x hx hx' => ?_
  rw [← List.getD_eq_getElem _ 0 hx', h x (hlen ▸ hx')]
  simp [blockFreqs]

/-- The table that is built from HuffBuild's lengths is the canonical one. -/
theorem buildTable_eq_ok {w : List Nat} {x : CodeTable} (hw : w.length ≤ 258) (h : huffBuild w = some x.len)
    (hx : x.Canonical) : buildTable w = .ok x := by
  obtain ⟨y, hok, hlen, hy, -⟩ := exists_buildTable hw h hx.shape.2.2
  rw [hok, hy.eq_of_len_eq hx hlen]

/-- HuffBuild codes exactly the symbols of positive weight (44_huffman_tree R166). -/
theorem lenOf_pos_iff {w : List Nat} {x : CodeTable} (hw : w.length ≤ 258) (h : huffBuild w = some x.len) (y : Nat) :
    0 < x.lenOf y ↔ 0 < w.getD y 0 := by
  obtain ⟨-, hsome⟩ := huffmanLengths w hw
  obtain ⟨-, hcoded, -⟩ := hsome _ h
  exact hcoded y

/-! ### CHE.BLOCK -/

/-- What the encoder needs of the tables of a block d: the header table is the one for the data table's size, every length
of the data table has a header code, every symbol of the block and the terminator a data code, and the codes are short
enough for b0. -/
structure BlockTables (cfg : Config) (d : List Nat) (f : Bool) (data header : CodeTable) : Prop where
  header_eq : headerTable cfg (tableSize data) = .ok header
  lengths_ne : data.len ≠ []
  lengths_coded : ∀ l ∈ data.len, 0 < header.lenOf l
  symbols_coded : ∀ x ∈ d ++ [terminator f], 0 < data.lenOf x
  data_short : ∀ l ∈ data.len, l ≤ 57
  header_short : ∀ l ∈ header.len, l ≤ 57

/-- The table size is the field of 9 bits that is staged for it. -/
theorem BlockTables.bitsMS_tableSize {cfg : Config} {d : List Nat} {f : Bool} {data header : CodeTable}
    (h : BlockTables cfg d f data header) :
    bitsMS (BitVec.ofNat 64 (tableSize data)).toNat 9 = bitsMS (tableSize data) 9 := by
  have hsize : tableSize data ≤ 1 + 57 := Nat.add_le_add_left (foldl_max_le (Nat.zero_le 57) h.data_short) 1
  rw [toNat_ofNat_64 (n := 9) (by omega) (by decide)]

/-- Step 7 of the block: a final one gets the padding, after any other b0 stays as it is. -/
theorem exists_finish_emitted {s t : State} {bs : List Bool} {p : BitBuf} (h : Emitted s bs p t) (f : Bool) :
    ∃ u, (if f then t.flushBuf .b0 true else t) = u ∧
      Emitted s (bs ++ if f then padBits (s.b0.len + bs.length) else []) p u ∧ (f = true → u.b0.len = 0) := by
  cases f with
  | false => exact ⟨t, rfl, by simpa using h, fun hf => absurd hf (by decide)⟩
  | true => exact ⟨_, rfl, h.flushBuf.1, fun _ => h.flushBuf.2⟩

/-- With CT0 the data table, the rest of CHE.BLOCK puts the header table into CT1 and emits the block. -/
theorem exists_encodeBody_emitted {s : State} {d : List Nat} {f : Bool} {data header : CodeTable} (hb : s.b0.wf)
    (hslot : s.ct0 = data) (h : BlockTables s.cfg d f data header) :
    ∃ t, encodeBody d f s = .done t ∧ (f = true → t.b0.len = 0) ∧
      Emitted (s.setSlot .ct1 header)
        (blockBits data header (tableSize data) d (terminator f) ++
          if f then padBits (s.b0.len + (blockBits data header (tableSize data) d (terminator f)).length) else [])
        ⟨data.codeOf (terminator f), data.lenOf (terminator f)⟩ t := by
  subst hslot
  obtain ⟨t, hsize, ht⟩ := exists_emit_emitted (v := BitVec.ofNat 64 (tableSize s.ct0)) (l := 9) hb (by omega)
  rw [h.bitsMS_tableSize] at ht
  have ht0 : t.ct0 = s.ct0 := ht.getSlot .ct0
  have ht1 := ht.setSlot .ct1 header
  have hlens := exists_encodeSyms_emitted (c := .ct1) ht1.wf (State.getSlot_setSlot_self ..) h.header_short
    (ys := s.ct0.len.dropLast) (z := s.ct0.len.getLast h.lengths_ne)
  rw [List.dropLast_append_getLast] at hlens
  obtain ⟨u, hlens, hu⟩ := hlens h.lengths_coded
  obtain ⟨v, hsyms, hv⟩ := exists_encodeSyms_emitted (c := .ct0) hu.wf ((hu.getSlot .ct0).trans ht0) h.data_short
    h.symbols_coded
  obtain ⟨w, rfl, hw, hempty⟩ := exists_finish_emitted ((ht1.trans hu).trans hv) f
  refine ⟨_, CmdEnd.andThen_eq_done.2 ⟨t, hsize, ?_⟩, hempty, hw⟩
  have hheader : headerTable t.cfg (tableSize t.ct0) = .ok header := by
    rw [ht.cfg, ht0, h.header_eq]
  rw [← ht0] at hlens
  rw [hheader]
  exact CmdEnd.andThen_eq_done.2 ⟨u, hlens, CmdEnd.andThen_eq_done.2 ⟨v, hsyms, rfl⟩⟩

theorem bodyOf_cheBlock {f : Bool} {a b : Word} {s : State} {x : CodeTable} (ha : a.toNat + b.toNat ≤ s.cfg.memWords)
    (hbytes : ∀ y ∈ s.data a.toNat b.toNat, y ≤ 255)
    (hx : buildTable (blockFreqs (s.data a.toNat b.toNat) f) = .ok x) :
    bodyOf (.cheBlock f a b) s = (CmdEnd.done (s.setSlot .ct0 x)).andThen (encodeBody (s.data a.toNat b.toNat) f) := by
  refine (checkRegion_passes ha).trans ((checkBytes_passes hbytes).trans ?_)
  rw [State.data] at hx
  rw [hx]
  rfl

/-- Settles O51: the tables are the ones the rule names, every field fits into b0, and the fields put the block on the
wire. -/
theorem cheBlockWritesWireFormat : Obligations.CheBlockWritesWireFormat := by
  unfold Obligations.CheBlockWritesWireFormat
  intro f a b s term ts freqs data header hinv hs ha _ hbytes hterm hfreqs hcount hdata hcanon hshort hmem hmax hheader
    hhcanon hhshort
  obtain rfl : term = terminator f := hterm
  obtain rfl : tableSize data = ts := tableSize_eq hmem hmax
  rw [← hdrWeights_eq] at hheader
  have hfew : (hdrWeights s.cfg (tableSize data)).length ≤ 258 := by
    rw [length_hdrWeights]
    exact (tableSize_le hcanon.shape).trans (by decide)
  have hlow : ∀ x ∈ s.data a.toNat b.toNat ++ [terminator f], x < 258 :=
    List.forall_mem_append.2 ⟨fun x hx => (hbytes x hx).trans_lt (by decide), by simpa using terminator_lt f⟩
  have htables : BlockTables s.cfg (s.data a.toNat b.toNat) f data header := {
    header_eq := buildTable_eq_ok hfew hheader hhcanon
    lengths_ne := by
      obtain ⟨l, hl, -⟩ := hmem
      exact List.ne_nil_of_mem hl
    lengths_coded := fun l hl => (lenOf_pos_iff hfew hheader l).2
      ((hdrWeights_pos hinv.cfgOk).2 (by have := hmax l hl; omega))
    symbols_coded := fun x hx => (lenOf_pos_iff hfreqs.le hdata x).2
      (by rw [hcount x (hlow x hx)]; exact List.count_pos_iff.2 hx)
    data_short := hshort
    header_short := hhshort }
  have hok : buildTable (blockFreqs (s.data a.toNat b.toNat) f) = .ok data := by
    rw [blockFreqs_eq hfreqs hcount]
    exact buildTable_eq_ok hfreqs.le hdata hcanon
  obtain ⟨t, hdone, hempty, hwf, hlen, bs, ht, hbits⟩ :=
    exists_encodeBody_emitted (s := s.setSlot .ct0 data) (hinv.bufs .b0) rfl htables
  have hbody := (bodyOf_cheBlock ha hbytes hok).trans (CmdEnd.andThen_eq_done.2 ⟨_, rfl, hdone⟩)
  exact ⟨bs, t.b0, (exec_of_done hs hbody).trans (congrArg Host.Outcome.next ht), hwf, hlen, hempty,
    hbits.trans (List.append_assoc ..).symm⟩

end Sys2Proof.Machine
end

