-- ==== Sys2Proof/Proofs/DecoderRuns.lean ====
section
/-! SUPPORT. The decoder as a reader of bits (46_huffman_decoder R205, R206). A state is given with the bits that lead to its
walk position and the bits in b2 (`State.reading`); a turn of Run either stops or takes some of the bits, whatever bits come
after them (`TurnOn`), so Run on more bits is Run on the first of them and then on the rest (`final_decoderRun_append`). -/

namespace Sys2Proof.Machine

/-! ### Buffers of given bits -/

/-- The number whose bits these are, the most significant first. -/
def bitsVal (bs : List Bool) : Nat := bs.foldl (fun v b => 2 * v + b.toNat) 0

theorem bitsVal_concat (bs : List Bool) (b : Bool) : bitsVal (bs ++ [b]) = 2 * bitsVal bs + b.toNat := by simp [bitsVal]

theorem bitsMS_concat (v : Nat) (b : Bool) (n : Nat) : bitsMS (2 * v + b.toNat) (n + 1) = bitsMS v n ++ [b] := by
  have h := bitsMS_append v b.toNat n 1 b.toNat_lt
  rw [pow_one, Nat.mul_comm] at h
  rw [h]
  cases b <;> rfl

theorem bitsMS_bitsVal (bs : List Bool) : bitsMS (bitsVal bs) bs.length = bs := by
  induction bs using List.reverseRecOn with
  | nil => rfl
  | append_singleton bs b ih => rw [bitsVal_concat, List.length_append, List.length_singleton, bitsMS_concat, ih]

theorem bitsVal_lt (bs : List Bool) : bitsVal bs < 2 ^ bs.length := by
  induction bs using List.reverseRecOn with
  | nil => exact Nat.one_pos
  | append_singleton bs b ih =>
    have := b.toNat_lt
    rw [bitsVal_concat, List.length_append, List.length_singleton, pow_succ]
    omega

theorem bitsVal_bitsMS {v n : Nat} (h : v < 2 ^ n) : bitsVal (bitsMS v n) = v := by
  refine bitsMS_injective (n := n) ?_ h ?_
  · simpa using bitsVal_lt (bitsMS v n)
  · simpa using bitsMS_bitsVal (bitsMS v n)

/-- The buffer of these bits. -/
def BitBuf.ofBits (bs : List Bool) : BitBuf := ⟨BitVec.ofNat 64 (bitsVal bs), bs.length⟩

@[simp] theorem BitBuf.len_ofBits (bs : List Bool) : (BitBuf.ofBits bs).len = bs.length := rfl

theorem BitBuf.bits_ofBits {bs : List Bool} (h : bs.length ≤ 64) : (BitBuf.ofBits bs).bits = bs := by
  rw [BitBuf.bits, BitBuf.ofBits, toNat_ofNat_64 (bitsVal_lt bs) h, bitsMS_bitsVal]

theorem BitBuf.wf_ofBits {bs : List Bool} (h : bs.length ≤ 64) : (BitBuf.ofBits bs).wf :=
  ⟨h, by rw [BitBuf.ofBits, toNat_ofNat_64 (bitsVal_lt bs) h]; exact bitsVal_lt bs⟩

theorem BitBuf.eq_ofBits {b : BitBuf} {bs : List Bool} (hb : b.wf) (h : b.bits = bs) : b = BitBuf.ofBits bs := by
  have hlen : bs.length ≤ 64 := by
    rw [← h, BitBuf.length_bits]
    exact hb.1
  exact BitBuf.eq_of_bits hb (BitBuf.wf_ofBits hlen) (h.trans (BitBuf.bits_ofBits hlen).symm)

theorem BitBuf.pullMS_ofBits {p q : List Bool} (h : (p ++ q).length ≤ 64) :
    (BitBuf.ofBits (p ++ q)).pullMS p.length = some (bitsVal p, BitBuf.ofBits q) := by
  obtain ⟨b, hpull, hb, -, -, hlt, hbits⟩ := BitBuf.pullMS_eq (BitBuf.wf_ofBits h) (n := p.length) (by simp)
  rw [BitBuf.bits_ofBits h] at hbits
  obtain ⟨hp, hq⟩ := List.append_inj hbits (length_bitsMS ..).symm
  rw [hpull, BitBuf.eq_ofBits hb hq.symm, (congrArg bitsVal hp).trans (bitsVal_bitsMS hlt)]

theorem BitBuf.pushLS_ofBits {r : BitBuf} (hr : r.wf) {v n : Nat} (h : r.len + n ≤ 64) :
    r.pushLS v n = some (BitBuf.ofBits (r.bits ++ bitsMS v n)) := by
  obtain ⟨b, hpush, hb, -, -, hbits⟩ := BitBuf.pushLS_eq hr v n h
  rw [hpush, BitBuf.eq_ofBits hb hbits]

/-! ### A state that reads bits -/

/-- s with the walk position that the bits `pos` lead to and the bits `bs` in b2. -/
def State.reading (s : State) (pos bs : List Bool) : State :=
  { s with b2 := .ofBits bs, wlen := pos.length, wval := BitVec.ofNat 64 (bitsVal pos) }

/-- b2 holds a buffer and the walk a position, as the invariant has it (10_state R21, R35). -/
def State.Reads (s : State) : Prop := s.b2.wf ∧ s.wlen ≤ 64 ∧ s.wval.toNat < 2 ^ s.wlen

/-- The bits that lead to the walk position of s. -/
def State.walked (s : State) : List Bool := bitsMS s.wval.toNat s.wlen

/-- s with more bits behind those of b2. -/
def State.load (s : State) (bs : List Bool) : State := { s with b2 := .ofBits (s.b2.bits ++ bs) }

section
variable {s : State} {pos bs : List Bool}

theorem State.Inv.reads (h : s.Inv) : s.Reads := ⟨h.bufs .b2, h.walk.1.le, h.walk.2⟩

theorem State.Reads.length_bits_le (h : s.Reads) : s.b2.bits.length ≤ 64 := by simpa using h.1.1

/-- Such a state reads the bits of b2. -/
theorem State.Reads.eq_reading (h : s.Reads) : s.reading s.walked s.b2.bits = s := by
  obtain ⟨hb, -, hwval⟩ := h
  have hb2 := BitBuf.eq_ofBits hb rfl
  unfold State.reading State.walked
  rw [length_bitsMS, bitsVal_bitsMS hwval, ← hb2, BitVec.ofNat_toNat, BitVec.setWidth_eq]

theorem State.load_reading (h : bs.length ≤ 64) (cs : List Bool) :
    (s.reading pos bs).load cs = s.reading pos (bs ++ cs) := by
  have hbits := BitBuf.bits_ofBits h
  unfold State.load State.reading
  rw [hbits]

theorem State.load_nil (h : s.b2.wf) : s.load [] = s := by
  unfold State.load
  rw [List.append_nil, ← BitBuf.eq_ofBits h rfl]

theorem State.Launch.load (h : s.Launch) (hlen : s.b2.len + bs.length ≤ 64) : (s.load bs).Launch :=
  h.setBuf .b2 (BitBuf.wf_ofBits (by simpa using hlen))

@[simp] theorem State.reading_decState : (s.reading pos bs).decState = s.decState := rfl
@[simp] theorem State.reading_cfg : (s.reading pos bs).cfg = s.cfg := rfl
@[simp] theorem State.reading_hcnt : (s.reading pos bs).hcnt = s.hcnt := rfl
@[simp] theorem State.reading_hlen : (s.reading pos bs).hlen = s.hlen := rfl
@[simp] theorem State.reading_wlen : (s.reading pos bs).wlen = pos.length := rfl
@[simp] theorem State.reading_wval : (s.reading pos bs).wval = BitVec.ofNat 64 (bitsVal pos) := rfl
@[simp] theorem State.len_b2_reading : (s.reading pos bs).b2.len = bs.length := rfl
@[simp] theorem State.len_b2_load : (s.load bs).b2.len = s.b2.len + bs.length := by simp [State.load]
@[simp] theorem State.load_faulted : (s.load bs).faulted = s.faulted := rfl
@[simp] theorem State.getSlot_reading (u : Slot) : (s.reading pos bs).getSlot u = s.getSlot u := by cases u <;> rfl

theorem stepWalk_reading {b : Bool} (h : (b :: bs).length ≤ 64) :
    stepWalk (s.reading pos (b :: bs)) = some (s.reading (pos ++ [b]) bs) := by
  have hpull := BitBuf.pullMS_ofBits (p := [b]) (q := bs) h
  have hb2 : (s.reading pos (b :: bs)).b2.pullMS 1 = some (b.toNat, BitBuf.ofBits bs) := by
    rw [show b.toNat = bitsVal [b] by simp [bitsVal]]
    exact hpull
  have hval : BitVec.ofNat 64 (2 * (BitVec.ofNat 64 (bitsVal pos)).toNat + b.toNat) =
      BitVec.ofNat 64 (bitsVal (pos ++ [b])) := by
    rw [bitsVal_concat]
    apply BitVec.eq_of_toNat_eq
    simp only [BitVec.toNat_ofNat]
    omega
  unfold stepWalk
  rw [hb2]
  simp only [State.reading, hval, List.length_append, List.length_singleton]

end

/-! ### A walk -/

/-- What a walk over bits ends in: a symbol, the position kept at the end of the bits, or a dead end. -/
inductive WalkEnd where
  | symbol (r : Nat) (rest : List Bool)
  | kept (pos : List Bool)
  | dead (pos rest : List Bool)

/-- The symbol whose leaf these bits lead to. -/
def CodeTable.leafOf (x : CodeTable) (pos : List Bool) : Option Nat :=
  x.leafAt pos.length (BitVec.ofNat 64 (bitsVal pos)).toNat

/-- These bits lead to a node of the tree. -/
def CodeTable.leadsToNode (x : CodeTable) (pos : List Bool) : Bool :=
  x.isNode pos.length (BitVec.ofNat 64 (bitsVal pos)).toNat

/-- DecodeSym as a function of the bits walked and the bits to come (46_huffman_decoder R206). -/
def CodeTable.walk (x : CodeTable) : List Bool → List Bool → WalkEnd
  | pos, [] => .kept pos
  | pos, b :: bs =>
    match x.leafOf (pos ++ [b]) with
    | some r => .symbol r bs
    | none => if x.leadsToNode (pos ++ [b]) then x.walk (pos ++ [b]) bs else .dead (pos ++ [b]) bs

/-- The walk of the model that ends so. -/
def WalkEnd.ofState (s : State) : WalkEnd → Walk
  | .symbol r rest => .symbol r (s.reading [] rest)
  | .kept pos => .none (s.reading pos [])
  | .dead pos rest => .deadEnd (s.reading pos rest)

theorem decodeSym_reading (u : Slot) (s : State) (pos : List Bool) {bs : List Bool} (h : bs.length ≤ 64) :
    decodeSym u bs.length (s.reading pos bs) = ((s.getSlot u).walk pos bs).ofState s := by
  induction bs generalizing pos with
  | nil => rfl
  | cons b bs ih =>
    have hslot := State.getSlot_reading (s := s) (pos := pos ++ [b]) (bs := bs) u
    have ih := ih (pos ++ [b]) (Nat.le_of_succ_le h)
    rw [List.length_cons, decodeSym, stepWalk_reading h, CodeTable.walk, CodeTable.leafOf, CodeTable.leadsToNode]
    dsimp only
    rw [hslot, ih, State.reading_wlen, State.reading_wval]
    cases (s.getSlot u).leafAt (pos ++ [b]).length (BitVec.ofNat 64 (bitsVal (pos ++ [b]))).toNat with
    | some r => rfl
    | none => dsimp only; split <;> rfl

/-- A walk's end when more bits come behind those it has seen. -/
def WalkEnd.goOn (x : CodeTable) (ys : List Bool) : WalkEnd → WalkEnd
  | .symbol r rest => .symbol r (rest ++ ys)
  | .kept pos => x.walk pos ys
  | .dead pos rest => .dead pos (rest ++ ys)

theorem CodeTable.walk_append (x : CodeTable) (pos xs ys : List Bool) :
    x.walk pos (xs ++ ys) = (x.walk pos xs).goOn x ys := by
  induction xs generalizing pos with
  | nil => rfl
  | cons b xs ih =>
    rw [List.cons_append, CodeTable.walk, CodeTable.walk]
    split
    · rfl
    · split
      · exact ih _
      · rfl

/-- A walk that does not end with the bits leaves fewer of them. -/
theorem CodeTable.walk_rest (x : CodeTable) (pos xs : List Bool) :
    (∃ pos', x.walk pos xs = .kept pos') ∨ ∃ rest, rest.length < xs.length ∧
      ((∃ r, x.walk pos xs = .symbol r rest) ∨ ∃ pos', x.walk pos xs = .dead pos' rest) := by
  induction xs generalizing pos with
  | nil => exact .inl ⟨pos, rfl⟩
  | cons b xs ih =>
    rw [CodeTable.walk]
    split
    · exact .inr ⟨xs, Nat.lt_succ_self _, .inl ⟨_, rfl⟩⟩
    · split
      · exact (ih _).imp_right fun ⟨rest, hrest, h⟩ => ⟨rest, Nat.lt_succ_of_lt hrest, h⟩
      · exact .inr ⟨xs, Nat.lt_succ_self _, .inr ⟨_, rfl⟩⟩

/-! ### A turn of Run -/

/-- The end with g done to the state it names. -/
def CmdEnd.map (g : State → State) : CmdEnd → CmdEnd
  | .done s => .done (g s)
  | .late c s => .late c (g s)
  | .early c => .early c
  | .absent => .absent

/-- The pseudocode goes on with f where it has not raised a fault. -/
def CmdEnd.goOn (e : CmdEnd) (f : State → CmdEnd) : CmdEnd :=
  match e with
  | .done s => f s
  | e => e

/-- The state in which the pseudocode ran to its end. -/
def CmdEnd.final : CmdEnd → Option State
  | .done s => some s
  | _ => none

section
variable {s : State} {pos bs : List Bool}

theorem startHeader_reading (v : Nat) :
    startHeader v (s.reading pos bs) = (startHeader v s).map (·.reading pos bs) := by
  unfold startHeader
  split
  · rfl
  · rw [State.reading_cfg]
    cases headerTable s.cfg v <;> rfl

theorem takeLength_reading (r : Nat) :
    takeLength r (s.reading pos bs) = (takeLength r s).map (·.reading pos bs) := by
  unfold takeLength
  dsimp only
  rw [State.reading_hcnt, State.reading_hlen]
  split
  · cases makeTable (s.hlen.set s.hcnt r) <;> rfl
  · rfl

theorem afterSymbol_reading (r : Nat) : afterSymbol r (s.reading pos bs) = (afterSymbol r s).reading pos bs := by
  unfold afterSymbol
  split
  · rfl
  · split <;> rfl

theorem takeSymbol_eq (r : Nat) (s : State) : takeSymbol r s =
    if s.outCap.toNat ≤ s.outCnt.toNat then .late .outfull s
    else if s.cfg.memWords ≤ s.outBase.toNat + s.outCnt.toNat then .absent
    else .done (afterSymbol r
      ({ s with outCnt := s.outCnt + 1 }.writeRegion (s.outBase.toNat + s.outCnt.toNat) [BitVec.ofNat 32 r])) := by
  unfold takeSymbol outputSym
  dsimp only
  split
  · rfl
  · split <;> rfl

theorem takeSymbol_reading (r : Nat) :
    takeSymbol r (s.reading pos bs) = (takeSymbol r s).map (·.reading pos bs) := by
  rw [takeSymbol_eq, takeSymbol_eq]
  change (if s.outCap.toNat ≤ s.outCnt.toNat then _ else
    if s.cfg.memWords ≤ s.outBase.toNat + s.outCnt.toNat then _ else _) = _
  split
  · rfl
  · split
    · rfl
    · exact congrArg CmdEnd.done (afterSymbol_reading (s := State.writeRegion { s with outCnt := s.outCnt + 1 } _ _) r)

/-- In s Run walks the tree of slot u and handles a symbol by f (46_huffman_decoder R205). -/
inductive State.Walks (s : State) : Slot → (Nat → State → CmdEnd) → Prop where
  | header : s.decState = .decodingHeader → s.Walks .ct2 takeLength
  | block : s.decState = .decodingBlock → s.Walks .ct3 takeSymbol

variable {u : Slot} {f : Nat → State → CmdEnd}

theorem State.Walks.take_reading (h : s.Walks u f) (r : Nat) (t : State) :
    f r (t.reading pos bs) = (f r t).map (·.reading pos bs) := by
  cases h with
  | header => exact takeLength_reading r
  | block => exact takeSymbol_reading r

theorem State.Walks.runTurn_reading (h : s.Walks u f) (hbs : bs.length ≤ 64) :
    runTurn (s.reading pos bs) = turnOfWalk (((s.getSlot u).walk pos bs).ofState s) f := by
  rw [← decodeSym_reading u s pos hbs]
  unfold runTurn
  cases h with
  | header hdec => rw [State.reading_decState, hdec]; rfl
  | block hdec => rw [State.reading_decState, hdec]; rfl

theorem State.exists_walks
    (h : s.decState = .decodingHeader ∧ u = .ct2 ∨ s.decState = .decodingBlock ∧ u = .ct3) : ∃ f, s.Walks u f := by
  rcases h with ⟨hdec, rfl⟩ | ⟨hdec, rfl⟩
  · exact ⟨_, .header hdec⟩
  · exact ⟨_, .block hdec⟩

theorem State.Walks.not_other (h : s.Walks u f) : s.decState ≠ .readingHeaderInfo ∧ s.decState ≠ .streamEnd := by
  cases h with
  | header hdec | block hdec => rw [hdec]; exact ⟨nofun, nofun⟩

theorem runTurn_streamEnd (h : s.decState = .streamEnd) : runTurn s = .stop s := by
  rw [runTurn, h]

theorem runTurn_readingHeaderInfo_short (h : s.decState = .readingHeaderInfo) (hlen : s.b2.len ≤ 8) :
    runTurn s = .stop s := by
  rw [runTurn, h]
  dsimp only
  rw [BitBuf.pullMS_none (Nat.lt_succ_of_le hlen)]

theorem runTurn_of_pullMS {v : Nat} {r : BitBuf} (h : s.decState = .readingHeaderInfo)
    (hpull : s.b2.pullMS hdrInfoBits = some (v, r)) : runTurn s = .go (startHeader v { s with b2 := r }) := by
  unfold runTurn
  split
  case h_2 => rw [hpull]
  case h_1 hd | h_3 hd | h_4 hd => rw [h] at hd; cases hd

theorem runTurn_readingHeaderInfo (h : s.decState = .readingHeaderInfo) {p : List Bool} (hp : p.length = 9)
    (hlen : (p ++ bs).length ≤ 64) :
    runTurn (s.reading pos (p ++ bs)) = .go ((startHeader (bitsVal p) s).map (·.reading pos bs)) := by
  have hpull : (s.reading pos (p ++ bs)).b2.pullMS hdrInfoBits = some (bitsVal p, BitBuf.ofBits bs) := by
    rw [show hdrInfoBits = p.length from hp.symm]
    exact BitBuf.pullMS_ofBits hlen
  exact (runTurn_of_pullMS (s := s.reading pos (p ++ bs)) h hpull).trans
    (congrArg Turn.go (startHeader_reading (s := s) (bs := bs) _))

end

/-- What Run leaves where it stops (46_huffman_decoder R209). -/
def StopsAt (d : DecState) (n : Nat) : Prop :=
  d = .streamEnd ∨ d = .readingHeaderInfo ∧ n ≤ 8 ∨ (d = .decodingHeader ∨ d = .decodingBlock) ∧ n = 0

/-- What a turn does on the bits xs. It stops and leaves some of them, and more bits go on from there; or it takes some of
them, whatever comes behind. -/
inductive TurnOn (s : State) (pos xs : List Bool) : Prop where
  | stops (pos' left : List Bool) :
      left.length ≤ xs.length → StopsAt s.decState left.length →
      runTurn (s.reading pos xs) = .stop (s.reading pos' left) →
      (∀ ys, (xs ++ ys).length ≤ 64 → runTurn (s.reading pos (xs ++ ys)) = runTurn (s.reading pos' (left ++ ys))) →
      TurnOn s pos xs
  | takes (e : CmdEnd) (pos' rest : List Bool) :
      rest.length < xs.length → (s.decState = .readingHeaderInfo → rest.length + 9 = xs.length) →
      s.decState ≠ .streamEnd →
      runTurn (s.reading pos xs) = .go (e.map (·.reading pos' rest)) →
      (∀ ys, (xs ++ ys).length ≤ 64 → runTurn (s.reading pos (xs ++ ys)) = .go (e.map (·.reading pos' (rest ++ ys)))) →
      TurnOn s pos xs

/-- What a turn does whatever comes behind, it does when nothing comes behind. -/
theorem TurnOn.of_takes {s : State} {pos xs pos' rest : List Bool} {e : CmdEnd} (hlen : xs.length ≤ 64)
    (hrest : rest.length < xs.length) (hheader : s.decState = .readingHeaderInfo → rest.length + 9 = xs.length)
    (hdec : s.decState ≠ .streamEnd) (hgo : ∀ ys, (xs ++ ys).length ≤ 64 →
      runTurn (s.reading pos (xs ++ ys)) = .go (e.map (·.reading pos' (rest ++ ys)))) : TurnOn s pos xs := by
  refine .takes e pos' rest hrest hheader hdec ?_ hgo
  have hnow := hgo [] (by simpa using hlen)
  rwa [List.append_nil, List.append_nil] at hnow

theorem State.Walks.turnOn {s : State} {u : Slot} {f : Nat → State → CmdEnd} (h : s.Walks u f) (pos : List Bool)
    {xs : List Bool} (hlen : xs.length ≤ 64) : TurnOn s pos xs := by
  have hturn (ys : List Bool) (hys : (xs ++ ys).length ≤ 64) := h.runTurn_reading (pos := pos) hys
  simp only [CodeTable.walk_append] at hturn
  obtain ⟨hheader, hend⟩ := h.not_other
  rcases (s.getSlot u).walk_rest pos xs with ⟨pos', hw⟩ | ⟨rest, hrest, ⟨r, hw⟩ | ⟨pos', hw⟩⟩
  · refine .stops pos' [] (Nat.zero_le _) (.inr (.inr ⟨?_, rfl⟩)) ?_ fun ys hys => ?_
    · cases h with
      | header hdec => exact .inl hdec
      | block hdec => exact .inr hdec
    · rw [h.runTurn_reading hlen, hw]
      rfl
    · rw [hturn ys hys, hw, List.nil_append, h.runTurn_reading (by rw [List.length_append] at hys; omega)]
      rfl
  · refine .of_takes (e := f r s) (pos' := []) hlen hrest (fun hd => absurd hd hheader) hend fun ys hys => ?_
    rw [hturn ys hys, hw]
    exact congrArg Turn.go (h.take_reading r s)
  · refine .of_takes (e := .late .tree s) (pos' := pos') hlen hrest (fun hd => absurd hd hheader) hend fun ys hys => ?_
    rw [hturn ys hys, hw]
    rfl

/-- Every turn is one of the two. -/
theorem turnOn (s : State) (pos : List Bool) {xs : List Bool} (hlen : xs.length ≤ 64) : TurnOn s pos xs := by
  cases hdec : s.decState with
  | streamEnd =>
    exact .stops pos xs le_rfl (.inl hdec) (runTurn_streamEnd hdec) fun _ _ => rfl
  | readingHeaderInfo =>
    by_cases hshort : xs.length ≤ 8
    · exact .stops pos xs le_rfl (.inr (.inl ⟨hdec, hshort⟩)) (runTurn_readingHeaderInfo_short hdec hshort)
        fun _ _ => rfl
    · refine .of_takes (e := startHeader (bitsVal (xs.take 9)) s) (pos' := pos) (rest := xs.drop 9) hlen
        (by simp; omega) (by simp; omega) (by rw [hdec]; nofun) fun ys hys => ?_
      have hsplit : xs ++ ys = xs.take 9 ++ (xs.drop 9 ++ ys) := by rw [← List.append_assoc, List.take_append_drop]
      rw [hsplit] at hys ⊢
      exact runTurn_readingHeaderInfo hdec (by simp; omega) hys
  | decodingHeader => exact State.Walks.turnOn (.header hdec) pos hlen
  | decodingBlock => exact State.Walks.turnOn (.block hdec) pos hlen

/-! ### Run -/

/-- What Run does after a turn, however many turns it may make. -/
def Turn.runWith (f : State → CmdEnd) : Turn → CmdEnd
  | .stop t => .done t
  | .go e => e.goOn f

theorem runFuel_succ (k : Nat) (s : State) : runFuel (k + 1) s = (runTurn s).runWith (runFuel k) := by
  rw [runFuel]
  split <;> rename_i h <;> rw [h]
  · rfl
  · rfl
  · rename_i e hne
    cases e with
    | done t => exact absurd rfl (hne t)
    | _ => rfl

/-- The bound on the turns does not matter while it exceeds the bits of b2. -/
theorem runFuel_reading_congr {xs : List Bool} (hlen : xs.length ≤ 64) (s : State) (pos : List Bool) {k m : Nat}
    (hk : xs.length < k) (hm : xs.length < m) : runFuel k (s.reading pos xs) = runFuel m (s.reading pos xs) := by
  induction k generalizing s pos xs m with
  | zero => exact absurd hk (Nat.not_lt_zero _)
  | succ k ih =>
    obtain ⟨m, rfl⟩ : ∃ n, m = n + 1 := ⟨m - 1, by omega⟩
    rw [runFuel_succ, runFuel_succ]
    cases turnOn s pos hlen with
    | stops pos' left _ _ hstop => rw [hstop]; rfl
    | takes e pos' rest hrest _ _ hnow _ =>
      rw [hnow]
      cases e with
      | done t => exact ih (by omega) t pos' (by omega) (by omega)
      | _ => rfl

/-- Run is a turn and then Run again. -/
theorem decoderRun_reading (s : State) (pos : List Bool) {xs : List Bool} (hlen : xs.length ≤ 64) :
    decoderRun (s.reading pos xs) = (runTurn (s.reading pos xs)).runWith decoderRun := by
  rw [decoderRun, State.len_b2_reading, runFuel_succ]
  cases turnOn s pos hlen with
  | stops pos' left _ _ hstop => rw [hstop]; rfl
  | takes e pos' rest hrest _ _ hnow _ =>
    rw [hnow]
    cases e with
    | done t => exact runFuel_reading_congr (by omega) t pos' hrest (Nat.lt_succ_self _)
    | _ => rfl

/-- Run on bits and more bits is Run on the first and then, where that has ended, on what it left and the others. -/
theorem final_decoderRun_append (s : State) (pos : List Bool) {xs ys : List Bool} (hlen : (xs ++ ys).length ≤ 64) :
    (decoderRun (s.reading pos (xs ++ ys))).final =
      (decoderRun (s.reading pos xs)).final.bind fun t => (decoderRun (t.load ys)).final := by
  induction hn : xs.length using Nat.strong_induction_on generalizing s pos xs with
  | _ n ih =>
    have hxs : xs.length ≤ 64 := by rw [List.length_append] at hlen; omega
    rw [decoderRun_reading s pos hlen, decoderRun_reading s pos hxs]
    cases turnOn s pos hxs with
    | stops pos' left hle _ hstop hmore =>
      have hleft : (left ++ ys).length ≤ 64 := by rw [List.length_append] at hlen ⊢; omega
      rw [hmore ys hlen, hstop, ← decoderRun_reading s pos' hleft, ← State.load_reading (by omega)]
      rfl
    | takes e pos' rest hrest _ _ hnow hgo =>
      rw [hgo ys hlen, hnow]
      cases e with
      | done t => exact ih rest.length (hn ▸ hrest) t pos' (by rw [List.length_append] at hlen ⊢; omega) rfl
      | _ => rfl

theorem final_decoderRun_load {s : State} (hs : s.Reads) {ys zs : List Bool}
    (hlen : s.b2.len + (ys ++ zs).length ≤ 64) : (decoderRun (s.load (ys ++ zs))).final =
      (decoderRun (s.load ys)).final.bind fun t => (decoderRun (t.load zs)).final := by
  rw [List.length_append] at hlen
  have hb2 := hs.length_bits_le
  rw [← hs.eq_reading, State.load_reading hb2, State.load_reading hb2, ← List.append_assoc]
  exact final_decoderRun_append s s.walked (by simp; omega)

/-- Where Run ends: it has stopped, leaves no more bits than it was given, and would stop there again. -/
theorem decoderRun_reading_done {s t : State} {pos xs : List Bool} (hlen : xs.length ≤ 64)
    (h : decoderRun (s.reading pos xs) = .done t) :
    t.b2.len ≤ xs.length ∧ StopsAt t.decState t.b2.len ∧ decoderRun t = .done t := by
  induction hn : xs.length using Nat.strong_induction_on generalizing s pos xs with
  | _ n ih =>
    rw [decoderRun_reading s pos hlen] at h
    cases turnOn s pos hlen with
    | stops pos' left hle hshape hstop hmore =>
      rw [hstop] at h
      cases h
      refine ⟨hn ▸ hle, hshape, ?_⟩
      have hmore := hmore [] (by simpa using hlen)
      rw [List.append_nil, List.append_nil] at hmore
      rw [decoderRun_reading s pos' (by omega), ← hmore, hstop]
      rfl
    | takes e pos' rest hrest _ _ hnow _ =>
      rw [hnow] at h
      cases e with
      | done u =>
        obtain ⟨hle, hstops⟩ := ih rest.length (hn ▸ hrest) (by omega) h rfl
        exact ⟨by omega, hstops⟩
      | _ => cases h

end Sys2Proof.Machine
end

