-- ==== Sys2Proof/Proofs/DecoderChunks.lean ====
section
/-! PROOF. CHD.SETOUT (46_huffman_decoder R202), CHD.PUSH (R203), and that chunking does not matter (R208). Run bit by bit is
a fold over the bits (`readBits`), and bits fed in any pieces that fit come to the same fold (`readBits_eq_run`), so bytes
and pieces of the same bits do. -/

namespace Sys2Proof.Machine

/-! ### The commands -/

/-- Settles O52: CHD.SETOUT is the check of its region. -/
theorem setoutNamesRegion : Obligations.SetoutNamesRegion := by
  unfold Obligations.SetoutNamesRegion
  intro b c s hs
  exact ⟨fun h => exec_faultedBy hs (checkRegion_bounds h), fun h => exec_of_done hs (checkRegion_passes h),
    encode_opField _⟩

theorem exec_chdRun_iff {s t : State} (hs : s.faulted = false) (ht : t.faulted = false) :
    exec .chdRun s = .next t ↔ decoderRun s = .done t :=
  ⟨fun h => bodyOf_eq_done h hs ht, fun h => exec_of_done hs h⟩

section
variable {a : Word} {s : State} (ha : a.toNat ≤ 255)
include ha

theorem chdPushBody_streamEnd (hdec : s.decState = .streamEnd) : chdPushBody a s = .done s := by
  rw [chdPushBody, if_neg (Nat.not_lt.2 ha), if_pos hdec]

theorem chdPushBody_capacity (hdec : s.decState ≠ .streamEnd) (hlen : 56 < s.b2.len) :
    chdPushBody a s = .early .capacity := by
  rw [chdPushBody, if_neg (Nat.not_lt.2 ha), if_neg hdec, BitBuf.pushLS_none (show 64 < s.b2.len + 8 by omega)]

theorem chdPushBody_load (hdec : s.decState ≠ .streamEnd) (hb : s.b2.wf) (hlen : s.b2.len ≤ 56) :
    chdPushBody a s = decoderRun (s.load (bitsMS a.toNat 8)) := by
  rw [chdPushBody, if_neg (Nat.not_lt.2 ha), if_neg hdec, BitBuf.pushLS_ofBits hb (show s.b2.len + 8 ≤ 64 by omega)]
  rfl

end

/-! Run's faults are late: it has taken bits before each of them (60_exceptions R231). -/

theorem startHeader_ne_early (v : Nat) (s : State) (c : FaultCode) : startHeader v s ≠ .early c := by
  unfold startHeader
  split
  · nofun
  · split <;> nofun

theorem takeLength_ne_early (r : Nat) (s : State) (c : FaultCode) : takeLength r s ≠ .early c := by
  unfold takeLength
  dsimp only
  split
  · split <;> nofun
  · nofun

theorem takeSymbol_ne_early (r : Nat) (s : State) (c : FaultCode) : takeSymbol r s ≠ .early c := by
  rw [takeSymbol_eq]
  split
  · nofun
  · split <;> nofun

theorem turnOfWalk_ne_early (w : Walk) {f : Nat → State → CmdEnd} (hf : ∀ r s c, f r s ≠ .early c) (c : FaultCode) :
    turnOfWalk w f ≠ .go (.early c) := by
  cases w with
  | symbol r s => exact fun h => hf r s c (Turn.go.inj h)
  | none s | deadEnd s => nofun

theorem runTurn_ne_early (s : State) (c : FaultCode) : runTurn s ≠ .go (.early c) := by
  unfold runTurn
  split
  · nofun
  · split
    · nofun
    · exact fun h => startHeader_ne_early _ _ c (Turn.go.inj h)
  · exact turnOfWalk_ne_early _ takeLength_ne_early c
  · exact turnOfWalk_ne_early _ takeSymbol_ne_early c

theorem runFuel_ne_early (k : Nat) (s : State) (c : FaultCode) : runFuel k s ≠ .early c := by
  induction k generalizing s with
  | zero => nofun
  | succ k ih =>
    rw [runFuel_succ]
    cases hturn : runTurn s with
    | stop t => nofun
    | go e =>
      cases e with
      | done t => exact ih t
      | early d => exact absurd hturn (runTurn_ne_early s d)
      | late d t | absent => nofun

/-- Run on loaded bits leaves the same, whether b2 held them before the command or the command has loaded them. -/
theorem runCommand_decoderRun_load {s : State} (hs : s.faulted = false) (bs : List Bool) :
    runCommand s (decoderRun (s.load bs)) = runCommand (s.load bs) (decoderRun (s.load bs)) := by
  have hload : (s.load bs).faulted = false := hs
  cases hrun : decoderRun (s.load bs) with
  | done t => rw [runCommand_done hs, runCommand_done hload]
  | early c => exact absurd hrun (runFuel_ne_early _ _ c)
  | late c t => rw [runCommand_late hs, runCommand_late hload]; rfl
  | absent => rw [runCommand_absent hs, runCommand_absent hload]

theorem decoderRun_of_stop {s : State} (h : runTurn s = .stop s) : decoderRun s = .done s := by
  rw [decoderRun, runFuel_succ, h]
  rfl

theorem decoderRun_streamEnd {s : State} (h : s.decState = .streamEnd) : decoderRun s = .done s :=
  decoderRun_of_stop (runTurn_streamEnd h)

/-- Settles O53: the checks, and then Run on the bits of b2 with the byte's behind them. -/
theorem chdPushIsAppendThenRun : Obligations.ChdPushIsAppendThenRun := by
  unfold Obligations.ChdPushIsAppendThenRun
  intro a s hinv hs
  have hb : s.b2.wf := hinv.bufs .b2
  have hload (hlen : s.b2.len ≤ 56) : (s.b2.bits ++ bitsMS a.toNat 8).length ≤ 64 := by simp; omega
  refine ⟨fun ha => exec_faultedBy hs (if_pos ha), fun ha hdec => exec_of_done hs (chdPushBody_streamEnd ha hdec),
    fun ha hdec hlen => exec_faultedBy hs (chdPushBody_capacity ha hdec hlen), fun ha hdec hlen => ?_,
    fun ha hdec hempty => ?_, strayRaisesIllegal _ hs, encode_opField _⟩
  · exact ⟨_, BitBuf.wf_ofBits (hload hlen), by simp, BitBuf.bits_ofBits (hload hlen),
      (congrArg (runCommand s) (chdPushBody_load ha hdec hb hlen)).trans (runCommand_decoderRun_load hs _)⟩
  · have hstop : decoderRun (s.load (bitsMS a.toNat 8)) = .done (s.load (bitsMS a.toNat 8)) :=
      decoderRun_of_stop (runTurn_readingHeaderInfo_short hdec (by simp [hempty]))
    have hbody := chdPushBody_load ha (by rw [hdec]; nofun) hb (by omega)
    refine ⟨_, exec_of_done hs (hbody.trans hstop), by simp [hempty], ?_⟩
    have hbits : s.b2.bits = [] := List.eq_nil_of_length_eq_zero (by simpa using hempty)
    rw [hbits, List.nil_append, BitBuf.ofBits, bitsVal_bitsMS (by omega)]
    exact toNat_ofNat_64 (n := 8) (by omega) (by decide)

/-! ### Run keeps what it needs -/

section
variable {s t : State} {bs : List Bool}

theorem State.Launch.reads (h : s.Launch) : s.Reads := h.2.reads

theorem State.Launch.decoderRun (hs : s.Launch) (h : decoderRun s = .done t) : t.Launch := by
  have hsafe : (Machine.decoderRun s).Safe := safe_runFuel hs _
  rwa [h] at hsafe

/-- Where Run ends it has stopped, leaves no more bits than it was given, and would stop there again. -/
theorem State.Launch.decoderRun_stops (hs : s.Launch) (h : Machine.decoderRun s = .done t) :
    t.b2.len ≤ s.b2.len ∧ StopsAt t.decState t.b2.len ∧ Machine.decoderRun t = .done t := by
  rw [← hs.reads.eq_reading] at h
  simpa using decoderRun_reading_done hs.reads.length_bits_le h

theorem StopsAt.len_le {d : DecState} {n : Nat} (h : StopsAt d n) (hd : d ≠ .streamEnd) : n ≤ 8 := by
  rcases h with h | ⟨-, h⟩ | ⟨-, h⟩
  · exact absurd h hd
  · exact h
  · omega

/-! ### Bit by bit -/

/-- s, without the bits that b2 keeps after STREAM_END: they alone depend on the chunks (46_huffman_decoder R208). -/
def State.settled (s : State) : State := if s.decState = .streamEnd then { s with b2 := .empty } else s

theorem settled_of_streamEnd (h : s.decState = .streamEnd) : s.settled = { s with b2 := .empty } := if_pos h
theorem settled_of_ne (h : s.decState ≠ .streamEnd) : s.settled = s := if_neg h

@[simp] theorem settled_decState : s.settled.decState = s.decState := by
  unfold State.settled
  split <;> rfl

theorem settled_load (h : s.decState = .streamEnd) : (s.load bs).settled = s.settled := by
  rw [settled_of_streamEnd h, settled_of_streamEnd (s := s.load bs) h]
  rfl

/-- States that settle alike differ in what b2 keeps after STREAM_END alone. -/
theorem eq_of_settled_eq (h : t.settled = s.settled) :
    t = { s with b2 := t.b2 } ∧ (s.decState ≠ .streamEnd → t = s) := by
  have hdec : t.decState = s.decState := by rw [← settled_decState, h, settled_decState]
  by_cases hend : s.decState = .streamEnd
  · rw [settled_of_streamEnd hend, settled_of_streamEnd (hdec.trans hend)] at h
    refine ⟨?_, fun hne => absurd hend hne⟩
    calc t = { ({ t with b2 := .empty } : State) with b2 := t.b2 } := rfl
      _ = { s with b2 := t.b2 } := by rw [h]
  · rw [settled_of_ne hend, settled_of_ne (hdec ▸ hend)] at h
    exact ⟨by rw [h], fun _ => h⟩

/-- One bit more for a decoder that has stopped, where no fault comes of it. -/
def State.readBit (s : State) (b : Bool) : Option State :=
  if s.decState = .streamEnd then some s else (decoderRun (s.load [b])).final.map State.settled

/-- Bits read one by one. -/
def readBits (bs : List Bool) (s : State) : Option State := bs.foldlM State.readBit s

@[simp] theorem readBits_nil (s : State) : readBits [] s = some s := rfl

theorem readBits_cons (b : Bool) (bs : List Bool) (s : State) :
    readBits (b :: bs) s = (s.readBit b).bind (readBits bs) := rfl

theorem readBits_append (as bs : List Bool) (s : State) :
    readBits (as ++ bs) s = (readBits as s).bind (readBits bs) := List.foldlM_append

theorem readBits_streamEnd (h : s.decState = .streamEnd) (bs : List Bool) : readBits bs s = some s := by
  induction bs with
  | nil => rfl
  | cons b bs ih => rw [readBits_cons, State.readBit, if_pos h, Option.bind_some, ih]

/-- Run on bits loaded at once is Run after each of them. -/
theorem readBits_eq_run (hs : s.Launch) (hstop : decoderRun s = .done s) (hlen : s.b2.len + bs.length ≤ 64) :
    readBits bs s.settled = (decoderRun (s.load bs)).final.map State.settled := by
  induction bs generalizing s with
  | nil => rw [State.load_nil hs.reads.1, hstop]; rfl
  | cons b bs ih =>
    by_cases hend : s.decState = .streamEnd
    · rw [readBits_streamEnd (by rwa [settled_decState]), decoderRun_streamEnd (s := s.load _) hend]
      exact congrArg some (settled_load hend).symm
    · have hsplit := final_decoderRun_load (ys := [b]) (zs := bs) hs.reads hlen
      rw [List.singleton_append] at hsplit
      rw [settled_of_ne hend, readBits_cons, State.readBit, if_neg hend, hsplit]
      cases hrun : decoderRun (s.load [b]) with
      | done t =>
        have hlaunch := hs.load (bs := [b]) (by rw [List.length_cons] at hlen; simp; omega)
        obtain ⟨hle, -, ht⟩ := hlaunch.decoderRun_stops hrun
        exact ih (hlaunch.decoderRun hrun) ht (by simp at hle hlen; omega)
      | _ => rfl

end

/-! ### Chunks (46_huffman_decoder R208) -/

theorem eq_load_of_bbPushl {s t : State} {n : BitVec 7} {v : Word64} (hs : s.Launch)
    (h : exec (.bbPushl .b2 n v) s = .next t) (ht : t.faulted = false) :
    s.b2.len + n.toNat ≤ 64 ∧ t = s.load (bitsMS v.toNat n.toNat) := by
  obtain ⟨hillegal, hcapacity, -⟩ := pushCommands .b2 n v s hs.1 (hs.2.bufs .b2)
  have hn : n.toNat ≤ 64 := by
    by_contra hn
    rw [(hillegal (Nat.lt_of_not_le hn)).1] at h
    cases h
    cases ht
  have hlen : s.b2.len + n.toNat ≤ 64 := by
    by_contra hlen
    rw [(hcapacity hn (Nat.lt_of_not_le hlen)).1] at h
    cases h
    cases ht
  exact ⟨hlen, Host.Outcome.next.inj (h.symm.trans (exec_bbPushl hs.1 hn (BitBuf.pushLS_ofBits hs.reads.1 hlen)))⟩

/-- A piece that is fed without a fault fits, and Run ends on it. -/
theorem feedPieces_cons {s t : State} {n : BitVec 7} {v : Word64} {ps : List (BitVec 7 × Word64)} (hs : s.Launch)
    (h : feedPieces ((n, v) :: ps) s = some t) : s.b2.len + n.toNat ≤ 64 ∧
      ∃ u, decoderRun (s.load (bitsMS v.toNat n.toNat)) = .done u ∧ feedPieces ps u = some t := by
  rw [feedPieces] at h
  split at h
  case h_1 u hpush =>
    split at h
    · cases h
    case isFalse hu =>
      obtain ⟨hlen, rfl⟩ := eq_load_of_bbPushl hs hpush (by simpa using hu)
      split at h
      case h_1 w hrun =>
        split at h
        · cases h
        case isFalse hw => exact ⟨hlen, w, (exec_chdRun_iff (s := s.load _) hs.1 (by simpa using hw)).1 hrun, h⟩
      · cases h
  · cases h

theorem readBits_of_feedPieces {ps : List (BitVec 7 × Word64)} {s t : State} (hs : s.Launch)
    (hstop : decoderRun s = .done s) (h : feedPieces ps s = some t) :
    readBits (pieceBits ps) s.settled = some t.settled := by
  induction ps generalizing s with
  | nil => cases h; rfl
  | cons p ps ih =>
    obtain ⟨n, v⟩ := p
    obtain ⟨hlen, u, hrun, hrest⟩ := feedPieces_cons hs h
    have hlen : s.b2.len + (bitsMS v.toNat n.toNat).length ≤ 64 := by rwa [length_bitsMS]
    have hu := (hs.load hlen).decoderRun hrun
    obtain ⟨-, -, hustop⟩ := (hs.load hlen).decoderRun_stops hrun
    change readBits (bitsMS v.toNat n.toNat ++ pieceBits ps) s.settled = _
    rw [readBits_append, readBits_eq_run hs hstop hlen, hrun]
    exact ih hu hustop hrest

theorem feedBytes_cons {x : Byte} {xs : List Byte} {s t : State} (hs : s.faulted = false) (ht : t.faulted = false)
    (h : chdPushBody (x.setWidth 32) s = .done t) : feedBytes (x :: xs) s = feedBytes xs t := by
  rw [feedBytes, exec_of_done (i := .chdPush (x.setWidth 32)) hs h]
  exact if_neg (by rw [ht]; decide)

theorem exists_feedBytes {xs : List Byte} {s w : State} (hs : s.Launch) (hstop : decoderRun s = .done s)
    (h : readBits (byteBits xs) s.settled = some w) :
    ∃ u, feedBytes xs s = some u ∧ u.settled = w ∧ decoderRun u = .done u ∧ u.Launch := by
  induction xs generalizing s with
  | nil => exact ⟨s, rfl, Option.some.inj h, hstop, hs⟩
  | cons x xs ih =>
    have hx : (x.setWidth 32).toNat = x.toNat := by
      rw [BitVec.toNat_setWidth, Nat.mod_eq_of_lt (x.isLt.trans (by decide))]
    have hle : (x.setWidth 32).toNat ≤ 255 := by rw [hx]; exact Nat.le_of_lt_succ x.isLt
    by_cases hend : s.decState = .streamEnd
    · rw [feedBytes_cons hs.1 hs.1 (chdPushBody_streamEnd hle hend)]
      rw [readBits_streamEnd (by rwa [settled_decState])] at h
      exact ih hs hstop (by rw [readBits_streamEnd (by rwa [settled_decState]), h])
    · obtain ⟨-, hshape, -⟩ := hs.decoderRun_stops hstop
      have hb2 := hshape.len_le hend
      have hlen : s.b2.len + (bitsMS x.toNat 8).length ≤ 64 := by rw [length_bitsMS]; omega
      rw [byteBits_cons, readBits_append, readBits_eq_run hs hstop hlen] at h
      have hbody := chdPushBody_load hle hend hs.reads.1 (by omega)
      rw [hx] at hbody
      cases hrun : decoderRun (s.load (bitsMS x.toNat 8)) with
      | done t =>
        rw [hrun] at h
        have ht := (hs.load hlen).decoderRun hrun
        obtain ⟨-, -, htstop⟩ := (hs.load hlen).decoderRun_stops hrun
        rw [feedBytes_cons hs.1 ht.1 (hbody.trans hrun)]
        exact ih ht htstop h
      | _ => rw [hrun] at h; cases h

/-- Settles O59: bytes and pieces come to the same bits read one by one. -/
theorem chunkingDoesNotMatter : Obligations.ChunkingDoesNotMatter := by
  unfold Obligations.ChunkingDoesNotMatter
  intro s t bytes pieces hinv hs hstop hbits hpieces
  have hlaunch : s.Launch := ⟨hs, hinv⟩
  have hstop := (exec_chdRun_iff hs hs).1 hstop
  have hread := readBits_of_feedPieces hlaunch hstop hpieces
  rw [← hbits] at hread
  obtain ⟨u, hfeed, hsettled, hustop, hu⟩ := exists_feedBytes hlaunch hstop hread
  obtain ⟨hkeep, heq⟩ := eq_of_settled_eq hsettled.symm
  exact ⟨u, hfeed, (exec_chdRun_iff hu.1 hu.1).2 hustop, hkeep, heq⟩

end Sys2Proof.Machine
end

