-- ==== Sys2Proof/Proofs/DecoderWalks.lean ====
section
/-! SUPPORT. Walks over the tree of a canonical slot (44_huffman_tree R175, 46_huffman_decoder R206): a node is a sequence of
bits that some code begins with, a leaf is a whole code, and no code begins with another. -/

namespace Sys2Proof.Machine

/-- The first bits of a field. -/
theorem bitsMS_prefix_iff {v l c n : Nat} (hv : v < 2 ^ l) (hc : c < 2 ^ n) :
    bitsMS v l <+: bitsMS c n ↔ l ≤ n ∧ c / 2 ^ (n - l) = v := by
  have hsplit (hl : l ≤ n) : bitsMS c n = bitsMS (c / 2 ^ (n - l)) l ++ bitsMS (c % 2 ^ (n - l)) (n - l) := by
    rw [← bitsMS_split, Nat.add_sub_cancel' hl]
  constructor
  · rintro ⟨rest, h⟩
    have hl : l ≤ n := by
      have := congrArg List.length h
      simp at this
      omega
    rw [hsplit hl] at h
    refine ⟨hl, bitsMS_injective (pow_split ?_) hv (List.append_inj h (by simp)).1.symm⟩
    rwa [Nat.add_sub_cancel' hl]
  · rintro ⟨hl, rfl⟩
    exact ⟨_, (hsplit hl).symm⟩

@[simp] theorem CodeTable.length_codeBits (x : CodeTable) (r : Nat) : (x.codeBits r).length = x.lenOf r :=
  length_bitsMS ..

theorem CodeTable.codeBits_ne_nil {x : CodeTable} {r : Nat} (h : 0 < x.lenOf r) : x.codeBits r ≠ [] :=
  List.ne_nil_of_length_pos (by rwa [CodeTable.length_codeBits])

theorem CodeTable.lenOf_pos_of_codeBits {x : CodeTable} {r : Nat} {pos p : List Bool} (h : x.codeBits r = pos ++ p)
    (hp : p ≠ []) : 0 < x.lenOf r := by
  have hlen := congrArg List.length h
  have := List.length_pos_iff.2 hp
  simp at hlen
  omega

section
variable {x : CodeTable} (hx : x.Canonical)
include hx

theorem CodeTable.Canonical.lenOf_le (r : Nat) : x.lenOf r ≤ 64 := (hx.code_wf r).1

theorem CodeTable.Canonical.length_codeBits_le (r : Nat) : (x.codeBits r).length ≤ 64 := by
  rw [CodeTable.length_codeBits]
  exact hx.lenOf_le r

theorem CodeTable.Canonical.codeOf_lt (r : Nat) : (x.codeOf r).toNat < 2 ^ x.lenOf r := (hx.code_wf r).2

theorem CodeTable.Canonical.lt_of_coded {r : Nat} (h : 0 < x.lenOf r) : r < 258 := by
  by_contra hr
  exact h.ne' (List.getD_eq_default _ _ (by rw [hx.shape.1]; exact Nat.le_of_not_lt hr))

theorem CodeTable.Canonical.treeNode_iff_prefix {l v : Nat} (hv : v < 2 ^ l) :
    x.TreeNode l v ↔ ∃ r, 0 < x.lenOf r ∧ bitsMS v l <+: x.codeBits r :=
  exists_congr fun r => and_congr_right fun _ => by
    rw [CodeTable.codeBits, bitsMS_prefix_iff hv (hx.codeOf_lt r), Nat.shiftRight_eq_div_pow]

theorem CodeTable.Canonical.treeLeaf_iff_codeBits {r l v : Nat} (hv : v < 2 ^ l) :
    x.TreeLeaf r l v ↔ 0 < l ∧ x.codeBits r = bitsMS v l := by
  constructor
  · rintro ⟨hpos, rfl, rfl⟩
    exact ⟨hpos, rfl⟩
  · rintro ⟨hpos, h⟩
    obtain rfl : x.lenOf r = l := by simpa using congrArg List.length h
    exact ⟨hpos, rfl, bitsMS_injective (hx.codeOf_lt r) hv h⟩

/-- No code begins with another (44_huffman_tree R172). -/
theorem CodeTable.Canonical.eq_of_prefix {r q : Nat} (hr : 0 < x.lenOf r) (h : x.codeBits r <+: x.codeBits q) :
    r = q := by
  obtain ⟨hle, hcode⟩ := (bitsMS_prefix_iff (hx.codeOf_lt r) (hx.codeOf_lt q)).1 h
  rw [hx.toNat_codeOf, hx.toNat_codeOf] at hcode
  exact eq_of_code_prefix hx.shape.2.2 hr hle hcode

section
variable {pos : List Bool} (hpos : pos.length ≤ 64)
include hpos

omit hx in
theorem CodeTable.codeBits_of_leafOf {r : Nat} (h : x.leafOf pos = some r) : x.codeBits r = pos := by
  rw [CodeTable.leafOf, CodeTable.leafAt, List.findIdx?_eq_some_iff_getElem] at h
  obtain ⟨hlt, hleaf, -⟩ := h
  obtain ⟨hlen, hcode⟩ : r < x.len.length ∧ r < x.code.length := by simpa using hlt
  rw [List.getElem_zip, toNat_ofNat_64 (bitsVal_lt pos) hpos] at hleaf
  simp only [Bool.and_eq_true, beq_iff_eq] at hleaf
  rw [CodeTable.codeBits, CodeTable.codeOf, CodeTable.lenOf, List.getD_eq_getElem _ _ hlen,
    List.getD_eq_getElem _ _ hcode, hleaf.1, hleaf.2, bitsMS_bitsVal]

theorem CodeTable.Canonical.leafOf_codeBits {r : Nat} (hr : 0 < x.lenOf r) (h : x.codeBits r = pos) :
    x.leafOf pos = some r := by
  cases hleaf : x.leafOf pos with
  | some q =>
    have hq := x.codeBits_of_leafOf hpos hleaf
    rw [hx.eq_of_prefix (q := q) hr ⟨[], by rw [List.append_nil, h, hq]⟩]
  | none =>
    have hlt : r < (x.len.zip x.code).length := by simpa [hx.shape.1, hx.shape.2.1] using hx.lt_of_coded hr
    obtain ⟨hlen, hcode⟩ : r < x.len.length ∧ r < x.code.length := by simpa using hlt
    have hno := List.findIdx?_eq_none_iff.1 hleaf _ (List.getElem_mem hlt)
    have hval : (x.codeOf r).toNat = bitsVal pos := by
      rw [← h, CodeTable.codeBits, bitsVal_bitsMS (hx.codeOf_lt r)]
    rw [List.getElem_zip, toNat_ofNat_64 (bitsVal_lt pos) hpos, ← hval, ← h] at hno
    rw [CodeTable.length_codeBits, CodeTable.codeOf, CodeTable.lenOf, List.getD_eq_getElem _ _ hlen,
      List.getD_eq_getElem _ _ hcode] at hno
    simp at hno

theorem CodeTable.Canonical.leadsToNode_iff : x.leadsToNode pos = true ↔ ∃ r, 0 < x.lenOf r ∧ pos <+: x.codeBits r := by
  have hnode := hx.treeNode_iff_prefix (bitsVal_lt pos)
  rw [bitsMS_bitsVal] at hnode
  rw [← hnode, CodeTable.leadsToNode, toNat_ofNat_64 (bitsVal_lt pos) hpos, CodeTable.isNode, List.any_eq_true]
  simp only [Bool.and_eq_true, decide_eq_true_eq, beq_iff_eq, and_assoc]
  constructor
  · rintro ⟨p, hp, h⟩
    obtain ⟨r, hr, rfl⟩ := List.getElem_of_mem hp
    obtain ⟨hlen, hcode⟩ : r < x.len.length ∧ r < x.code.length := by simpa using hr
    refine ⟨r, ?_⟩
    rw [CodeTable.codeOf, CodeTable.lenOf, List.getD_eq_getElem _ _ hlen, List.getD_eq_getElem _ _ hcode]
    simpa using h
  · rintro ⟨r, hr, h⟩
    have hlt : r < (x.len.zip x.code).length := by simpa [hx.shape.1, hx.shape.2.1] using hx.lt_of_coded hr
    obtain ⟨hlen, hcode⟩ : r < x.len.length ∧ r < x.code.length := by simpa using hlt
    refine ⟨_, List.getElem_mem hlt, ?_⟩
    rw [CodeTable.codeOf, CodeTable.lenOf, List.getD_eq_getElem _ _ hlen, List.getD_eq_getElem _ _ hcode] at h
    rw [CodeTable.lenOf, List.getD_eq_getElem _ _ hlen] at hr
    simpa using ⟨hr, h⟩

end

section
variable {pos p q : List Bool} {r : Nat}

/-- Bits that a longer code begins with are walked through. -/
theorem CodeTable.Canonical.walk_through {c : List Bool} (hc : c ≠ []) (h : x.codeBits r = pos ++ p ++ c) :
    x.walk pos (p ++ q) = x.walk (pos ++ p) q := by
  induction p generalizing pos with
  | nil => rw [List.nil_append, List.append_nil]
  | cons b p ih =>
    have hr := x.lenOf_pos_of_codeBits h hc
    have hsplit : pos ++ b :: p = pos ++ [b] ++ p := by simp
    rw [hsplit] at h
    have hlen : (pos ++ [b]).length < x.lenOf r := by
      have := congrArg List.length h
      have := List.length_pos_iff.2 hc
      simp at *
      omega
    have hle := hlen.le.trans (hx.lenOf_le r)
    have hprefix : pos ++ [b] <+: x.codeBits r := ⟨p ++ c, by rw [h, List.append_assoc (pos ++ [b])]⟩
    have hleaf : x.leafOf (pos ++ [b]) = none := by
      rw [Option.eq_none_iff_forall_ne_some]
      intro y hy
      have hcode := x.codeBits_of_leafOf hle hy
      have hylen : x.lenOf y = (pos ++ [b]).length := by rw [← hcode, CodeTable.length_codeBits]
      have hyr := hx.eq_of_prefix (r := y) (by rw [hylen]; simp) (hcode ▸ hprefix)
      rw [hyr] at hylen
      omega
    rw [List.cons_append, CodeTable.walk, hleaf]
    dsimp only
    rw [if_pos ((hx.leadsToNode_iff hle).2 ⟨r, hr, hprefix⟩), ih h, hsplit]

/-- A walk over the rest of a code ends in its symbol. -/
theorem CodeTable.Canonical.walk_symbol (hp : p ≠ []) (h : x.codeBits r = pos ++ p) :
    x.walk pos (p ++ q) = .symbol r q := by
  obtain ⟨p, b, rfl⟩ : ∃ p' b, p = p' ++ [b] := ⟨_, _, (List.dropLast_append_getLast hp).symm⟩
  rw [← List.append_assoc] at h
  have hle : (pos ++ p ++ [b]).length ≤ 64 := h ▸ hx.length_codeBits_le r
  rw [List.append_assoc, hx.walk_through (List.cons_ne_nil b []) h, List.singleton_append, CodeTable.walk,
    hx.leafOf_codeBits hle (x.lenOf_pos_of_codeBits h (List.cons_ne_nil b [])) h]

/-- Bits that no code begins with and that hold no whole code end in a dead end. -/
theorem CodeTable.Canonical.walk_dead (hpos : pos.length < 64) (hp : p ≠ [])
    (hnode : ∀ y, 0 < x.lenOf y → ¬ pos ++ p <+: x.codeBits y)
    (hleaf : ∀ p', p' ≠ [] → p' <+: p → ∀ y, x.codeBits y ≠ pos ++ p') :
    ∃ pos' rest, x.walk pos (p ++ q) = .dead pos' rest := by
  induction p generalizing pos with
  | nil => exact absurd rfl hp
  | cons b p ih =>
    have hsplit (p : List Bool) : pos ++ b :: p = pos ++ [b] ++ p := by simp
    have hle : (pos ++ [b]).length ≤ 64 := by simp; omega
    have hno : x.leafOf (pos ++ [b]) = none := by
      rw [Option.eq_none_iff_forall_ne_some]
      exact fun y hy => hleaf [b] (List.cons_ne_nil b []) ⟨p, rfl⟩ y (x.codeBits_of_leafOf hle hy)
    rw [List.cons_append, CodeTable.walk, hno]
    dsimp only
    split
    case isFalse => exact ⟨_, _, rfl⟩
    case isTrue hyes =>
      obtain ⟨y, hy, hprefix⟩ := (hx.leadsToNode_iff hle).1 hyes
      have hne : p ≠ [] := by
        rintro rfl
        exact hnode y hy hprefix
      have hlt : (pos ++ [b]).length < 64 := by
        have hylen := hx.lenOf_le y
        have hprelen := hprefix.length_le
        rw [CodeTable.length_codeBits] at hprelen
        refine lt_of_le_of_ne hle fun he => hleaf [b] (List.cons_ne_nil b []) ⟨p, rfl⟩ y ?_
        exact (hprefix.eq_of_length (by rw [CodeTable.length_codeBits]; omega)).symm
      refine ih hlt hne (fun y hy => hsplit p ▸ hnode y hy) fun p' _ hp' y => ?_
      rw [← hsplit]
      exact hleaf (b :: p') (List.cons_ne_nil b p') (List.prefix_cons_inj b |>.2 hp') y

end

end

end Sys2Proof.Machine
end

