-- ==== Sys2Proof/Proofs/DecoderCommands.lean ====
section
/-! PROOF. What CHD.RUN does with the bits in b2: where it stops (46_huffman_decoder R204, R209), and what it does with a table
size, a length, a symbol and with bits that raise a fault (R205 to R207). Each is one turn of Run: the turn is computed, and
Run goes on from the state it leads to. -/

namespace Sys2Proof.Machine

/-! ### One turn and the rest of Run -/

section
variable {s t : State} {b : BitBuf}

theorem State.Reads.decoderRun_eq (hs : s.Reads) : decoderRun s = (runTurn s).runWith decoderRun := by
  have h := decoderRun_reading s s.walked hs.length_bits_le
  rwa [hs.eq_reading] at h

theorem decoderRun_empty (h : s.b2.len = 0) : decoderRun s = .done s := by
  refine decoderRun_of_stop ?_
  cases hdec : s.decState with
  | streamEnd => exact runTurn_streamEnd hdec
  | readingHeaderInfo => exact runTurn_readingHeaderInfo_short hdec (by omega)
  | decodingHeader | decodingBlock => rw [runTurn, hdec, h]; rfl

/-- s with b in b2 and the walk back at the root. -/
abbrev State.atRoot (s : State) (b : BitBuf) : State := { s with b2 := b, wlen := 0, wval := 0 }

theorem State.reading_root (hb : b.wf) : s.reading [] b.bits = s.atRoot b := by
  unfold State.reading
  rw [← BitBuf.eq_ofBits hb rfl]
  rfl

section
variable {e : CmdEnd} (h : decoderRun s = e.goOn decoderRun)
include h

theorem decoderRun_of_turn_done (he : e = .done t) : decoderRun s = decoderRun t := by rw [h, he]; rfl

theorem decoderRun_of_turn_late {c : FaultCode} (he : e = .late c t) : decoderRun s = .late c t := by rw [h, he]; rfl

end

/-- Where Run comes to t, it ends as from t. -/
theorem exec_chdRun_goes_on (hs : s.faulted = false) (h : decoderRun s = decoderRun t) (ht : t.faulted = false) :
    (∀ u : State, u.faulted = false → (exec .chdRun s = .next u ↔ exec .chdRun t = .next u)) ∧
    (t.b2.len = 0 → exec .chdRun s = .next t) := by
  refine ⟨fun u hu => ?_, fun hlen => exec_of_done hs (h.trans (decoderRun_empty hlen))⟩
  rw [exec_chdRun_iff hs hu, exec_chdRun_iff ht hu, h]

theorem exec_chdRun_faults {c : FaultCode} (hs : s.faulted = false) (h : decoderRun s = .late c t)
    (ht : t.faulted = false) : ∃ u, exec .chdRun s = .next u ∧ u.faulted = true ∧ u.err = c.code :=
  ⟨_, (exec_eq_runCommand _ s).trans ((congrArg (runCommand s) h).trans (runCommand_late hs c t)),
    lateFault_faulted s t c, lateFault_err ht c⟩

/-! ### The table size (46_huffman_decoder R205) -/

/-- With 9 bits in b2 the turn takes them as the table size. -/
theorem decoderRun_tableSize (hs : s.Reads) (hdec : s.decState = .readingHeaderInfo) (hb : b.wf) {v : Nat}
    (hv : v < 512) (hbits : s.b2.bits = bitsMS v 9 ++ b.bits) :
    decoderRun s = (startHeader v { s with b2 := b }).goOn decoderRun := by
  have hlen : (bitsMS v 9 ++ b.bits).length ≤ 64 := by
    rw [← hbits]
    exact hs.length_bits_le
  have hpull := BitBuf.pullMS_ofBits hlen
  rw [← hbits, ← BitBuf.eq_ofBits hs.1 rfl, ← BitBuf.eq_ofBits hb rfl, bitsVal_bitsMS hv, length_bitsMS] at hpull
  rw [hs.decoderRun_eq, runTurn_of_pullMS hdec hpull]
  rfl

/-- A header table exists for every table size in range (44_huffman_tree R181). -/
theorem exists_headerTable {c : Config} (hc : c.wf) {k : Nat} (hlo : 2 ≤ k) (hhi : k ≤ 65) :
    ∃ h, headerTable c k = .ok h := by
  have hw : (hdrWeights c k).length ≤ 258 := by rw [length_hdrWeights]; omega
  have hcount := countP_hdrWeights hc k
  obtain ⟨hdegenerate, hsome⟩ := huffmanLengths _ hw
  obtain ⟨lens, hlens⟩ := Option.ne_none_iff_exists'.1 (mt hdegenerate.1 (by omega))
  obtain ⟨-, -, -, hbound, -⟩ := hsome lens hlens
  obtain ⟨x, hok, -⟩ := exists_buildTable hw hlens fun l hl => by have := hbound l hl; omega
  exact ⟨x, hok⟩

theorem startHeader_ok {v : Nat} {h : CodeTable} (hlo : 2 ≤ v) (hhi : v ≤ 65) (hh : headerTable s.cfg v = .ok h) :
    startHeader v s = .done { s with tsize := v, ct2 := h, hcnt := 0, decState := .decodingHeader } := by
  rw [startHeader, if_neg (by simp; omega), hh]

theorem startHeader_stream {v : Nat} (hv : v < 2 ∨ 65 < v) : startHeader v s = .late .stream s :=
  if_pos (by simpa using hv)

end

/-- Settles O55: the turn takes nine bits and makes the header table. -/
theorem decoderReadsTableSize : Obligations.DecoderReadsTableSize := by
  unfold Obligations.DecoderReadsTableSize
  intro s v b hinv hs hdec hb hlo hhi hbits
  obtain ⟨h, hh⟩ := exists_headerTable hinv.cfgOk hlo hhi
  have hrun := decoderRun_tableSize hinv.reads hdec hb (by omega) hbits
  exact ⟨h, hh, exec_chdRun_goes_on hs
    (decoderRun_of_turn_done hrun (startHeader_ok (s := { s with b2 := b }) hlo hhi hh)) hs⟩

/-! ### A symbol (46_huffman_decoder R206) -/

section
variable {s : State} {u : Slot} {f : Nat → State → CmdEnd} {p : List Bool} {b : BitBuf} {r : Nat}
variable (hinv : s.Inv) (hs : s.faulted = false) (hw : s.Walks u f)
include hinv hs hw

omit hs in
theorem State.Walks.decoderRun_eq : decoderRun s =
    (turnOfWalk (((s.getSlot u).walk s.walked s.b2.bits).ofState s) f).runWith decoderRun := by
  have hlen := hinv.reads.length_bits_le
  have h := decoderRun_reading s s.walked hlen
  rwa [hw.runTurn_reading hlen, hinv.reads.eq_reading] at h

/-- With the rest of a code in b2 the turn handles its symbol. -/
theorem State.Walks.decoderRun_symbol (hb : b.wf) (hp : p ≠ []) (hcode : s.walked ++ p = (s.getSlot u).codeBits r)
    (hbits : s.b2.bits = p ++ b.bits) :
    decoderRun s = (f r (s.atRoot b)).goOn decoderRun := by
  rw [hw.decoderRun_eq hinv, hbits, (hinv.slotCanonical hs u).walk_symbol hp hcode.symm, ← State.reading_root hb]
  rfl

/-- With bits in b2 that lead to a node below which the codes go on, the turn keeps the position. -/
theorem State.Walks.decoderRun_kept {c : List Bool} (hc : c ≠ [])
    (hcode : (s.getSlot u).codeBits r = s.walked ++ s.b2.bits ++ c) :
    decoderRun s = .done (s.reading (s.walked ++ s.b2.bits) []) := by
  have hwalk := (hinv.slotCanonical hs u).walk_through (q := []) hc hcode
  rw [List.append_nil] at hwalk
  rw [hw.decoderRun_eq hinv, hwalk]
  rfl

/-- With bits in b2 that lead out of the tree the turn raises TREE. -/
theorem State.Walks.decoderRun_dead (hp : p ≠ []) (hbits : s.b2.bits = p ++ b.bits)
    (hnode : ∀ y, 0 < (s.getSlot u).lenOf y → ¬ s.walked ++ p <+: (s.getSlot u).codeBits y)
    (hleaf : ∀ p', p' ≠ [] → p' <+: p → ∀ y, (s.getSlot u).codeBits y ≠ s.walked ++ p') :
    ∃ t : State, t.faulted = false ∧ decoderRun s = .late .tree t := by
  obtain ⟨pos, rest, hwalk⟩ := (hinv.slotCanonical hs u).walk_dead (q := b.bits)
    (by rw [State.walked, length_bitsMS]; exact hinv.walk.1) hp hnode hleaf
  refine ⟨s.reading pos rest, hs, ?_⟩
  rw [hw.decoderRun_eq hinv, hbits, hwalk]
  rfl

end

/-! ### A length -/

section
variable {s : State} {r : Nat}

theorem takeLength_more (h : s.hcnt < 257) :
    takeLength r s = .done { s with hlen := s.hlen.set s.hcnt r, hcnt := s.hcnt + 1 } :=
  if_neg (show ¬ s.hcnt + 1 = 258 by omega)

theorem takeLength_last_ok {x : CodeTable} (h : s.hcnt = 257) (hx : makeTable (s.hlen.set 257 r) = .ok x) :
    takeLength r s =
      .done { s with hlen := s.hlen.set 257 r, hcnt := 258, ct3 := x, decState := .decodingBlock } := by
  unfold takeLength
  dsimp only
  rw [h, if_pos rfl, hx]

theorem takeLength_last_error {c : FaultCode} (h : s.hcnt = 257) (hc : makeTable (s.hlen.set 257 r) = .error c) :
    takeLength r s = .late c { s with hlen := s.hlen.set 257 r, hcnt := 258 } := by
  unfold takeLength
  dsimp only
  rw [h, if_pos rfl, hc]

end

/-- Settles O56: the turn records the length, and the 258th makes the data table. -/
theorem decoderReadsLength : Obligations.DecoderReadsLength := by
  unfold Obligations.DecoderReadsLength
  intro s r p b hinv hs hdec hb hp hcode hbits
  have hrun := State.Walks.decoderRun_symbol hinv hs (.header hdec) hb hp hcode hbits
  have hmore (h : s.hcnt < 257) :=
    exec_chdRun_goes_on hs (decoderRun_of_turn_done hrun (takeLength_more (s := s.atRoot b) h)) hs
  refine ⟨fun h => (hmore h).1, fun h => (hmore h).2, fun h hmax hkraft => ?_⟩
  have hok := makeTable_ok hmax hkraft
  have hlen : (s.hlen.set 257 r).length = 258 := by
    obtain ⟨-, -, hlength, -⟩ := hinv.header
    rw [List.length_set, hlength]
  exact ⟨_, makeTable_canonical hlen hok, rfl,
    exec_chdRun_goes_on hs (decoderRun_of_turn_done hrun (takeLength_last_ok (s := s.atRoot b) h hok)) hs⟩

/-! ### A symbol of the block -/

theorem afterSymbol_eq (r : Nat) (s : State) : afterSymbol r s = { s with
    decBlocks := if r = 256 then s.decBlocks + 1 else s.decBlocks
    decState := if r = 256 then .readingHeaderInfo else if r = 257 then .streamEnd else s.decState } := by
  unfold afterSymbol
  split
  · rfl
  · split <;> rfl

theorem takeSymbol_delivers {s : State} (r : Nat) (hroom : s.outCnt.toNat < s.outCap.toNat)
    (hmem : s.outBase.toNat + s.outCap.toNat ≤ s.cfg.memWords) : takeSymbol r s = .done (afterSymbol r
      ({ s with outCnt := s.outCnt + 1 }.writeRegion (s.outBase.toNat + s.outCnt.toNat) [BitVec.ofNat 32 r])) := by
  rw [takeSymbol_eq, if_neg (Nat.not_le.2 hroom), if_neg (by omega)]

theorem takeSymbol_outfull {s : State} {r : Nat} (h : s.outCap.toNat ≤ s.outCnt.toNat) :
    takeSymbol r s = .late .outfull s := by
  rw [takeSymbol_eq, if_pos h]

theorem toNat_succ_of_lt {w c : Word} (h : w.toNat < c.toNat) : (w + 1).toNat = w.toNat + 1 := by
  have := c.isLt
  rw [BitVec.toNat_add_of_lt (by simp; omega)]
  rfl

/-- Settles O57: the turn writes one cell and changes DEC_STATE as the symbol says. -/
theorem decoderDeliversSymbol : Obligations.DecoderDeliversSymbol := by
  unfold Obligations.DecoderDeliversSymbol
  intro s v p b hinv hs hdec hb hp hcode hbits hroom
  have hrun := State.Walks.decoderRun_symbol hinv hs (.block hdec) hb hp hcode hbits
  have hturn := takeSymbol_delivers (s := s.atRoot b) v hroom (hinv.outRegion hs)
  rw [afterSymbol_eq] at hturn
  have hv : v < 258 := (hinv.slotCanonical hs .ct3).lt_of_coded (CodeTable.lenOf_pos_of_codeBits hcode.symm hp)
  have hword : (BitVec.ofNat 32 v).toNat = v := by
    rw [BitVec.toNat_ofNat, Nat.mod_eq_of_lt (by omega)]
  refine ⟨_, ?_, ?_, ?_, rfl, ?_, rfl, exec_chdRun_goes_on hs (decoderRun_of_turn_done hrun hturn) hs⟩
  · exact (congrArg BitVec.toNat
      (State.readCell_writeRegion_inside (i := 0) hinv.memSorted _ [BitVec.ofNat 32 v] rfl)).trans hword
  · exact (Memory.wrote_writeRange hinv.memSorted _ [BitVec.ofNat 32 v]).cellsOutsideKept rfl
  · exact toNat_succ_of_lt hroom
  · exact hdec ▸ rfl

/-! ### Faults -/

/-- Settles O58: each fault ends the turn that takes the bits which raise it. -/
theorem decoderFaultsNameTheirCause : Obligations.DecoderFaultsNameTheirCause := by
  unfold Obligations.DecoderFaultsNameTheirCause
  intro s p b hinv hs hb
  refine ⟨fun v hdec hv hbad hbits => ?_, fun v hdec hp hcode hbits hfull => ?_,
    fun r hdec hp hcode hbits hcount hmax hkraft => ?_, fun l v u hdec hp hv hwalked hbits hnode hleaf => ?_⟩
  · have hrun := decoderRun_tableSize hinv.reads hdec hb hv hbits
    exact exec_chdRun_faults hs (decoderRun_of_turn_late hrun (startHeader_stream hbad)) hs
  · have hrun := State.Walks.decoderRun_symbol hinv hs (.block hdec) hb hp hcode hbits
    exact exec_chdRun_faults hs (decoderRun_of_turn_late hrun (takeSymbol_outfull (s := s.atRoot b) hfull)) hs
  · have hrun := State.Walks.decoderRun_symbol hinv hs (.header hdec) hb hp hcode hbits
    exact exec_chdRun_faults hs (decoderRun_of_turn_late hrun
      (takeLength_last_error (s := s.atRoot b) hcount (makeTable_kraft hmax hkraft))) hs
  · obtain ⟨f, hw⟩ := State.exists_walks hdec.symm
    have hcanon := hinv.slotCanonical hs u
    have hwalked : s.walked ++ p = bitsMS v l := hwalked
    obtain ⟨t, ht, hrun⟩ := hw.decoderRun_dead hinv hs hp hbits
      (fun y hy hprefix => hnode ((hcanon.treeNode_iff_prefix hv).2 ⟨y, hy, hwalked ▸ hprefix⟩))
      fun p' hp' hprefix y hy => by
        have hprefix : s.walked ++ p' <+: bitsMS v l := hwalked ▸ (List.prefix_append_right_inj _).2 hprefix
        have hlt := bitsVal_lt (s.walked ++ p')
        rw [← bitsMS_bitsVal (s.walked ++ p')] at hprefix hy
        obtain ⟨hle, hval⟩ := (bitsMS_prefix_iff hlt hv).1 hprefix
        have hpos := List.length_pos_iff.2 hp'
        have hj : s.wlen + p'.length = (s.walked ++ p').length := by simp [State.walked]
        refine hleaf (s.walked ++ p').length y (by omega) hle ?_
        rw [Nat.shiftRight_eq_div_pow, hval]
        exact (hcanon.treeLeaf_iff_codeBits hlt).2 ⟨by omega, hy⟩
    exact exec_chdRun_faults hs hrun ht

/-! ### Where Run stops (46_huffman_decoder R204, R209) -/

/-- A decoder that has stopped takes a bit of the byte pushed, or nine of the bits with it, before it ends elsewhere. -/
theorem len_le_of_push_to_streamEnd {s t : State} {bs : List Bool} (hs : s.Launch) (hstop : decoderRun s = .done s)
    (hdec : s.decState ≠ .streamEnd) (hbs : bs.length = 8) (hrun : decoderRun (s.load bs) = .done t)
    (ht : t.decState = .streamEnd) : t.b2.len ≤ 7 := by
  obtain ⟨-, hshape, -⟩ := hs.decoderRun_stops hstop
  have hle := hshape.len_le hdec
  have hb2 : s.b2.bits.length = s.b2.len := BitBuf.length_bits _
  have hlen : (s.b2.bits ++ bs).length ≤ 64 := by rw [List.length_append]; omega
  have heq : s.load bs = s.reading s.walked (s.b2.bits ++ bs) := by
    rw [← State.load_reading (by omega), hs.reads.eq_reading]
  rw [heq, decoderRun_reading s _ hlen] at hrun
  cases turnOn s s.walked hlen with
  | stops pos' left _ _ hturn _ =>
    rw [hturn] at hrun
    cases hrun
    exact absurd ht hdec
  | takes e pos' rest hrest hheader _ hnow _ =>
    rw [hnow] at hrun
    cases e with
    | done u =>
      obtain ⟨hrest', -⟩ := decoderRun_reading_done (by omega) hrun
      rw [List.length_append] at hrest hheader
      rcases hshape with hend | ⟨hinfo, -⟩ | ⟨-, hempty⟩
      · exact absurd hend hdec
      · have := hheader hinfo
        omega
      · omega
    | _ => cases hrun

/-- A node that is no leaf lies above the end of a code. -/
theorem CodeTable.Canonical.exists_code_below {x : CodeTable} (hx : x.Canonical) {l v : Nat} (hv : v < 2 ^ l)
    (hnode : x.TreeNode l v) (hleaf : ∀ y, ¬ x.TreeLeaf y l v) :
    ∃ r c, c ≠ [] ∧ x.codeBits r = bitsMS v l ++ c ∧ l < 64 := by
  obtain ⟨r, hr, c, hc⟩ := (hx.treeNode_iff_prefix hv).1 hnode
  have hne : c ≠ [] := by
    rintro rfl
    rw [List.append_nil] at hc
    have hlen := congrArg List.length hc
    simp only [length_bitsMS, CodeTable.length_codeBits] at hlen
    exact hleaf r ((hx.treeLeaf_iff_codeBits hv).2 ⟨by omega, hc.symm⟩)
  have hlen := congrArg List.length hc
  have hpos := List.length_pos_iff.2 hne
  have hle := hx.lenOf_le r
  simp only [List.length_append, length_bitsMS, CodeTable.length_codeBits] at hlen
  exact ⟨r, c, hne, hc.symm, by omega⟩

/-- Settles O54: a walk that ends inside the tree is kept; otherwise what Run leaves is the shape of its last turn. -/
theorem decoderStops : Obligations.DecoderStops := by
  unfold Obligations.DecoderStops
  refine ⟨fun s u l v hinv hs hdec hv hbits hnode hleaf => ?_, fun s t hinv hs ht => ?_⟩
  · obtain ⟨f, hw⟩ := State.exists_walks hdec
    have hbits : s.walked ++ s.b2.bits = bitsMS v l := hbits
    obtain ⟨r, c, hne, hcode, hlt⟩ := (hinv.slotCanonical hs u).exists_code_below hv hnode hleaf
    rw [← hbits] at hcode
    have hrun := exec_of_done (i := .chdRun) hs (hw.decoderRun_kept hinv hs hne hcode)
    refine ⟨hrun.trans (congrArg Host.Outcome.next ?_), hlt⟩
    rw [hbits, State.reading, length_bitsMS, bitsVal_bitsMS hv]
    rfl
  · have hlaunch : s.Launch := ⟨hs, hinv⟩
    refine ⟨fun hrun => ?_, fun a hstop hdec hpush => ?_⟩
    · obtain ⟨-, hshape, htstop⟩ := hlaunch.decoderRun_stops ((exec_chdRun_iff hs ht).1 hrun)
      exact ⟨hshape, (exec_chdRun_iff ht ht).2 htstop⟩
    · have hstop := (exec_chdRun_iff hs hs).1 hstop
      obtain ⟨hrange, -⟩ := chdPushIsAppendThenRun a s hinv hs
      have ha : a.toNat ≤ 255 := by
        by_contra ha
        rw [hrange (Nat.lt_of_not_le ha)] at hpush
        cases hpush
        cases ht
      obtain ⟨-, hshape, -⟩ := hlaunch.decoderRun_stops hstop
      have hle := hshape.len_le hdec
      have hrun : decoderRun (s.load (bitsMS a.toNat 8)) = .done t :=
        (chdPushBody_load ha hdec hlaunch.reads.1 (by omega)).symm.trans (bodyOf_eq_done hpush hs ht)
      obtain ⟨-, htshape, htstop⟩ := (hlaunch.load (by rw [length_bitsMS]; omega)).decoderRun_stops hrun
      have hend := len_le_of_push_to_streamEnd hlaunch hstop hdec (length_bitsMS ..) hrun
      refine ⟨(exec_chdRun_iff ht ht).2 htstop, ?_, hend⟩
      by_cases htend : t.decState = .streamEnd
      · exact (hend htend).trans (by decide)
      · exact htshape.len_le htend

end Sys2Proof.Machine
end

