-- ==== Sys2Proof/Proofs/StreamDecoding.lean ====
section
/-! SUPPORT. What a decoder that is fed a block on the wire delivers (46_huffman_decoder R205 to R207, R210). A decoder that
has no bits left over and no walk begun is a `Session`; the parts of a block take it from one session to the next, and
`DecodesTo` says so of a whole block, and of blocks one behind the other. -/

namespace Sys2Proof.Machine

/-! ### Sessions -/

/-- s is the decoder u after it has delivered these symbols from OUT_CNT = 0 on and counted so many blocks, at the end of the
bits it was fed. -/
structure Session (u s : State) (syms : List Nat) (blocks : Nat) : Prop where
  launch : s.Launch
  cfg : s.cfg = u.cfg
  outBase : s.outBase = u.outBase
  outCap : s.outCap = u.outCap
  outCnt : s.outCnt.toNat = syms.length
  cells : s.data u.outBase.toNat syms.length = syms
  decBlocks : s.decBlocks = BitVec.ofNat 32 blocks
  b2 : s.b2 = .empty
  wlen : s.wlen = 0

theorem data_succ (s : State) (base k : Nat) :
    s.data base (k + 1) = s.data base k ++ [(s.readCell (base + k)).toNat] := by
  simp [State.data, State.readRegion, toNats, List.range_succ]

theorem data_of_cellsOutsideKept {s t : State} {base k n : Nat} (h : CellsOutsideKept s t (base + k) n) :
    t.data base k = s.data base k := by
  refine congrArg toNats (List.map_congr_left fun i hi => ?_)
  have := List.mem_range.1 hi
  exact (h (base + i) (.inl (by omega))).1

section
variable {u s t : State} {syms : List Nat} {k : Nat} (h : Session u s syms k)
include h

theorem Session.bits_load {p : List Bool} (hp : p.length ≤ 64) :
    (s.load p).b2.bits = p ++ BitBuf.empty.bits ∧ (s.load p).Inv := by
  have hb2 : s.b2.bits = [] := by rw [h.b2]; rfl
  have hlen : s.b2.len + p.length ≤ 64 := by
    rw [h.b2]
    exact (Nat.zero_add p.length).trans_le hp
  refine ⟨(BitBuf.bits_ofBits (by simpa [hb2] using hp)).trans ?_, (h.launch.load hlen).2⟩
  rw [hb2]
  exact (List.append_nil p).symm

theorem Session.walked {p : List Bool} : bitsMS (s.load p).wval.toNat (s.load p).wlen ++ p = p := by
  change bitsMS s.wval.toNat s.wlen ++ p = p
  rw [h.wlen]
  rfl

/-- What CHD.RUN does with all the bits at once is what they do one by one. -/
theorem Session.readBits_of_run {p : List Bool} (hp : p.length ≤ 64) (hdec : s.decState ≠ .streamEnd)
    (hrun : exec .chdRun (s.load p) = .next t) (ht : t.faulted = false) (hb2 : t.b2 = .empty) :
    readBits p s = some t ∧ t.Launch := by
  have hempty : s.b2.len = 0 := by rw [h.b2]
  have hread := readBits_eq_run h.launch (decoderRun_empty hempty) (bs := p) (by omega)
  rw [settled_of_ne hdec, (exec_chdRun_iff (s := s.load p) h.launch.1 ht).1 hrun] at hread
  have hsettled : t.settled = t := by
    unfold State.settled
    rw [← hb2]
    split <;> rfl
  exact ⟨hread.trans (congrArg some hsettled), ht, exec_inv (h.bits_load hp).2 hrun⟩

/-- A table size starts the header. -/
theorem Session.tableSize (hdec : s.decState = .readingHeaderInfo) {ts : Nat} {header : CodeTable} (hlo : 2 ≤ ts)
    (hhi : ts ≤ 65) (hheader : headerTable u.cfg ts = .ok header) : ∃ t, readBits (bitsMS ts 9) s = some t ∧
      Session u t syms k ∧ t.decState = .decodingHeader ∧ t.hcnt = 0 ∧ t.ct2 = header := by
  have hp : (bitsMS ts 9).length ≤ 64 := by simp
  obtain ⟨hbits, hinv⟩ := h.bits_load hp
  obtain ⟨x, hx, -, hend⟩ := decoderReadsTableSize (s.load (bitsMS ts 9)) ts .empty hinv h.launch.1 hdec BitBuf.wf_empty
    hlo hhi hbits
  obtain rfl : x = header := Except.ok.inj (hx.symm.trans (h.cfg ▸ hheader))
  obtain ⟨hread, hlaunch⟩ := h.readBits_of_run hp (by rw [hdec]; nofun) (hend rfl) h.launch.1 rfl
  exact ⟨_, hread, { h with launch := hlaunch, b2 := rfl }, rfl, rfl, rfl⟩

section
variable (hdec : s.decState = .decodingHeader) {l : Nat} (hl : 0 < s.ct2.lenOf l)
include hdec hl

/-- A length that is not the last is recorded. -/
theorem Session.length_more (hcnt : s.hcnt < 257) : ∃ t, readBits (s.ct2.codeBits l) s = some t ∧ Session u t syms k ∧
    t.decState = .decodingHeader ∧ t.ct2 = s.ct2 ∧ t.hcnt = s.hcnt + 1 ∧ t.hlen = s.hlen.set s.hcnt l := by
  have hp := (h.launch.2.slotCanonical h.launch.1 .ct2).length_codeBits_le l
  obtain ⟨hbits, hinv⟩ := h.bits_load hp
  obtain ⟨-, hmore, -⟩ := decoderReadsLength (s.load (s.ct2.codeBits l)) l _ .empty hinv h.launch.1 hdec
    BitBuf.wf_empty (CodeTable.codeBits_ne_nil hl) h.walked hbits
  obtain ⟨hread, hlaunch⟩ := h.readBits_of_run hp (by rw [hdec]; nofun) (hmore hcnt rfl) h.launch.1 rfl
  exact ⟨_, hread, { h with launch := hlaunch, b2 := rfl, wlen := rfl }, hdec, rfl, rfl, rfl⟩

/-- The last length makes the data table. -/
theorem Session.length_last {data : CodeTable} (hdata : data.Canonical) (hcnt : s.hcnt = 257)
    (hall : s.hlen.set 257 l = data.len) : ∃ t, readBits (s.ct2.codeBits l) s = some t ∧ Session u t syms k ∧
      t.decState = .decodingBlock ∧ t.ct3 = data := by
  have hp := (h.launch.2.slotCanonical h.launch.1 .ct2).length_codeBits_le l
  obtain ⟨hbits, hinv⟩ := h.bits_load hp
  obtain ⟨-, -, hlast⟩ := decoderReadsLength (s.load (s.ct2.codeBits l)) l _ .empty hinv h.launch.1 hdec
    BitBuf.wf_empty (CodeTable.codeBits_ne_nil hl) h.walked hbits
  obtain ⟨x, hx, hxlen, -, hend⟩ := hlast hcnt (hall ▸ hdata.shape.2.2) (hall ▸ hdata.kraft)
  obtain ⟨hread, hlaunch⟩ := h.readBits_of_run hp (by rw [hdec]; nofun) (hend rfl) h.launch.1 rfl
  exact ⟨_, hread, { h with launch := hlaunch, b2 := rfl, wlen := rfl }, rfl, hx.eq_of_len_eq hdata (hxlen.trans hall)⟩

end

/-- The rest of the 258 lengths, after those of `known`, makes the data table. -/
theorem Session.lengths {data header : CodeTable} (hdata : data.Canonical) (hdec : s.decState = .decodingHeader)
    (hslot : s.ct2 = header) {known rest : List Nat} (hrest : rest ≠ []) (hsplit : known ++ rest = data.len)
    (hcnt : s.hcnt = known.length) (hknown : s.hlen.take known.length = known)
    (hcoded : ∀ l ∈ rest, 0 < header.lenOf l) : ∃ t, readBits (rest.flatMap header.codeBits) s = some t ∧
      Session u t syms k ∧ t.decState = .decodingBlock ∧ t.ct3 = data := by
  induction rest generalizing s known with
  | nil => exact absurd rfl hrest
  | cons l rest ih =>
    subst hslot
    obtain ⟨hl, hcoded⟩ := List.forall_mem_cons.1 hcoded
    have hcount : data.len.length = 258 := hdata.shape.1
    rw [← hsplit, List.length_append, List.length_cons] at hcount
    obtain ⟨-, -, (hhlen : s.hlen.length = 258), -⟩ := h.launch.2.header
    have hset : (s.hlen.set s.hcnt l).take (known.length + 1) = known ++ [l] := by
      rw [hcnt, List.take_add_one, List.take_set_of_le le_rfl, List.getElem?_set_self (by omega), hknown]
      rfl
    rw [List.flatMap_cons, readBits_append]
    by_cases hne : rest = []
    · subst hne
      rw [List.length_nil] at hcount
      have hall : s.hlen.set 257 l = data.len := by
        rw [← hsplit, ← hset, show s.hcnt = 257 by omega]
        exact (List.take_of_length_le (by rw [List.length_set]; omega)).symm
      obtain ⟨t, hread, ht⟩ := h.length_last hdec hl hdata (by omega) hall
      exact ⟨t, by rw [hread]; rfl, ht⟩
    · have hpos := List.length_pos_iff.2 hne
      obtain ⟨t, hread, ht, htdec, htslot, htcnt, hthlen⟩ := h.length_more hdec hl (by omega)
      rw [hread, Option.bind_some]
      exact ih (known := known ++ [l]) ht htdec htslot hne (by rw [← hsplit, List.append_assoc]; rfl)
        (by rw [htcnt, hcnt, List.length_append]; rfl) (by rw [hthlen, List.length_append]; exact hset) hcoded

section
variable (hdec : s.decState = .decodingBlock)
include hdec

/-- A code of the data table delivers its symbol. -/
theorem Session.symbol {v : Nat} (hv : 0 < s.ct3.lenOf v) (hroom : syms.length < u.outCap.toNat) :
    ∃ t, readBits (s.ct3.codeBits v) s = some t ∧ Session u t (syms ++ [v]) (if v = 256 then k + 1 else k) ∧
      t.decState = (if v = 256 then .readingHeaderInfo else if v = 257 then .streamEnd else .decodingBlock) ∧
      t.ct3 = s.ct3 := by
  have hp := (h.launch.2.slotCanonical h.launch.1 .ct3).length_codeBits_le v
  have hne := CodeTable.codeBits_ne_nil hv
  obtain ⟨hbits, hinv⟩ := h.bits_load hp
  obtain ⟨t, hcell, hkept, hcnt, hblocks, hstate, ht, -, hend⟩ := decoderDeliversSymbol (s.load (s.ct3.codeBits v)) v _
    .empty hinv h.launch.1 hdec BitBuf.wf_empty hne h.walked hbits (h.outCnt.trans_lt (h.outCap ▸ hroom))
  have hcell : (t.readCell (s.outBase.toNat + s.outCnt.toNat)).toNat = v := hcell
  have hkept : CellsOutsideKept s t (s.outBase.toNat + s.outCnt.toNat) 1 := hkept
  rw [h.outBase, h.outCnt] at hcell hkept
  obtain ⟨hread, hlaunch⟩ := h.readBits_of_run hp (by rw [hdec]; nofun) (hend rfl) (by rw [ht]; exact h.launch.1)
    (by rw [ht])
  refine ⟨t, hread, {
    launch := hlaunch
    cfg := by rw [ht]; exact h.cfg
    outBase := by rw [ht]; exact h.outBase
    outCap := by rw [ht]; exact h.outCap
    outCnt := by rw [hcnt, List.length_append]; exact congrArg (· + 1) h.outCnt
    cells := by
      rw [List.length_append, List.length_singleton, data_succ, data_of_cellsOutsideKept hkept, hcell, h.cells]
    decBlocks := ?_
    b2 := by rw [ht]
    wlen := by rw [ht] }, hstate, by rw [ht]; rfl⟩
  have hblocks : t.decBlocks = if v = 256 then s.decBlocks + 1 else s.decBlocks := hblocks
  rw [hblocks, h.decBlocks]
  split
  · exact (BitVec.ofNat_add k 1).symm
  · rfl

/-- The codes of bytes deliver them. -/
theorem Session.symbols {d : List Nat} (hbytes : ∀ x ∈ d, x ≤ 255) (hcoded : ∀ x ∈ d, 0 < s.ct3.lenOf x)
    (hroom : syms.length + d.length ≤ u.outCap.toNat) : ∃ t, readBits (d.flatMap s.ct3.codeBits) s = some t ∧
      Session u t (syms ++ d) k ∧ t.decState = .decodingBlock ∧ t.ct3 = s.ct3 := by
  induction d generalizing s syms with
  | nil => exact ⟨s, rfl, by rwa [List.append_nil], hdec, rfl⟩
  | cons x d ih =>
    obtain ⟨hx, hbytes⟩ := List.forall_mem_cons.1 hbytes
    obtain ⟨hxc, hcoded⟩ := List.forall_mem_cons.1 hcoded
    rw [List.length_cons] at hroom
    obtain ⟨t, hread, ht, htdec, hslot⟩ := h.symbol hdec hxc (by omega)
    rw [if_neg (by omega)] at ht
    rw [if_neg (by omega), if_neg (by omega)] at htdec
    obtain ⟨w, hreadw, hw, hwdec, hwslot⟩ := ih ht htdec hbytes (by rwa [hslot])
      (by rw [List.length_append, List.length_singleton]; omega)
    rw [hslot] at hreadw
    refine ⟨w, ?_, by simpa using hw, hwdec, hwslot.trans hslot⟩
    rw [List.flatMap_cons, readBits_append, hread]
    exact hreadw

end

end

/-! ### Blocks -/

/-- What makes a block decodable: its tables are the ones the rules name, and everything on the wire has a code
(45_huffman_encoder R188). -/
structure BlockCoded (cfg : Config) (d : List Nat) (f : Bool) (data header : CodeTable) : Prop where
  data_canonical : data.Canonical
  header_eq : headerTable cfg (tableSize data) = .ok header
  lengths_coded : ∀ l ∈ data.len, 0 < header.lenOf l
  symbols_coded : ∀ x ∈ d ++ [terminator f], 0 < data.lenOf x
  bytes : ∀ x ∈ d, x ≤ 255

/-- Fed to a decoder that waits for a block, these bits deliver these symbols and count n blocks, and leave it in state d. -/
def DecodesTo (prior : List Nat) (bits : List Bool) (out : List Nat) (n : Nat) (d : DecState) : Prop :=
  ∀ (u s : State) (syms : List Nat) (k : Nat), Session u s syms k → s.decState = .readingHeaderInfo →
    u.cfg.hdrPrior = prior → syms.length + out.length ≤ u.outCap.toNat →
    ∃ t, readBits bits s = some t ∧ Session u t (syms ++ out) (k + n) ∧ t.decState = d

section
variable {prior : List Nat} {bits bits' : List Bool} {out out' : List Nat} {n n' : Nat} {d : DecState}

theorem DecodesTo.append (h : DecodesTo prior bits out n .readingHeaderInfo) (h' : DecodesTo prior bits' out' n' d) :
    DecodesTo prior (bits ++ bits') (out ++ out') (n + n') d := by
  intro u s syms k hs hdec hprior hroom
  rw [List.length_append] at hroom
  obtain ⟨t, hread, ht, htdec⟩ := h u s syms k hs hdec hprior (by omega)
  obtain ⟨w, hread', hw, hwdec⟩ := h' u t _ _ ht htdec hprior (by rw [List.length_append]; omega)
  refine ⟨w, ?_, by rwa [← List.append_assoc, ← Nat.add_assoc], hwdec⟩
  rw [readBits_append, hread]
  exact hread'

/-- Bits after the end of the stream are ignored (46_huffman_decoder R203). -/
theorem DecodesTo.append_ignored (h : DecodesTo prior bits out n .streamEnd) (more : List Bool) :
    DecodesTo prior (bits ++ more) out n .streamEnd := by
  intro u s syms k hs hdec hprior hroom
  obtain ⟨t, hread, ht, htdec⟩ := h u s syms k hs hdec hprior hroom
  refine ⟨t, ?_, ht, htdec⟩
  rw [readBits_append, hread]
  exact readBits_streamEnd htdec more

end

theorem headerTable_congr {c c' : Config} (h : c.hdrPrior = c'.hdrPrior) (k : Nat) :
    headerTable c k = headerTable c' k := by
  rw [headerTable, headerTable, hdrWeights, hdrWeights, h]

theorem lt_tableSize {t : CodeTable} {l : Nat} (h : l ∈ t.len) : l < tableSize t := by
  have hle : l ≤ t.len.foldl max 0 := by
    rw [List.foldl_eq_foldr]
    exact List.le_max_of_le' 0 h le_rfl
  rw [tableSize]
  omega

section
variable {cfg : Config} {d : List Nat} {f : Bool} {data header : CodeTable} (h : BlockCoded cfg d f data header)
include h

theorem BlockCoded.two_le_tableSize : 2 ≤ tableSize data := by
  have hpos := h.symbols_coded (terminator f) (by simp)
  rcases getD_eq_or_mem data.len (terminator f) 0 with hzero | hmem
  · exact absurd hzero hpos.ne'
  · exact (Nat.succ_le_succ hpos).trans (lt_tableSize hmem)

/-- A block on the wire delivers its data and its terminator (46_huffman_decoder R210). -/
theorem BlockCoded.decodesTo : DecodesTo cfg.hdrPrior (blockBits data header (tableSize data) d (terminator f))
    (d ++ [terminator f]) (if f then 0 else 1) (if f then .streamEnd else .readingHeaderInfo) := by
  intro u s syms k hs hdec hprior hroom
  rw [List.length_append, List.length_singleton] at hroom
  have hne : data.len ≠ [] := by
    have := h.data_canonical.shape.1
    rintro hnil
    rw [hnil] at this
    cases this
  obtain ⟨hcoded, hterm⟩ := List.forall_mem_append.1 h.symbols_coded
  have hterm := hterm _ (List.mem_singleton_self _)
  obtain ⟨s1, hread1, hs1, hdec1, hcnt1, hslot1⟩ := hs.tableSize hdec h.two_le_tableSize
    (tableSize_le h.data_canonical.shape) ((headerTable_congr hprior _).trans h.header_eq)
  obtain ⟨s2, hread2, hs2, hdec2, hslot2⟩ := hs1.lengths h.data_canonical hdec1 hslot1 (known := []) hne rfl hcnt1 rfl
    h.lengths_coded
  subst hslot2
  obtain ⟨s3, hread3, hs3, hdec3, hslot3⟩ := hs2.symbols hdec2 h.bytes hcoded (by omega)
  obtain ⟨s4, hread4, hs4, hdec4, -⟩ := hs3.symbol hdec3 (hslot3 ▸ hterm) (by rw [List.length_append]; omega)
  rw [hslot3] at hread4
  refine ⟨s4, ?_, ?_, ?_⟩
  · rw [blockBits, List.flatMap_append, List.append_assoc, readBits_append, hread1, Option.bind_some, readBits_append,
      hread2, Option.bind_some, readBits_append, hread3, Option.bind_some]
    simpa using hread4
  · rw [← List.append_assoc]
    cases f <;> exact hs4
  · rw [hdec4]
    cases f <;> rfl

end

end Sys2Proof.Machine
end

