-- ==== Sys2Proof/Proofs/StreamRoundTrip.lean ====
section
/-! PROOF. The round trip (46_huffman_decoder R210). What CHE.BLOCK puts into SINK when it ends without a fault is the block on
the wire, whatever the lengths of its codes; so the bits of a stream decode to its blocks. -/

namespace Sys2Proof.Machine

/-! ### What the encoder has put when it ends without a fault -/

section
variable {s t : State}

theorem Emitted.refl (hb : s.b0.wf) (hlen : s.b0.len ≤ 7) : Emitted s [] s.b1 s :=
  ⟨hb, hlen, [], by rw [State.sinkPut_nil], (List.append_nil _).symm⟩

theorem emitted_of_emit {v : Word64} {l : Nat} (hb : s.b0.wf) (h : emit v l s = .done t) :
    Emitted s (bitsMS v.toNat l) ⟨v, l⟩ t := by
  by_cases hfits : s.b0.len % 8 + l ≤ 64
  · obtain ⟨u, hdone, hu⟩ := exists_emit_emitted (v := v) hb hfits
    obtain rfl : u = t := CmdEnd.done.inj (hdone.symm.trans h)
    exact hu
  · rw [emit_overflows hb (Nat.lt_of_not_le hfits)] at h
    cases h

theorem emitted_of_encodeSym {c : Slot} {y : Nat} (hb : s.b0.wf) (h : encodeSym c y s = .done t) :
    0 < (s.getSlot c).lenOf y ∧ ∃ p, Emitted s ((s.getSlot c).codeBits y) p t := by
  rcases Nat.eq_zero_or_pos ((s.getSlot c).lenOf y) with hzero | hpos
  · rw [encodeSym_of_absent hzero] at h
    cases h
  · rw [encodeSym_of_coded hpos] at h
    exact ⟨hpos, _, emitted_of_emit hb h⟩

theorem emitted_of_encodeSyms {c : Slot} {ys : List Nat} (hb : s.b0.wf) (hlen : s.b0.len ≤ 7)
    (h : encodeSyms c ys s = .done t) : (∀ y ∈ ys, 0 < (s.getSlot c).lenOf y) ∧
      ∃ p, Emitted s (ys.flatMap (s.getSlot c).codeBits) p t := by
  induction ys generalizing s with
  | nil =>
    cases h
    exact ⟨nofun, _, Emitted.refl hb hlen⟩
  | cons y ys ih =>
    obtain ⟨w, hy, hys⟩ := CmdEnd.andThen_eq_done.1 h
    obtain ⟨hpos, p, hw⟩ := emitted_of_encodeSym hb hy
    obtain ⟨hcoded, q, ht⟩ := ih hw.wf hw.short hys
    rw [hw.getSlot c] at hcoded ht
    exact ⟨List.forall_mem_cons.2 ⟨hpos, hcoded⟩, q, hw.trans ht⟩

theorem bitsMS_tableSize {x : CodeTable} (hx : x.shape) :
    bitsMS (BitVec.ofNat 64 (tableSize x)).toNat 9 = bitsMS (tableSize x) 9 := by
  have := tableSize_le hx
  rw [toNat_ofNat_64 (n := 9) (by omega) (by decide)]

/-- The bits of a block as CHE.BLOCK puts them, a final one padded (45_huffman_encoder R193). -/
def paddedBlock (len : Nat) (data header : CodeTable) (d : List Nat) (f : Bool) : List Bool :=
  let bits := blockBits data header (tableSize data) d (terminator f)
  bits ++ if f then padBits (len + bits.length) else []

theorem emitted_of_encodeBody {d : List Nat} {f : Bool} (hb : s.b0.wf) (hdata : s.ct0.Canonical)
    (hbytes : ∀ x ∈ d, x ≤ 255) (h : encodeBody d f s = .done t) : ∃ header p, BlockCoded s.cfg d f s.ct0 header ∧
      Emitted (s.setSlot .ct1 header) (paddedBlock s.b0.len s.ct0 header d f) p t ∧ (f = true → t.b0.len = 0) := by
  obtain ⟨s1, hsize, h⟩ := CmdEnd.andThen_eq_done.1 h
  have hs1 := emitted_of_emit hb hsize
  have hslot1 : s1.ct0 = s.ct0 := hs1.getSlot .ct0
  cases hheader : headerTable s1.cfg (tableSize s1.ct0) with
  | error c => rw [hheader] at h; cases h
  | ok header =>
    rw [hheader] at h
    obtain ⟨s2, hlens, h⟩ := CmdEnd.andThen_eq_done.1 h
    obtain ⟨s3, hsyms, hend⟩ := CmdEnd.andThen_eq_done.1 h
    obtain ⟨hlcoded, p, hs2⟩ := emitted_of_encodeSyms (s := s1.setSlot .ct1 header) hs1.wf hs1.short hlens
    have hslot2 : s2.ct0 = s.ct0 := (hs2.getSlot .ct0).trans hslot1
    obtain ⟨hscoded, q, hs3⟩ := emitted_of_encodeSyms hs2.wf hs2.short hsyms
    rw [State.getSlot_setSlot_self, hslot1] at hlcoded hs2
    rw [hs1.cfg, hslot1] at hheader
    rw [show s2.getSlot .ct0 = s.ct0 from hslot2] at hscoded hs3
    rw [bitsMS_tableSize hdata.shape] at hs1
    obtain ⟨w, hw, hs4, hempty⟩ := exists_finish_emitted (((hs1.setSlot .ct1 header).trans hs2).trans hs3) f
    obtain rfl : w = t := hw.symm.trans (CmdEnd.done.inj hend)
    exact ⟨header, q, ⟨hdata, hheader, hlcoded, hscoded, hbytes⟩, hs4, hempty⟩

/-- From s to t these bits have come behind the stream's bits; M is the same. -/
structure PutsBits (s : State) (bits : List Bool) (t : State) : Prop where
  sink : ∃ bs, t.sink = s.sink ++ bs ∧ byteBits bs ++ t.b0.bits = s.b0.bits ++ bits
  mem : t.mem = s.mem
  draws : t.draws = s.draws
  cfg : t.cfg = s.cfg

theorem PutsBits.trans {u : State} {as bs : List Bool} (h : PutsBits s as t) (h' : PutsBits t bs u) :
    PutsBits s (as ++ bs) u := by
  obtain ⟨⟨xs, hxs, hbits⟩, hmem, hdraws, hcfg⟩ := h
  obtain ⟨⟨ys, hys, hbits'⟩, hmem', hdraws', hcfg'⟩ := h'
  refine ⟨⟨xs ++ ys, by rw [hys, hxs, List.append_assoc], ?_⟩, hmem'.trans hmem, hdraws'.trans hdraws, hcfg'.trans hcfg⟩
  rw [byteBits_append, List.append_assoc, hbits', ← List.append_assoc, hbits, List.append_assoc]

theorem putsBits_of_emitted {x y : CodeTable} {bits : List Bool} {p : BitBuf}
    (h : Emitted ((s.setSlot .ct0 x).setSlot .ct1 y) bits p t) : PutsBits s bits t := by
  obtain ⟨-, -, bs, ht, hbits⟩ := h
  exact ⟨⟨bs, by rw [ht]; rfl, hbits⟩, by rw [ht]; rfl, by rw [ht]; rfl, by rw [ht]; rfl⟩

/-- CHE.BLOCK without a fault puts a decodable block behind the stream's bits. -/
theorem putsBits_of_cheBlock {f : Bool} {a b : Word} (hb : s.b0.wf) (h : cheBlockBody f a b s = .done t) :
    ∃ data header, BlockCoded s.cfg (s.data a.toNat b.toNat) f data header ∧
      PutsBits s (paddedBlock s.b0.len data header (s.data a.toNat b.toNat) f) t ∧ (f = true → t.b0.len = 0) := by
  have hregion : a.toNat + b.toNat ≤ s.cfg.memWords := by
    by_contra hout
    rw [cheBlockBody, checkRegion_bounds (Nat.lt_of_not_le hout)] at h
    cases h
  rw [cheBlockBody, checkRegion_passes hregion] at h
  have hbytes : ∀ x ∈ s.data a.toNat b.toNat, x ≤ 255 := by
    by_contra hbig
    push Not at hbig
    dsimp only at h
    rw [checkBytes_range hbig] at h
    cases h
  dsimp only at h
  rw [checkBytes_passes hbytes] at h
  cases hdata : buildTable (blockFreqs (s.data a.toNat b.toNat) f) with
  | error c => rw [State.data] at hdata; rw [hdata] at h; cases h
  | ok data =>
    rw [State.data] at hdata
    rw [hdata] at h
    obtain ⟨s1, hs1, hbody⟩ := CmdEnd.andThen_eq_done.1 h
    cases hs1
    obtain ⟨header, p, hcoded, hemitted, hempty⟩ :=
      emitted_of_encodeBody (s := s.setSlot .ct0 data) hb (buildTable_canonical hdata) hbytes hbody
    exact ⟨data, header, hcoded, putsBits_of_emitted hemitted, hempty⟩

end

/-! ### A stream of blocks -/

theorem deliveredSymbols_congr {s t : State} (hmem : t.mem = s.mem) (hdraws : t.draws = s.draws)
    (blocks : List (Word × Word)) : deliveredSymbols t blocks = deliveredSymbols s blocks := by
  induction blocks with
  | nil => rfl
  | cons block rest ih =>
    rw [deliveredSymbols, deliveredSymbols, ih, State.data, State.data, State.readRegion_congr hmem hdraws]

theorem encodeBlocks_cons {s t : State} {a b : Word} {rest : List (Word × Word)} (hs : s.faulted = false)
    (h : encodeBlocks ((a, b) :: rest) s = some t) : ∃ s1, exec (.cheBlock rest.isEmpty a b) s = .next s1 ∧
      cheBlockBody rest.isEmpty a b s = .done s1 ∧ s1.faulted = false ∧ encodeBlocks rest s1 = some t := by
  rw [encodeBlocks] at h
  split at h
  case h_1 s1 hexec =>
    split at h
    · cases h
    case isFalse hs1 =>
      have hs1 : s1.faulted = false := by simpa using hs1
      exact ⟨s1, hexec, bodyOf_eq_done hexec hs hs1, hs1, h⟩
  · cases h

/-- The bits of a stream deliver its blocks, each with its terminator. -/
theorem decodesTo_of_encodeBlocks {blocks : List (Word × Word)} {s t : State} (hne : blocks ≠ []) (hs : s.Launch)
    (h : encodeBlocks blocks s = some t) : ∃ bits, PutsBits s bits t ∧ t.b0.len = 0 ∧
      DecodesTo s.cfg.hdrPrior bits (deliveredSymbols s blocks) (blocks.length - 1) .streamEnd := by
  induction blocks generalizing s with
  | nil => exact absurd rfl hne
  | cons block rest ih =>
    obtain ⟨a, b⟩ := block
    obtain ⟨s1, hexec, hbody, hs1, hrest⟩ := encodeBlocks_cons hs.1 h
    obtain ⟨data, header, hcoded, hputs, hempty⟩ := putsBits_of_cheBlock (hs.2.bufs .b0) hbody
    have hdecodes := hcoded.decodesTo
    cases rest with
    | nil =>
      cases hrest
      exact ⟨_, hputs, hempty rfl, hdecodes.append_ignored _⟩
    | cons next rest =>
      obtain ⟨bits, hputs', hlast, hdecodes'⟩ := ih (List.cons_ne_nil next rest) ⟨hs1, exec_inv hs.2 hexec⟩ hrest
      rw [hputs.cfg, deliveredSymbols_congr hputs.mem hputs.draws] at hdecodes'
      have hall := hdecodes.append hdecodes'
      refine ⟨_, hputs.trans hputs', hlast, ?_⟩
      rw [paddedBlock, List.isEmpty_cons, if_neg Bool.false_ne_true, List.append_nil]
      simpa [deliveredSymbols, terminator, Nat.add_comm] using hall

/-- After CHD.RST a session begins. -/
theorem session_of_chdRst {u0 u : State} (hu0 : u0.Launch) (h : exec .chdRst u0 = .next u) :
    Session u u [] 0 ∧ u.decState = .readingHeaderInfo := by
  have hinv := exec_inv hu0.2 h
  obtain rfl := Host.Outcome.next.inj ((exec_of_done hu0.1 rfl).symm.trans h)
  exact ⟨⟨⟨hu0.1, hinv⟩, rfl, rfl, rfl, rfl, rfl, rfl, rfl, rfl⟩, rfl⟩

/-- Settles O60: the bytes are the bits of the stream, and the bits deliver the blocks. -/
theorem streamRoundTrip : Obligations.StreamRoundTrip := by
  unfold Obligations.StreamRoundTrip
  intro blocks s t u0 u hne hinv hs hb0 hencode hu0inv hu0 hrst hprior hroom
  obtain ⟨bits, ⟨⟨bytes, hsink, hbits⟩, -⟩, hempty, hdecodes⟩ := decodesTo_of_encodeBlocks hne ⟨hs, hinv⟩ hencode
  have htb0 : t.b0.bits = [] := List.eq_nil_of_length_eq_zero (by rw [BitBuf.length_bits, hempty])
  have hsb0 : s.b0.bits = [] := by rw [hb0]; rfl
  rw [htb0, hsb0, List.append_nil, List.nil_append] at hbits
  obtain ⟨hsession, hdec⟩ := session_of_chdRst ⟨hu0, hu0inv⟩ hrst
  obtain ⟨w, hread, hw, hwdec⟩ := hdecodes u u [] 0 hsession hdec hprior (by simpa using hroom)
  have hsettled : u.settled = u := settled_of_ne (by rw [hdec]; nofun)
  rw [← hbits, ← hsettled] at hread
  obtain ⟨v, hfeed, hv, -, hvlaunch⟩ :=
    exists_feedBytes hsession.launch (decoderRun_empty (by rw [hsession.b2])) hread
  rw [List.nil_append, Nat.zero_add] at hw
  have hwsettled : w.settled = w := by rw [settled_of_streamEnd hwdec, ← hw.b2]
  obtain ⟨hkeep, -⟩ := eq_of_settled_eq (hv.trans hwsettled.symm)
  rw [hsink, List.drop_left]
  exact ⟨v, hfeed, hvlaunch.1, (congrArg (·.decState) hkeep).trans hwdec,
    (congrArg (·.decBlocks) hkeep).trans hw.decBlocks, (congrArg (·.outCnt.toNat) hkeep).trans hw.outCnt,
    (congrArg (State.data · u.outBase.toNat (deliveredSymbols s blocks).length) hkeep).trans hw.cells⟩

end Sys2Proof.Machine
end

