-- ==== Sys2Proof/Proofs/SystemCommands.lean ====
section
/-! PROOF. SYS.NOP and the session commands (47_system R220, R221). Each ends well in every state, so its effect is the end
of its pseudocode. -/

namespace Sys2Proof.Machine

/-- SYS.NOP is the descriptor of all zeros (47_system R220). -/
theorem encode_sysNop : encode .sysNop = 0 := by decide

/-- A descriptor is SYS.NOP's exactly when it is its encoding. -/
theorem decode_eq_sysNop_iff {d : Desc} : decode d = .ok .sysNop ↔ d = 0 := by
  constructor
  · intro h
    rw [← encode_of_decode h, encode_sysNop]
  · rintro rfl
    rw [← encode_sysNop]
    exact decodeOfEncodedCommand .sysNop rfl

/-- Settles O23: none of the five commands can fault, and FAULTED = 1 refuses every command. -/
theorem sessionCommands : Obligations.SessionCommands := by
  unfold Obligations.SessionCommands
  refine ⟨fun d => decode_eq_sysNop_iff, fun s i hs => exec_of_faulted hs i, fun s hs => ?_⟩
  exact ⟨fun o _ => strayRaisesIllegal o hs, exec_of_done hs rfl, exec_of_done hs rfl, exec_of_done hs rfl,
    exec_of_done hs rfl, exec_of_done hs rfl⟩

end Sys2Proof.Machine
end

