-- ==== Sys2Proof/Proofs/HostActions.lean ====
section
/-! PROOF. The host's actions on a faulted block, the reset input, and the bytes the host takes (60_exceptions R229, R246,
70_reset R255, R256). What an action leaves of a faulted block is said once, for these statements and for runs. -/

namespace Sys2Proof.Machine

/-- A faulted block accepts every descriptor and changes nothing (60_exceptions R229). -/
theorem issue_of_faulted {s : State} (h : s.faulted = true) (d : Desc) : issue d s = .next s := by
  unfold issue
  split
  · exact exec_of_faulted h _
  · rw [State.raise_of_faulted s _ h]

/-- FAULTED, ERR, SINK, SINK_CNT and every register the block's commands work on are in t what they were in s. -/
structure BlockKept (s t : State) : Prop where
  faulted : t.faulted = s.faulted
  err : t.err = s.err
  toRegs : t.toRegs = s.toRegs
  sink : t.sink = s.sink
  sinkCnt : t.sinkCnt = s.sinkCnt

theorem BlockKept.refl (s : State) : BlockKept s s := ⟨rfl, rfl, rfl, rfl, rfl⟩

theorem BlockKept.trans {s t u : State} (h : BlockKept s t) (k : BlockKept t u) : BlockKept s u :=
  ⟨k.faulted.trans h.faulted, k.err.trans h.err, k.toRegs.trans h.toRegs, k.sink.trans h.sink, k.sinkCnt.trans h.sinkCnt⟩

/-- No action of the host but reset changes a faulted block. -/
theorem hostAct_blockKept {a : HostAction} {s t : State} (ha : a ≠ .reset) (hs : s.faulted = true)
    (h : hostAct a s = .next t) : BlockKept s t := by
  cases a with
  | issue d => cases (issue_of_faulted hs d).symm.trans h; exact .refl s
  | csrRead k | drain k => cases h; exact ⟨rfl, rfl, rfl, rfl, rfl⟩
  | memRead a =>
    simp only [hostAct, hostRead] at h
    split at h <;> cases h
    exact ⟨rfl, rfl, rfl, rfl, rfl⟩
  | memWrite a v =>
    simp only [hostAct, hostWrite] at h
    split at h <;> cases h
    exact ⟨rfl, rfl, rfl, rfl, rfl⟩
  | reset => exact absurd rfl ha

/-- Only reset clears FAULTED or changes ERR (60_exceptions R229, 70_reset R255). -/
theorem hostAct_of_faulted {a : HostAction} {s t : State} (ha : a ≠ .reset) (hs : s.faulted = true)
    (h : hostAct a s = .next t) : t.faulted = true ∧ t.err = s.err := by
  have hk := hostAct_blockKept ha hs h
  exact ⟨hk.faulted.trans hs, hk.err⟩

/-- Settles O6: a descriptor is refused, and no other action but reset touches FAULTED or ERR. -/
theorem faultedBlockRefusesDescriptors : Obligations.FaultedBlockRefusesDescriptors := by
  unfold Obligations.FaultedBlockRefusesDescriptors
  intro s hs
  exact ⟨issue_of_faulted hs, fun k => rfl, fun a t ha => hostAct_of_faulted ha hs, s.resetInput, rfl, rfl, rfl⟩

/-- Settles O7: the reset input writes the reset values into every register and leaves M and the configuration. -/
theorem resetInputRestoresResetValues : Obligations.ResetInputRestoresResetValues := by
  unfold Obligations.ResetInputRestoresResetValues
  intro s
  have hbuf (i : BufReg) : s.resetInput.getBuf i = ⟨0, 0⟩ := by cases i <;> rfl
  have hslot (u : Slot) : s.resetInput.getSlot u = ⟨List.replicate 258 0, List.replicate 258 0⟩ := by cases u <;> rfl
  exact ⟨s.resetInput, rfl, hbuf, rfl, rfl, rfl, rfl, rfl, rfl, rfl, hslot, rfl, rfl, rfl, rfl, rfl, rfl, rfl, rfl, rfl,
    rfl, rfl, rfl, rfl, fun a u ha hs => hostAct_of_faulted ha hs⟩

/-- Settles O13: the bytes taken are those of SINK right behind the bytes taken before. -/
theorem hostDrainsInOrder : Obligations.HostDrainsInOrder := by
  unfold Obligations.HostDrainsInOrder
  intro s k _
  have hlen : ((s.sink.drop s.drained).take k).length = min k (s.sink.length - s.drained) := by
    rw [List.length_take, List.length_drop]
  have hnext : s.sink.take s.drained ++ (s.sink.drop s.drained).take k =
      s.sink.take (s.drained + ((s.sink.drop s.drained).take k).length) := by
    rw [List.take_add, List.length_take, ← List.take_eq_take_min]
  exact ⟨hostDrain k s, _, rfl, rfl, hlen, hnext, rfl, rfl⟩

end Sys2Proof.Machine
end

