-- ==== Sys2Proof/Proofs/FaultedRuns.lean ====
section
/-! PROOF. A run has a result exactly when no state of it is faulted (70_reset R268). From a faulted state on only a reset
changes the block, so without one the last state tells. -/

namespace Sys2Proof.Machine

section
variable {k : Nat} {s t : State}

/-- A step that is no reset changes nothing of a faulted block. -/
theorem step_blockKept (hs : s.faulted = true) (hp : .reset ∉ s.pending) (h : step s = .next t) : BlockKept s t := by
  unfold step at h
  split at h
  · cases h; exact .refl s
  case h_2 a rest hpending =>
    have ha : a ≠ .reset := by
      rintro rfl
      exact hp (hpending ▸ List.mem_cons_self)
    have hk := hostAct_blockKept (s := s.accept) ha hs h
    exact ⟨hk.faulted, hk.err, hk.toRegs, hk.sink, hk.sinkCnt⟩

/-- A step brings no reset among the actions to come. -/
theorem step_noReset (hp : .reset ∉ s.pending) (h : step s = .next t) : .reset ∉ t.pending := by
  rw [(step_pending h).2]
  exact fun hm => hp (List.mem_of_mem_tail hm)

theorem run_blockKept (hs : s.faulted = true) (hp : .reset ∉ s.pending) (h : core.run k s = .next t) : BlockKept s t := by
  induction k generalizing s with
  | zero => cases h; exact .refl _
  | succ k ih =>
    obtain ⟨u, hstep, hrun⟩ := run_succ_eq_next.1 h
    have hk := step_blockKept hs hp hstep
    exact hk.trans (ih (hk.faulted.trans hs) (step_noReset hp hstep) hrun)

/-- A result of a longer run is a result of the run from the next state. -/
theorem runResult_succ_eq_some : runResult (k + 1) s = some t ↔
    s.faulted = false ∧ ∃ u, step s = .next u ∧ runResult k u = some t := by
  cases hs : s.faulted with
  | true => simp [runResult_of_faulted hs]
  | false => rw [runResult_succ hs]; cases step s <;> simp

/-- FAULTED is 0 in every state of the run. -/
def Unfaulted (k : Nat) (s : State) : Prop := ∀ j u, j ≤ k → core.run j s = .next u → u.faulted = false

theorem Unfaulted.head (h : Unfaulted k s) : s.faulted = false := h 0 s (Nat.zero_le k) (run_zero s)

theorem unfaulted_succ_iff (h : step s = .next t) :
    Unfaulted (k + 1) s ↔ s.faulted = false ∧ Unfaulted k t := by
  constructor
  · intro hall
    exact ⟨hall.head, fun j v hj hv => hall (j + 1) v (Nat.succ_le_succ hj) ((run_succ h j).trans hv)⟩
  · rintro ⟨hs, hall⟩ j v hj hv
    cases j with
    | zero => cases hv; exact hs
    | succ j => exact hall j v (Nat.le_of_succ_le_succ hj) ((run_succ h j).symm.trans hv)

/-- A run has a result exactly when FAULTED is 0 in every state of it, and the result is its last state. -/
theorem runResult_eq_some_iff : runResult k s = some t ↔ core.run k s = .next t ∧ Unfaulted k s := by
  induction k generalizing s with
  | zero =>
    constructor
    · intro h
      have hs := (runResult_unfaulted h).1
      cases (runResult_zero hs).symm.trans h
      exact ⟨rfl, fun j u hj hu => by cases Nat.le_zero.1 hj; cases hu; exact hs⟩
    · rintro ⟨hrun, hall⟩
      cases hrun
      exact runResult_zero hall.head
  | succ k ih =>
    rw [runResult_succ_eq_some, run_succ_eq_next]
    constructor
    · rintro ⟨hs, u, hstep, hres⟩
      obtain ⟨hrun, hall⟩ := ih.1 hres
      exact ⟨⟨u, hstep, hrun⟩, (unfaulted_succ_iff hstep).2 ⟨hs, hall⟩⟩
    · rintro ⟨⟨u, hstep, hrun⟩, hall⟩
      obtain ⟨hs, hall⟩ := (unfaulted_succ_iff hstep).1 hall
      exact ⟨hs, u, hstep, ih.2 ⟨hrun, hall⟩⟩

/-- In a run without a reset a fault is still there at the end. -/
theorem runResult_of_last (hp : .reset ∉ s.pending) (hrun : core.run k s = .next t) (ht : t.faulted = false) :
    runResult k s = some t := by
  induction k generalizing s with
  | zero => cases hrun; exact runResult_zero ht
  | succ k ih =>
    have hs : s.faulted = false := Bool.eq_false_iff.2 fun hs =>
      absurd ((run_blockKept hs hp hrun).faulted.trans hs) (by simp [ht])
    obtain ⟨u, hstep, hrest⟩ := run_succ_eq_next.1 hrun
    exact runResult_succ_eq_some.2 ⟨hs, u, hstep, ih (step_noReset hp hstep) hrest⟩

/-- With no action left a step changes nothing (log 9). -/
theorem runResult_of_idle (hp : s.pending = []) (k : Nat) : runResult k s = runResult 0 s := by
  induction k with
  | zero => rfl
  | succ k ih =>
    have hstep : step s = .next s := by rw [step, hp]
    cases hs : s.faulted with
    | true => rw [runResult_of_faulted hs, runResult_of_faulted hs]
    | false => rw [runResult_succ hs, hstep, ← ih]

/-- Each step takes one action, so a run is over after as many steps as there are actions. -/
theorem runResult_of_pending_length_le (h : s.pending.length ≤ k) : runResult k s = runResult s.pending.length s := by
  induction k generalizing s with
  | zero => rw [Nat.le_zero.1 h]
  | succ k ih =>
    cases hp : s.pending with
    | nil => exact runResult_of_idle hp _
    | cons a rest =>
      cases hs : s.faulted with
      | true => rw [runResult_of_faulted hs, runResult_of_faulted hs]
      | false =>
        rw [List.length_cons, runResult_succ hs, runResult_succ hs]
        cases hstep : step s with
        | next u =>
          have hrest : u.pending = rest := by rw [(step_pending hstep).2, hp, List.tail_cons]
          rw [← hrest]
          exact ih (by rw [hp, List.length_cons] at h; rw [hrest]; exact Nat.le_of_succ_le_succ h)
        | fault | refused => rfl

end

/-- Settles O11: the result of a run by induction on its steps, and what a faulted block keeps along one. -/
theorem faultEndsTheRun : Obligations.FaultEndsTheRun := by
  unfold Obligations.FaultEndsTheRun
  refine ⟨fun k s t => runResult_eq_some_iff, fun k j s u hj hrun hu => ?_, fun k s t => runResult_of_last,
    fun k s t hs hp hrun => ?_, fun k s => runResult_of_pending_length_le⟩
  · rintro ⟨t, ht⟩
    obtain ⟨-, hall⟩ := runResult_eq_some_iff.1 ht
    simp [hall j u hj hrun] at hu
  · obtain ⟨hfaulted, herr, hregs, hsink, hcnt⟩ := run_blockKept hs hp hrun
    exact ⟨hfaulted.trans hs, herr, hregs, hsink, hcnt⟩

end Sys2Proof.Machine
end

