-- ==== Sys2Proof/Proofs/FaultCodes.lean ====
section
/-! PROOF. Which faults a command raises, and that it touches no absent cell (60_exceptions R226, R231, 70_reset R266).
`e.FaultsIn E L` says both of the end of a part of a command, one lemma per operation the commands are written with. -/

namespace Sys2Proof.Machine

/-! ### The ends -/

/-- An early fault is one of E, a late fault one of L, and no cell is touched that does not exist. -/
def CmdEnd.FaultsIn (E L : List FaultCode) : CmdEnd → Prop
  | .done _ => True
  | .early c => c ∈ E
  | .late c _ => c ∈ L
  | .absent => False

section
variable {E L : List FaultCode} {s : State} {e : CmdEnd}

/-- A sequence: every fault of the second part is late, also one that it raises early (60_exceptions R231). -/
theorem CmdEnd.FaultsIn.andThen {f : State → CmdEnd} (h : e.FaultsIn E L) (hf : ∀ t, e = .done t → (f t).FaultsIn L L) :
    (e.andThen f).FaultsIn E L := by
  cases e with
  | done t =>
    have hrest := hf t rfl
    rw [CmdEnd.andThen_done]
    cases he : f t <;> rw [he] at hrest <;> exact hrest
  | _ => exact h

theorem faultsIn_guard {p : Prop} [Decidable p] {c : FaultCode} (hc : c ∈ E) (h : ¬ p → e.FaultsIn E L) :
    (if p then .early c else e).FaultsIn E L := by
  split
  case isTrue => exact hc
  case isFalse hp => exact h hp

theorem faultsIn_checkRegion {r : Region} (hc : .bounds ∈ E) (h : e.FaultsIn E L) : (checkRegion s r e).FaultsIn E L := by
  unfold checkRegion
  split
  · exact h
  · exact hc

theorem faultsIn_checkSrcDst {p : Bool} {a b c : Word} (hb : .bounds ∈ E) (ho : .overlap ∈ E) (h : e.FaultsIn E L) :
    (checkSrcDst s p a b c e).FaultsIn E L :=
  faultsIn_guard hb fun _ => faultsIn_guard hb fun _ => faultsIn_guard ho fun _ => h

theorem faultsIn_checkBytes {xs : List Word} (hc : .range ∈ E) (h : (∀ x ∈ toNats xs, x ≤ 255) → e.FaultsIn E L) :
    (checkBytes xs e).FaultsIn E L :=
  faultsIn_guard hc fun hx => h (by simpa [someAboveByte, toNats] using hx)

theorem faultsIn_checkCount {n : BitVec 7} (hc : .illegal ∈ E) (h : e.FaultsIn E L) : (checkCount n e).FaultsIn E L := by
  unfold checkCount
  split
  · exact h
  · exact hc

theorem faultsIn_pushEnd (hc : .capacity ∈ E) (i : BufReg) (r : Option BitBuf) : (pushEnd s i r).FaultsIn E L := by
  cases r with
  | none => exact hc
  | some b => trivial

theorem faultsIn_pullEnd (hc : .underflow ∈ E) (i : BufReg) (r : Option (Nat × BitBuf)) :
    (pullEnd s i r).FaultsIn E L := by
  cases r with
  | none => exact hc
  | some r => trivial

theorem faultsIn_storeTable {r : Except FaultCode CodeTable} (h : ∀ c, r = .error c → c ∈ E) (t : Slot) :
    (storeTable s t r).FaultsIn E L := by
  cases r with
  | error c => exact h c rfl
  | ok x => trivial

end

/-! ### The tables (44_huffman_tree R166, R173) -/

theorem makeTable_error {lens : List Nat} {c : FaultCode} (h : makeTable lens = .error c) : c = .capacity ∨ c = .kraft := by
  unfold makeTable at h
  split at h
  · cases h; exact .inl rfl
  · split at h <;> cases h
    exact .inr rfl

/-- HuffBuild's lengths obey Kraft, so a table built from weights fails for want of symbols or for a length above 64. -/
theorem buildTable_error {w : List Nat} {c : FaultCode} (hw : w.length ≤ 258) (h : buildTable w = .error c) :
    c = .degenerate ∨ c = .capacity := by
  cases hlens : huffBuild w with
  | none =>
    cases (buildTable_of_none hlens).symm.trans h
    exact .inl rfl
  | some lens =>
    by_cases hmax : ∀ l ∈ lens, l ≤ 64
    · obtain ⟨x, hok, -⟩ := exists_buildTable hw hlens hmax
      cases hok.symm.trans h
    · rw [buildTable_of_some hlens, makeTable_capacity (by simpa using hmax)] at h
      cases h
      exact .inr rfl

theorem huffBuild_of_buildTable {w : List Nat} {x : CodeTable} (h : buildTable w = .ok x) : huffBuild w = some x.len := by
  cases hlens : huffBuild w with
  | none => cases (buildTable_of_none hlens).symm.trans h
  | some lens =>
    obtain ⟨-, -, rfl⟩ := makeTable_eq_ok ((buildTable_of_some hlens).symm.trans h)
    rfl

theorem two_le_tableSize {t : CodeTable} {x : Nat} (h : 0 < t.lenOf x) : 2 ≤ tableSize t := by
  rcases getD_eq_or_mem t.len x 0 with hzero | hmem
  · exact absurd hzero h.ne'
  · exact (Nat.succ_le_succ h).trans (lt_tableSize hmem)

theorem length_blockFreqs {d : List Nat} {f : Bool} : (blockFreqs d f).length = 258 := by simp [blockFreqs]

theorem getD_blockFreqs {d : List Nat} {f : Bool} {x : Nat} (hx : x < alpha) :
    (blockFreqs d f).getD x 0 = (d ++ [terminator f]).count x := by
  simp [blockFreqs, List.getD_eq_getElem?_getD, hx]

/-! ### canonical_huffman_encoder -/

section
variable {E L : List FaultCode} (hL : .capacity ∈ L)
include hL

theorem faultsIn_appendAndFlush (s : State) (i : BufReg) (o : BitBuf) : (s.appendAndFlush i o).FaultsIn E L := by
  unfold State.appendAndFlush
  dsimp only
  split
  · exact hL
  · trivial

theorem faultsIn_emit (v : Word64) (l : Nat) (s : State) : (emit v l s).FaultsIn E L :=
  faultsIn_appendAndFlush hL _ .b0 _

theorem faultsIn_encodeSyms {c : Slot} {xs : List Nat} {s : State} (hb : s.b0.wf)
    (hx : ∀ x ∈ xs, 0 < (s.getSlot c).lenOf x) : (encodeSyms c xs s).FaultsIn E L := by
  induction xs generalizing s E with
  | nil => trivial
  | cons x xs ih =>
    obtain ⟨hx, hxs⟩ := List.forall_mem_cons.1 hx
    have hsym : (encodeSym c x s).FaultsIn E L := by
      rw [encodeSym_of_coded hx]
      exact faultsIn_emit hL _ _ s
    refine hsym.andThen fun t ht => ?_
    obtain ⟨-, p, ht⟩ := emitted_of_encodeSym hb ht
    exact ih ht.wf (by rwa [ht.getSlot])

/-- With everything on the wire coded, a field that does not fit is the one fault left to the output of a block. -/
theorem faultsIn_encodeBody {s : State} {d : List Nat} {f : Bool} {header : CodeTable} (hb : s.b0.wf)
    (h : BlockCoded s.cfg d f s.ct0 header) : (encodeBody d f s).FaultsIn E L := by
  refine (faultsIn_emit hL _ _ s).andThen fun t ht => ?_
  have ht := emitted_of_emit hb ht
  have hslot : t.ct0 = s.ct0 := ht.getSlot .ct0
  have ht1 := ht.setSlot .ct1 header
  have hheader : headerTable t.cfg (tableSize t.ct0) = .ok header := by rw [ht.cfg, hslot, h.header_eq]
  rw [hheader]
  refine (faultsIn_encodeSyms hL (s := t.setSlot .ct1 header) ht1.wf ?_).andThen fun u hu => ?_
  · rw [State.getSlot_setSlot_self, hslot]
    exact h.lengths_coded
  obtain ⟨-, p, hu⟩ := emitted_of_encodeSyms (s := t.setSlot .ct1 header) ht1.wf ht1.short hu
  refine (faultsIn_encodeSyms hL hu.wf ?_).andThen fun v _ => trivial
  rw [show u.getSlot .ct0 = s.ct0 from (hu.getSlot .ct0).trans hslot]
  exact h.symbols_coded

end

/-- The table built for a block has a code for every symbol of it, and its header table for every length. -/
theorem exists_blockCoded {cfg : Config} {d : List Nat} {f : Bool} {data : CodeTable} (hc : cfg.wf)
    (hbytes : ∀ x ∈ d, x ≤ 255) (h : buildTable (blockFreqs d f) = .ok data) :
    ∃ header, BlockCoded cfg d f data header := by
  have hcanon := buildTable_canonical h
  have hsymbols : ∀ x ∈ d ++ [terminator f], 0 < data.lenOf x := fun x hx => by
    have hlow : x < alpha := by
      rcases List.mem_append.1 hx with hx | hx
      · exact (hbytes x hx).trans_lt (by decide)
      · cases List.mem_singleton.1 hx
        exact terminator_lt f
    refine (lenOf_pos_iff length_blockFreqs.le (huffBuild_of_buildTable h) x).2 ?_
    rw [getD_blockFreqs hlow]
    exact List.count_pos_iff.2 hx
  obtain ⟨header, hheader⟩ :=
    exists_headerTable hc (two_le_tableSize (hsymbols (terminator f) (by simp))) (tableSize_le hcanon.shape)
  have hsize : (hdrWeights cfg (tableSize data)).length ≤ 258 := by
    rw [length_hdrWeights]
    exact (tableSize_le hcanon.shape).trans (by decide)
  exact ⟨header, hcanon, hheader, fun l hl => (lenOf_pos_iff hsize (huffBuild_of_buildTable hheader) l).2
    ((hdrWeights_pos hc).2 (lt_tableSize hl)), hsymbols, hbytes⟩

theorem faultsIn_cheBlock {s : State} (h : s.Launch) (f : Bool) (a b : Word) :
    (cheBlockBody f a b s).FaultsIn (Instr.faultCodes (.cheBlock f a b)) (Instr.lateCodes (.cheBlock f a b)) := by
  refine faultsIn_checkRegion (by simp [Instr.faultCodes]) (faultsIn_checkBytes (by simp [Instr.faultCodes]) fun hbytes => ?_)
  split
  case h_1 c hc =>
    rcases buildTable_error length_blockFreqs.le hc with rfl | rfl <;> simp [CmdEnd.FaultsIn, Instr.faultCodes]
  case h_2 data hdata =>
    obtain ⟨header, hcoded⟩ := exists_blockCoded h.2.cfgOk hbytes hdata
    exact CmdEnd.FaultsIn.andThen trivial fun t ht => by
      cases ht
      exact faultsIn_encodeBody (s := s.setSlot .ct0 data) (List.mem_singleton_self _) (h.2.bufs .b0) hcoded


/-! ### canonical_huffman_decoder -/

/-- What a turn of Run can fault with. -/
def Turn.FaultsIn (E L : List FaultCode) : Turn → Prop
  | .stop _ => True
  | .go e => e.FaultsIn E L

section
variable {E : List FaultCode} {s : State}

theorem faultsIn_startHeader (hc : s.cfg.wf) (v : Nat) : (startHeader v s).FaultsIn E (Instr.lateCodes .chdRun) := by
  by_cases hv : v < 2 ∨ 65 < v
  · rw [startHeader_stream hv]
    exact show .stream ∈ Instr.lateCodes .chdRun by decide
  · rw [not_or, Nat.not_lt, Nat.not_lt] at hv
    obtain ⟨x, hx⟩ := exists_headerTable hc hv.1 hv.2
    rw [startHeader_ok hv.1 hv.2 hx]
    trivial

theorem faultsIn_takeLength (r : Nat) (s : State) : (takeLength r s).FaultsIn E (Instr.lateCodes .chdRun) := by
  unfold takeLength
  dsimp only
  split
  · split
    case h_1 c hc =>
      rcases makeTable_error hc with rfl | rfl
      · exact show .capacity ∈ Instr.lateCodes .chdRun by decide
      · exact show .kraft ∈ Instr.lateCodes .chdRun by decide
    case h_2 => trivial
  · trivial

/-- With room in the output region, which lies in M, the next cell exists (46_huffman_decoder R202, R207). -/
theorem faultsIn_outputSym (h : s.outBase.toNat + s.outCap.toNat ≤ s.cfg.memWords) (v : Nat) :
    (outputSym v s).FaultsIn E (Instr.lateCodes .chdRun) := by
  unfold outputSym
  dsimp only
  split
  case isTrue => exact show .outfull ∈ Instr.lateCodes .chdRun by decide
  case isFalse hroom =>
    rw [if_neg (by omega)]
    trivial

theorem faultsIn_turnOfWalk {w : Walk} {f : Nat → State → CmdEnd} (hw : w.Safe s)
    (hf : ∀ v t, t.Launch → (f v t).FaultsIn E (Instr.lateCodes .chdRun)) :
    (turnOfWalk w f).FaultsIn E (Instr.lateCodes .chdRun) := by
  cases w with
  | symbol v t => exact hf v t hw.1
  | none t => trivial
  | deadEnd t => exact show .tree ∈ Instr.lateCodes .chdRun by decide

theorem faultsIn_runTurn (h : s.Launch) : (runTurn s).FaultsIn E (Instr.lateCodes .chdRun) := by
  unfold runTurn
  split
  · trivial
  · split
    · trivial
    case h_2 v b _ => exact faultsIn_startHeader (s := { s with b2 := b }) h.2.cfgOk v
  · exact faultsIn_turnOfWalk (safe_decodeSym h .ct2 _) fun v t _ => faultsIn_takeLength v t
  · exact faultsIn_turnOfWalk (safe_decodeSym h .ct3 _) fun v t ht =>
      (faultsIn_outputSym (ht.2.outRegion ht.1) v).andThen fun _ _ => trivial

theorem faultsIn_runFuel (h : s.Launch) (k : Nat) : (runFuel k s).FaultsIn E (Instr.lateCodes .chdRun) := by
  induction k generalizing s with
  | zero => trivial
  | succ k ih =>
    have hturn := faultsIn_runTurn (E := E) h
    have hsafe := safe_runTurn h
    unfold runFuel
    split <;> rename_i he <;> rw [he] at hturn hsafe
    · trivial
    · exact ih hsafe
    · exact hturn

theorem faultsIn_chdPush (h : s.Launch) (a : Word) :
    (chdPushBody a s).FaultsIn (Instr.faultCodes (.chdPush a)) (Instr.lateCodes (.chdPush a)) := by
  refine faultsIn_guard (by simp [Instr.faultCodes]) fun _ => ?_
  split
  · trivial
  · split
    case h_1 => simp [CmdEnd.FaultsIn, Instr.faultCodes]
    case h_2 r hpush => exact faultsIn_runFuel (h.setBuf .b2 (BitBuf.wf_of_pushLS (h.2.bufs .b2) hpush)) _

end

/-! ### A command -/

/-- Every command's faults are its own, and it touches no cell that does not exist. -/
theorem faultsIn_bodyOf (i : Instr) {s : State} (h : s.Launch) :
    (bodyOf i s).FaultsIn (Instr.faultCodes i) (Instr.lateCodes i) := by
  have hillegal : .illegal ∈ Instr.faultCodes i := List.mem_cons_self
  cases i with
  | sysNop | bbClr | bbFlush | mtfeRst | mtfdRst | cheRst | chdRst => trivial
  | bbPushl bd n v | bbPushr bd n v =>
    exact faultsIn_checkCount hillegal (faultsIn_pushEnd (by simp [Instr.faultCodes]) bd _)
  | bbPulll bd n | bbPullr bd n =>
    exact faultsIn_checkCount hillegal (faultsIn_pullEnd (by simp [Instr.faultCodes]) bd _)
  | bbAppf bd bs => exact faultsIn_guard hillegal fun _ => faultsIn_appendAndFlush (List.mem_singleton_self _) s bd _
  | saBuild a b c => exact faultsIn_checkSrcDst (by simp [Instr.faultCodes]) (by simp [Instr.faultCodes]) trivial
  | bwtFwd a b c | bwtInv a b c | mtfeRun a b c | mtfdRun a b c =>
    exact faultsIn_checkSrcDst (by simp [Instr.faultCodes]) (by simp [Instr.faultCodes])
      (faultsIn_checkBytes (by simp [Instr.faultCodes]) fun _ => trivial)
  | mtfeDump c | mtfdDump c | htbStore t c | chdSetout b c =>
    exact faultsIn_checkRegion (by simp [Instr.faultCodes]) trivial
  | htbBuild t a b =>
    refine faultsIn_guard (by simp [Instr.faultCodes]) fun hb =>
      faultsIn_checkRegion (by simp [Instr.faultCodes]) (faultsIn_storeTable (fun c hc => ?_) t)
    have hlen : (toNats (s.readRegion a.toNat b.toNat)).length ≤ alpha := by
      simp only [Bool.or_eq_true, decide_eq_true_eq, not_or] at hb
      rw [length_toNats, State.length_readRegion]
      omega
    rcases buildTable_error hlen hc with rfl | rfl <;> simp [Instr.faultCodes]
  | htbPrior t b =>
    refine faultsIn_guard (by simp [Instr.faultCodes]) fun hb => faultsIn_storeTable (fun c hc => ?_) t
    simp only [Bool.or_eq_true, decide_eq_true_eq, not_or, Nat.not_lt] at hb
    obtain ⟨x, hx⟩ := exists_headerTable h.2.cfgOk hb.1 hb.2
    cases hx.symm.trans hc
  | htbCanon t a b =>
    refine faultsIn_guard (by simp [Instr.faultCodes]) fun _ =>
      faultsIn_checkRegion (by simp [Instr.faultCodes]) (faultsIn_storeTable (fun c hc => ?_) t)
    rcases makeTable_error hc with rfl | rfl <;> simp [Instr.faultCodes]
  | cheSym t a =>
    exact faultsIn_guard (by simp [Instr.faultCodes]) fun _ => faultsIn_guard (by simp [Instr.faultCodes]) fun _ =>
      faultsIn_emit (List.mem_singleton_self _) _ _ s
  | cheBlock f a b => exact faultsIn_cheBlock h f a b
  | chdPush a => exact faultsIn_chdPush h a
  | chdRun => exact faultsIn_runFuel h _

/-- A late fault is one of the command's faults. -/
theorem mem_faultCodes_of_mem_lateCodes {i : Instr} {c : FaultCode} (h : c ∈ Instr.lateCodes i) :
    c ∈ Instr.faultCodes i := by
  cases i with
  | bbAppf | cheSym | cheBlock => cases List.mem_singleton.1 h; simp [Instr.faultCodes]
  | chdPush => exact .tail _ (.tail _ h)
  | chdRun => exact .tail _ h
  | _ => cases h

/-- Settles O19: no command's pseudocode touches a cell that does not exist, and every other end is a next state. -/
theorem everyCommandEnds : Obligations.EveryCommandEnds := by
  unfold Obligations.EveryCommandEnds
  intro i s hs
  cases hf : s.faulted with
  | true => exact ⟨s, exec_of_faulted hf i⟩
  | false =>
    have hfaults := faultsIn_bodyOf i ⟨hf, hs⟩
    rw [exec_eq_runCommand]
    cases he : bodyOf i s with
    | done t => exact ⟨t, runCommand_done hf t⟩
    | early c => exact ⟨_, runCommand_early hf c⟩
    | late c t => exact ⟨_, runCommand_late hf c t⟩
    | absent => rw [he] at hfaults; exact hfaults.elim

/-- Settles O18: the pseudocode ends with an early or a late fault of the command, and a late one keeps SINK. -/
theorem faultsAreEarlyOrLate : Obligations.FaultsAreEarlyOrLate := by
  unfold Obligations.FaultsAreEarlyOrLate
  intro i s t hs hf h ht
  have hfaults := faultsIn_bodyOf i ⟨hf, hs⟩
  have hsafe := safe_bodyOf i ⟨hf, hs⟩
  obtain ⟨bs, hsink, -⟩ := exec_sinkGrew h
  rw [exec_eq_runCommand] at h
  rcases runCommand_cases h with ⟨hs', -⟩ | ⟨-, he⟩ | ⟨-, c, he, rfl⟩ | ⟨-, c, u, he, rfl⟩
  · cases hf.symm.trans hs'
  · rw [he] at hsafe
    cases hsafe.1.symm.trans ht
  · rw [he] at hfaults
    exact ⟨c, hfaults, rfl, .inl rfl⟩
  · rw [he] at hfaults hsafe
    exact ⟨c, mem_faultCodes_of_mem_lateCodes hfaults, lateFault_err hsafe.unfaulted c,
      .inr ⟨hfaults, hsink ▸ List.prefix_append _ _⟩⟩

end Sys2Proof.Machine
end

