-- ==== Sys2Proof/Proofs/FaultFrame.lean ====
section
/-! PROOF. What a command that faults leaves of M (60_exceptions R230, 20_memory R69): where its pseudocode raises a late
fault it has delivered cells of the output region alone, and only CHD.PUSH and CHD.RUN have delivered any. -/

namespace Sys2Proof.Machine

section
variable {i : Instr} {s t u : State} {c : FaultCode}

/-- A command with a late fault that is not the decoder's writes no cell of M and names no region. -/
theorem late_output (h : s.Launch) (hi : Instr.writesDecoder i = false) (he : bodyOf i s = .late c u) :
    u.output = s.output := by
  have hfaults := faultsIn_bodyOf i h
  have hframe := framed_bodyOf i s
  rw [he] at hfaults hframe
  have hquiet : Instr.writesCells i = false ∧ Instr.namesOutput i = false := by
    cases i with
    | bbAppf | cheSym | cheBlock => exact ⟨rfl, rfl⟩
    | chdPush | chdRun => cases hi
    | _ => cases hfaults
  obtain ⟨hcells, hnames⟩ := hquiet
  have hstreams := streams_bodyOf hcells s
  rw [he] at hstreams
  have hbase : u.outBase = s.outBase := by simpa [State.erase, hnames] using congrArg (·.outBase) hframe
  have hcap : u.outCap = s.outCap := by simpa [State.erase, hnames] using congrArg (·.outCap) hframe
  have hcnt : u.outCnt = s.outCnt := by simpa [State.erase, hnames, hi] using congrArg (·.outCnt) hframe
  rw [State.output, hstreams.mem, hbase, hcap, hcnt, State.output]

/-- At a late fault the cells written are those that OUT_CNT has counted. -/
theorem late_delivered (h : s.Launch) (he : bodyOf i s = .late c u) : Delivered s u := by
  cases hi : Instr.writesDecoder i with
  | false => exact .of_output (late_output h hi he)
  | true =>
    have hdelivers : (bodyOf i s).Delivers s := by
      cases i with
      | chdRst => cases he
      | chdPush a => exact delivers_chdPush h a
      | chdRun => exact delivers_runFuel h _
      | _ => cases hi
    rw [he] at hdelivers
    exact hdelivers

/-- A late fault leaves the cells outside the output region's free part alone: what it leaves unspecified are the cells
delivered, and OUT_CNT is at most OUT_CAP. -/
theorem lateFault_cellsOutsideKept (h : s.Launch) (he : bodyOf i s = .late c u) :
    CellsOutsideKept s (s.lateFault u c) (s.outBase.toNat + s.outCnt.toNat) (s.outCap.toNat - s.outCnt.toNat) := by
  have hdelivered := (late_delivered h he).cells
  have hsafe := safe_bodyOf i h
  have hkept := hostKept_bodyOf i s
  rw [he] at hsafe hkept
  have hcount : u.outCnt.toNat ≤ s.outCap.toNat := late_outCap he ▸ hsafe.outCount
  have hfree := Memory.wrote_writeRange hsafe.memSorted (s.outBase.toNat + s.outCnt.toNat)
    (s.freeCells (s.outBase.toNat + s.outCnt.toNat) (u.outCnt.toNat - s.outCnt.toNat))
  rw [State.length_freeCells, ← lateFault_mem s u c] at hfree
  have hwrote : s.mem.Wrote (s.lateFault u c).mem (s.outBase.toNat + s.outCnt.toNat)
      (u.outCnt.toNat - s.outCnt.toNat) :=
    ⟨fun a ha => (hfree.outside a ha).trans (hdelivered.outside a ha), hfree.inside⟩
  exact fun a ha => hwrote.cellsOutsideKept ((lateFault_draws s u c).trans hkept.draws) a (by omega)

/-- M is what it was after a late fault that is not the decoder's. -/
theorem lateFault_mem_eq (h : s.Launch) (hi : Instr.writesDecoder i = false) (he : bodyOf i s = .late c u) :
    (s.lateFault u c).mem = s.mem := by
  have hout := late_output h hi he
  simp only [State.output, Prod.mk.injEq] at hout
  obtain ⟨hmem, -, -, hcnt⟩ := hout
  rw [lateFault_mem, hmem, hcnt, Nat.sub_self]
  exact Memory.writeRange_nil _ _ h.2.memSorted

theorem cellsOutsideKept_of_mem (hmem : t.mem = s.mem) (hdraws : t.draws = s.draws) (base k : Nat) :
    CellsOutsideKept s t base k := fun a _ => ⟨State.readCell_congr hmem hdraws a, by rw [hmem]⟩

/-- A command that leaves the block faulted was refused or faulted early, and M is the same, or it faulted late. -/
theorem exec_faulted_cases (hs : s.Inv) (h : exec i s = .next t) (ht : t.faulted = true) :
    t.mem = s.mem ∨ s.Launch ∧ ∃ c u, bodyOf i s = .late c u ∧ t = s.lateFault u c := by
  rw [exec_eq_runCommand] at h
  rcases runCommand_cases h with ⟨-, rfl⟩ | ⟨hf, he⟩ | ⟨-, c, -, rfl⟩ | ⟨hf, c, u, he, rfl⟩
  · exact .inl rfl
  · have hsafe := safe_bodyOf i ⟨hf, hs⟩
    rw [he] at hsafe
    cases hsafe.1.symm.trans ht
  · exact .inl rfl
  · exact .inr ⟨⟨hf, hs⟩, c, u, he, rfl⟩

end

/-- Settles O17: a refusal or an early fault leaves M as it is, and a late one changes delivered cells alone. -/
theorem faultedCommandsKeepOtherCells : Obligations.FaultedCommandsKeepOtherCells := by
  unfold Obligations.FaultedCommandsKeepOtherCells
  intro i s t hs h ht
  obtain ⟨hcfg, hpending, hreplies, hdrained, hdraws⟩ := exec_hostKept h
  refine ⟨?_, fun hi => ?_, hcfg, hpending, hreplies, hdrained, hdraws⟩ <;>
    rcases exec_faulted_cases hs h ht with hmem | ⟨hlaunch, c, u, he, rfl⟩
  · exact cellsOutsideKept_of_mem hmem hdraws _ _
  · exact lateFault_cellsOutsideKept hlaunch he
  · exact hmem
  · exact lateFault_mem_eq hlaunch hi he

end Sys2Proof.Machine
end
